-- ==== Sys2Proof/Word.lean ====
section
/-! DEFINITION. The word types of the CORE of 106-inc/sim2022 (spec/00_scope.md rules R6, R7). -/

namespace Sys2Proof

/-- A `Word`, `RegVal` or `Addr`: a 32-bit unsigned integer (R7, `XLEN` = 32 in R6). -/
abbrev Word := BitVec 32

/-- One byte of memory. -/
abbrev Byte := BitVec 8

/-- A general register index, 5 bits (R31, R150). -/
abbrev RegIdx := BitVec 5

/-- A CSR index, 12 bits, `CSR_COUNT` = 4096 (R6, R40). -/
abbrev CsrIdx := BitVec 12

/-- The rounding-mode field `rm`, 3 bits (R142, R150); nothing reads it (R330). -/
abbrev RmField := BitVec 3

end Sys2Proof
end

