-- ==== Sys2Proof/Machine/Bits.lean ====
section
/-! DEFINITION. BitOps (spec/00_scope.md rules R8, R9, R12 to R15): bit fields, single bits, extension.  Fields are
natural numbers, so that concatenation is the sum of R9. -/

namespace Sys2Proof

/-- The field `w[hi:lo]` as a number: `(w >> lo) mod 2^(hi-lo+1)` (R8). -/
def bits (w : Word) (hi lo : Nat) : Nat := w.toNat / 2 ^ lo % 2 ^ (hi - lo + 1)

/-- BitOps `getBits`: bits [high:low] right-justified, as a Word (R13). -/
def getBits (w : Word) (high low : Nat) : Word := BitVec.ofNat 32 (bits w high low)

/-- BitOps `setBit`: `w` with bit `pos` forced to `v` (R14). -/
def setBit (w : Word) (pos : Nat) (v : Bool) : Word :=
  if v then w ||| BitVec.ofNat 32 (2 ^ pos) else w &&& ~~~ BitVec.ofNat 32 (2 ^ pos)

/-- The two's-complement extension of the low `old` bits of the number `f` to `new` bits (R12, R15). -/
def sext (f old new : Nat) : Nat :=
  if f % 2 ^ old < 2 ^ (old - 1) then f % 2 ^ old else f % 2 ^ old + (2 ^ new - 2 ^ old)

/-- BitOps `signExtend` (R15); the bits above `new` are zero (decision D34). -/
def signExtend (w : Word) (old new : Nat) : Word := BitVec.ofNat 32 (sext w.toNat old new)

/-- `sext_32` of a `width`-bit field given as a number (R12). -/
def sextField (f width : Nat) : Word := BitVec.ofNat 32 (sext f width 32)

/-- A register field as a register index. -/
def regField (w : Word) (lo : Nat) : RegIdx := BitVec.ofNat 5 (bits w (lo + 4) lo)

end Sys2Proof
end

