-- ==== Sys2Proof/Syntax.lean ====
section
/-! DEFINITION. The instruction set as syntax: the closed enumeration of operation kinds (R160), one
constructor of `Instr` per row of spec/opcode_table.json carrying the fields of the `Instruction` record
that its format populates (R150), and the decoder's result. -/

namespace Sys2Proof

/-- `OpType`, the closed set of 64 operation kinds of R160: 54 implemented, 9 class kinds, `unknown`. -/
inductive OpType where
  | lui | auipc | jal | jalr | beq | bne | blt | bge
  | bltu | bgeu | lb | lh | lw | lbu | lhu | sb
  | sh | sw | addi | slti | sltiu | xori | ori | andi
  | slli | srli | srai | add | sub | sll | slt | sltu
  | xor | srl | sra | or | and | fence | ecall | ebreak
  | csrrw | csrrs | csrrc | csrrwi | csrrsi | csrrci | mul | mulh
  | mulhsu | mulhu | div | divu | rem | remu | fpLoad | fpStore
  | fpMadd | fpMsub | fpNmsub | fpNmadd | fpOp | amo | compressed | unknown
  deriving DecidableEq, Repr

/-- One constructor per row of spec/opcode_table.json.  Register fields are 5 bits, `imm` is the 32-bit value
the decoder stores (R150 to R157), `csr` 12 bits.  FENCE records no field (R292).  The eight extension class
kinds and the three COMPRESSED rows carry rd, rs1, rs2, rs3 and rm (R150, R171). -/
inductive Instr where
  -- R-type, register-register (R210 to R219)
  | add (rd rs1 rs2 : RegIdx)
  | sub (rd rs1 rs2 : RegIdx)
  | sll (rd rs1 rs2 : RegIdx)
  | slt (rd rs1 rs2 : RegIdx)
  | sltu (rd rs1 rs2 : RegIdx)
  | xor (rd rs1 rs2 : RegIdx)
  | srl (rd rs1 rs2 : RegIdx)
  | sra (rd rs1 rs2 : RegIdx)
  | or (rd rs1 rs2 : RegIdx)
  | and (rd rs1 rs2 : RegIdx)
  -- R-type, multiply and divide (R311 to R318)
  | mul (rd rs1 rs2 : RegIdx)
  | mulh (rd rs1 rs2 : RegIdx)
  | mulhsu (rd rs1 rs2 : RegIdx)
  | mulhu (rd rs1 rs2 : RegIdx)
  | div (rd rs1 rs2 : RegIdx)
  | divu (rd rs1 rs2 : RegIdx)
  | rem (rd rs1 rs2 : RegIdx)
  | remu (rd rs1 rs2 : RegIdx)
  -- I-type, register-immediate (R230 to R235)
  | addi (rd rs1 : RegIdx) (imm : Word)
  | slti (rd rs1 : RegIdx) (imm : Word)
  | sltiu (rd rs1 : RegIdx) (imm : Word)
  | xori (rd rs1 : RegIdx) (imm : Word)
  | ori (rd rs1 : RegIdx) (imm : Word)
  | andi (rd rs1 : RegIdx) (imm : Word)
  -- I-type, shift-immediate (R236 to R238)
  | slli (rd rs1 : RegIdx) (imm : Word)
  | srli (rd rs1 : RegIdx) (imm : Word)
  | srai (rd rs1 : RegIdx) (imm : Word)
  -- U-type (R239, R240)
  | lui (rd : RegIdx) (imm : Word)
  | auipc (rd : RegIdx) (imm : Word)
  -- J-type (R277)
  | jal (rd : RegIdx) (imm : Word)
  -- I-type (R279)
  | jalr (rd rs1 : RegIdx) (imm : Word)
  -- I-type, loads (R251 to R255)
  | lb (rd rs1 : RegIdx) (imm : Word)
  | lh (rd rs1 : RegIdx) (imm : Word)
  | lw (rd rs1 : RegIdx) (imm : Word)
  | lbu (rd rs1 : RegIdx) (imm : Word)
  | lhu (rd rs1 : RegIdx) (imm : Word)
  -- S-type, stores (R256 to R258)
  | sb (rs1 rs2 : RegIdx) (imm : Word)
  | sh (rs1 rs2 : RegIdx) (imm : Word)
  | sw (rs1 rs2 : RegIdx) (imm : Word)
  -- B-type, conditional branches (R271 to R276)
  | beq (rs1 rs2 : RegIdx) (imm : Word)
  | bne (rs1 rs2 : RegIdx) (imm : Word)
  | blt (rs1 rs2 : RegIdx) (imm : Word)
  | bge (rs1 rs2 : RegIdx) (imm : Word)
  | bltu (rs1 rs2 : RegIdx) (imm : Word)
  | bgeu (rs1 rs2 : RegIdx) (imm : Word)
  -- system and fence (R290 to R292)
  | fence
  | ecall
  | ebreak
  -- CSR register forms (R295 to R297)
  | csrrw (rd : RegIdx) (csr : CsrIdx) (rs1 : RegIdx)
  | csrrs (rd : RegIdx) (csr : CsrIdx) (rs1 : RegIdx)
  | csrrc (rd : RegIdx) (csr : CsrIdx) (rs1 : RegIdx)
  -- CSR immediate forms (R298 to R300)
  | csrrwi (rd : RegIdx) (csr : CsrIdx) (imm : Word)
  | csrrsi (rd : RegIdx) (csr : CsrIdx) (imm : Word)
  | csrrci (rd : RegIdx) (csr : CsrIdx) (imm : Word)
  -- recognised, unimplemented classes (R330, R332, R333); COMPRESSED has one row per value of w[1:0]
  | fpLoad (rd rs1 rs2 rs3 : RegIdx) (rm : RmField)
  | fpStore (rd rs1 rs2 rs3 : RegIdx) (rm : RmField)
  | fpMadd (rd rs1 rs2 rs3 : RegIdx) (rm : RmField)
  | fpMsub (rd rs1 rs2 rs3 : RegIdx) (rm : RmField)
  | fpNmsub (rd rs1 rs2 rs3 : RegIdx) (rm : RmField)
  | fpNmadd (rd rs1 rs2 rs3 : RegIdx) (rm : RmField)
  | fpOp (rd rs1 rs2 rs3 : RegIdx) (rm : RmField)
  | amo (rd rs1 rs2 rs3 : RegIdx) (rm : RmField)
  | compressed00 (rd rs1 rs2 rs3 : RegIdx) (rm : RmField)
  | compressed01 (rd rs1 rs2 rs3 : RegIdx) (rm : RmField)
  | compressed10 (rd rs1 rs2 rs3 : RegIdx) (rm : RmField)
  deriving DecidableEq, Repr

/-- What the decoder answers for a word: an instruction of the table, or the sentinel record `UNKNOWN`, whose
fields are all 0 and which keeps no reference to the word (R150, R159, R172). -/
inductive Decoded where
  | instr (i : Instr)
  | unknown
  deriving DecidableEq, Repr

/-- The `Instruction` record of R150, field by field. -/
structure Record where
  opType   : OpType
  rd       : RegIdx
  rs1      : RegIdx
  rs2      : RegIdx
  rs3      : RegIdx
  rm       : RmField
  csr      : CsrIdx
  imm      : Word
  isBranch : Bool
  deriving DecidableEq, Repr

/-- Why a sequence of bytes is not an instruction: fewer than four bytes, or a word that is `UNKNOWN`. -/
inductive DecodeReject where
  | truncated
  | unknownWord
  deriving DecidableEq, Repr

end Sys2Proof
end

