-- ==== Sys2Proof/Config.lean ====
section
/-! DEFINITION. The OPEN parameters of spec/00_scope.md rule R6 and the launch values the model names. -/

namespace Sys2Proof

/-- The two behaviours the OPEN parameter `DIV_OVERFLOW` ranges over (R6, R319). -/
inductive DivOverflow where
  | value
  | fault
  deriving DecidableEq, Repr, Inhabited

/-- The OPEN parameters that a launch fixes for the whole run (R6).  They stand in `State` so that every statement
about all states is a statement about every value of them; no step changes them. -/
structure Params where
  /-- `TLB_BITS`, meant to be 1 .. 20; the TLB has 2^tlbBits slots (R53). -/
  tlbBits     : Nat
  /-- `M_FULL`: whether MULH, MULHSU, MULHU, DIVU, REM, REMU exist (R310). -/
  mFull       : Bool
  /-- `DIV_OVERFLOW` (R319). -/
  divOverflow : DivOverflow
  deriving DecidableEq, Repr

/-- The constraint R6 puts on the parameters: 1 <= TLB_BITS <= 20. -/
abbrev Params.wf (p : Params) : Prop := 1 ≤ p.tlbBits ∧ p.tlbBits ≤ 20

/-- `COST`, the OPEN per-kind cost table of R200 to R202: a function of the kind alone, with no value any proof can
see (log entry 4). -/
opaque Config.cost : OpType → Nat

/-- `DIV_OVERFLOW` at reset: left open, with no value any proof can see (log entry 3). -/
opaque Config.divOverflow : DivOverflow

/-- The parameters `State.reset` is launched with.  `mFull` is the spec's default (R6, log entry 1); `tlbBits` = 4 is a
DESIGN CHOICE that only `hits`, `misses` and the TLB content can show (log entry 2). -/
def Config.params : Params := { tlbBits := 4, mFull := true, divOverflow := Config.divOverflow }

/-- `ENTRY` of `State.reset`: a launch argument, 0 by DESIGN CHOICE (log entry 5). -/
def Config.entry : Word := 0#32

end Sys2Proof
end

