-- ==== Sys2Proof/WellFormed.lean ====
section
/-! DEFINITION. Which instructions a 32-bit word can encode: the ranges of the immediates (spec/30_encoding.md rules
R151 to R157) and the presence of the six kinds of `M_FULL` (R162, R310). -/

namespace Sys2Proof

/-- `imm` is the sign extension of a `width`-bit field. -/
def fitsSigned (width : Nat) (imm : Word) : Bool :=
  decide (imm.toNat < 2 ^ (width - 1)) || decide (2 ^ 32 - 2 ^ (width - 1) ≤ imm.toNat)

/-- I-type and S-type immediates (R151, R152): -2048 .. 2047. -/
def immI (imm : Word) : Bool := fitsSigned 12 imm

/-- B-type immediates (R153): -4096 .. 4094, even. -/
def immB (imm : Word) : Bool := fitsSigned 13 imm && decide (imm.toNat % 2 = 0)

/-- J-type immediates (R155): -1048576 .. 1048574, even. -/
def immJ (imm : Word) : Bool := fitsSigned 21 imm && decide (imm.toNat % 2 = 0)

/-- U-type immediates (R154): bits [11:0] are zero. -/
def immU (imm : Word) : Bool := decide (imm.toNat % 2 ^ 12 = 0)

/-- Shift amounts and CSR immediates (R156, R157): 0 .. 31. -/
def imm5 (imm : Word) : Bool := decide (imm.toNat < 32)

/-- The instructions some word encodes under the parameter `M_FULL`. -/
def WellFormed (mFull : Bool) (i : Instr) : Bool :=
  match i with
  | .add _ _ _ => true
  | .sub _ _ _ => true
  | .sll _ _ _ => true
  | .slt _ _ _ => true
  | .sltu _ _ _ => true
  | .xor _ _ _ => true
  | .srl _ _ _ => true
  | .sra _ _ _ => true
  | .or _ _ _ => true
  | .and _ _ _ => true
  | .mul _ _ _ => true
  | .div _ _ _ => true
  | .mulh _ _ _ => mFull
  | .mulhsu _ _ _ => mFull
  | .mulhu _ _ _ => mFull
  | .divu _ _ _ => mFull
  | .rem _ _ _ => mFull
  | .remu _ _ _ => mFull
  | .addi _ _ imm => immI imm
  | .slti _ _ imm => immI imm
  | .sltiu _ _ imm => immI imm
  | .xori _ _ imm => immI imm
  | .ori _ _ imm => immI imm
  | .andi _ _ imm => immI imm
  | .jalr _ _ imm => immI imm
  | .lb _ _ imm => immI imm
  | .lh _ _ imm => immI imm
  | .lw _ _ imm => immI imm
  | .lbu _ _ imm => immI imm
  | .lhu _ _ imm => immI imm
  | .slli _ _ imm => imm5 imm
  | .srli _ _ imm => imm5 imm
  | .srai _ _ imm => imm5 imm
  | .lui _ imm => immU imm
  | .auipc _ imm => immU imm
  | .jal _ imm => immJ imm
  | .sb _ _ imm => immI imm
  | .sh _ _ imm => immI imm
  | .sw _ _ imm => immI imm
  | .beq _ _ imm => immB imm
  | .bne _ _ imm => immB imm
  | .blt _ _ imm => immB imm
  | .bge _ _ imm => immB imm
  | .bltu _ _ imm => immB imm
  | .bgeu _ _ imm => immB imm
  | .fence => true
  | .ecall => true
  | .ebreak => true
  | .csrrw _ _ _ => true
  | .csrrs _ _ _ => true
  | .csrrc _ _ _ => true
  | .csrrwi _ _ imm => imm5 imm
  | .csrrsi _ _ imm => imm5 imm
  | .csrrci _ _ imm => imm5 imm
  | .fpLoad _ _ _ _ _ => true
  | .fpStore _ _ _ _ _ => true
  | .fpMadd _ _ _ _ _ => true
  | .fpMsub _ _ _ _ _ => true
  | .fpNmsub _ _ _ _ _ => true
  | .fpNmadd _ _ _ _ _ => true
  | .fpOp _ _ _ _ _ => true
  | .amo _ _ _ _ _ => true
  | .compressed00 _ _ _ _ _ => true
  | .compressed01 _ _ _ _ _ => true
  | .compressed10 _ _ _ _ _ => true

end Sys2Proof
end

