-- ==== Sys2Proof/Decode.lean ====
section
/-! DEFINITION. The decoder of spec/30_encoding.md rules R140 to R172, total on words and on bytes; the `Instruction`
record it stands for (R150, R158); and the encoder, written from the same formats. -/

namespace Sys2Proof

/-! ### Operand fields (R141, R142) and immediates (R151 to R157) of a word -/

/-- `rd`, bits [11:7]. -/
def rdOf (w : Word) : RegIdx := regField w 7

/-- `rs1`, bits [19:15]. -/
def rs1Of (w : Word) : RegIdx := regField w 15

/-- `rs2`, bits [24:20]. -/
def rs2Of (w : Word) : RegIdx := regField w 20

/-- `rs3`, bits [31:27]. -/
def rs3Of (w : Word) : RegIdx := regField w 27

/-- `rm`, bits [14:12]. -/
def rmOf (w : Word) : RmField := BitVec.ofNat 3 (bits w 14 12)

/-- `csr`, bits [31:20]. -/
def csrOf (w : Word) : CsrIdx := BitVec.ofNat 12 (bits w 31 20)

/-- I-type immediate: `sext_32(w[31:20])` (R151). -/
def immIOf (w : Word) : Word := sextField (bits w 31 20) 12

/-- S-type immediate: `sext_32(w[31:25] ‖ w[11:7])` (R152). -/
def immSOf (w : Word) : Word := sextField (2 ^ 5 * bits w 31 25 + bits w 11 7) 12

/-- B-type immediate: `sext_32(w[31] ‖ w[7] ‖ w[30:25] ‖ w[11:8] ‖ 0)` (R153). -/
def immBOf (w : Word) : Word :=
  sextField (2 ^ 12 * bits w 31 31 + 2 ^ 11 * bits w 7 7 + 2 ^ 5 * bits w 30 25 + 2 * bits w 11 8) 13

/-- U-type immediate: `w[31:12] ‖ 0^12`, shifted here and nowhere else (R154). -/
def immUOf (w : Word) : Word := BitVec.ofNat 32 (2 ^ 12 * bits w 31 12)

/-- J-type immediate: `sext_32(w[31] ‖ w[19:12] ‖ w[20] ‖ w[30:21] ‖ 0)` (R155). -/
def immJOf (w : Word) : Word :=
  sextField (2 ^ 20 * bits w 31 31 + 2 ^ 12 * bits w 19 12 + 2 ^ 11 * bits w 20 20 + 2 * bits w 30 21) 21

/-- Shift amount: `zext_32(w[24:20])` (R157). -/
def shamtOf (w : Word) : Word := BitVec.ofNat 32 (bits w 24 20)

/-- CSR immediate: `zext_32(w[19:15])` (R156). -/
def uimmOf (w : Word) : Word := BitVec.ofNat 32 (bits w 19 15)

/-! ### The decoder (R159, R161) -/

/-- OP, opcode 0110011: selected by funct7, then funct3 (R162). -/
def decodeOp (mFull : Bool) (w : Word) : Decoded :=
  match bits w 31 25, bits w 14 12 with
  | 0b0000000, 0b000 => .instr (.add (rdOf w) (rs1Of w) (rs2Of w))
  | 0b0000000, 0b001 => .instr (.sll (rdOf w) (rs1Of w) (rs2Of w))
  | 0b0000000, 0b010 => .instr (.slt (rdOf w) (rs1Of w) (rs2Of w))
  | 0b0000000, 0b011 => .instr (.sltu (rdOf w) (rs1Of w) (rs2Of w))
  | 0b0000000, 0b100 => .instr (.xor (rdOf w) (rs1Of w) (rs2Of w))
  | 0b0000000, 0b101 => .instr (.srl (rdOf w) (rs1Of w) (rs2Of w))
  | 0b0000000, 0b110 => .instr (.or (rdOf w) (rs1Of w) (rs2Of w))
  | 0b0000000, 0b111 => .instr (.and (rdOf w) (rs1Of w) (rs2Of w))
  | 0b0100000, 0b000 => .instr (.sub (rdOf w) (rs1Of w) (rs2Of w))
  | 0b0100000, 0b101 => .instr (.sra (rdOf w) (rs1Of w) (rs2Of w))
  | 0b0000001, 0b000 => .instr (.mul (rdOf w) (rs1Of w) (rs2Of w))
  | 0b0000001, 0b001 => if mFull then .instr (.mulh (rdOf w) (rs1Of w) (rs2Of w)) else .unknown
  | 0b0000001, 0b010 => if mFull then .instr (.mulhsu (rdOf w) (rs1Of w) (rs2Of w)) else .unknown
  | 0b0000001, 0b011 => if mFull then .instr (.mulhu (rdOf w) (rs1Of w) (rs2Of w)) else .unknown
  | 0b0000001, 0b100 => .instr (.div (rdOf w) (rs1Of w) (rs2Of w))
  | 0b0000001, 0b101 => if mFull then .instr (.divu (rdOf w) (rs1Of w) (rs2Of w)) else .unknown
  | 0b0000001, 0b110 => if mFull then .instr (.rem (rdOf w) (rs1Of w) (rs2Of w)) else .unknown
  | 0b0000001, 0b111 => if mFull then .instr (.remu (rdOf w) (rs1Of w) (rs2Of w)) else .unknown
  | _, _ => .unknown

/-- OP-IMM, opcode 0010011: selected by funct3, and for the shifts also by bits [31:25] (R157, R163). -/
def decodeOpImm (w : Word) : Decoded :=
  match bits w 14 12 with
  | 0b000 => .instr (.addi (rdOf w) (rs1Of w) (immIOf w))
  | 0b010 => .instr (.slti (rdOf w) (rs1Of w) (immIOf w))
  | 0b011 => .instr (.sltiu (rdOf w) (rs1Of w) (immIOf w))
  | 0b100 => .instr (.xori (rdOf w) (rs1Of w) (immIOf w))
  | 0b110 => .instr (.ori (rdOf w) (rs1Of w) (immIOf w))
  | 0b111 => .instr (.andi (rdOf w) (rs1Of w) (immIOf w))
  | 0b001 =>
    match bits w 31 25 with
    | 0b0000000 => .instr (.slli (rdOf w) (rs1Of w) (shamtOf w))
    | _ => .unknown
  | 0b101 =>
    match bits w 31 25 with
    | 0b0000000 => .instr (.srli (rdOf w) (rs1Of w) (shamtOf w))
    | 0b0100000 => .instr (.srai (rdOf w) (rs1Of w) (shamtOf w))
    | _ => .unknown
  | _ => .unknown

/-- LOAD, opcode 0000011: selected by funct3 (R164). -/
def decodeLoad (w : Word) : Decoded :=
  match bits w 14 12 with
  | 0b000 => .instr (.lb (rdOf w) (rs1Of w) (immIOf w))
  | 0b001 => .instr (.lh (rdOf w) (rs1Of w) (immIOf w))
  | 0b010 => .instr (.lw (rdOf w) (rs1Of w) (immIOf w))
  | 0b100 => .instr (.lbu (rdOf w) (rs1Of w) (immIOf w))
  | 0b101 => .instr (.lhu (rdOf w) (rs1Of w) (immIOf w))
  | _ => .unknown

/-- STORE, opcode 0100011: selected by funct3 (R165). -/
def decodeStore (w : Word) : Decoded :=
  match bits w 14 12 with
  | 0b000 => .instr (.sb (rs1Of w) (rs2Of w) (immSOf w))
  | 0b001 => .instr (.sh (rs1Of w) (rs2Of w) (immSOf w))
  | 0b010 => .instr (.sw (rs1Of w) (rs2Of w) (immSOf w))
  | _ => .unknown

/-- BRANCH, opcode 1100011: selected by funct3 (R166). -/
def decodeBranch (w : Word) : Decoded :=
  match bits w 14 12 with
  | 0b000 => .instr (.beq (rs1Of w) (rs2Of w) (immBOf w))
  | 0b001 => .instr (.bne (rs1Of w) (rs2Of w) (immBOf w))
  | 0b100 => .instr (.blt (rs1Of w) (rs2Of w) (immBOf w))
  | 0b101 => .instr (.bge (rs1Of w) (rs2Of w) (immBOf w))
  | 0b110 => .instr (.bltu (rs1Of w) (rs2Of w) (immBOf w))
  | 0b111 => .instr (.bgeu (rs1Of w) (rs2Of w) (immBOf w))
  | _ => .unknown

/-- JALR, opcode 1100111: funct3 must be 000 (R167). -/
def decodeJalr (w : Word) : Decoded :=
  match bits w 14 12 with
  | 0b000 => .instr (.jalr (rdOf w) (rs1Of w) (immIOf w))
  | _ => .unknown

/-- MISC-MEM, opcode 0001111: funct3 000 is FENCE whatever the other bits (R168). -/
def decodeMiscMem (w : Word) : Decoded :=
  match bits w 14 12 with
  | 0b000 => .instr .fence
  | _ => .unknown

/-- SYSTEM, opcode 1110011: with funct3 000 the whole word is compared (R169, R170). -/
def decodeSystem (w : Word) : Decoded :=
  match bits w 14 12 with
  | 0b000 =>
    if w = 0x00000073#32 then .instr .ecall
    else if w = 0x00100073#32 then .instr .ebreak
    else .unknown
  | 0b001 => .instr (.csrrw (rdOf w) (csrOf w) (rs1Of w))
  | 0b010 => .instr (.csrrs (rdOf w) (csrOf w) (rs1Of w))
  | 0b011 => .instr (.csrrc (rdOf w) (csrOf w) (rs1Of w))
  | 0b101 => .instr (.csrrwi (rdOf w) (csrOf w) (uimmOf w))
  | 0b110 => .instr (.csrrsi (rdOf w) (csrOf w) (uimmOf w))
  | 0b111 => .instr (.csrrci (rdOf w) (csrOf w) (uimmOf w))
  | _ => .unknown

/-- The record of an extension class word: rd, rs1, rs2, rs3, rm from their slots, no other field examined (R150,
R171). -/
def classRecord (mk : RegIdx → RegIdx → RegIdx → RegIdx → RmField → Instr) (w : Word) : Decoded :=
  .instr (mk (rdOf w) (rs1Of w) (rs2Of w) (rs3Of w) (rmOf w))

/-- Words with w[1:0] = 11, selected on w[6:0] (R161, R171, R172). -/
def decodeMajor (mFull : Bool) (w : Word) : Decoded :=
  match bits w 6 0 with
  | 0b0000011 => decodeLoad w
  | 0b0000111 => classRecord .fpLoad w
  | 0b0001111 => decodeMiscMem w
  | 0b0010011 => decodeOpImm w
  | 0b0010111 => .instr (.auipc (rdOf w) (immUOf w))
  | 0b0100011 => decodeStore w
  | 0b0100111 => classRecord .fpStore w
  | 0b0101111 => classRecord .amo w
  | 0b0110011 => decodeOp mFull w
  | 0b0110111 => .instr (.lui (rdOf w) (immUOf w))
  | 0b1000011 => classRecord .fpMadd w
  | 0b1000111 => classRecord .fpMsub w
  | 0b1001011 => classRecord .fpNmsub w
  | 0b1001111 => classRecord .fpNmadd w
  | 0b1010011 => classRecord .fpOp w
  | 0b1100011 => decodeBranch w
  | 0b1100111 => decodeJalr w
  | 0b1101111 => .instr (.jal (rdOf w) (immJOf w))
  | 0b1110011 => decodeSystem w
  | _ => .unknown

/-- `decode(word)`, pure and total (R159): w[1:0] other than 11 is COMPRESSED, else the major opcode selects. -/
def decode (mFull : Bool) (w : Word) : Decoded :=
  match bits w 1 0 with
  | 0b00 => classRecord .compressed00 w
  | 0b01 => classRecord .compressed01 w
  | 0b10 => classRecord .compressed10 w
  | _ => decodeMajor mFull w

/-! ### Bytes: an instruction word is four bytes, the lowest address least significant (R96, R140) -/

/-- The word of four bytes, the first at the lowest address (R96). -/
def wordOfBytes (b0 b1 b2 b3 : Byte) : Word :=
  BitVec.ofNat 32 (b0.toNat + 2 ^ 8 * b1.toNat + 2 ^ 16 * b2.toNat + 2 ^ 24 * b3.toNat)

/-- The four bytes of a word, the lowest address first (R96). -/
def bytesOfWord (w : Word) : List Byte :=
  [BitVec.ofNat 8 (bits w 7 0), BitVec.ofNat 8 (bits w 15 8), BitVec.ofNat 8 (bits w 23 16), BitVec.ofNat 8 (bits w 31 24)]

/-- Decoding any bytes: the first instruction and the bytes after it, or a rejection by name. -/
def decodeBytes (mFull : Bool) (bs : List Byte) : Except DecodeReject (Instr × List Byte) :=
  match bs with
  | b0 :: b1 :: b2 :: b3 :: rest =>
    match decode mFull (wordOfBytes b0 b1 b2 b3) with
    | .instr i => .ok (i, rest)
    | .unknown => .error .unknownWord
  | _ => .error .truncated

/-- The instruction the decoder reads from a row of spec/opcode_table.json whose `nbits` bits are `w`, under the
spec's default `M_FULL` = true (log entry 1). -/
def decodeTableWord (nbits w : Nat) : Option Instr :=
  match decodeBytes Config.params.mFull (bytesOfWord (BitVec.ofNat 32 (w % 2 ^ nbits))) with
  | .ok (i, _) => some i
  | .error _ => none

/-! ### The record of an instruction (R150, R158, R160) -/

/-- The operation kind of an instruction (R160); the three COMPRESSED rows are one kind. -/
def Instr.opType : Instr → OpType
  | .add _ _ _ => .add
  | .sub _ _ _ => .sub
  | .sll _ _ _ => .sll
  | .slt _ _ _ => .slt
  | .sltu _ _ _ => .sltu
  | .xor _ _ _ => .xor
  | .srl _ _ _ => .srl
  | .sra _ _ _ => .sra
  | .or _ _ _ => .or
  | .and _ _ _ => .and
  | .mul _ _ _ => .mul
  | .mulh _ _ _ => .mulh
  | .mulhsu _ _ _ => .mulhsu
  | .mulhu _ _ _ => .mulhu
  | .div _ _ _ => .div
  | .divu _ _ _ => .divu
  | .rem _ _ _ => .rem
  | .remu _ _ _ => .remu
  | .addi _ _ _ => .addi
  | .slti _ _ _ => .slti
  | .sltiu _ _ _ => .sltiu
  | .xori _ _ _ => .xori
  | .ori _ _ _ => .ori
  | .andi _ _ _ => .andi
  | .slli _ _ _ => .slli
  | .srli _ _ _ => .srli
  | .srai _ _ _ => .srai
  | .jalr _ _ _ => .jalr
  | .lb _ _ _ => .lb
  | .lh _ _ _ => .lh
  | .lw _ _ _ => .lw
  | .lbu _ _ _ => .lbu
  | .lhu _ _ _ => .lhu
  | .sb _ _ _ => .sb
  | .sh _ _ _ => .sh
  | .sw _ _ _ => .sw
  | .beq _ _ _ => .beq
  | .bne _ _ _ => .bne
  | .blt _ _ _ => .blt
  | .bge _ _ _ => .bge
  | .bltu _ _ _ => .bltu
  | .bgeu _ _ _ => .bgeu
  | .csrrw _ _ _ => .csrrw
  | .csrrs _ _ _ => .csrrs
  | .csrrc _ _ _ => .csrrc
  | .csrrwi _ _ _ => .csrrwi
  | .csrrsi _ _ _ => .csrrsi
  | .csrrci _ _ _ => .csrrci
  | .lui _ _ => .lui
  | .auipc _ _ => .auipc
  | .jal _ _ => .jal
  | .fence => .fence
  | .ecall => .ecall
  | .ebreak => .ebreak
  | .fpLoad _ _ _ _ _ => .fpLoad
  | .fpStore _ _ _ _ _ => .fpStore
  | .fpMadd _ _ _ _ _ => .fpMadd
  | .fpMsub _ _ _ _ _ => .fpMsub
  | .fpNmsub _ _ _ _ _ => .fpNmsub
  | .fpNmadd _ _ _ _ _ => .fpNmadd
  | .fpOp _ _ _ _ _ => .fpOp
  | .amo _ _ _ _ _ => .amo
  | .compressed00 _ _ _ _ _ => .compressed
  | .compressed01 _ _ _ _ _ => .compressed
  | .compressed10 _ _ _ _ _ => .compressed

/-- `isBranch` of a kind: the ten kinds that end a basic block (R158). -/
def OpType.isBranch : OpType → Bool
  | .beq | .bne | .blt | .bge | .bltu | .bgeu | .jal | .jalr | .ecall | .ebreak => true
  | _ => false

/-- The operation kind of what the decoder answers. -/
def Decoded.opType : Decoded → OpType
  | .instr i => i.opType
  | .unknown => .unknown

/-- `isBranch` of what the decoder answers (R158, R172). -/
def Decoded.isBranch (d : Decoded) : Bool := d.opType.isBranch

/-- A record of kind `k` with the fields given; a field its format lacks is 0 (R150, decision D35). -/
def recordOf (k : OpType) (rd : RegIdx := 0) (rs1 : RegIdx := 0) (rs2 : RegIdx := 0) (imm : Word := 0)
    (csr : CsrIdx := 0) (rs3 : RegIdx := 0) (rm : RmField := 0) : Record :=
  { opType := k, rd := rd, rs1 := rs1, rs2 := rs2, rs3 := rs3, rm := rm, csr := csr, imm := imm, isBranch := k.isBranch }

/-- The `Instruction` record of an instruction (R150); the `imm` of the CSR register forms is the CSR index again
(R156). -/
def Instr.record (i : Instr) : Record :=
  match i with
  | .add rd rs1 rs2 => recordOf .add rd rs1 rs2
  | .sub rd rs1 rs2 => recordOf .sub rd rs1 rs2
  | .sll rd rs1 rs2 => recordOf .sll rd rs1 rs2
  | .slt rd rs1 rs2 => recordOf .slt rd rs1 rs2
  | .sltu rd rs1 rs2 => recordOf .sltu rd rs1 rs2
  | .xor rd rs1 rs2 => recordOf .xor rd rs1 rs2
  | .srl rd rs1 rs2 => recordOf .srl rd rs1 rs2
  | .sra rd rs1 rs2 => recordOf .sra rd rs1 rs2
  | .or rd rs1 rs2 => recordOf .or rd rs1 rs2
  | .and rd rs1 rs2 => recordOf .and rd rs1 rs2
  | .mul rd rs1 rs2 => recordOf .mul rd rs1 rs2
  | .mulh rd rs1 rs2 => recordOf .mulh rd rs1 rs2
  | .mulhsu rd rs1 rs2 => recordOf .mulhsu rd rs1 rs2
  | .mulhu rd rs1 rs2 => recordOf .mulhu rd rs1 rs2
  | .div rd rs1 rs2 => recordOf .div rd rs1 rs2
  | .divu rd rs1 rs2 => recordOf .divu rd rs1 rs2
  | .rem rd rs1 rs2 => recordOf .rem rd rs1 rs2
  | .remu rd rs1 rs2 => recordOf .remu rd rs1 rs2
  | .addi rd rs1 imm => recordOf .addi rd rs1 0 imm
  | .slti rd rs1 imm => recordOf .slti rd rs1 0 imm
  | .sltiu rd rs1 imm => recordOf .sltiu rd rs1 0 imm
  | .xori rd rs1 imm => recordOf .xori rd rs1 0 imm
  | .ori rd rs1 imm => recordOf .ori rd rs1 0 imm
  | .andi rd rs1 imm => recordOf .andi rd rs1 0 imm
  | .slli rd rs1 imm => recordOf .slli rd rs1 0 imm
  | .srli rd rs1 imm => recordOf .srli rd rs1 0 imm
  | .srai rd rs1 imm => recordOf .srai rd rs1 0 imm
  | .jalr rd rs1 imm => recordOf .jalr rd rs1 0 imm
  | .lb rd rs1 imm => recordOf .lb rd rs1 0 imm
  | .lh rd rs1 imm => recordOf .lh rd rs1 0 imm
  | .lw rd rs1 imm => recordOf .lw rd rs1 0 imm
  | .lbu rd rs1 imm => recordOf .lbu rd rs1 0 imm
  | .lhu rd rs1 imm => recordOf .lhu rd rs1 0 imm
  | .lui rd imm => recordOf .lui rd 0 0 imm
  | .auipc rd imm => recordOf .auipc rd 0 0 imm
  | .jal rd imm => recordOf .jal rd 0 0 imm
  | .sb rs1 rs2 imm => recordOf .sb 0 rs1 rs2 imm
  | .sh rs1 rs2 imm => recordOf .sh 0 rs1 rs2 imm
  | .sw rs1 rs2 imm => recordOf .sw 0 rs1 rs2 imm
  | .beq rs1 rs2 imm => recordOf .beq 0 rs1 rs2 imm
  | .bne rs1 rs2 imm => recordOf .bne 0 rs1 rs2 imm
  | .blt rs1 rs2 imm => recordOf .blt 0 rs1 rs2 imm
  | .bge rs1 rs2 imm => recordOf .bge 0 rs1 rs2 imm
  | .bltu rs1 rs2 imm => recordOf .bltu 0 rs1 rs2 imm
  | .bgeu rs1 rs2 imm => recordOf .bgeu 0 rs1 rs2 imm
  | .fence => recordOf .fence
  | .ecall => recordOf .ecall
  | .ebreak => recordOf .ebreak
  | .csrrw rd csr rs1 => recordOf .csrrw rd rs1 0 (csr.setWidth 32) csr
  | .csrrs rd csr rs1 => recordOf .csrrs rd rs1 0 (csr.setWidth 32) csr
  | .csrrc rd csr rs1 => recordOf .csrrc rd rs1 0 (csr.setWidth 32) csr
  | .csrrwi rd csr imm => recordOf .csrrwi rd 0 0 imm csr
  | .csrrsi rd csr imm => recordOf .csrrsi rd 0 0 imm csr
  | .csrrci rd csr imm => recordOf .csrrci rd 0 0 imm csr
  | .fpLoad rd rs1 rs2 rs3 rm => recordOf .fpLoad rd rs1 rs2 0 0 rs3 rm
  | .fpStore rd rs1 rs2 rs3 rm => recordOf .fpStore rd rs1 rs2 0 0 rs3 rm
  | .fpMadd rd rs1 rs2 rs3 rm => recordOf .fpMadd rd rs1 rs2 0 0 rs3 rm
  | .fpMsub rd rs1 rs2 rs3 rm => recordOf .fpMsub rd rs1 rs2 0 0 rs3 rm
  | .fpNmsub rd rs1 rs2 rs3 rm => recordOf .fpNmsub rd rs1 rs2 0 0 rs3 rm
  | .fpNmadd rd rs1 rs2 rs3 rm => recordOf .fpNmadd rd rs1 rs2 0 0 rs3 rm
  | .fpOp rd rs1 rs2 rs3 rm => recordOf .fpOp rd rs1 rs2 0 0 rs3 rm
  | .amo rd rs1 rs2 rs3 rm => recordOf .amo rd rs1 rs2 0 0 rs3 rm
  | .compressed00 rd rs1 rs2 rs3 rm => recordOf .compressed rd rs1 rs2 0 0 rs3 rm
  | .compressed01 rd rs1 rs2 rs3 rm => recordOf .compressed rd rs1 rs2 0 0 rs3 rm
  | .compressed10 rd rs1 rs2 rs3 rm => recordOf .compressed rd rs1 rs2 0 0 rs3 rm

/-- The record of what the decoder answers; `UNKNOWN` has every field 0 (R172). -/
def Decoded.record : Decoded → Record
  | .instr i => i.record
  | .unknown => recordOf .unknown

/-! ### The opcode table (spec/opcode_table.json) -/

/-- A row of the opcode table: a word belongs to it when its bits under `mask` are `pattern`; the rows of the six kinds
of `M_FULL` exist only under that parameter (R162, R310). -/
structure OpcodeRow where
  kind       : OpType
  mask       : Word
  pattern    : Word
  needsMFull : Bool
  deriving DecidableEq, Repr

/-- The word `w` belongs to the row `r` under the parameter `M_FULL`. -/
def OpcodeRow.selects (mFull : Bool) (r : OpcodeRow) (w : Word) : Bool :=
  (mFull || !r.needsMFull) && (w &&& r.mask == r.pattern)

/-- Rows of OP (R162). -/
def opcodeRowsOp : List OpcodeRow :=
  [⟨.add, 0xFE00707F#32, 0x00000033#32, false⟩,
   ⟨.sub, 0xFE00707F#32, 0x40000033#32, false⟩,
   ⟨.sll, 0xFE00707F#32, 0x00001033#32, false⟩,
   ⟨.slt, 0xFE00707F#32, 0x00002033#32, false⟩,
   ⟨.sltu, 0xFE00707F#32, 0x00003033#32, false⟩,
   ⟨.xor, 0xFE00707F#32, 0x00004033#32, false⟩,
   ⟨.srl, 0xFE00707F#32, 0x00005033#32, false⟩,
   ⟨.sra, 0xFE00707F#32, 0x40005033#32, false⟩,
   ⟨.or, 0xFE00707F#32, 0x00006033#32, false⟩,
   ⟨.and, 0xFE00707F#32, 0x00007033#32, false⟩,
   ⟨.mul, 0xFE00707F#32, 0x02000033#32, false⟩,
   ⟨.mulh, 0xFE00707F#32, 0x02001033#32, true⟩,
   ⟨.mulhsu, 0xFE00707F#32, 0x02002033#32, true⟩,
   ⟨.mulhu, 0xFE00707F#32, 0x02003033#32, true⟩,
   ⟨.div, 0xFE00707F#32, 0x02004033#32, false⟩,
   ⟨.divu, 0xFE00707F#32, 0x02005033#32, true⟩,
   ⟨.rem, 0xFE00707F#32, 0x02006033#32, true⟩,
   ⟨.remu, 0xFE00707F#32, 0x02007033#32, true⟩]

/-- Rows of OP-IMM, LUI, AUIPC (R163, R167). -/
def opcodeRowsImm : List OpcodeRow :=
  [⟨.addi, 0x0000707F#32, 0x00000013#32, false⟩,
   ⟨.slti, 0x0000707F#32, 0x00002013#32, false⟩,
   ⟨.sltiu, 0x0000707F#32, 0x00003013#32, false⟩,
   ⟨.xori, 0x0000707F#32, 0x00004013#32, false⟩,
   ⟨.ori, 0x0000707F#32, 0x00006013#32, false⟩,
   ⟨.andi, 0x0000707F#32, 0x00007013#32, false⟩,
   ⟨.slli, 0xFE00707F#32, 0x00001013#32, false⟩,
   ⟨.srli, 0xFE00707F#32, 0x00005013#32, false⟩,
   ⟨.srai, 0xFE00707F#32, 0x40005013#32, false⟩,
   ⟨.lui, 0x0000007F#32, 0x00000037#32, false⟩,
   ⟨.auipc, 0x0000007F#32, 0x00000017#32, false⟩]

/-- Rows of JAL, JALR, LOAD, STORE, BRANCH (R164 to R167). -/
def opcodeRowsFlow : List OpcodeRow :=
  [⟨.jal, 0x0000007F#32, 0x0000006F#32, false⟩,
   ⟨.jalr, 0x0000707F#32, 0x00000067#32, false⟩,
   ⟨.lb, 0x0000707F#32, 0x00000003#32, false⟩,
   ⟨.lh, 0x0000707F#32, 0x00001003#32, false⟩,
   ⟨.lw, 0x0000707F#32, 0x00002003#32, false⟩,
   ⟨.lbu, 0x0000707F#32, 0x00004003#32, false⟩,
   ⟨.lhu, 0x0000707F#32, 0x00005003#32, false⟩,
   ⟨.sb, 0x0000707F#32, 0x00000023#32, false⟩,
   ⟨.sh, 0x0000707F#32, 0x00001023#32, false⟩,
   ⟨.sw, 0x0000707F#32, 0x00002023#32, false⟩,
   ⟨.beq, 0x0000707F#32, 0x00000063#32, false⟩,
   ⟨.bne, 0x0000707F#32, 0x00001063#32, false⟩,
   ⟨.blt, 0x0000707F#32, 0x00004063#32, false⟩,
   ⟨.bge, 0x0000707F#32, 0x00005063#32, false⟩,
   ⟨.bltu, 0x0000707F#32, 0x00006063#32, false⟩,
   ⟨.bgeu, 0x0000707F#32, 0x00007063#32, false⟩]

/-- Rows of MISC-MEM and SYSTEM (R168, R169). -/
def opcodeRowsSystem : List OpcodeRow :=
  [⟨.fence, 0x0000707F#32, 0x0000000F#32, false⟩,
   ⟨.ecall, 0xFFFFFFFF#32, 0x00000073#32, false⟩,
   ⟨.ebreak, 0xFFFFFFFF#32, 0x00100073#32, false⟩,
   ⟨.csrrw, 0x0000707F#32, 0x00001073#32, false⟩,
   ⟨.csrrs, 0x0000707F#32, 0x00002073#32, false⟩,
   ⟨.csrrc, 0x0000707F#32, 0x00003073#32, false⟩,
   ⟨.csrrwi, 0x0000707F#32, 0x00005073#32, false⟩,
   ⟨.csrrsi, 0x0000707F#32, 0x00006073#32, false⟩,
   ⟨.csrrci, 0x0000707F#32, 0x00007073#32, false⟩]

/-- Rows of the extension classes (R171). -/
def opcodeRowsClass : List OpcodeRow :=
  [⟨.fpLoad, 0x0000007F#32, 0x00000007#32, false⟩,
   ⟨.fpStore, 0x0000007F#32, 0x00000027#32, false⟩,
   ⟨.fpMadd, 0x0000007F#32, 0x00000043#32, false⟩,
   ⟨.fpMsub, 0x0000007F#32, 0x00000047#32, false⟩,
   ⟨.fpNmsub, 0x0000007F#32, 0x0000004B#32, false⟩,
   ⟨.fpNmadd, 0x0000007F#32, 0x0000004F#32, false⟩,
   ⟨.fpOp, 0x0000007F#32, 0x00000053#32, false⟩,
   ⟨.amo, 0x0000007F#32, 0x0000002F#32, false⟩,
   ⟨.compressed, 0x00000003#32, 0x00000000#32, false⟩,
   ⟨.compressed, 0x00000003#32, 0x00000001#32, false⟩,
   ⟨.compressed, 0x00000003#32, 0x00000002#32, false⟩]

/-- The opcode table, 65 rows. -/
def opcodeTable : List OpcodeRow :=
  opcodeRowsOp ++ opcodeRowsImm ++ opcodeRowsFlow ++ opcodeRowsSystem ++ opcodeRowsClass

/-- The row of an instruction. -/
def Instr.row : Instr → OpcodeRow
  | .add _ _ _ => ⟨.add, 0xFE00707F#32, 0x00000033#32, false⟩
  | .sub _ _ _ => ⟨.sub, 0xFE00707F#32, 0x40000033#32, false⟩
  | .sll _ _ _ => ⟨.sll, 0xFE00707F#32, 0x00001033#32, false⟩
  | .slt _ _ _ => ⟨.slt, 0xFE00707F#32, 0x00002033#32, false⟩
  | .sltu _ _ _ => ⟨.sltu, 0xFE00707F#32, 0x00003033#32, false⟩
  | .xor _ _ _ => ⟨.xor, 0xFE00707F#32, 0x00004033#32, false⟩
  | .srl _ _ _ => ⟨.srl, 0xFE00707F#32, 0x00005033#32, false⟩
  | .sra _ _ _ => ⟨.sra, 0xFE00707F#32, 0x40005033#32, false⟩
  | .or _ _ _ => ⟨.or, 0xFE00707F#32, 0x00006033#32, false⟩
  | .and _ _ _ => ⟨.and, 0xFE00707F#32, 0x00007033#32, false⟩
  | .mul _ _ _ => ⟨.mul, 0xFE00707F#32, 0x02000033#32, false⟩
  | .mulh _ _ _ => ⟨.mulh, 0xFE00707F#32, 0x02001033#32, true⟩
  | .mulhsu _ _ _ => ⟨.mulhsu, 0xFE00707F#32, 0x02002033#32, true⟩
  | .mulhu _ _ _ => ⟨.mulhu, 0xFE00707F#32, 0x02003033#32, true⟩
  | .div _ _ _ => ⟨.div, 0xFE00707F#32, 0x02004033#32, false⟩
  | .divu _ _ _ => ⟨.divu, 0xFE00707F#32, 0x02005033#32, true⟩
  | .rem _ _ _ => ⟨.rem, 0xFE00707F#32, 0x02006033#32, true⟩
  | .remu _ _ _ => ⟨.remu, 0xFE00707F#32, 0x02007033#32, true⟩
  | .addi _ _ _ => ⟨.addi, 0x0000707F#32, 0x00000013#32, false⟩
  | .slti _ _ _ => ⟨.slti, 0x0000707F#32, 0x00002013#32, false⟩
  | .sltiu _ _ _ => ⟨.sltiu, 0x0000707F#32, 0x00003013#32, false⟩
  | .xori _ _ _ => ⟨.xori, 0x0000707F#32, 0x00004013#32, false⟩
  | .ori _ _ _ => ⟨.ori, 0x0000707F#32, 0x00006013#32, false⟩
  | .andi _ _ _ => ⟨.andi, 0x0000707F#32, 0x00007013#32, false⟩
  | .slli _ _ _ => ⟨.slli, 0xFE00707F#32, 0x00001013#32, false⟩
  | .srli _ _ _ => ⟨.srli, 0xFE00707F#32, 0x00005013#32, false⟩
  | .srai _ _ _ => ⟨.srai, 0xFE00707F#32, 0x40005013#32, false⟩
  | .lui _ _ => ⟨.lui, 0x0000007F#32, 0x00000037#32, false⟩
  | .auipc _ _ => ⟨.auipc, 0x0000007F#32, 0x00000017#32, false⟩
  | .jal _ _ => ⟨.jal, 0x0000007F#32, 0x0000006F#32, false⟩
  | .jalr _ _ _ => ⟨.jalr, 0x0000707F#32, 0x00000067#32, false⟩
  | .lb _ _ _ => ⟨.lb, 0x0000707F#32, 0x00000003#32, false⟩
  | .lh _ _ _ => ⟨.lh, 0x0000707F#32, 0x00001003#32, false⟩
  | .lw _ _ _ => ⟨.lw, 0x0000707F#32, 0x00002003#32, false⟩
  | .lbu _ _ _ => ⟨.lbu, 0x0000707F#32, 0x00004003#32, false⟩
  | .lhu _ _ _ => ⟨.lhu, 0x0000707F#32, 0x00005003#32, false⟩
  | .sb _ _ _ => ⟨.sb, 0x0000707F#32, 0x00000023#32, false⟩
  | .sh _ _ _ => ⟨.sh, 0x0000707F#32, 0x00001023#32, false⟩
  | .sw _ _ _ => ⟨.sw, 0x0000707F#32, 0x00002023#32, false⟩
  | .beq _ _ _ => ⟨.beq, 0x0000707F#32, 0x00000063#32, false⟩
  | .bne _ _ _ => ⟨.bne, 0x0000707F#32, 0x00001063#32, false⟩
  | .blt _ _ _ => ⟨.blt, 0x0000707F#32, 0x00004063#32, false⟩
  | .bge _ _ _ => ⟨.bge, 0x0000707F#32, 0x00005063#32, false⟩
  | .bltu _ _ _ => ⟨.bltu, 0x0000707F#32, 0x00006063#32, false⟩
  | .bgeu _ _ _ => ⟨.bgeu, 0x0000707F#32, 0x00007063#32, false⟩
  | .fence => ⟨.fence, 0x0000707F#32, 0x0000000F#32, false⟩
  | .ecall => ⟨.ecall, 0xFFFFFFFF#32, 0x00000073#32, false⟩
  | .ebreak => ⟨.ebreak, 0xFFFFFFFF#32, 0x00100073#32, false⟩
  | .csrrw _ _ _ => ⟨.csrrw, 0x0000707F#32, 0x00001073#32, false⟩
  | .csrrs _ _ _ => ⟨.csrrs, 0x0000707F#32, 0x00002073#32, false⟩
  | .csrrc _ _ _ => ⟨.csrrc, 0x0000707F#32, 0x00003073#32, false⟩
  | .csrrwi _ _ _ => ⟨.csrrwi, 0x0000707F#32, 0x00005073#32, false⟩
  | .csrrsi _ _ _ => ⟨.csrrsi, 0x0000707F#32, 0x00006073#32, false⟩
  | .csrrci _ _ _ => ⟨.csrrci, 0x0000707F#32, 0x00007073#32, false⟩
  | .fpLoad _ _ _ _ _ => ⟨.fpLoad, 0x0000007F#32, 0x00000007#32, false⟩
  | .fpStore _ _ _ _ _ => ⟨.fpStore, 0x0000007F#32, 0x00000027#32, false⟩
  | .fpMadd _ _ _ _ _ => ⟨.fpMadd, 0x0000007F#32, 0x00000043#32, false⟩
  | .fpMsub _ _ _ _ _ => ⟨.fpMsub, 0x0000007F#32, 0x00000047#32, false⟩
  | .fpNmsub _ _ _ _ _ => ⟨.fpNmsub, 0x0000007F#32, 0x0000004B#32, false⟩
  | .fpNmadd _ _ _ _ _ => ⟨.fpNmadd, 0x0000007F#32, 0x0000004F#32, false⟩
  | .fpOp _ _ _ _ _ => ⟨.fpOp, 0x0000007F#32, 0x00000053#32, false⟩
  | .amo _ _ _ _ _ => ⟨.amo, 0x0000007F#32, 0x0000002F#32, false⟩
  | .compressed00 _ _ _ _ _ => ⟨.compressed, 0x00000003#32, 0x00000000#32, false⟩
  | .compressed01 _ _ _ _ _ => ⟨.compressed, 0x00000003#32, 0x00000001#32, false⟩
  | .compressed10 _ _ _ _ _ => ⟨.compressed, 0x00000003#32, 0x00000002#32, false⟩

/-! ### The encoder: the words of a well-formed instruction, from the formats R143 to R149 -/

/-- R-type layout (R143). -/
def encR (funct7 : Nat) (rs2 rs1 : RegIdx) (funct3 : Nat) (rd : RegIdx) (opcode : Nat) : Word :=
  BitVec.ofNat 32 (2 ^ 25 * funct7 + 2 ^ 20 * rs2.toNat + 2 ^ 15 * rs1.toNat + 2 ^ 12 * funct3 + 2 ^ 7 * rd.toNat + opcode)

/-- I-type layout, `imm[11:0]` in bits [31:20] (R144). -/
def encI (imm : Word) (rs1 : RegIdx) (funct3 : Nat) (rd : RegIdx) (opcode : Nat) : Word :=
  BitVec.ofNat 32 (2 ^ 20 * bits imm 11 0 + 2 ^ 15 * rs1.toNat + 2 ^ 12 * funct3 + 2 ^ 7 * rd.toNat + opcode)

/-- Shift-immediate layout: a funct7 in bits [31:25], the amount in bits [24:20] (R157). -/
def encShift (funct7 : Nat) (imm : Word) (rs1 : RegIdx) (funct3 : Nat) (rd : RegIdx) (opcode : Nat) : Word :=
  BitVec.ofNat 32
    (2 ^ 25 * funct7 + 2 ^ 20 * bits imm 4 0 + 2 ^ 15 * rs1.toNat + 2 ^ 12 * funct3 + 2 ^ 7 * rd.toNat + opcode)

/-- S-type layout (R145). -/
def encS (imm : Word) (rs2 rs1 : RegIdx) (funct3 opcode : Nat) : Word :=
  BitVec.ofNat 32
    (2 ^ 25 * bits imm 11 5 + 2 ^ 20 * rs2.toNat + 2 ^ 15 * rs1.toNat + 2 ^ 12 * funct3 + 2 ^ 7 * bits imm 4 0 + opcode)

/-- B-type layout (R146). -/
def encB (imm : Word) (rs2 rs1 : RegIdx) (funct3 opcode : Nat) : Word :=
  BitVec.ofNat 32
    (2 ^ 31 * bits imm 12 12 + 2 ^ 25 * bits imm 10 5 + 2 ^ 20 * rs2.toNat + 2 ^ 15 * rs1.toNat + 2 ^ 12 * funct3 +
      2 ^ 8 * bits imm 4 1 + 2 ^ 7 * bits imm 11 11 + opcode)

/-- U-type layout (R147). -/
def encU (imm : Word) (rd : RegIdx) (opcode : Nat) : Word :=
  BitVec.ofNat 32 (2 ^ 12 * bits imm 31 12 + 2 ^ 7 * rd.toNat + opcode)

/-- J-type layout (R148). -/
def encJ (imm : Word) (rd : RegIdx) (opcode : Nat) : Word :=
  BitVec.ofNat 32
    (2 ^ 31 * bits imm 20 20 + 2 ^ 21 * bits imm 10 1 + 2 ^ 20 * bits imm 11 11 + 2 ^ 12 * bits imm 19 12 +
      2 ^ 7 * rd.toNat + opcode)

/-- CSR layout: bits [19:15] hold a register index or the 5-bit immediate (R149). -/
def encCsr (csr : CsrIdx) (src funct3 : Nat) (rd : RegIdx) : Word :=
  BitVec.ofNat 32 (2 ^ 20 * csr.toNat + 2 ^ 15 * src + 2 ^ 12 * funct3 + 2 ^ 7 * rd.toNat + 0b1110011)

/-- Extension class layout; the bits the record does not keep are 0 (R171, log entry 17). -/
def encClass (rd rs1 rs2 rs3 : RegIdx) (rm : RmField) (opcode : Nat) : Word :=
  BitVec.ofNat 32
    (2 ^ 27 * rs3.toNat + 2 ^ 20 * rs2.toNat + 2 ^ 15 * rs1.toNat + 2 ^ 12 * rm.toNat + 2 ^ 7 * rd.toNat + opcode)

/-- The word of an instruction.  FENCE records no field of its word, and its encoding has them 0 (R292, log
entry 17). -/
def encode (i : Instr) : Word :=
  match i with
  | .add rd rs1 rs2 => encR 0b0000000 rs2 rs1 0b000 rd 0b0110011
  | .sub rd rs1 rs2 => encR 0b0100000 rs2 rs1 0b000 rd 0b0110011
  | .sll rd rs1 rs2 => encR 0b0000000 rs2 rs1 0b001 rd 0b0110011
  | .slt rd rs1 rs2 => encR 0b0000000 rs2 rs1 0b010 rd 0b0110011
  | .sltu rd rs1 rs2 => encR 0b0000000 rs2 rs1 0b011 rd 0b0110011
  | .xor rd rs1 rs2 => encR 0b0000000 rs2 rs1 0b100 rd 0b0110011
  | .srl rd rs1 rs2 => encR 0b0000000 rs2 rs1 0b101 rd 0b0110011
  | .sra rd rs1 rs2 => encR 0b0100000 rs2 rs1 0b101 rd 0b0110011
  | .or rd rs1 rs2 => encR 0b0000000 rs2 rs1 0b110 rd 0b0110011
  | .and rd rs1 rs2 => encR 0b0000000 rs2 rs1 0b111 rd 0b0110011
  | .mul rd rs1 rs2 => encR 0b0000001 rs2 rs1 0b000 rd 0b0110011
  | .mulh rd rs1 rs2 => encR 0b0000001 rs2 rs1 0b001 rd 0b0110011
  | .mulhsu rd rs1 rs2 => encR 0b0000001 rs2 rs1 0b010 rd 0b0110011
  | .mulhu rd rs1 rs2 => encR 0b0000001 rs2 rs1 0b011 rd 0b0110011
  | .div rd rs1 rs2 => encR 0b0000001 rs2 rs1 0b100 rd 0b0110011
  | .divu rd rs1 rs2 => encR 0b0000001 rs2 rs1 0b101 rd 0b0110011
  | .rem rd rs1 rs2 => encR 0b0000001 rs2 rs1 0b110 rd 0b0110011
  | .remu rd rs1 rs2 => encR 0b0000001 rs2 rs1 0b111 rd 0b0110011
  | .addi rd rs1 imm => encI imm rs1 0b000 rd 0b0010011
  | .slti rd rs1 imm => encI imm rs1 0b010 rd 0b0010011
  | .sltiu rd rs1 imm => encI imm rs1 0b011 rd 0b0010011
  | .xori rd rs1 imm => encI imm rs1 0b100 rd 0b0010011
  | .ori rd rs1 imm => encI imm rs1 0b110 rd 0b0010011
  | .andi rd rs1 imm => encI imm rs1 0b111 rd 0b0010011
  | .slli rd rs1 imm => encShift 0b0000000 imm rs1 0b001 rd 0b0010011
  | .srli rd rs1 imm => encShift 0b0000000 imm rs1 0b101 rd 0b0010011
  | .srai rd rs1 imm => encShift 0b0100000 imm rs1 0b101 rd 0b0010011
  | .lui rd imm => encU imm rd 0b0110111
  | .auipc rd imm => encU imm rd 0b0010111
  | .jal rd imm => encJ imm rd 0b1101111
  | .jalr rd rs1 imm => encI imm rs1 0b000 rd 0b1100111
  | .lb rd rs1 imm => encI imm rs1 0b000 rd 0b0000011
  | .lh rd rs1 imm => encI imm rs1 0b001 rd 0b0000011
  | .lw rd rs1 imm => encI imm rs1 0b010 rd 0b0000011
  | .lbu rd rs1 imm => encI imm rs1 0b100 rd 0b0000011
  | .lhu rd rs1 imm => encI imm rs1 0b101 rd 0b0000011
  | .sb rs1 rs2 imm => encS imm rs2 rs1 0b000 0b0100011
  | .sh rs1 rs2 imm => encS imm rs2 rs1 0b001 0b0100011
  | .sw rs1 rs2 imm => encS imm rs2 rs1 0b010 0b0100011
  | .beq rs1 rs2 imm => encB imm rs2 rs1 0b000 0b1100011
  | .bne rs1 rs2 imm => encB imm rs2 rs1 0b001 0b1100011
  | .blt rs1 rs2 imm => encB imm rs2 rs1 0b100 0b1100011
  | .bge rs1 rs2 imm => encB imm rs2 rs1 0b101 0b1100011
  | .bltu rs1 rs2 imm => encB imm rs2 rs1 0b110 0b1100011
  | .bgeu rs1 rs2 imm => encB imm rs2 rs1 0b111 0b1100011
  | .fence => 0x0000000F#32
  | .ecall => 0x00000073#32
  | .ebreak => 0x00100073#32
  | .csrrw rd csr rs1 => encCsr csr rs1.toNat 0b001 rd
  | .csrrs rd csr rs1 => encCsr csr rs1.toNat 0b010 rd
  | .csrrc rd csr rs1 => encCsr csr rs1.toNat 0b011 rd
  | .csrrwi rd csr imm => encCsr csr (bits imm 4 0) 0b101 rd
  | .csrrsi rd csr imm => encCsr csr (bits imm 4 0) 0b110 rd
  | .csrrci rd csr imm => encCsr csr (bits imm 4 0) 0b111 rd
  | .fpLoad rd rs1 rs2 rs3 rm => encClass rd rs1 rs2 rs3 rm 0b0000111
  | .fpStore rd rs1 rs2 rs3 rm => encClass rd rs1 rs2 rs3 rm 0b0100111
  | .fpMadd rd rs1 rs2 rs3 rm => encClass rd rs1 rs2 rs3 rm 0b1000011
  | .fpMsub rd rs1 rs2 rs3 rm => encClass rd rs1 rs2 rs3 rm 0b1000111
  | .fpNmsub rd rs1 rs2 rs3 rm => encClass rd rs1 rs2 rs3 rm 0b1001011
  | .fpNmadd rd rs1 rs2 rs3 rm => encClass rd rs1 rs2 rs3 rm 0b1001111
  | .fpOp rd rs1 rs2 rs3 rm => encClass rd rs1 rs2 rs3 rm 0b1010011
  | .amo rd rs1 rs2 rs3 rm => encClass rd rs1 rs2 rs3 rm 0b0101111
  | .compressed00 rd rs1 rs2 rs3 rm => encClass rd rs1 rs2 rs3 rm 0b00
  | .compressed01 rd rs1 rs2 rs3 rm => encClass rd rs1 rs2 rs3 rm 0b01
  | .compressed10 rd rs1 rs2 rs3 rm => encClass rd rs1 rs2 rs3 rm 0b10

end Sys2Proof
end

