-- ==== Sys2Proof/Machine/Assoc.lean ====
section
/-! DEFINITION. Sparse maps keyed by natural numbers: lists of (key, value) pairs whose canonical form has strictly
rising keys.  Memory, the page table, the TLB, the CSR file and the block cache are all held this way. -/

namespace Sys2Proof.Machine

variable {α : Type}

/-- The canonical form: keys strictly rising. -/
abbrev risingKeys (m : List (Nat × α)) : Prop := (m.map Prod.fst).Pairwise (· < ·)

/-- The value at a key. -/
def lookupKey (k : Nat) : List (Nat × α) → Option α
  | [] => none
  | (k', v) :: m => if k = k' then some v else lookupKey k m

/-- The map with the value at a key replaced or added at its place. -/
def insertKey (k : Nat) (v : α) : List (Nat × α) → List (Nat × α)
  | [] => [(k, v)]
  | (k', v') :: m =>
    if k < k' then (k, v) :: (k', v') :: m
    else if k = k' then (k, v) :: m
    else (k', v') :: insertKey k v m

/-- The map without a key. -/
def eraseKey (k : Nat) : List (Nat × α) → List (Nat × α)
  | [] => []
  | (k', v') :: m => if k = k' then eraseKey k m else (k', v') :: eraseKey k m

end Sys2Proof.Machine
end

