-- ==== Sys2Proof/Machine/State.lean ====
section
/-! DEFINITION. The state of the hart (spec/10_state.md), the reasons a step can stop, and the state after reset. -/

namespace Sys2Proof.Machine

/-! ### The Memory component (R49 to R57) -/

/-- Contents of the page arena, byte by byte: the cell at key `handle * 4096 + offset` is the byte at that offset of
that page (R50, R96).  Canonical form: keys strictly rising, no byte equal to what an unlisted key reads as. -/
abbrev Memory := List Host.Cell

/-- What a byte of an allocated page reads as when nothing has written it: a fresh page is zero-filled (R85). -/
def Memory.unlisted : Byte := 0#8

/-- The canonical form of `Memory`. -/
abbrev Memory.wf (m : Memory) : Prop := risingKeys m ∧ ∀ c ∈ m, c.2 ≠ Memory.unlisted

/-- A level-2 table: the present entries, keyed by `pt2`, each a page handle (R51). -/
abbrev Level2 := List (Nat × Nat)

/-- The level-1 table: the present entries, keyed by `pt1`, each a level-2 table (R51). -/
abbrev Level1 := List (Nat × Level2)

/-- The canonical form of the two-level table: rising keys below 1024 at both levels (R51). -/
abbrev Level1.wf (t : Level1) : Prop :=
  risingKeys t ∧ ∀ e ∈ t, e.1 < 1024 ∧ risingKeys e.2 ∧ ∀ f ∈ e.2, f.1 < 1024

/-- A filled TLB slot: the full virtual address of the access that filled it, and a page handle (R53). -/
structure TlbEntry where
  tag  : Word
  page : Nat
  deriving DecidableEq, Repr

/-- The filled slots of the TLB, keyed by slot index (R53). -/
abbrev Tlb := List (Nat × TlbEntry)

/-- The Memory component: PhysMemory, the TLB and the statistics counters (R49). -/
structure Mem where
  /-- contents of the arena's pages -/
  bytes      : Memory
  /-- number of pages in the arena; the handles in use are 0 .. pageCount - 1 (R50) -/
  pageCount  : Nat
  /-- the two-level page table (R51) -/
  level1     : Level1
  /-- the TLB's filled slots (R53) -/
  tlb        : Tlb
  /-- successful loads, fetches included (R56) -/
  numLoads   : Nat
  /-- successful stores (R56) -/
  numStores  : Nat
  /-- the optional page-fault count (R56, log entry 13) -/
  pageFaults : Nat
  /-- TLB hits (R57) -/
  hits       : Nat
  /-- TLB misses (R57) -/
  misses     : Nat
  /-- TLB lookups (R57) -/
  requests   : Nat
  deriving DecidableEq, Repr

/-- The Memory component before the preload: no page, every entry absent, every slot empty, counters 0 (R52, R55 to
R57). -/
def Mem.empty : Mem :=
  { bytes := [], pageCount := 0, level1 := [], tlb := [], numLoads := 0, numStores := 0, pageFaults := 0, hits := 0,
    misses := 0, requests := 0 }

/-! ### The CSR file (R40 to R45) -/

/-- The CSR file: the six counters of R41 under their names, and the other 4090 entries as a canonical sparse map whose
unlisted entries read as 0. -/
structure Csrs where
  /-- 0xC00 -/
  cycle    : Word
  /-- 0xC01 -/
  time     : Word
  /-- 0xC02 -/
  instret  : Word
  /-- 0xC80 -/
  cycleh   : Word
  /-- 0xC81 -/
  timeh    : Word
  /-- 0xC82 -/
  instreth : Word
  /-- every other entry that is not 0, keyed by its number -/
  others   : List (Nat × Word)
  deriving DecidableEq, Repr

/-- Every CSR 0 (R45). -/
def Csrs.zero : Csrs :=
  { cycle := 0, time := 0, instret := 0, cycleh := 0, timeh := 0, instreth := 0, others := [] }

/-! ### The hart -/

/-- The six fault kinds of R370: names only, no numbers.  `imageLoadFailure` belongs to the loader and no operation of
the CORE raises it (R376). -/
inductive FaultKind where
  | misalignedAccess
  | pageFault
  | illegalInstruction
  | arithmetic
  | notImplemented
  | imageLoadFailure
  deriving DecidableEq, Repr

/-- The run status of R60. -/
inductive RunStatus where
  | running
  | halted
  | faulted (kind : FaultKind)
  deriving DecidableEq, Repr

/-- The state of the machine: the `State` record of R30, the hart's block cache and run status, and two fields of the
model's own (`params`, `pending`). -/
structure State where
  /-- the OPEN parameters the run was launched with (R6); the model's own field, constant during a run -/
  params        : Params
  /-- program counter (R36) -/
  pc            : Word
  /-- next-PC staging register (R39) -/
  npc           : Word
  /-- transient flag of a taken control transfer (R46) -/
  branchIsTaken : Bool
  /-- set by ECALL (R47) -/
  complete      : Bool
  /-- general registers x0 .. x31 (R31) -/
  regs          : Vector Word 32
  /-- CSR file (R40) -/
  csrs          : Csrs
  /-- Memory component (R49) -/
  mem           : Mem
  /-- instructions retired, for the tooling (R61) -/
  icount        : Nat
  /-- BBCache: decoded blocks keyed by entry address (R58) -/
  blocks        : List (Nat × List Decoded)
  /-- the instructions of the current block not yet executed; the model's own field for the loop of R347 -/
  pending       : List Decoded
  /-- run status (R60) -/
  status        : RunStatus
  deriving DecidableEq, Repr

/-- Why a run ends in a fault (R370).  Each constructor carries `left`, the state the fault leaves (R195, R351, R377),
whose `pc` and status complete the diagnostic of R378. -/
inductive Fault where
  /-- Raised by LH, LHU, LW, SH, SW and by instruction fetch at an address that is not a multiple of the width, and by
  a preload range that starts at one (R371).  Safe: the spec's own fault. -/
  | misalignedAccess (addr : Word) (left : State)
  /-- Raised by LB, LBU, LH, LHU, LW and by instruction fetch from an unmapped page (R372).  Safe: the spec's own
  fault. -/
  | pageFault (addr : Word) (left : State)
  /-- Raised by executing EBREAK or a word that decodes to UNKNOWN (R373).  Safe: the spec's own fault. -/
  | illegalInstruction (left : State)
  /-- Raised by DIV, DIVU, REM, REMU with a zero divisor, and by DIV, REM on signed overflow when DIV_OVERFLOW is
  `fault` (R374).  Safe: the spec's own fault. -/
  | arithmetic (left : State)
  /-- Raised by executing one of the nine extension class kinds (R375).  Safe: the spec's own fault. -/
  | notImplemented (left : State)
  deriving DecidableEq, Repr

/-- Why a step has no next state although no fault is raised. -/
inductive Refusal where
  /-- An instruction without a meaning yet, by mnemonic; no arm answers it any more. -/
  | notModelled (mnemonic : String)
  /-- Answered by `step` in a run that has ended by ECALL: the hart is Halted and takes no step (R18, R353).  Safe. -/
  | halted
  /-- Answered by `step` in a run that a fault has aborted: the hart takes no further step (R377).  Safe. -/
  | aborted (kind : FaultKind)
  /-- Answered by `step` when the block build reads every word of the address space and none ends a block: the build
  diverges and the hart makes no further step (R352, U5, log entry 8).  Safe. -/
  | endlessBlock
  deriving DecidableEq, Repr

/-- A hart as construction leaves it before any preload, with parameters `p` and entry address `entry` (R65, R345). -/
def State.initial (p : Params) (entry : Word) : State :=
  { params := p, pc := entry, npc := 0, branchIsTaken := false, complete := false, regs := Vector.replicate 32 0,
    csrs := Csrs.zero, mem := Mem.empty, icount := 0, blocks := [], pending := [], status := .running }

/-- The machine right after reset with nothing preloaded (R65; ENTRY and the parameters: log entries 1 to 5). -/
def State.reset : State := State.initial Config.params Config.entry

end Sys2Proof.Machine
end

