-- ==== Sys2Proof/Machine/Ops.lean ====
section
/-! DEFINITION. The named operations over state: one update per field, the general registers, the CSR file, the
Memory component, the uniform end of an instruction, and the one operation that aborts a run. -/

namespace Sys2Proof.Machine

/-! ### One update per field of `State` -/

/-- `s` with another `params`. -/
def State.withParams (s : State) (v : Params) : State := { s with params := v }

/-- `s` with another `pc`. -/
def State.withPc (s : State) (v : Word) : State := { s with pc := v }

/-- `s` with another `npc`. -/
def State.withNpc (s : State) (v : Word) : State := { s with npc := v }

/-- `s` with another `branchIsTaken`. -/
def State.withBranchIsTaken (s : State) (v : Bool) : State := { s with branchIsTaken := v }

/-- `s` with another `complete`. -/
def State.withComplete (s : State) (v : Bool) : State := { s with complete := v }

/-- `s` with another `regs`. -/
def State.withRegs (s : State) (v : Vector Word 32) : State := { s with regs := v }

/-- `s` with another `csrs`. -/
def State.withCsrs (s : State) (v : Csrs) : State := { s with csrs := v }

/-- `s` with another `mem`. -/
def State.withMem (s : State) (v : Mem) : State := { s with mem := v }

/-- `s` with another `icount`. -/
def State.withIcount (s : State) (v : Nat) : State := { s with icount := v }

/-- `s` with another `blocks`. -/
def State.withBlocks (s : State) (v : List (Nat × List Decoded)) : State := { s with blocks := v }

/-- `s` with another `pending`. -/
def State.withPending (s : State) (v : List Decoded) : State := { s with pending := v }

/-- `s` with another `status`. -/
def State.withStatus (s : State) (v : RunStatus) : State := { s with status := v }

/-! ### General registers (R31, R33) -/

/-- `x[r]`: register 0 reads 0 (R16, R33). -/
def readReg (s : State) (r : RegIdx) : Word := if r = 0#5 then 0#32 else s.regs[r.toNat]'r.isLt

/-- `x[r] <- v`: a write to register 0 is discarded (R16, R33). -/
def writeReg (s : State) (r : RegIdx) (v : Word) : State :=
  if r = 0#5 then s else s.withRegs (s.regs.set r.toNat v r.isLt)

/-! ### The CSR file (R40 to R45) -/

/-- `csr[c]` (R16, R40, R41). -/
def Csrs.get (f : Csrs) (c : CsrIdx) : Word :=
  if c = 0xC00#12 then f.cycle
  else if c = 0xC01#12 then f.time
  else if c = 0xC02#12 then f.instret
  else if c = 0xC80#12 then f.cycleh
  else if c = 0xC81#12 then f.timeh
  else if c = 0xC82#12 then f.instreth
  else (lookupKey c.toNat f.others).getD 0#32

/-- `csr[c] <- v`: every entry is plain storage (R16, R40); an entry that becomes 0 leaves the sparse map. -/
def Csrs.set (f : Csrs) (c : CsrIdx) (v : Word) : Csrs :=
  if c = 0xC00#12 then { f with cycle := v }
  else if c = 0xC01#12 then { f with time := v }
  else if c = 0xC02#12 then { f with instret := v }
  else if c = 0xC80#12 then { f with cycleh := v }
  else if c = 0xC81#12 then { f with timeh := v }
  else if c = 0xC82#12 then { f with instreth := v }
  else if v = 0#32 then { f with others := eraseKey c.toNat f.others }
  else { f with others := insertKey c.toNat v f.others }

/-- `csr[c]` of a state. -/
def readCsr (s : State) (c : CsrIdx) : Word := s.csrs.get c

/-- A state with `csr[c] <- v`. -/
def writeCsr (s : State) (c : CsrIdx) (v : Word) : State := s.withCsrs (s.csrs.set c v)

/-- The 64-bit value `hi * 2^32 + lo` of a counter pair (R42). -/
def pairValue (hi lo : Word) : Nat := 2 ^ 32 * hi.toNat + lo.toNat

/-- The low half of a pair after adding `d` modulo 2^64 (R42). -/
def pairLow (hi lo : Word) (d : Nat) : Word := BitVec.ofNat 32 ((d + pairValue hi lo) % 2 ^ 64)

/-- The high half of a pair after adding `d` modulo 2^64 (R42). -/
def pairHigh (hi lo : Word) (d : Nat) : Word := BitVec.ofNat 32 ((d + pairValue hi lo) % 2 ^ 64 / 2 ^ 32)

/-- `updateTimers(k)`: instret + 1, cycle + COST(k), as 64-bit pairs; time is never touched (R43, R44). -/
def Csrs.updateTimers (f : Csrs) (k : OpType) : Csrs :=
  { f with
    instret  := pairLow f.instreth f.instret 1
    instreth := pairHigh f.instreth f.instret 1
    cycle    := pairLow f.cycleh f.cycle (Config.cost k)
    cycleh   := pairHigh f.cycleh f.cycle (Config.cost k) }

/-! ### Addresses (R81) -/

/-- Level-1 index, bits [31:22]. -/
def pt1 (a : Word) : Nat := bits a 31 22

/-- Level-2 index, bits [21:12]. -/
def pt2 (a : Word) : Nat := bits a 21 12

/-- Page offset, bits [11:0]. -/
def pageOffset (a : Word) : Nat := bits a 11 0

/-- Virtual page number, bits [31:12]. -/
def vpn (a : Word) : Nat := bits a 31 12

/-! ### Page contents (R85, R95, R96) -/

/-- The byte under key `k`. -/
def readCell (m : Memory) (k : Nat) : Byte := (lookupKey k m).getD Memory.unlisted

/-- The contents with the byte under key `k` replaced, kept canonical. -/
def writeCell (m : Memory) (k : Nat) (b : Byte) : Memory :=
  if b = Memory.unlisted then eraseKey k m else insertKey k b m

/-- `n` bytes from key `k`, the lowest key least significant (R96). -/
def readLE (m : Memory) (k : Nat) : Nat → Nat
  | 0 => 0
  | n + 1 => (readCell m k).toNat + 2 ^ 8 * readLE m (k + 1) n

/-- The contents with the low `n` bytes of `v` stored from key `k`, least significant first (R96). -/
def writeLE (m : Memory) (k v : Nat) : Nat → Memory
  | 0 => m
  | n + 1 => writeLE (writeCell m k (BitVec.ofNat 8 v)) (k + 1) (v / 2 ^ 8) n

/-- The key of the byte at address `a` inside page `p` (R50, R95). -/
def cellKey (p : Nat) (a : Word) : Nat := 4096 * p + pageOffset a

/-! ### The page table (R51, R93, R94) -/

/-- The two-level walk: the page handle of the page of `a`, if both entries are present (R93). -/
def walk (t : Level1) (a : Word) : Option Nat :=
  match lookupKey (pt1 a) t with
  | none => none
  | some t2 => lookupKey (pt2 a) t2

/-- The table with the entry of the page of `a` set to `h`, its level-2 table created if absent (R94). -/
def mapPage (t : Level1) (a : Word) (h : Nat) : Level1 :=
  insertKey (pt1 a) (insertKey (pt2 a) h ((lookupKey (pt1 a) t).getD [])) t

/-! ### The TLB (R97 to R99) -/

/-- Slot index: the low `TLB_BITS` bits of the virtual page number (R98). -/
def tlbIndex (tlbBits : Nat) (a : Word) : Nat := vpn a % 2 ^ tlbBits

/-- The page of a hit: the slot is filled and its tag is `a`, all 32 bits (R97). -/
def Mem.probe (tlbBits : Nat) (m : Mem) (a : Word) : Option Nat :=
  match lookupKey (tlbIndex tlbBits a) m.tlb with
  | some e => if e.tag = a then some e.page else none
  | none => none

/-- A lookup that hits: requests and hits move (R97). -/
def Mem.countHit (m : Mem) : Mem := { m with requests := m.requests + 1, hits := m.hits + 1 }

/-- A lookup that misses: requests and misses move (R97). -/
def Mem.countMiss (m : Mem) : Mem := { m with requests := m.requests + 1, misses := m.misses + 1 }

/-- The fill after a walk: the slot of `a` holds (`a`, `p`), whatever was there (R99). -/
def Mem.fill (tlbBits : Nat) (m : Mem) (a : Word) (p : Nat) : Mem :=
  { m with tlb := insertKey (tlbIndex tlbBits a) { tag := a, page := p } m.tlb }

/-! ### Translation (steps 2 to 4 of R89) -/

/-- The component with a fresh zero-filled page for the page of `a` (R94). -/
def Mem.allocate (m : Mem) (a : Word) : Mem :=
  { m with pageCount := m.pageCount + 1, level1 := mapPage m.level1 a m.pageCount }

/-- The page of `a`, allocated if it is unmapped: the walk of a STORE (R94). -/
def Mem.ownPage (m : Mem) (a : Word) : Nat × Mem :=
  match walk m.level1 a with
  | some p => (p, m)
  | none => (m.pageCount, m.allocate a)

/-- Translation of a LOAD: hit, or walk and fill; an unmapped page leaves the slot and moves the page-fault count
(R93, R97, R99). -/
def Mem.translateLoad (tlbBits : Nat) (m : Mem) (a : Word) : Option Nat × Mem :=
  match m.probe tlbBits a with
  | some p => (some p, m.countHit)
  | none =>
    match walk m.level1 a with
    | some p => (some p, m.countMiss.fill tlbBits a p)
    | none => (none, { m.countMiss with pageFaults := m.pageFaults + 1 })

/-- Translation of a STORE: hit, or walk with allocation and fill (R94, R97, R99). -/
def Mem.translateStore (tlbBits : Nat) (m : Mem) (a : Word) : Nat × Mem :=
  match m.probe tlbBits a with
  | some p => (p, m.countHit)
  | none =>
    match m.countMiss.ownPage a with
    | (p, m') => (p, m'.fill tlbBits a p)

/-! ### Accesses (R88 to R101) -/

/-- The three access widths (R106). -/
inductive Width where
  | byte
  | half
  | word
  deriving DecidableEq, Repr

/-- The number of bytes of a width. -/
def Width.bytes : Width → Nat
  | .byte => 1
  | .half => 2
  | .word => 4

/-- What a LOAD answers: done with a value, misaligned (nothing changed), or an unmapped page. -/
inductive Access where
  | done (v : Word) (m : Mem)
  | misaligned
  | unmapped (m : Mem)
  deriving DecidableEq, Repr

/-- The alignment check of R92; it implies the straddle clause (R91). -/
def aligned (wd : Width) (a : Word) : Bool := a.toNat % wd.bytes == 0

/-- `load(addr, n)`: the value zero-extended to a Word (R88, R100). -/
def Mem.load (tlbBits : Nat) (m : Mem) (wd : Width) (a : Word) : Access :=
  if aligned wd a then
    match m.translateLoad tlbBits a with
    | (some p, m') =>
      .done (BitVec.ofNat 32 (readLE m'.bytes (cellKey p a) wd.bytes)) { m' with numLoads := m'.numLoads + 1 }
    | (none, m') => .unmapped m'
  else .misaligned

/-- `store(addr, n, v)`: the low 8n bits of `v`; `none` when misaligned, the one way a store fails (R88, R101,
R108). -/
def Mem.store (tlbBits : Nat) (m : Mem) (wd : Width) (a v : Word) : Option Mem :=
  if aligned wd a then
    match m.translateStore tlbBits a with
    | (p, m') =>
      some { m' with bytes := writeLE m'.bytes (cellKey p a) v.toNat wd.bytes, numStores := m'.numStores + 1 }
  else none

/-- The memory effect of `storeWord` alone, as the preload uses it: no TLB, no counter (R103, R346). -/
def Mem.pokeWord (m : Mem) (a v : Word) : Mem :=
  match m.ownPage a with
  | (p, m') => { m' with bytes := writeLE m'.bytes (cellKey p a) v.toNat 4 }

/-- `storeRange(start, ws)`: word i at start + 4i modulo 2^32; `none` at a misaligned start (R103). -/
def Mem.storeRange (m : Mem) (start : Word) : List Word → Option Mem
  | [] => some m
  | v :: vs => if aligned .word start then (m.pokeWord start v).storeRange (start + 4#32) vs else none

/-! ### Aborting a run (R377) -/

/-- The one effect of a fault on the hart's state: the run status becomes Faulted(kind).  Nothing is saved and pc stays
(R195, R377).  There is no return from a fault (R381). -/
def abortRun (k : FaultKind) (s : State) : State := s.withStatus (.faulted k)

/-- What an operation inside an instruction answers: a value and a state, or the fault that ends the run. -/
inductive Result (α : Type) where
  | ok (v : α) (s : State)
  | fault (f : Fault)
  deriving DecidableEq, Repr

/-- `MemRead(addr, n)` (R17, R100). -/
def memRead (wd : Width) (a : Word) (s : State) : Result Word :=
  match s.mem.load s.params.tlbBits wd a with
  | .done v m => .ok v (s.withMem m)
  | .misaligned => .fault (.misalignedAccess a (abortRun .misalignedAccess s))
  | .unmapped m => .fault (.pageFault a (abortRun .pageFault (s.withMem m)))

/-- `MemWrite(addr, n, v)` (R17, R101). -/
def memWrite (wd : Width) (a v : Word) (s : State) : Result Unit :=
  match s.mem.store s.params.tlbBits wd a v with
  | some m => .ok () (s.withMem m)
  | none => .fault (.misalignedAccess a (abortRun .misalignedAccess s))

/-! ### The end of every instruction (steps 3 and 4 of R190) -/

/-- The uniform pc update (R193). -/
def updatePc (s : State) : State :=
  if s.branchIsTaken then (s.withPc s.npc).withBranchIsTaken false else s.withPc (s.pc + 4#32)

/-- `updateTimers` and `icount` (R194). -/
def countInstruction (k : OpType) (s : State) : State :=
  (s.withCsrs (s.csrs.updateTimers k)).withIcount (s.icount + 1)

/-- What follows a handler that returned: the pc update, then the counters (R190). -/
def retire (k : OpType) (s : State) : Host.Outcome State Fault Refusal := .next (countInstruction k (updatePc s))

/-! ### Views of the state -/

/-- The byte function `B` of R105: the byte at `a`, if the page of `a` is mapped. -/
def byteAt (s : State) (a : Word) : Option Byte :=
  match walk s.mem.level1 a with
  | some p => some (readCell s.mem.bytes (cellKey p a))
  | none => none

/-- The Word at an aligned address `a` by the byte function of R105. -/
def wordAt (s : State) (a : Word) : Option Word :=
  match walk s.mem.level1 a with
  | some p => some (BitVec.ofNat 32 (readLE s.mem.bytes (cellKey p a) 4))
  | none => none

/-- The counters the tooling reads (R62, R104). -/
structure Stats where
  icount     : Nat
  numLoads   : Nat
  numStores  : Nat
  pageFaults : Nat
  hits       : Nat
  misses     : Nat
  requests   : Nat
  deriving DecidableEq, Repr

/-- `getStats()`: reads the counters and changes nothing (R62, R104). -/
def State.getStats (s : State) : Stats :=
  { icount := s.icount, numLoads := s.mem.numLoads, numStores := s.mem.numStores, pageFaults := s.mem.pageFaults,
    hits := s.mem.hits, misses := s.mem.misses, requests := s.mem.requests }

/-- The kind of a fault (R370). -/
def Fault.kind : Fault → FaultKind
  | .misalignedAccess _ _ => .misalignedAccess
  | .pageFault _ _ => .pageFault
  | .illegalInstruction _ => .illegalInstruction
  | .arithmetic _ => .arithmetic
  | .notImplemented _ => .notImplemented

/-- The state a fault leaves, which the tooling can inspect (R378). -/
def Fault.left : Fault → State
  | .misalignedAccess _ s => s
  | .pageFault _ s => s
  | .illegalInstruction s => s
  | .arithmetic s => s
  | .notImplemented s => s

/-- The faulting address of the two memory kinds (R378). -/
def Fault.addr : Fault → Option Word
  | .misalignedAccess a _ => some a
  | .pageFault a _ => some a
  | .illegalInstruction _ => none
  | .arithmetic _ => none
  | .notImplemented _ => none

/-- The diagnostic triple (kind, pc at the time, faulting address) of R378. -/
def Fault.diagnostic (f : Fault) : FaultKind × Word × Option Word := (f.kind, f.left.pc, f.addr)

end Sys2Proof.Machine
end

