-- ==== Sys2Proof/Machine/Operands.lean ====
section
/-! DEFINITION. Operand forms and the values instructions compute from them (spec/41 to 46). -/

namespace Sys2Proof.Machine

/-- Effective address, the only addressing mode: `x[rs1] + imm` modulo 2^32 (R250). -/
def effectiveAddress (s : State) (rs1 : RegIdx) (imm : Word) : Word := readReg s rs1 + imm

/-- Shift amount: the low 5 bits, for register and immediate forms alike (R212, R236, decision D7). -/
def shiftAmount (v : Word) : Nat := bits v 4 0

/-- Logical left shift (R10, R212). -/
def shiftLeft (a b : Word) : Word := a <<< shiftAmount b

/-- Logical right shift (R10, R216). -/
def shiftRightLogical (a b : Word) : Word := a >>> shiftAmount b

/-- Arithmetic right shift (R10, R217). -/
def shiftRightArith (a b : Word) : Word := a.sshiftRight (shiftAmount b)

/-- A loaded value of the given width, sign-extended (R260). -/
def signedLoad (wd : Width) (v : Word) : Word := sextField v.toNat (8 * wd.bytes)

/-- A loaded value of the given width, zero-extended: Memory returns it so (R88, R260). -/
def unsignedLoad (wd : Width) (v : Word) : Word := BitVec.ofNat 32 (v.toNat % 2 ^ (8 * wd.bytes))

/-- The product of `p` and `q`, high word: the floor of the exact product by 2^32 (R312 to R314). -/
def highWord (p q : Int) : Word := BitVec.ofInt 32 (p * q / 2 ^ 32)

/-- `s(v)`, the two's-complement reading (R11). -/
def sVal (v : Word) : Int := v.toInt

/-- `u(v)`, the unsigned reading (R11). -/
def uVal (v : Word) : Int := (v.toNat : Int)

/-- The signed overflow case of division, -2^31 by -1 (R319). -/
def divOverflows (a b : Word) : Bool := a == 0x80000000#32 && b == 0xFFFFFFFF#32

/-- Signed quotient, rounded toward zero (R315). -/
def signedQuotient (a b : Word) : Word := BitVec.ofInt 32 ((sVal a).tdiv (sVal b))

/-- Signed remainder, with the sign of the dividend: `a - q * b` for the truncated quotient `q` (R317). -/
def signedRemainder (a b : Word) : Word := BitVec.ofInt 32 (sVal a - (sVal a).tdiv (sVal b) * sVal b)

/-- Unsigned quotient (R316). -/
def unsignedQuotient (a b : Word) : Word := BitVec.ofNat 32 (a.toNat / b.toNat)

/-- Unsigned remainder (R318). -/
def unsignedRemainder (a b : Word) : Word := BitVec.ofNat 32 (a.toNat % b.toNat)

/-! ### Handler shapes shared by the families -/

/-- A handler that writes `x[rd]` with a value and does nothing else. -/
def writeBack (k : OpType) (rd : RegIdx) (v : Word) (s : State) : Host.Outcome State Fault Refusal :=
  retire k (writeReg s rd v)

/-- A load: one access at the effective address, the extended value into `x[rd]` (R250, R259). -/
def loadInto (k : OpType) (wd : Width) (extend : Word → Word) (rd rs1 : RegIdx) (imm : Word) (s : State) :
    Host.Outcome State Fault Refusal :=
  match memRead wd (effectiveAddress s rs1 imm) s with
  | .ok v s' => retire k (writeReg s' rd (extend v))
  | .fault f => .fault f

/-- A store: one access at the effective address with the low bytes of `x[rs2]` (R250, R259). -/
def storeFrom (k : OpType) (wd : Width) (rs1 rs2 : RegIdx) (imm : Word) (s : State) :
    Host.Outcome State Fault Refusal :=
  match memWrite wd (effectiveAddress s rs1 imm) (readReg s rs2) s with
  | .ok _ s' => retire k s'
  | .fault f => .fault f

/-- A CSR instruction: the source is read first, then `old`; the CSR gets `f old src`, `x[rd]` gets `old` (R294). -/
def csrModify (k : OpType) (f : Word → Word → Word) (rd : RegIdx) (c : CsrIdx) (src : Word) (s : State) :
    Host.Outcome State Fault Refusal :=
  retire k (writeReg (writeCsr s c (f (readCsr s c) src)) rd (readCsr s c))

/-- A division: a zero divisor raises Arithmetic before anything is written (R315 to R318, R374). -/
def divideInto (k : OpType) (q : Word → Word → Word) (rd rs1 rs2 : RegIdx) (s : State) :
    Host.Outcome State Fault Refusal :=
  if readReg s rs2 = 0#32 then .fault (.arithmetic (abortRun .arithmetic s))
  else writeBack k rd (q (readReg s rs1) (readReg s rs2)) s

/-- A signed division: in the overflow case `DIV_OVERFLOW` decides between the value `ov` and the Arithmetic fault
(R319). -/
def signedDivideInto (k : OpType) (q : Word → Word → Word) (ov : Word) (rd rs1 rs2 : RegIdx) (s : State) :
    Host.Outcome State Fault Refusal :=
  if divOverflows (readReg s rs1) (readReg s rs2) then
    match s.params.divOverflow with
    | .value => writeBack k rd ov s
    | .fault => .fault (.arithmetic (abortRun .arithmetic s))
  else divideInto k q rd rs1 rs2 s

end Sys2Proof.Machine
end

