-- ==== Sys2Proof/Machine/Flags.lean ====
section
/-! DEFINITION. Comparisons and the two one-bit flags.  There are no condition codes: a comparison writes 0 or 1 into
a general register or decides a branch (spec/10_state.md rules R46 to R48). -/

namespace Sys2Proof.Machine

/-- 1 or 0 as a Word (R213). -/
def boolWord (b : Bool) : Word := if b then 1#32 else 0#32

/-- `a <s b`, exact over the full signed range (R11, R213). -/
def lessSigned (a b : Word) : Bool := decide (sVal a < sVal b)

/-- `a <u b` (R11, R214). -/
def lessUnsigned (a b : Word) : Bool := decide (a.toNat < b.toNat)

/-- A control transfer that is taken: `npc <- target; branchIsTaken <- true`, never pc (R39, R192, R270). -/
def takeTransfer (target : Word) (s : State) : State := (s.withNpc target).withBranchIsTaken true

/-- A conditional branch: taken to `pc + imm` if `cond`, else neither npc nor the flag is written (R270). -/
def branchIf (k : OpType) (cond : Word → Word → Bool) (rs1 rs2 : RegIdx) (imm : Word) (s : State) :
    Host.Outcome State Fault Refusal :=
  if cond (readReg s rs1) (readReg s rs2) then retire k (takeTransfer (s.pc + imm) s) else retire k s

/-- A jump: the link `pc + 4` into `x[rd]`, then the transfer; the target was computed before the link is written
(R277 to R279). -/
def jumpTo (k : OpType) (rd : RegIdx) (target : Word) (s : State) : Host.Outcome State Fault Refusal :=
  retire k (takeTransfer target (writeReg s rd (s.pc + 4#32)))

/-- The program-exit flag (R47, R290). -/
def setComplete (s : State) : State := s.withComplete true

end Sys2Proof.Machine
end

