-- ==== Sys2Proof/Machine/AluImm.lean ====
section
/-! DEFINITION. Register-immediate integer instructions, LUI and AUIPC (spec/42_alu_imm.md rules R230 to R241). -/

namespace Sys2Proof.Machine

/-- ADDI (R230). -/
def execAddi (rd rs1 : RegIdx) (imm : Word) (s : State) : Host.Outcome State Fault Refusal :=
  writeBack .addi rd (readReg s rs1 + imm) s

/-- SLTI (R231). -/
def execSlti (rd rs1 : RegIdx) (imm : Word) (s : State) : Host.Outcome State Fault Refusal :=
  writeBack .slti rd (boolWord (lessSigned (readReg s rs1) imm)) s

/-- SLTIU (R232). -/
def execSltiu (rd rs1 : RegIdx) (imm : Word) (s : State) : Host.Outcome State Fault Refusal :=
  writeBack .sltiu rd (boolWord (lessUnsigned (readReg s rs1) imm)) s

/-- XORI (R233). -/
def execXori (rd rs1 : RegIdx) (imm : Word) (s : State) : Host.Outcome State Fault Refusal :=
  writeBack .xori rd (readReg s rs1 ^^^ imm) s

/-- ORI (R234). -/
def execOri (rd rs1 : RegIdx) (imm : Word) (s : State) : Host.Outcome State Fault Refusal :=
  writeBack .ori rd (readReg s rs1 ||| imm) s

/-- ANDI (R235). -/
def execAndi (rd rs1 : RegIdx) (imm : Word) (s : State) : Host.Outcome State Fault Refusal :=
  writeBack .andi rd (readReg s rs1 &&& imm) s

/-- SLLI (R236). -/
def execSlli (rd rs1 : RegIdx) (imm : Word) (s : State) : Host.Outcome State Fault Refusal :=
  writeBack .slli rd (shiftLeft (readReg s rs1) imm) s

/-- SRLI (R237). -/
def execSrli (rd rs1 : RegIdx) (imm : Word) (s : State) : Host.Outcome State Fault Refusal :=
  writeBack .srli rd (shiftRightLogical (readReg s rs1) imm) s

/-- SRAI (R238). -/
def execSrai (rd rs1 : RegIdx) (imm : Word) (s : State) : Host.Outcome State Fault Refusal :=
  writeBack .srai rd (shiftRightArith (readReg s rs1) imm) s

/-- LUI: the immediate as the decoder shifted it (R154, R239). -/
def execLui (rd : RegIdx) (imm : Word) (s : State) : Host.Outcome State Fault Refusal :=
  writeBack .lui rd imm s

/-- AUIPC: `pc + imm`, pc the address of the AUIPC (R240). -/
def execAuipc (rd : RegIdx) (imm : Word) (s : State) : Host.Outcome State Fault Refusal :=
  writeBack .auipc rd (s.pc + imm) s

end Sys2Proof.Machine
end

