-- ==== Sys2Proof/Machine/AluReg.lean ====
section
/-! DEFINITION. Register-register integer instructions (spec/41_alu_reg.md rules R210 to R220). -/

namespace Sys2Proof.Machine

/-- ADD (R210). -/
def execAdd (rd rs1 rs2 : RegIdx) (s : State) : Host.Outcome State Fault Refusal :=
  writeBack .add rd (readReg s rs1 + readReg s rs2) s

/-- SUB (R211). -/
def execSub (rd rs1 rs2 : RegIdx) (s : State) : Host.Outcome State Fault Refusal :=
  writeBack .sub rd (readReg s rs1 - readReg s rs2) s

/-- SLL (R212). -/
def execSll (rd rs1 rs2 : RegIdx) (s : State) : Host.Outcome State Fault Refusal :=
  writeBack .sll rd (shiftLeft (readReg s rs1) (readReg s rs2)) s

/-- SLT (R213). -/
def execSlt (rd rs1 rs2 : RegIdx) (s : State) : Host.Outcome State Fault Refusal :=
  writeBack .slt rd (boolWord (lessSigned (readReg s rs1) (readReg s rs2))) s

/-- SLTU (R214). -/
def execSltu (rd rs1 rs2 : RegIdx) (s : State) : Host.Outcome State Fault Refusal :=
  writeBack .sltu rd (boolWord (lessUnsigned (readReg s rs1) (readReg s rs2))) s

/-- XOR (R215). -/
def execXor (rd rs1 rs2 : RegIdx) (s : State) : Host.Outcome State Fault Refusal :=
  writeBack .xor rd (readReg s rs1 ^^^ readReg s rs2) s

/-- SRL (R216). -/
def execSrl (rd rs1 rs2 : RegIdx) (s : State) : Host.Outcome State Fault Refusal :=
  writeBack .srl rd (shiftRightLogical (readReg s rs1) (readReg s rs2)) s

/-- SRA (R217). -/
def execSra (rd rs1 rs2 : RegIdx) (s : State) : Host.Outcome State Fault Refusal :=
  writeBack .sra rd (shiftRightArith (readReg s rs1) (readReg s rs2)) s

/-- OR (R218). -/
def execOr (rd rs1 rs2 : RegIdx) (s : State) : Host.Outcome State Fault Refusal :=
  writeBack .or rd (readReg s rs1 ||| readReg s rs2) s

/-- AND (R219). -/
def execAnd (rd rs1 rs2 : RegIdx) (s : State) : Host.Outcome State Fault Refusal :=
  writeBack .and rd (readReg s rs1 &&& readReg s rs2) s

end Sys2Proof.Machine
end

