-- ==== Sys2Proof/Machine/Control.lean ====
section
/-! DEFINITION. Control transfer (spec/44_control_transfer.md rules R270 to R281). -/

namespace Sys2Proof.Machine

/-- BEQ (R271). -/
def execBeq (rs1 rs2 : RegIdx) (imm : Word) (s : State) : Host.Outcome State Fault Refusal :=
  branchIf .beq (fun a b => a == b) rs1 rs2 imm s

/-- BNE (R272). -/
def execBne (rs1 rs2 : RegIdx) (imm : Word) (s : State) : Host.Outcome State Fault Refusal :=
  branchIf .bne (fun a b => a != b) rs1 rs2 imm s

/-- BLT (R273). -/
def execBlt (rs1 rs2 : RegIdx) (imm : Word) (s : State) : Host.Outcome State Fault Refusal :=
  branchIf .blt lessSigned rs1 rs2 imm s

/-- BGE (R274). -/
def execBge (rs1 rs2 : RegIdx) (imm : Word) (s : State) : Host.Outcome State Fault Refusal :=
  branchIf .bge (fun a b => !lessSigned a b) rs1 rs2 imm s

/-- BLTU (R275). -/
def execBltu (rs1 rs2 : RegIdx) (imm : Word) (s : State) : Host.Outcome State Fault Refusal :=
  branchIf .bltu lessUnsigned rs1 rs2 imm s

/-- BGEU (R276). -/
def execBgeu (rs1 rs2 : RegIdx) (imm : Word) (s : State) : Host.Outcome State Fault Refusal :=
  branchIf .bgeu (fun a b => !lessUnsigned a b) rs1 rs2 imm s

/-- JAL (R277). -/
def execJal (rd : RegIdx) (imm : Word) (s : State) : Host.Outcome State Fault Refusal :=
  jumpTo .jal rd (s.pc + imm) s

/-- JALR: the target from the old `x[rs1]`, with bit 0 cleared (R278, R279). -/
def execJalr (rd rs1 : RegIdx) (imm : Word) (s : State) : Host.Outcome State Fault Refusal :=
  jumpTo .jalr rd (setBit (readReg s rs1 + imm) 0 false) s

end Sys2Proof.Machine
end

