-- ==== Sys2Proof/Machine/LoadStore.lean ====
section
/-! DEFINITION. Loads and stores (spec/43_load_store.md rules R250 to R260). -/

namespace Sys2Proof.Machine

/-- LB (R251). -/
def execLb (rd rs1 : RegIdx) (imm : Word) (s : State) : Host.Outcome State Fault Refusal :=
  loadInto .lb .byte (signedLoad .byte) rd rs1 imm s

/-- LH (R252). -/
def execLh (rd rs1 : RegIdx) (imm : Word) (s : State) : Host.Outcome State Fault Refusal :=
  loadInto .lh .half (signedLoad .half) rd rs1 imm s

/-- LW (R253). -/
def execLw (rd rs1 : RegIdx) (imm : Word) (s : State) : Host.Outcome State Fault Refusal :=
  loadInto .lw .word id rd rs1 imm s

/-- LBU (R254). -/
def execLbu (rd rs1 : RegIdx) (imm : Word) (s : State) : Host.Outcome State Fault Refusal :=
  loadInto .lbu .byte (unsignedLoad .byte) rd rs1 imm s

/-- LHU (R255). -/
def execLhu (rd rs1 : RegIdx) (imm : Word) (s : State) : Host.Outcome State Fault Refusal :=
  loadInto .lhu .half (unsignedLoad .half) rd rs1 imm s

/-- SB (R256). -/
def execSb (rs1 rs2 : RegIdx) (imm : Word) (s : State) : Host.Outcome State Fault Refusal :=
  storeFrom .sb .byte rs1 rs2 imm s

/-- SH (R257). -/
def execSh (rs1 rs2 : RegIdx) (imm : Word) (s : State) : Host.Outcome State Fault Refusal :=
  storeFrom .sh .half rs1 rs2 imm s

/-- SW (R258). -/
def execSw (rs1 rs2 : RegIdx) (imm : Word) (s : State) : Host.Outcome State Fault Refusal :=
  storeFrom .sw .word rs1 rs2 imm s

end Sys2Proof.Machine
end

