-- ==== Sys2Proof/Machine/MulDiv.lean ====
section
/-! DEFINITION. Multiply and divide (spec/46_muldiv.md rules R310 to R320). -/

namespace Sys2Proof.Machine

/-- MUL, low word (R311). -/
def execMul (rd rs1 rs2 : RegIdx) (s : State) : Host.Outcome State Fault Refusal :=
  writeBack .mul rd (readReg s rs1 * readReg s rs2) s

/-- MULH, high word (R312). -/
def execMulh (rd rs1 rs2 : RegIdx) (s : State) : Host.Outcome State Fault Refusal :=
  writeBack .mulh rd (highWord (sVal (readReg s rs1)) (sVal (readReg s rs2))) s

/-- MULHSU, high word (R313). -/
def execMulhsu (rd rs1 rs2 : RegIdx) (s : State) : Host.Outcome State Fault Refusal :=
  writeBack .mulhsu rd (highWord (sVal (readReg s rs1)) (uVal (readReg s rs2))) s

/-- MULHU, high word (R314). -/
def execMulhu (rd rs1 rs2 : RegIdx) (s : State) : Host.Outcome State Fault Refusal :=
  writeBack .mulhu rd (highWord (uVal (readReg s rs1)) (uVal (readReg s rs2))) s

/-- DIV (R315, R319). -/
def execDiv (rd rs1 rs2 : RegIdx) (s : State) : Host.Outcome State Fault Refusal :=
  signedDivideInto .div signedQuotient 0x80000000#32 rd rs1 rs2 s

/-- DIVU (R316). -/
def execDivu (rd rs1 rs2 : RegIdx) (s : State) : Host.Outcome State Fault Refusal :=
  divideInto .divu unsignedQuotient rd rs1 rs2 s

/-- REM (R317, R319). -/
def execRem (rd rs1 rs2 : RegIdx) (s : State) : Host.Outcome State Fault Refusal :=
  signedDivideInto .rem signedRemainder 0#32 rd rs1 rs2 s

/-- REMU (R318). -/
def execRemu (rd rs1 rs2 : RegIdx) (s : State) : Host.Outcome State Fault Refusal :=
  divideInto .remu unsignedRemainder rd rs1 rs2 s

end Sys2Proof.Machine
end

