-- ==== Sys2Proof/Machine/System.lean ====
section
/-! DEFINITION. System, fence and CSR instructions (spec/45_system_csr.md rules R290 to R304). -/

namespace Sys2Proof.Machine

/-- ECALL: `complete <- true` and nothing else; it is no trap (R290). -/
def execEcall (s : State) : Host.Outcome State Fault Refusal :=
  retire .ecall (setComplete s)

/-- EBREAK: a recognised kind without a handler, so step 1 raises Illegal-Instruction (R191, R291). -/
def execEbreak (s : State) : Host.Outcome State Fault Refusal :=
  .fault (.illegalInstruction (abortRun .illegalInstruction s))

/-- FENCE: the handler returns at once (R292). -/
def execFence (s : State) : Host.Outcome State Fault Refusal :=
  retire .fence s

/-- CSRRW (R295). -/
def execCsrrw (rd : RegIdx) (csr : CsrIdx) (rs1 : RegIdx) (s : State) : Host.Outcome State Fault Refusal :=
  csrModify .csrrw (fun _ src => src) rd csr (readReg s rs1) s

/-- CSRRS (R296). -/
def execCsrrs (rd : RegIdx) (csr : CsrIdx) (rs1 : RegIdx) (s : State) : Host.Outcome State Fault Refusal :=
  csrModify .csrrs (fun old src => old ||| src) rd csr (readReg s rs1) s

/-- CSRRC (R297). -/
def execCsrrc (rd : RegIdx) (csr : CsrIdx) (rs1 : RegIdx) (s : State) : Host.Outcome State Fault Refusal :=
  csrModify .csrrc (fun old src => old &&& ~~~ src) rd csr (readReg s rs1) s

/-- CSRRWI (R298). -/
def execCsrrwi (rd : RegIdx) (csr : CsrIdx) (imm : Word) (s : State) : Host.Outcome State Fault Refusal :=
  csrModify .csrrwi (fun _ src => src) rd csr imm s

/-- CSRRSI (R299). -/
def execCsrrsi (rd : RegIdx) (csr : CsrIdx) (imm : Word) (s : State) : Host.Outcome State Fault Refusal :=
  csrModify .csrrsi (fun old src => old ||| src) rd csr imm s

/-- CSRRCI (R300). -/
def execCsrrci (rd : RegIdx) (csr : CsrIdx) (imm : Word) (s : State) : Host.Outcome State Fault Refusal :=
  csrModify .csrrci (fun old src => old &&& ~~~ src) rd csr imm s

end Sys2Proof.Machine
end

