-- ==== Sys2Proof/Machine/Unimplemented.lean ====
section
/-! DEFINITION. The recognised, unimplemented classes and the words that are UNKNOWN (spec/47_unimplemented.md rules R330 to R336). -/

namespace Sys2Proof.Machine

/-- The handler of every class kind: `raise Not-Implemented`, with no state changed (R330, R335). -/
def raiseNotImplemented (s : State) : Host.Outcome State Fault Refusal :=
  .fault (.notImplemented (abortRun .notImplemented s))

/-- Executing UNKNOWN: step 1 raises Illegal-Instruction, with no state changed (R191, R334). -/
def execUnknown (s : State) : Host.Outcome State Fault Refusal :=
  .fault (.illegalInstruction (abortRun .illegalInstruction s))

/-- fpLoad (R330). -/
def execFpLoad (_rd _rs1 _rs2 _rs3 : RegIdx) (_rm : RmField) (s : State) : Host.Outcome State Fault Refusal :=
  raiseNotImplemented s

/-- fpStore (R330). -/
def execFpStore (_rd _rs1 _rs2 _rs3 : RegIdx) (_rm : RmField) (s : State) : Host.Outcome State Fault Refusal :=
  raiseNotImplemented s

/-- fpMadd (R330). -/
def execFpMadd (_rd _rs1 _rs2 _rs3 : RegIdx) (_rm : RmField) (s : State) : Host.Outcome State Fault Refusal :=
  raiseNotImplemented s

/-- fpMsub (R330). -/
def execFpMsub (_rd _rs1 _rs2 _rs3 : RegIdx) (_rm : RmField) (s : State) : Host.Outcome State Fault Refusal :=
  raiseNotImplemented s

/-- fpNmsub (R330). -/
def execFpNmsub (_rd _rs1 _rs2 _rs3 : RegIdx) (_rm : RmField) (s : State) : Host.Outcome State Fault Refusal :=
  raiseNotImplemented s

/-- fpNmadd (R330). -/
def execFpNmadd (_rd _rs1 _rs2 _rs3 : RegIdx) (_rm : RmField) (s : State) : Host.Outcome State Fault Refusal :=
  raiseNotImplemented s

/-- fpOp (R330). -/
def execFpOp (_rd _rs1 _rs2 _rs3 : RegIdx) (_rm : RmField) (s : State) : Host.Outcome State Fault Refusal :=
  raiseNotImplemented s

/-- amo (R332). -/
def execAmo (_rd _rs1 _rs2 _rs3 : RegIdx) (_rm : RmField) (s : State) : Host.Outcome State Fault Refusal :=
  raiseNotImplemented s

/-- compressed00 (R333). -/
def execCompressed00 (_rd _rs1 _rs2 _rs3 : RegIdx) (_rm : RmField) (s : State) : Host.Outcome State Fault Refusal :=
  raiseNotImplemented s

/-- compressed01 (R333). -/
def execCompressed01 (_rd _rs1 _rs2 _rs3 : RegIdx) (_rm : RmField) (s : State) : Host.Outcome State Fault Refusal :=
  raiseNotImplemented s

/-- compressed10 (R333). -/
def execCompressed10 (_rd _rs1 _rs2 _rs3 : RegIdx) (_rm : RmField) (s : State) : Host.Outcome State Fault Refusal :=
  raiseNotImplemented s

end Sys2Proof.Machine
end

