-- ==== Sys2Proof/Machine/Dispatch.lean ====
section
/-! DEFINITION. The handler table of spec/40_executor_dispatch.md rule R197: one arm per constructor of `Instr`. -/

namespace Sys2Proof.Machine

/-- `execute(I, S)` for an instruction of the table: its handler, the uniform pc update, the counters (R190). -/
def exec (i : Instr) (s : State) : Host.Outcome State Fault Refusal :=
  match i with
  | .add rd rs1 rs2 => Sys2Proof.Machine.execAdd rd rs1 rs2 s
  | .sub rd rs1 rs2 => Sys2Proof.Machine.execSub rd rs1 rs2 s
  | .sll rd rs1 rs2 => Sys2Proof.Machine.execSll rd rs1 rs2 s
  | .slt rd rs1 rs2 => Sys2Proof.Machine.execSlt rd rs1 rs2 s
  | .sltu rd rs1 rs2 => Sys2Proof.Machine.execSltu rd rs1 rs2 s
  | .xor rd rs1 rs2 => Sys2Proof.Machine.execXor rd rs1 rs2 s
  | .srl rd rs1 rs2 => Sys2Proof.Machine.execSrl rd rs1 rs2 s
  | .sra rd rs1 rs2 => Sys2Proof.Machine.execSra rd rs1 rs2 s
  | .or rd rs1 rs2 => Sys2Proof.Machine.execOr rd rs1 rs2 s
  | .and rd rs1 rs2 => Sys2Proof.Machine.execAnd rd rs1 rs2 s
  | .mul rd rs1 rs2 => Sys2Proof.Machine.execMul rd rs1 rs2 s
  | .mulh rd rs1 rs2 => Sys2Proof.Machine.execMulh rd rs1 rs2 s
  | .mulhsu rd rs1 rs2 => Sys2Proof.Machine.execMulhsu rd rs1 rs2 s
  | .mulhu rd rs1 rs2 => Sys2Proof.Machine.execMulhu rd rs1 rs2 s
  | .div rd rs1 rs2 => Sys2Proof.Machine.execDiv rd rs1 rs2 s
  | .divu rd rs1 rs2 => Sys2Proof.Machine.execDivu rd rs1 rs2 s
  | .rem rd rs1 rs2 => Sys2Proof.Machine.execRem rd rs1 rs2 s
  | .remu rd rs1 rs2 => Sys2Proof.Machine.execRemu rd rs1 rs2 s
  | .addi rd rs1 imm => Sys2Proof.Machine.execAddi rd rs1 imm s
  | .slti rd rs1 imm => Sys2Proof.Machine.execSlti rd rs1 imm s
  | .sltiu rd rs1 imm => Sys2Proof.Machine.execSltiu rd rs1 imm s
  | .xori rd rs1 imm => Sys2Proof.Machine.execXori rd rs1 imm s
  | .ori rd rs1 imm => Sys2Proof.Machine.execOri rd rs1 imm s
  | .andi rd rs1 imm => Sys2Proof.Machine.execAndi rd rs1 imm s
  | .slli rd rs1 imm => Sys2Proof.Machine.execSlli rd rs1 imm s
  | .srli rd rs1 imm => Sys2Proof.Machine.execSrli rd rs1 imm s
  | .srai rd rs1 imm => Sys2Proof.Machine.execSrai rd rs1 imm s
  | .lui rd imm => Sys2Proof.Machine.execLui rd imm s
  | .auipc rd imm => Sys2Proof.Machine.execAuipc rd imm s
  | .jal rd imm => Sys2Proof.Machine.execJal rd imm s
  | .jalr rd rs1 imm => Sys2Proof.Machine.execJalr rd rs1 imm s
  | .lb rd rs1 imm => Sys2Proof.Machine.execLb rd rs1 imm s
  | .lh rd rs1 imm => Sys2Proof.Machine.execLh rd rs1 imm s
  | .lw rd rs1 imm => Sys2Proof.Machine.execLw rd rs1 imm s
  | .lbu rd rs1 imm => Sys2Proof.Machine.execLbu rd rs1 imm s
  | .lhu rd rs1 imm => Sys2Proof.Machine.execLhu rd rs1 imm s
  | .sb rs1 rs2 imm => Sys2Proof.Machine.execSb rs1 rs2 imm s
  | .sh rs1 rs2 imm => Sys2Proof.Machine.execSh rs1 rs2 imm s
  | .sw rs1 rs2 imm => Sys2Proof.Machine.execSw rs1 rs2 imm s
  | .beq rs1 rs2 imm => Sys2Proof.Machine.execBeq rs1 rs2 imm s
  | .bne rs1 rs2 imm => Sys2Proof.Machine.execBne rs1 rs2 imm s
  | .blt rs1 rs2 imm => Sys2Proof.Machine.execBlt rs1 rs2 imm s
  | .bge rs1 rs2 imm => Sys2Proof.Machine.execBge rs1 rs2 imm s
  | .bltu rs1 rs2 imm => Sys2Proof.Machine.execBltu rs1 rs2 imm s
  | .bgeu rs1 rs2 imm => Sys2Proof.Machine.execBgeu rs1 rs2 imm s
  | .fence => Sys2Proof.Machine.execFence s
  | .ecall => Sys2Proof.Machine.execEcall s
  | .ebreak => Sys2Proof.Machine.execEbreak s
  | .csrrw rd csr rs1 => Sys2Proof.Machine.execCsrrw rd csr rs1 s
  | .csrrs rd csr rs1 => Sys2Proof.Machine.execCsrrs rd csr rs1 s
  | .csrrc rd csr rs1 => Sys2Proof.Machine.execCsrrc rd csr rs1 s
  | .csrrwi rd csr imm => Sys2Proof.Machine.execCsrrwi rd csr imm s
  | .csrrsi rd csr imm => Sys2Proof.Machine.execCsrrsi rd csr imm s
  | .csrrci rd csr imm => Sys2Proof.Machine.execCsrrci rd csr imm s
  | .fpLoad rd rs1 rs2 rs3 rm => Sys2Proof.Machine.execFpLoad rd rs1 rs2 rs3 rm s
  | .fpStore rd rs1 rs2 rs3 rm => Sys2Proof.Machine.execFpStore rd rs1 rs2 rs3 rm s
  | .fpMadd rd rs1 rs2 rs3 rm => Sys2Proof.Machine.execFpMadd rd rs1 rs2 rs3 rm s
  | .fpMsub rd rs1 rs2 rs3 rm => Sys2Proof.Machine.execFpMsub rd rs1 rs2 rs3 rm s
  | .fpNmsub rd rs1 rs2 rs3 rm => Sys2Proof.Machine.execFpNmsub rd rs1 rs2 rs3 rm s
  | .fpNmadd rd rs1 rs2 rs3 rm => Sys2Proof.Machine.execFpNmadd rd rs1 rs2 rs3 rm s
  | .fpOp rd rs1 rs2 rs3 rm => Sys2Proof.Machine.execFpOp rd rs1 rs2 rs3 rm s
  | .amo rd rs1 rs2 rs3 rm => Sys2Proof.Machine.execAmo rd rs1 rs2 rs3 rm s
  | .compressed00 rd rs1 rs2 rs3 rm => Sys2Proof.Machine.execCompressed00 rd rs1 rs2 rs3 rm s
  | .compressed01 rd rs1 rs2 rs3 rm => Sys2Proof.Machine.execCompressed01 rd rs1 rs2 rs3 rm s
  | .compressed10 rd rs1 rs2 rs3 rm => Sys2Proof.Machine.execCompressed10 rd rs1 rs2 rs3 rm s

end Sys2Proof.Machine
end

