-- ==== Sys2Proof/Machine/Hart.lean ====
section
/-! DEFINITION. The hart loop (spec/48_hart_loop.md): launch, block building, the block cache, the end of a block. -/

namespace Sys2Proof.Machine

/-! ### Building a basic block (R347 to R352) -/

/-- What a block build answers: a block, a fetch fault at an address, or no end within the address space. -/
inductive Build where
  | block (b : List Decoded) (m : Mem)
  | misaligned (a : Word) (m : Mem)
  | unmapped (a : Word) (m : Mem)
  | endless
  deriving DecidableEq, Repr

/-- A build with one more record in front. -/
def Build.push (d : Decoded) : Build → Build
  | .block b m => .block (d :: b) m
  | .misaligned a m => .misaligned a m
  | .unmapped a m => .unmapped a m
  | .endless => .endless

/-- `build`: fetch and decode word after word, each fetch an ordinary `loadWord`, up to and including the first
`isBranch` record (R347, R349); at most `fuel` words. -/
def buildFrom (p : Params) : Nat → Mem → Word → Build
  | 0, _, _ => .endless
  | fuel + 1, m, a =>
    match m.load p.tlbBits .word a with
    | .misaligned => .misaligned a m
    | .unmapped m' => .unmapped a m'
    | .done w m' =>
      if (decode p.mFull w).isBranch then .block [decode p.mFull w] m'
      else (buildFrom p fuel m' (a + 4#32)).push (decode p.mFull w)

/-- The number of words of the address space: a build that has read them all without meeting an `isBranch` record is
back at its entry and never ends (R352). -/
def wordsOfAddressSpace : Nat := 2 ^ 30

/-- `build(e)` (R347). -/
def build (s : State) (e : Word) : Build := buildFrom s.params wordsOfAddressSpace s.mem e

/-! ### Entering a block and taking its next instruction (R347) -/

/-- What fetching answers: a decoded instruction and the state in which to execute it, a fetch fault, or no step. -/
inductive Fetched where
  | ready (d : Decoded) (s : State)
  | fault (f : Fault)
  | noStep (r : Refusal)
  deriving DecidableEq, Repr

/-- The first instruction of a block, the rest pending; an empty block, which no build makes (R348), never ends. -/
def startBlock (b : List Decoded) (s : State) : Fetched :=
  match b with
  | d :: rest => .ready d (s.withPending rest)
  | [] => .noStep .endlessBlock

/-- The block at pc: from BBCache if it is there, else built and inserted.  A fault of the build leaves pc at the
block's entry, inserts nothing, and keeps what the fetches did to Memory's counters (R351). -/
def enterBlock (s : State) : Fetched :=
  match lookupKey s.pc.toNat s.blocks with
  | some b => startBlock b s
  | none =>
    match build s s.pc with
    | .block b m => startBlock b ((s.withMem m).withBlocks (insertKey s.pc.toNat b s.blocks))
    | .misaligned a m => .fault (.misalignedAccess a (abortRun .misalignedAccess (s.withMem m)))
    | .unmapped a m => .fault (.pageFault a (abortRun .pageFault (s.withMem m)))
    | .endless => .noStep .endlessBlock

/-- The next instruction of the loop of R347: the rest of the current block first; at its end `complete` is tested
(R353) and the block at pc is entered. -/
def fetch (s : State) : Fetched :=
  match s.status with
  | .halted => .noStep .halted
  | .faulted k => .noStep (.aborted k)
  | .running =>
    match s.pending with
    | d :: rest => .ready d (s.withPending rest)
    | [] => if s.complete then .noStep .halted else enterBlock s

/-- The end of a loop iteration: when the block is exhausted and `complete` is true the status becomes Halted (R60,
R353). -/
def endIteration (s : State) : State :=
  if s.pending = [] ∧ s.complete = true then s.withStatus .halted else s

/-- `endIteration` of the next state of an outcome. -/
def finish : Host.Outcome State Fault Refusal → Host.Outcome State Fault Refusal
  | .next t => .next (endIteration t)
  | .fault f => .fault f
  | .refused r => .refused r

/-! ### Launch (R345, R346) -/

/-- The launch arguments: `ENTRY`, `PRELOAD`, the OPEN parameters, and the statistics and TLB content that the preload
leaves, which the source does not give (R6, R346, log entry 9; of a preload that fails, log entry 21). -/
structure LaunchArgs where
  params    : Params
  entry     : Word
  preload   : List (Word × List Word)
  tlb       : Tlb
  numLoads  : Nat
  numStores : Nat
  hits      : Nat
  misses    : Nat
  requests  : Nat
  deriving DecidableEq, Repr

/-- The preload ranges written in list order (R345); the misaligned start of a range ends it (R103). -/
def preloadAll (m : Mem) : List (Word × List Word) → Except (Word × Mem) Mem
  | [] => .ok m
  | (start, ws) :: rest =>
    match m.storeRange start ws with
    | some m' => preloadAll m' rest
    | none => .error (start, m)

/-- Memory after the preload, with the statistics and TLB content the arguments give. -/
def LaunchArgs.afterPreload (l : LaunchArgs) (m : Mem) : Mem :=
  { m with tlb := l.tlb, numLoads := l.numLoads, numStores := l.numStores, hits := l.hits, misses := l.misses,
           requests := l.requests }

/-- Construction of the hart (R345): reset values, `pc <- ENTRY`, the preload, status Running; a misaligned range
raises Misaligned-Access and the launch fails (R103).  What a failed launch leaves is the model's choice (DESIGN CHOICE, log
entry 21): the ranges before the misaligned one written, statistics and TLB content as the arguments give them, free as
after a preload that succeeds. -/
def launch (l : LaunchArgs) : Except Fault State :=
  match preloadAll Mem.empty l.preload with
  | .ok m => .ok ((State.initial l.params l.entry).withMem (l.afterPreload m))
  | .error (a, m) =>
    .error (.misalignedAccess a
      (abortRun .misalignedAccess ((State.initial l.params l.entry).withMem (l.afterPreload m))))

/-! ### Placing one instruction where the next step fetches it (log entry 5) -/

/-- The word that ends the block after a placed word: ECALL. -/
def terminatorWord : Word := 0x00000073#32

/-- Memory with `w` at `a` and, when `w` does not itself end a block, the terminator at `a + 4`, which the
fetch-ahead of R350 needs. -/
def placeWords (p : Params) (m : Mem) (a w : Word) : Mem :=
  if (decode p.mFull w).isBranch then m.pokeWord a w
  else (m.pokeWord a w).pokeWord (a + 4#32) terminatorWord

/-- `s` at a block boundary, running, with the word `w` at its (aligned) pc and no cached block there. -/
def placeAtPc (s : State) (w : Word) : State :=
  { s with
    pc            := BitVec.ofNat 32 (4 * (s.pc.toNat / 4))
    branchIsTaken := false
    complete      := false
    status        := .running
    pending       := []
    blocks        := eraseKey (4 * (s.pc.toNat / 4)) s.blocks
    mem           := placeWords s.params s.mem (BitVec.ofNat 32 (4 * (s.pc.toNat / 4))) w }

end Sys2Proof.Machine
end

