-- ==== Sys2Proof/Machine/Step.lean ====
section
/-! DEFINITION. One step of the machine: the next instruction of the hart loop, executed whole (spec/40 rule R190,
spec/48 rule R347, log entry 7). -/

namespace Sys2Proof.Machine

/-- `execute` of what the decoder answered: the table's instructions, or UNKNOWN (R190, R191). -/
def execDecoded (d : Decoded) (s : State) : Host.Outcome State Fault Refusal :=
  match d with
  | .instr i => exec i s
  | .unknown => execUnknown s

/-- One step: fetch (from the current block, the block cache, or by building a block), execute, end of iteration. -/
def step (s : State) : Host.Outcome State Fault Refusal :=
  match fetch s with
  | .ready d s' => finish (execDecoded d s')
  | .fault f => .fault f
  | .noStep r => .refused r

/-- `s` with the instruction of `nbits` bits `w` where the next step fetches (log entry 5). -/
def State.withFetchWord (s : State) (nbits w : Nat) : State := placeAtPc s (BitVec.ofNat 32 (w % 2 ^ nbits))

end Sys2Proof.Machine
end

