-- ==== Sys2Proof/Machine/Assembler.lean ====
section
/-! DEFINITION. Assembler names, syntax and pseudo-instructions (spec/10_state.md rule R32, spec/30_encoding.md rules
R175, R176).  The hardware knows none of it; no meaning uses it.  The class kinds have no assembler form in R175 and are
written by kind and fields. -/

namespace Sys2Proof

/-- The ABI names of x0 .. x31, in order (R32); x8 is also fp. -/
def abiNames : List String :=
  ["zero", "ra", "sp", "gp", "tp", "t0", "t1", "t2", "s0", "s1", "a0", "a1", "a2", "a3", "a4", "a5"] ++
  ["a6", "a7", "s2", "s3", "s4", "s5", "s6", "s7", "s8", "s9", "s10", "s11", "t3", "t4", "t5", "t6"]

/-- The ABI name of a register (R32). -/
def abiName (r : RegIdx) : String := abiNames.getD r.toNat ""

/-- The name of a register as the source writes it, `x0` .. `x31` (R32). -/
def regName (r : RegIdx) : String := "x" ++ toString r.toNat

/-- A signed decimal immediate. -/
def immText (v : Word) : String := toString v.toInt

/-- The name of a CSR: one of the six names of R175, else its number. -/
def csrName (c : CsrIdx) : String :=
  if c = 0xC00#12 then "cycle"
  else if c = 0xC01#12 then "time"
  else if c = 0xC02#12 then "instret"
  else if c = 0xC80#12 then "cycleh"
  else if c = 0xC81#12 then "timeh"
  else if c = 0xC82#12 then "instreth"
  else toString c.toNat

/-- `op rd, rs1, rs2` (R175). -/
def asmR (op : String) (a b c : RegIdx) : String := op ++ " " ++ regName a ++ ", " ++ regName b ++ ", " ++ regName c

/-- `op rd, rs1, imm`, and `op rs1, rs2, offset` of the branches (R175). -/
def asmI (op : String) (a b : RegIdx) (v : Word) : String :=
  op ++ " " ++ regName a ++ ", " ++ regName b ++ ", " ++ immText v

/-- `op rd, imm(rs1)` and `op rs2, imm(rs1)` (R175). -/
def asmM (op : String) (a : RegIdx) (v : Word) (base : RegIdx) : String :=
  op ++ " " ++ regName a ++ ", " ++ immText v ++ "(" ++ regName base ++ ")"

/-- `op rd, n` (R175). -/
def asmU (op : String) (a : RegIdx) (n : String) : String := op ++ " " ++ regName a ++ ", " ++ n

/-- `op rd, csr, src` (R175). -/
def asmC (op : String) (a : RegIdx) (c : CsrIdx) (src : String) : String :=
  op ++ " " ++ regName a ++ ", " ++ csrName c ++ ", " ++ src

/-- An extension class word, by kind and fields. -/
def asmClass (op : String) (rd rs1 rs2 rs3 : RegIdx) (rm : RmField) : String :=
  op ++ " " ++ regName rd ++ ", " ++ regName rs1 ++ ", " ++ regName rs2 ++ ", " ++ regName rs3 ++ ", " ++ toString rm.toNat

/-- The text of an instruction (R175); a branch or jump shows its offset. -/
def Instr.asm (i : Instr) : String :=
  match i with
  | .add rd rs1 rs2 => asmR "add" rd rs1 rs2
  | .sub rd rs1 rs2 => asmR "sub" rd rs1 rs2
  | .sll rd rs1 rs2 => asmR "sll" rd rs1 rs2
  | .slt rd rs1 rs2 => asmR "slt" rd rs1 rs2
  | .sltu rd rs1 rs2 => asmR "sltu" rd rs1 rs2
  | .xor rd rs1 rs2 => asmR "xor" rd rs1 rs2
  | .srl rd rs1 rs2 => asmR "srl" rd rs1 rs2
  | .sra rd rs1 rs2 => asmR "sra" rd rs1 rs2
  | .or rd rs1 rs2 => asmR "or" rd rs1 rs2
  | .and rd rs1 rs2 => asmR "and" rd rs1 rs2
  | .mul rd rs1 rs2 => asmR "mul" rd rs1 rs2
  | .mulh rd rs1 rs2 => asmR "mulh" rd rs1 rs2
  | .mulhsu rd rs1 rs2 => asmR "mulhsu" rd rs1 rs2
  | .mulhu rd rs1 rs2 => asmR "mulhu" rd rs1 rs2
  | .div rd rs1 rs2 => asmR "div" rd rs1 rs2
  | .divu rd rs1 rs2 => asmR "divu" rd rs1 rs2
  | .rem rd rs1 rs2 => asmR "rem" rd rs1 rs2
  | .remu rd rs1 rs2 => asmR "remu" rd rs1 rs2
  | .addi rd rs1 imm => asmI "addi" rd rs1 imm
  | .slti rd rs1 imm => asmI "slti" rd rs1 imm
  | .sltiu rd rs1 imm => asmI "sltiu" rd rs1 imm
  | .xori rd rs1 imm => asmI "xori" rd rs1 imm
  | .ori rd rs1 imm => asmI "ori" rd rs1 imm
  | .andi rd rs1 imm => asmI "andi" rd rs1 imm
  | .slli rd rs1 imm => asmI "slli" rd rs1 imm
  | .srli rd rs1 imm => asmI "srli" rd rs1 imm
  | .srai rd rs1 imm => asmI "srai" rd rs1 imm
  | .lui rd imm => asmU "lui" rd (toString (bits imm 31 12))
  | .auipc rd imm => asmU "auipc" rd (toString (bits imm 31 12))
  | .jal rd imm => asmU "jal" rd (immText imm)
  | .jalr rd rs1 imm => asmM "jalr" rd imm rs1
  | .lb rd rs1 imm => asmM "lb" rd imm rs1
  | .lh rd rs1 imm => asmM "lh" rd imm rs1
  | .lw rd rs1 imm => asmM "lw" rd imm rs1
  | .lbu rd rs1 imm => asmM "lbu" rd imm rs1
  | .lhu rd rs1 imm => asmM "lhu" rd imm rs1
  | .sb rs1 rs2 imm => asmM "sb" rs2 imm rs1
  | .sh rs1 rs2 imm => asmM "sh" rs2 imm rs1
  | .sw rs1 rs2 imm => asmM "sw" rs2 imm rs1
  | .beq rs1 rs2 imm => asmI "beq" rs1 rs2 imm
  | .bne rs1 rs2 imm => asmI "bne" rs1 rs2 imm
  | .blt rs1 rs2 imm => asmI "blt" rs1 rs2 imm
  | .bge rs1 rs2 imm => asmI "bge" rs1 rs2 imm
  | .bltu rs1 rs2 imm => asmI "bltu" rs1 rs2 imm
  | .bgeu rs1 rs2 imm => asmI "bgeu" rs1 rs2 imm
  | .fence => "fence"
  | .ecall => "ecall"
  | .ebreak => "ebreak"
  | .csrrw rd csr rs1 => asmC "csrrw" rd csr (regName rs1)
  | .csrrs rd csr rs1 => asmC "csrrs" rd csr (regName rs1)
  | .csrrc rd csr rs1 => asmC "csrrc" rd csr (regName rs1)
  | .csrrwi rd csr imm => asmC "csrrwi" rd csr (toString imm.toNat)
  | .csrrsi rd csr imm => asmC "csrrsi" rd csr (toString imm.toNat)
  | .csrrci rd csr imm => asmC "csrrci" rd csr (toString imm.toNat)
  | .fpLoad rd rs1 rs2 rs3 rm => asmClass "fpLoad" rd rs1 rs2 rs3 rm
  | .fpStore rd rs1 rs2 rs3 rm => asmClass "fpStore" rd rs1 rs2 rs3 rm
  | .fpMadd rd rs1 rs2 rs3 rm => asmClass "fpMadd" rd rs1 rs2 rs3 rm
  | .fpMsub rd rs1 rs2 rs3 rm => asmClass "fpMsub" rd rs1 rs2 rs3 rm
  | .fpNmsub rd rs1 rs2 rs3 rm => asmClass "fpNmsub" rd rs1 rs2 rs3 rm
  | .fpNmadd rd rs1 rs2 rs3 rm => asmClass "fpNmadd" rd rs1 rs2 rs3 rm
  | .fpOp rd rs1 rs2 rs3 rm => asmClass "fpOp" rd rs1 rs2 rs3 rm
  | .amo rd rs1 rs2 rs3 rm => asmClass "amo" rd rs1 rs2 rs3 rm
  | .compressed00 rd rs1 rs2 rs3 rm => asmClass "compressed00" rd rs1 rs2 rs3 rm
  | .compressed01 rd rs1 rs2 rs3 rm => asmClass "compressed01" rd rs1 rs2 rs3 rm
  | .compressed10 rd rs1 rs2 rs3 rm => asmClass "compressed10" rd rs1 rs2 rs3 rm

/-- The pseudo-instructions of R176; a target is given by its distance `d` from the pseudo-instruction. -/
inductive Pseudo where
  | nop
  | li (rd : RegIdx) (imm : Word)
  | mv (rd rs : RegIdx)
  | not (rd rs : RegIdx)
  | neg (rd rs : RegIdx)
  | seqz (rd rs : RegIdx)
  | snez (rd rs : RegIdx)
  | sltz (rd rs : RegIdx)
  | sgtz (rd rs : RegIdx)
  | beqz (rs : RegIdx) (d : Word)
  | bnez (rs : RegIdx) (d : Word)
  | blez (rs : RegIdx) (d : Word)
  | bgez (rs : RegIdx) (d : Word)
  | bltz (rs : RegIdx) (d : Word)
  | bgtz (rs : RegIdx) (d : Word)
  | bgt (rs rt : RegIdx) (d : Word)
  | ble (rs rt : RegIdx) (d : Word)
  | bgtu (rs rt : RegIdx) (d : Word)
  | bleu (rs rt : RegIdx) (d : Word)
  | j (d : Word)
  | jalLink (d : Word)
  | jr (rs : RegIdx)
  | jalrLink (rs : RegIdx)
  | ret
  | call (d : Word)
  | tail (d : Word)
  | la (rd : RegIdx) (d : Word)
  | csrr (rd : RegIdx) (csr : CsrIdx)
  | csrw (csr : CsrIdx) (rs : RegIdx)
  | csrs (csr : CsrIdx) (rs : RegIdx)
  | csrc (csr : CsrIdx) (rs : RegIdx)
  | csrwi (csr : CsrIdx) (u : Word)
  | csrsi (csr : CsrIdx) (u : Word)
  | csrci (csr : CsrIdx) (u : Word)
  | rdcycle (rd : RegIdx)
  | rdcycleh (rd : RegIdx)
  | rdtime (rd : RegIdx)
  | rdtimeh (rd : RegIdx)
  | rdinstret (rd : RegIdx)
  | rdinstreth (rd : RegIdx)
  deriving DecidableEq, Repr

/-- The `imm` of the LUI or AUIPC that carries `hi20(d) = (d + 0x800)[31:12]` (R176, R154). -/
def hi20 (d : Word) : Word := BitVec.ofNat 32 (2 ^ 12 * bits (d + 0x800#32) 31 12)

/-- `lo12(d) = sext(d[11:0])` (R176). -/
def lo12 (d : Word) : Word := sextField (bits d 11 0) 12

/-- `li rd, imm`: one ADDI in its range, else LUI and, unless `imm[11:0]` = 0, ADDI (R176). -/
def expandLi (rd : RegIdx) (imm : Word) : List Instr :=
  if immI imm then [.addi rd 0#5 imm]
  else if bits imm 11 0 = 0 then [.lui rd (hi20 imm)]
  else [.lui rd (hi20 imm), .addi rd rd (lo12 imm)]

/-- The expansion of a pseudo-instruction (R176). -/
def Pseudo.expand (p : Pseudo) : List Instr :=
  match p with
  | .nop => [.addi 0#5 0#5 0#32]
  | .li rd imm => expandLi rd imm
  | .mv rd rs => [.addi rd rs 0#32]
  | .not rd rs => [.xori rd rs 0xFFFFFFFF#32]
  | .neg rd rs => [.sub rd 0#5 rs]
  | .seqz rd rs => [.sltiu rd rs 1#32]
  | .snez rd rs => [.sltu rd 0#5 rs]
  | .sltz rd rs => [.slt rd rs 0#5]
  | .sgtz rd rs => [.slt rd 0#5 rs]
  | .beqz rs d => [.beq rs 0#5 d]
  | .bnez rs d => [.bne rs 0#5 d]
  | .blez rs d => [.bge 0#5 rs d]
  | .bgez rs d => [.bge rs 0#5 d]
  | .bltz rs d => [.blt rs 0#5 d]
  | .bgtz rs d => [.blt 0#5 rs d]
  | .bgt rs rt d => [.blt rt rs d]
  | .ble rs rt d => [.bge rt rs d]
  | .bgtu rs rt d => [.bltu rt rs d]
  | .bleu rs rt d => [.bgeu rt rs d]
  | .j d => [.jal 0#5 d]
  | .jalLink d => [.jal 1#5 d]
  | .jr rs => [.jalr 0#5 rs 0#32]
  | .jalrLink rs => [.jalr 1#5 rs 0#32]
  | .ret => [.jalr 0#5 1#5 0#32]
  | .call d => [.auipc 1#5 (hi20 d), .jalr 1#5 1#5 (lo12 d)]
  | .tail d => [.auipc 6#5 (hi20 d), .jalr 0#5 6#5 (lo12 d)]
  | .la rd d => [.auipc rd (hi20 d), .addi rd rd (lo12 d)]
  | .csrr rd csr => [.csrrs rd csr 0#5]
  | .csrw csr rs => [.csrrw 0#5 csr rs]
  | .csrs csr rs => [.csrrs 0#5 csr rs]
  | .csrc csr rs => [.csrrc 0#5 csr rs]
  | .csrwi csr u => [.csrrwi 0#5 csr u]
  | .csrsi csr u => [.csrrsi 0#5 csr u]
  | .csrci csr u => [.csrrci 0#5 csr u]
  | .rdcycle rd => [.csrrs rd 0xC00#12 0#5]
  | .rdcycleh rd => [.csrrs rd 0xC80#12 0#5]
  | .rdtime rd => [.csrrs rd 0xC01#12 0#5]
  | .rdtimeh rd => [.csrrs rd 0xC81#12 0#5]
  | .rdinstret rd => [.csrrs rd 0xC02#12 0#5]
  | .rdinstreth rd => [.csrrs rd 0xC82#12 0#5]

end Sys2Proof
end

