-- ==== Sys2Proof/Safety.lean ====
section
/-! DEFINITION. What counts as a safe run and as a sound state, and the vocabulary of the statements: the invariant of
the machine, what an instruction leaves behind, the byte-level view of memory, the architectural view, and the
one-instruction-at-a-time machine of spec/48 rule R356. -/

namespace Sys2Proof.Machine

/-! ### Runs -/

/-- `t` is reached from `s` in `n` steps, none of which faults. -/
def RunsTo (n : Nat) (s t : State) : Prop := Host.Core.run core n s = .next t

/-- The run from `s` ends by ECALL in `t` (R353). -/
def HaltsIn (s t : State) : Prop := ∃ n, RunsTo n s t ∧ t.status = .halted

/-- No step of the run from `s` faults (R390). -/
def Safe (s : State) : Prop := ∀ n f, Host.Core.run core n s ≠ .fault f

/-! ### The invariant -/

/-- What holds of the Memory component at all times: the canonical forms; every byte and every handle inside the arena;
distinct pages for distinct page numbers (R52 (d)); TLB coherence (R54); hits + misses = requests (R57). -/
structure Mem.Inv (tlbBits : Nat) (m : Mem) : Prop where
  bytesCanonical : Memory.wf m.bytes
  bytesInArena   : ∀ c ∈ m.bytes, c.1 < 4096 * m.pageCount
  tableCanonical : Level1.wf m.level1
  handlesInArena : ∀ a p, walk m.level1 a = some p → p < m.pageCount
  pagesDistinct  : ∀ a b p, walk m.level1 a = some p → walk m.level1 b = some p → vpn a = vpn b
  slotsCanonical : risingKeys m.tlb
  slotsCoherent  : ∀ e ∈ m.tlb, e.1 = tlbIndex tlbBits e.2.tag ∧ walk m.level1 e.2.tag = some e.2.page
  lookupsCounted : m.hits + m.misses = m.requests

/-- The six CSR numbers of the counters (R41). -/
def counterNumbers : List Nat := [0xC00, 0xC01, 0xC02, 0xC80, 0xC81, 0xC82]

/-- The canonical form of the CSR file's sparse part. -/
structure Csrs.Canonical (f : Csrs) : Prop where
  rising  : risingKeys f.others
  inRange : ∀ e ∈ f.others, e.1 < 4096 ∧ e.1 ∉ counterNumbers ∧ e.2 ≠ 0#32

/-- A basic block, or the rest of one: it is not empty, its last element ends a block and no other does (R348). -/
def endsAtBranch : List Decoded → Bool
  | [] => false
  | [d] => d.isBranch
  | d :: e :: rest => !d.isBranch && endsAtBranch (e :: rest)

/-- What every step keeps.  `pendingInBlock` says that the instructions still to run are the tail of a cached block and
that pc is the address of the first of them (R196). -/
structure State.Inv (s : State) : Prop where
  params           : s.params.wf
  memory           : s.mem.Inv s.params.tlbBits
  zeroRegister     : s.regs[0] = 0#32
  csrFile          : s.csrs.Canonical
  flagClear        : s.branchIsTaken = false
  haltedIffEnded   : s.status = .halted ↔ s.complete = true
  endedAtBoundary  : s.complete = true → s.pending = []
  blocksCanonical  : risingKeys s.blocks
  blocksWellFormed : ∀ e ∈ s.blocks, e.1 < 2 ^ 32 ∧ e.1 % 4 = 0 ∧ endsAtBranch e.2 = true
  pendingInBlock   : s.pending ≠ [] →
    ∃ e ∈ s.blocks, ∃ k, k < e.2.length ∧ s.pending = e.2.drop k ∧ s.pc = BitVec.ofNat 32 (e.1 + 4 * k)

/-! ### What an instruction leaves behind -/

/-- The four CSRs that `updateTimers` writes (R43). -/
def tickedCsrs : List CsrIdx := [0xC00#12, 0xC80#12, 0xC02#12, 0xC82#12]

/-- The end of every instruction of kind `k` whose handler left the CSR file `f` (R193, R194): instret and cycle moved as
64-bit pairs, every other CSR as the handler left it, `icount` moved by 1, the flag clear, and what no instruction
touches: the parameters, the block cache, the rest of the block, the run status. -/
structure Retired (k : OpType) (f : Csrs) (s t : State) : Prop where
  instret   : pairValue t.csrs.instreth t.csrs.instret = (pairValue f.instreth f.instret + 1) % 2 ^ 64
  cycle     : pairValue t.csrs.cycleh t.csrs.cycle = (pairValue f.cycleh f.cycle + Config.cost k) % 2 ^ 64
  otherCsrs : ∀ c, c ∉ tickedCsrs → readCsr t c = f.get c
  icount    : t.icount = s.icount + 1
  flag      : t.branchIsTaken = false
  params    : t.params = s.params
  blocks    : t.blocks = s.blocks
  pending   : t.pending = s.pending
  status    : t.status = s.status

/-- pc moves to the next word and npc stays (R39, R193). -/
structure Advances (s t : State) : Prop where
  pc  : t.pc = s.pc + 4#32
  npc : t.npc = s.npc

/-- pc and npc hold the target (R193, R270). -/
structure TransfersTo (target : Word) (s t : State) : Prop where
  pc  : t.pc = target
  npc : t.npc = target

/-- Every register but `rd` is unchanged; x0 reads 0 whatever `rd` is. -/
structure OnlyRegister (rd : RegIdx) (s t : State) : Prop where
  others : ∀ r, r ≠ rd → readReg t r = readReg s r
  zero   : readReg t 0#5 = 0#32

/-- No register changes. -/
def SameRegisters (s t : State) : Prop := ∀ r, readReg t r = readReg s r

/-- The Memory component is unchanged, every byte of memory included. -/
structure SameMemory (s t : State) : Prop where
  bytes     : ∀ a, byteAt t a = byteAt s a
  component : t.mem = s.mem

/-- The instruction did all of this and nothing else: `x[rd] <- v` (discarded for x0), pc + 4, the counters. -/
structure WritesRegister (k : OpType) (rd : RegIdx) (v : Word) (s t : State) : Prop where
  result   : rd ≠ 0#5 → readReg t rd = v
  frame    : OnlyRegister rd s t
  memory   : SameMemory s t
  complete : t.complete = s.complete
  pc       : Advances s t
  retired  : Retired k s.csrs s t

/-- The instruction wrote no register and no memory, and left `complete` as given. -/
structure WritesNothing (k : OpType) (s t : State) : Prop where
  registers : SameRegisters s t
  memory    : SameMemory s t
  complete  : t.complete = s.complete
  retired   : Retired k s.csrs s t

/-! ### Memory accesses at the byte level (R105) -/

/-- `a` is one of the `n` addresses from `b` on. -/
def inAccess (b a : Word) (n : Nat) : Prop := ∃ i < n, a = b + BitVec.ofNat 32 i

/-- The address and the number of bytes that `i` stores to in `s`, the address being the expression `storeFrom` uses; none
for every instruction but SB, SH, SW (R198, R250). -/
def storedAt (i : Instr) (s : State) : Option (Word × Nat) :=
  match i with
  | .sb rs1 _ imm => some (effectiveAddress s rs1 imm, 1)
  | .sh rs1 _ imm => some (effectiveAddress s rs1 imm, 2)
  | .sw rs1 _ imm => some (effectiveAddress s rs1 imm, 4)
  | _ => none

/-- Every TLB slot but that of `a` is unchanged, and the mappings that existed still exist (R52 (b), R99). -/
structure TranslationFrame (a : Word) (s t : State) : Prop where
  slots    : ∀ i, i ≠ tlbIndex s.params.tlbBits a → lookupKey i t.mem.tlb = lookupKey i s.mem.tlb
  mappings : ∀ b p, walk s.mem.level1 b = some p → walk t.mem.level1 b = some p

/-- What a successful load at `a` did to the Memory component: no byte, no mapping; one load, one lookup (R100, R102). -/
structure LoadFrame (a : Word) (s t : State) : Prop where
  bytes       : ∀ b, byteAt t b = byteAt s b
  table       : t.mem.level1 = s.mem.level1
  pageCount   : t.mem.pageCount = s.mem.pageCount
  translation : TranslationFrame a s t
  numLoads    : t.mem.numLoads = s.mem.numLoads + 1
  numStores   : t.mem.numStores = s.mem.numStores
  pageFaults  : t.mem.pageFaults = s.mem.pageFaults
  requests    : t.mem.requests = s.mem.requests + 1

/-- What a successful store of the low `n` bytes of `v` at `a` did (R101, R102, R105): the page of `a` is mapped, its
other bytes are what they were, or 0 if the page is new; no other byte changes; one store, one lookup. -/
structure StoreFrame (n : Nat) (a v : Word) (s t : State) : Prop where
  stored      : ∀ i < n, byteAt t (a + BitVec.ofNat 32 i) = some (BitVec.ofNat 8 (v.toNat / 2 ^ (8 * i)))
  unchanged   : ∀ b, ¬ inAccess a b n → walk s.mem.level1 a ≠ none → byteAt t b = byteAt s b
  freshPage   : walk s.mem.level1 a = none → ∀ b, ¬ inAccess a b n →
    byteAt t b = if vpn b = vpn a then some 0#8 else byteAt s b
  translation : TranslationFrame a s t
  pageCount   : t.mem.pageCount = s.mem.pageCount + (if walk s.mem.level1 a = none then 1 else 0)
  numLoads    : t.mem.numLoads = s.mem.numLoads
  numStores   : t.mem.numStores = s.mem.numStores + 1
  pageFaults  : t.mem.pageFaults = s.mem.pageFaults
  requests    : t.mem.requests = s.mem.requests + 1

/-- The number whose `n` bytes, the lowest address least significant, stand at `a` (R96, R105); 0 where unmapped. -/
def littleEndian (s : State) (a : Word) : Nat → Nat
  | 0 => 0
  | n + 1 => littleEndian s a n + 2 ^ (8 * n) * ((byteAt s (a + BitVec.ofNat 32 n)).getD 0#8).toNat

/-! ### What a fault leaves behind (R195, R377) -/

/-- The state a fault of kind `k` leaves: the run status is Faulted(k), and nothing else changed but the TLB's request and
miss counters and the optional page-fault count. -/
structure FaultLeaves (k : FaultKind) (s l : State) : Prop where
  status     : l.status = .faulted k
  registers  : SameRegisters s l
  pc         : l.pc = s.pc
  npc        : l.npc = s.npc
  flags      : l.branchIsTaken = s.branchIsTaken ∧ l.complete = s.complete
  csrs       : l.csrs = s.csrs
  icount     : l.icount = s.icount
  bytes      : ∀ a, byteAt l a = byteAt s a
  table      : l.mem.level1 = s.mem.level1 ∧ l.mem.pageCount = s.mem.pageCount
  slots      : l.mem.tlb = s.mem.tlb
  accesses   : l.mem.numLoads = s.mem.numLoads ∧ l.mem.numStores = s.mem.numStores
  hits       : l.mem.hits = s.mem.hits
  blocks     : l.blocks = s.blocks
  pending    : l.pending = s.pending
  params     : l.params = s.params

/-- The instruction ends the run with a fault of kind `k` and address `addr`. -/
def Faults (k : FaultKind) (addr : Option Word) (i : Instr) (s : State) : Prop :=
  ∃ f, exec i s = .fault f ∧ f.kind = k ∧ f.addr = addr ∧ FaultLeaves k s f.left

/-- The instruction ends the run with a fault of kind `k` and address `addr` before it has changed anything: the state
left is `s` but for the run status, every counter included. -/
def FaultsUnchanged (k : FaultKind) (addr : Option Word) (i : Instr) (s : State) : Prop :=
  ∃ f, exec i s = .fault f ∧ f.kind = k ∧ f.addr = addr ∧ f.left = abortRun k s

/-! ### Shapes of instructions: the row that selects them and what they do -/

/-- Every word whose bits under `mask` are `pattern` decodes, whatever `M_FULL`, to the instruction `f` reads from it. -/
def DecodesAs (mask pattern : Word) (f : Word → Instr) : Prop :=
  ∀ mFull w, w &&& mask = pattern → decode mFull w = .instr (f w)

/-- A field of `n` bits from bit `lo` on (R141). -/
abbrev field (w : Word) (lo n : Nat) : BitVec n := w.extractLsb' lo n

/-- An instruction that writes `val x[rs1] x[rs2]` into `x[rd]` and cannot fault. -/
def RegisterOp (k : OpType) (mk : RegIdx → RegIdx → RegIdx → Instr) (val : Word → Word → Word) : Prop :=
  ∀ s rd rs1 rs2, s.branchIsTaken = false →
    ∃ t, exec (mk rd rs1 rs2) s = .next t ∧ WritesRegister k rd (val (readReg s rs1) (readReg s rs2)) s t

/-- An R-type row (R143): selected by funct7, funct3 and opcode, with its three register fields. -/
def RTypeRow (pattern : Word) (mk : RegIdx → RegIdx → RegIdx → Instr) : Prop :=
  DecodesAs 0xFE00707F#32 pattern fun w => mk (field w 7 5) (field w 15 5) (field w 20 5)

/-- An R-type instruction: its row and its effect. -/
def RTypeInstr (k : OpType) (pattern : Word) (mk : RegIdx → RegIdx → RegIdx → Instr) (val : Word → Word → Word) :
    Prop := RTypeRow pattern mk ∧ RegisterOp k mk val

/-- An instruction that writes `val x[rs1] imm` into `x[rd]` and cannot fault. -/
def ImmediateOp (k : OpType) (mk : RegIdx → RegIdx → Word → Instr) (val : Word → Word → Word) : Prop :=
  ∀ s rd rs1 imm, s.branchIsTaken = false →
    ∃ t, exec (mk rd rs1 imm) s = .next t ∧ WritesRegister k rd (val (readReg s rs1) imm) s t

/-- An I-type row (R144, R151): the immediate is the sign-extended field w[31:20]. -/
def ITypeRow (pattern : Word) (mk : RegIdx → RegIdx → Word → Instr) : Prop :=
  DecodesAs 0x0000707F#32 pattern fun w => mk (field w 7 5) (field w 15 5) ((field w 20 12).signExtend 32)

/-- A shift-immediate row (R157): the immediate is the zero-extended field w[24:20]. -/
def ShiftRow (pattern : Word) (mk : RegIdx → RegIdx → Word → Instr) : Prop :=
  DecodesAs 0xFE00707F#32 pattern fun w => mk (field w 7 5) (field w 15 5) ((field w 20 5).setWidth 32)

/-- A U-type row (R147, R154): the immediate is w[31:12] followed by 12 zeros. -/
def UTypeRow (pattern : Word) (mk : RegIdx → Word → Instr) : Prop :=
  DecodesAs 0x0000007F#32 pattern fun w => mk (field w 7 5) (field w 12 20 ++ 0#12)

/-- An S-type row (R145, R152). -/
def STypeRow (pattern : Word) (mk : RegIdx → RegIdx → Word → Instr) : Prop :=
  DecodesAs 0x0000707F#32 pattern fun w =>
    mk (field w 15 5) (field w 20 5) ((field w 25 7 ++ field w 7 5).signExtend 32)

/-- A B-type row (R146, R153). -/
def BTypeRow (pattern : Word) (mk : RegIdx → RegIdx → Word → Instr) : Prop :=
  DecodesAs 0x0000707F#32 pattern fun w =>
    mk (field w 15 5) (field w 20 5) ((field w 31 1 ++ field w 7 1 ++ field w 25 6 ++ field w 8 4 ++ 0#1).signExtend 32)

/-- The J-type row (R148, R155). -/
def JTypeRow (pattern : Word) (mk : RegIdx → Word → Instr) : Prop :=
  DecodesAs 0x0000007F#32 pattern fun w =>
    mk (field w 7 5) ((field w 31 1 ++ field w 12 8 ++ field w 20 1 ++ field w 21 10 ++ 0#1).signExtend 32)

/-- A load of `n` bytes at `ea = x[rs1] + imm` whose value is extended by `ext` (R250 to R260): it completes when `ea` is
a multiple of `n` and its page is mapped; a misaligned `ea` raises Misaligned-Access, mapped or not, and changes nothing;
an aligned `ea` in an unmapped page raises Page-Fault. -/
def LoadInstr (k : OpType) (n : Nat) (mk : RegIdx → RegIdx → Word → Instr) (ext : Nat → Word) : Prop :=
  ∀ s rd rs1 imm ea, s.mem.Inv s.params.tlbBits → s.branchIsTaken = false → ea = readReg s rs1 + imm →
    (ea.toNat % n = 0 → byteAt s ea ≠ none → ∃ t, exec (mk rd rs1 imm) s = .next t ∧
      (rd ≠ 0#5 → readReg t rd = ext (littleEndian s ea n)) ∧ OnlyRegister rd s t ∧ LoadFrame ea s t ∧ Advances s t ∧
      t.complete = s.complete ∧ Retired k s.csrs s t) ∧
    (ea.toNat % n ≠ 0 → FaultsUnchanged .misalignedAccess (some ea) (mk rd rs1 imm) s) ∧
    (ea.toNat % n = 0 → byteAt s ea = none → Faults .pageFault (some ea) (mk rd rs1 imm) s)

/-- A store of the low `n` bytes of `x[rs2]` at `ea`, the model's effective address of `rs1` and `imm` (R250 to R259): it
completes when `ea` is a multiple of `n`, mapped or not, and raises Misaligned-Access, changing nothing, when it is not. -/
def StoreInstr (k : OpType) (n : Nat) (mk : RegIdx → RegIdx → Word → Instr) : Prop :=
  ∀ s rs1 rs2 imm ea, s.mem.Inv s.params.tlbBits → s.branchIsTaken = false → ea = effectiveAddress s rs1 imm →
    ea = readReg s rs1 + imm ∧
    (ea.toNat % n = 0 → ∃ t, exec (mk rs1 rs2 imm) s = .next t ∧ StoreFrame n ea (readReg s rs2) s t ∧
      SameRegisters s t ∧ Advances s t ∧ t.complete = s.complete ∧ Retired k s.csrs s t) ∧
    (ea.toNat % n ≠ 0 → FaultsUnchanged .misalignedAccess (some ea) (mk rs1 rs2 imm) s)

/-- A jump (R277 to R279): the link pc + 4 into `x[rd]` (discarded for x0), then the transfer, and nothing else. -/
structure JumpsAndLinks (k : OpType) (rd : RegIdx) (target : Word) (s t : State) : Prop where
  link     : rd ≠ 0#5 → readReg t rd = s.pc + 4#32
  frame    : OnlyRegister rd s t
  memory   : SameMemory s t
  complete : t.complete = s.complete
  pc       : TransfersTo target s t
  retired  : Retired k s.csrs s t

/-- A conditional branch (R270): to `pc + imm` when `cond x[rs1] x[rs2]`, else to `pc + 4`; it cannot fault. -/
def BranchInstr (k : OpType) (mk : RegIdx → RegIdx → Word → Instr) (cond : Word → Word → Prop) : Prop :=
  ∀ s rs1 rs2 imm, s.branchIsTaken = false →
    ∃ t, exec (mk rs1 rs2 imm) s = .next t ∧ WritesNothing k s t ∧
      (cond (readReg s rs1) (readReg s rs2) → TransfersTo (s.pc + imm) s t) ∧
      (¬ cond (readReg s rs1) (readReg s rs2) → Advances s t)

/-- An R-type row of one of the six kinds of `M_FULL` (R162, R310): UNKNOWN when the parameter is false. -/
def MFullRow (pattern : Word) (mk : RegIdx → RegIdx → RegIdx → Instr) : Prop :=
  ∀ w, w &&& 0xFE00707F#32 = pattern →
    decode true w = .instr (mk (field w 7 5) (field w 15 5) (field w 20 5)) ∧ decode false w = .unknown

/-- The operands of the signed division that overflows (R319). -/
def Overflows (s : State) (rs1 rs2 : RegIdx) : Prop := readReg s rs1 = 0x80000000#32 ∧ readReg s rs2 = 0xFFFFFFFF#32

/-- A division or remainder (R315 to R318): `val x[rs1] x[rs2]` into `x[rd]` when the divisor is not 0 and, for the
signed kinds, the operands are not those of R319; Arithmetic, with nothing changed, when the divisor is 0. -/
def DivideOp (k : OpType) (signed : Bool) (mk : RegIdx → RegIdx → RegIdx → Instr) (val : Word → Word → Word) : Prop :=
  ∀ s rd rs1 rs2,
    (s.branchIsTaken = false → readReg s rs2 ≠ 0#32 → ¬ (signed = true ∧ Overflows s rs1 rs2) →
      ∃ t, exec (mk rd rs1 rs2) s = .next t ∧ WritesRegister k rd (val (readReg s rs1) (readReg s rs2)) s t) ∧
    (readReg s rs2 = 0#32 → FaultsUnchanged .arithmetic none (mk rd rs1 rs2) s)

/-- A signed division in its overflow case (R319): the value `ov` or the Arithmetic fault, as `DIV_OVERFLOW` says. -/
def OverflowOp (k : OpType) (mk : RegIdx → RegIdx → RegIdx → Instr) (ov : Word) : Prop :=
  ∀ s rd rs1 rs2, Overflows s rs1 rs2 →
    (s.params.divOverflow = .value → s.branchIsTaken = false →
      ∃ t, exec (mk rd rs1 rs2) s = .next t ∧ WritesRegister k rd ov s t) ∧
    (s.params.divOverflow = .fault → FaultsUnchanged .arithmetic none (mk rd rs1 rs2) s)

/-- A row of the CSR register forms (R149, R156). -/
def CsrRegRow (pattern : Word) (mk : RegIdx → CsrIdx → RegIdx → Instr) : Prop :=
  DecodesAs 0x0000707F#32 pattern fun w => mk (field w 7 5) (field w 20 12) (field w 15 5)

/-- A row of the CSR immediate forms (R149, R156): the immediate is the zero-extended field w[19:15]. -/
def CsrImmRow (pattern : Word) (mk : RegIdx → CsrIdx → Word → Instr) : Prop :=
  DecodesAs 0x0000707F#32 pattern fun w => mk (field w 7 5) (field w 20 12) ((field w 15 5).setWidth 32)

/-- A CSR instruction (R294): the CSR `c` receives `f old src`, `x[rd]` the old value, then the counters advance. -/
def CsrInstr (k : OpType) (mk : RegIdx → CsrIdx → Instr) (src : State → Word) (f : Word → Word → Word) : Prop :=
  ∀ s rd c, s.branchIsTaken = false → ∃ t g, exec (mk rd c) s = .next t ∧
    (rd ≠ 0#5 → readReg t rd = readCsr s c) ∧ OnlyRegister rd s t ∧ SameMemory s t ∧ t.complete = s.complete ∧
    Advances s t ∧ Csrs.get g c = f (readCsr s c) (src s) ∧ (∀ d, d ≠ c → g.get d = readCsr s d) ∧ Retired k g s t

/-- A recognised kind that always raises Not-Implemented, changing nothing, with its row (R330 to R333). -/
def ClassInstr (mask pattern : Word) (mk : RegIdx → RegIdx → RegIdx → RegIdx → RmField → Instr) : Prop :=
  DecodesAs mask pattern (fun w => mk (field w 7 5) (field w 15 5) (field w 20 5) (field w 27 5) (field w 12 3)) ∧
    ∀ s rd rs1 rs2 rs3 rm, FaultsUnchanged .notImplemented none (mk rd rs1 rs2 rs3 rm) s

/-- The fault kinds each operation kind can raise when executed, complete (R382). -/
def possibleFaults : OpType → List FaultKind
  | .lb | .lbu => [.pageFault]
  | .lh | .lhu | .lw => [.misalignedAccess, .pageFault]
  | .sh | .sw => [.misalignedAccess]
  | .div | .divu | .rem | .remu => [.arithmetic]
  | .ebreak | .unknown => [.illegalInstruction]
  | .fpLoad | .fpStore | .fpMadd | .fpMsub | .fpNmsub | .fpNmadd | .fpOp | .amo | .compressed => [.notImplemented]
  | _ => []

/-- The kinds that access memory (R106). -/
def accessesMemory : OpType → Bool
  | .lb | .lh | .lw | .lbu | .lhu | .sb | .sh | .sw => true
  | _ => false

/-- The CSR kinds (R293). -/
def isCsrKind : OpType → Bool
  | .csrrw | .csrrs | .csrrc | .csrrwi | .csrrsi | .csrrci => true
  | _ => false

/-- The nine class kinds (R335). -/
def isClassKind : OpType → Bool
  | .fpLoad | .fpStore | .fpMadd | .fpMsub | .fpNmsub | .fpNmadd | .fpOp | .amo | .compressed => true
  | _ => false

/-- The TLB slot of `a` holds the mapping of `a` itself: a lookup of `a` hits (R97). -/
def SlotHolds (s : State) (a : Word) : Prop :=
  ∃ e, lookupKey (tlbIndex s.params.tlbBits a) s.mem.tlb = some e ∧ e.tag = a

/-- What the lookup and the fill of a successful access of `a` do (R97, R99). -/
def LookupEffect (a : Word) (s t : State) : Prop :=
  t.mem.requests = s.mem.requests + 1 ∧
  (SlotHolds s a → t.mem.hits = s.mem.hits + 1 ∧ t.mem.misses = s.mem.misses ∧ t.mem.tlb = s.mem.tlb) ∧
  (¬ SlotHolds s a → t.mem.hits = s.mem.hits ∧ t.mem.misses = s.mem.misses + 1 ∧
    (∃ p, walk t.mem.level1 a = some p ∧ lookupKey (tlbIndex s.params.tlbBits a) t.mem.tlb = some ⟨a, p⟩) ∧
    ∀ i, i ≠ tlbIndex s.params.tlbBits a → lookupKey i t.mem.tlb = lookupKey i s.mem.tlb)

/-- An access of `a`, a load or a store of any width, succeeded in `s` and left `t` (R100, R101). -/
def Accesses (a : Word) (s t : State) : Prop :=
  (∃ wd v, memRead wd a s = .ok v t) ∨ ∃ wd v, memWrite wd a v s = .ok () t

/-- The instructions of a list executed one after the other, up to the first that does not answer next. -/
def execAll : List Instr → State → Host.Outcome State Fault Refusal
  | [], s => .next s
  | i :: is, s =>
    match exec i s with
    | .next t => execAll is t
    | .fault f => .fault f
    | .refused r => .refused r

/-! ### The preloaded image (R345, R403) -/

/-- The (address, word) pairs a preload range writes, in order (R103). -/
def rangeWords (start : Word) : List Word → List (Word × Word)
  | [] => []
  | v :: vs => (start, v) :: rangeWords (start + 4#32) vs

/-- The (address, word) pairs of a preload, in order. -/
def preloadWords (ranges : List (Word × List Word)) : List (Word × Word) := ranges.flatMap fun r => rangeWords r.1 r.2

/-- The word last written at `a`, 0 if none was. -/
def lastWord (ps : List (Word × Word)) (a : Word) : Word :=
  ps.foldl (fun acc p => if p.1 = a then p.2 else acc) 0#32

/-- The byte the image has at `a`: none when no pair touches the page of `a`, else the byte of the word last written at
the word address of `a`. -/
def imageByte (ps : List (Word × Word)) (a : Word) : Option Byte :=
  if ps.any fun p => vpn p.1 == vpn a then
    some (BitVec.ofNat 8 ((lastWord ps (a &&& 0xFFFFFFFC#32)).toNat / 2 ^ (8 * (a.toNat % 4))))
  else none

/-! ### The architectural view and the simple machine (R356) -/

/-- Two states agree in the architectural view of R356 (a): registers, pc, CSRs, the byte function, `complete`,
`icount`.  npc, the TLB, the statistics and the block cache are not compared. -/
structure ArchEq (s t : State) : Prop where
  regs     : ∀ r, readReg s r = readReg t r
  pc       : s.pc = t.pc
  csrs     : ∀ c, readCsr s c = readCsr t c
  bytes    : ∀ a, byteAt s a = byteAt t a
  complete : s.complete = t.complete
  icount   : s.icount = t.icount

/-- One step of the simple machine of R356: `w <- loadWord(pc); I <- decode(w); execute(I, S)`. -/
def simpleStep (s : State) : Host.Outcome State Fault Refusal :=
  if s.complete then .refused .halted
  else
    match memRead .word s.pc s with
    | .ok w s' => execDecoded (decode s.params.mFull w) s'
    | .fault f => .fault f

/-- The word at `a` has been fetched into the block cache. -/
def FetchedAt (s : State) (a : Word) : Prop :=
  ∃ e ∈ s.blocks, ∃ k, k < e.2.length ∧ a = BitVec.ofNat 32 (e.1 + 4 * k)

/-- The block cache agrees with memory: each cached instruction is the decoding of the word now at its address. -/
def CodeFresh (s : State) : Prop :=
  ∀ e ∈ s.blocks, ∀ k d, e.2[k]? = some d →
    ∃ w, wordAt s (BitVec.ofNat 32 (e.1 + 4 * k)) = some w ∧ d = decode s.params.mFull w

end Sys2Proof.Machine
end

