-- ==== Sys2Proof/Certificates/Slice0/Obligations.lean ====
section
/-! DEFINITION. The statements about the model, for the provers. -/

open Sys2Proof Sys2Proof.Machine

/-! ### Reset and launch -/

/-- R65, R401: every field of `State.reset`.  The zeros of x1 .. x31, npc and the CSR file are the spec's decision D14 (log
entry 6); that pc is 0 is the model's choice of ENTRY (log entry 5); the parameters are those of `Config.params`, the
model's choices of the OPEN values (log entries 1, 2, 3). -/
def Obligations.ResetState : Prop :=
  State.reset.pc = 0#32 ∧ (∀ r, readReg State.reset r = 0#32) ∧ (∀ c, readCsr State.reset c = 0#32) ∧
  State.reset.npc = 0#32 ∧ State.reset.branchIsTaken = false ∧ State.reset.complete = false ∧
  (∀ a, byteAt State.reset a = none) ∧ State.reset.mem = Mem.empty ∧ State.reset.icount = 0 ∧
  State.reset.blocks = [] ∧ State.reset.pending = [] ∧ State.reset.status = .running ∧
  State.reset.params = Config.params

/-- R345, R346, R403: construction from the launch arguments.  Memory holds exactly the preloaded image: the pages some
preloaded word touches, the word last written at each address, 0 elsewhere in those pages.  The zeros and the
launch arguments of the statistics are the spec's decisions D14 and D15 (log entries 6, 9). -/
def Obligations.LaunchState : Prop :=
  ∀ l s, launch l = .ok s →
    s.pc = l.entry ∧ s.params = l.params ∧ (∀ r, readReg s r = 0#32) ∧ (∀ c, readCsr s c = 0#32) ∧ s.npc = 0#32 ∧
    s.branchIsTaken = false ∧ s.complete = false ∧ s.icount = 0 ∧ s.blocks = [] ∧ s.pending = [] ∧
    s.status = .running ∧ ∀ a, byteAt s a = imageByte (preloadWords l.preload) a

/-- R103: the launch fails exactly when a range that is not empty starts at an address that is not a multiple of 4, with
Misaligned-Access at the start of the first such range (the spec's decision D15).  That the failed launch leaves a state,
with pc at ENTRY, is the model's choice (log entry 21). -/
def Obligations.LaunchFailsMisaligned : Prop :=
  ∀ l, ((∃ s, launch l = .ok s) ↔ ∀ r ∈ l.preload, r.2 ≠ [] → r.1.toNat % 4 = 0) ∧
    ∀ f, launch l = .error f → f.kind = .misalignedAccess ∧ f.left.pc = l.entry ∧
      ∃ before r after, l.preload = before ++ r :: after ∧ f.addr = some r.1 ∧ r.2 ≠ [] ∧ r.1.toNat % 4 ≠ 0 ∧
        ∀ q ∈ before, q.2 ≠ [] → q.1.toNat % 4 = 0

/-! ### The invariant -/

/-- The invariant holds right after reset. -/
def Obligations.InvariantAtReset : Prop := State.reset.Inv

/-- The invariant holds after every launch whose arguments meet the constraints of R6 and R346: TLB_BITS in range, hits +
misses = requests, and a TLB content that agrees with the page table. -/
def Obligations.InvariantAtLaunch : Prop :=
  ∀ l s, launch l = .ok s → l.params.wf → l.hits + l.misses = l.requests → risingKeys l.tlb →
    (∀ e ∈ l.tlb, e.1 = tlbIndex l.params.tlbBits e.2.tag ∧ walk s.mem.level1 e.2.tag = some e.2.page) → s.Inv

/-- Every step keeps the invariant: the canonical forms, x0 = 0, the flag clear, TLB coherence (R54), distinct pages
(R52), hits + misses = requests (R57), the shape of cached blocks (R348), pc following the current block (R196), Halted
exactly when `complete` (R60).  The step, and the field `pending`, are the model's reading of the loop (log entry 7). -/
def Obligations.InvariantKept : Prop := ∀ s t, s.Inv → step s = .next t → t.Inv

/-! ### Encoding -/

/-- Decoding the word of a well-formed instruction gives it back, for every instruction and every operand value. -/
def Obligations.DecodeOfEncode : Prop :=
  ∀ mFull i, WellFormed mFull i = true → decode mFull (encode i) = .instr i

/-- Where the record keeps every field of its word, the word of the decoded instruction is the word decoded. -/
def Obligations.EncodeOfDecode : Prop :=
  ∀ mFull w i, decode mFull w = .instr i → i ≠ .fence → isClassKind i.opType = false → encode i = w

/-- The decoder gives only instructions that some word encodes under the parameter (R151 to R157, R162). -/
def Obligations.DecodedIsWellFormed : Prop :=
  ∀ mFull w i, decode mFull w = .instr i → WellFormed mFull i = true

/-- R159 to R172: the decoder answers the kind of the opcode-table row a word belongs to, and UNKNOWN for a word of no
row.  So no word belongs to rows of two kinds. -/
def Obligations.DecoderFollowsTable : Prop :=
  ∀ mFull w, (∀ r ∈ opcodeTable, r.selects mFull w = true → (decode mFull w).opType = r.kind) ∧
    ((∀ r ∈ opcodeTable, r.selects mFull w = false) → decode mFull w = .unknown)

/-- R158: `isBranch` of a decoded word is true exactly for the ten kinds that end a block, all of which are rows of the
opcodes JAL, JALR and BRANCH or the two SYSTEM words; EBREAK among them is the spec's decision D3. -/
def Obligations.BranchWords : Prop :=
  ∀ mFull w, (decode mFull w).isBranch = true ↔
    (w &&& 0x7F#32 = 0x6F#32) ∨ (w &&& 0x707F#32 = 0x67#32) ∨
    (w &&& 0x7F#32 = 0x63#32 ∧ w &&& 0x7000#32 ≠ 0x2000#32 ∧ w &&& 0x7000#32 ≠ 0x3000#32) ∨
    w = 0x00000073#32 ∨ w = 0x00100073#32

/-- Words written out in the spec decode to the instructions they stand for; one per format and class. -/
def Obligations.SampleWords : Prop :=
  decode true 0x006A0593#32 = .instr (.addi 11#5 20#5 6#32) ∧
  decode true 0x402081B3#32 = .instr (.sub 3#5 1#5 2#5) ∧
  decode true 0x40435293#32 = .instr (.srai 5#5 6#5 4#32) ∧
  decode true 0xABCDE2B7#32 = .instr (.lui 5#5 0xABCDE000#32) ∧
  decode true 0x00330283#32 = .instr (.lb 5#5 6#5 3#32) ∧
  decode true 0xFE712E23#32 = .instr (.sw 2#5 7#5 0xFFFFFFFC#32) ∧
  decode true 0x8020D063#32 = .instr (.bge 1#5 2#5 0xFFFFF000#32) ∧
  decode true 0x001000EF#32 = .instr (.jal 1#5 2048#32) ∧
  decode true 0xFFE280E7#32 = .instr (.jalr 1#5 5#5 0xFFFFFFFE#32) ∧
  decode true 0xC00312F3#32 = .instr (.csrrw 5#5 0xC00#12 6#5) ∧
  decode true 0x340FD2F3#32 = .instr (.csrrwi 5#5 0x340#12 31#32) ∧
  decode true 0x027362B3#32 = .instr (.rem 5#5 6#5 7#5) ∧ decode false 0x027362B3#32 = .unknown ∧
  decode true 0x30200073#32 = .unknown ∧ decode true 0xFFFFFFFF#32 = .unknown ∧
  (decode true 0x003100D3#32).opType = .fpOp ∧ (decode true 0x0863A2AF#32).opType = .amo ∧
  (decode true 0x00000000#32).opType = .compressed

/-! ### A step runs the decoded instruction -/

/-- R347, R349, R196: in a running hart, (1) an instruction of the current block that is still to run is executed; (2) at
a block boundary, the first instruction of the cached block at pc is executed; (3) with no block cached at pc, when the
build succeeds, the instruction executed is the decoding of the four bytes at pc, in the state with the fetched memory
component, the new block cached, and the rest of the block to run.  In each case the step is `exec`, then the end of the
loop iteration.  That a step is one instruction, the build included, is the model's choice (log entry 7). -/
def Obligations.StepRunsDecoded : Prop :=
  ∀ s, s.status = .running →
    (∀ d rest, s.pending = d :: rest → step s = finish (execDecoded d (s.withPending rest))) ∧
    (s.pending = [] → s.complete = false → ∀ d rest, lookupKey s.pc.toNat s.blocks = some (d :: rest) →
      step s = finish (execDecoded d (s.withPending rest))) ∧
    (s.pending = [] → s.complete = false → lookupKey s.pc.toNat s.blocks = none → s.mem.Inv s.params.tlbBits →
      ∀ b m, build s s.pc = .block b m → ∃ w rest, wordAt s s.pc = some w ∧ b = decode s.params.mFull w :: rest ∧
        step s = finish (execDecoded (decode s.params.mFull w)
          (((s.withMem m).withBlocks (insertKey s.pc.toNat b s.blocks)).withPending rest))) ∧
    (∀ i t, execDecoded (.instr i) t = exec i t)

/-- A word placed by `withFetchWord` runs in the next step, in a state with the registers, CSRs and counters of `s`, pc
rounded down to a word, and no byte changed outside the word and, for a word that does not end a block, the one after it.
The placing is the model's own (log entry 5). -/
def Obligations.PlacedWordRuns : Prop :=
  ∀ s w i, s.Inv → decode s.params.mFull w = .instr i →
    ∃ u, step (s.withFetchWord 32 w.toNat) = finish (exec i u) ∧ u.pc = s.pc &&& 0xFFFFFFFC#32 ∧ u.regs = s.regs ∧
      u.csrs = s.csrs ∧ u.icount = s.icount ∧ u.npc = s.npc ∧ u.params = s.params ∧ u.branchIsTaken = false ∧
      wordAt u u.pc = some w ∧ u.mem.Inv u.params.tlbBits ∧
      ∀ a, ¬ inAccess u.pc a (if i.opType.isBranch then 4 else 8) → byteAt s a ≠ none → byteAt u a = byteAt s a

/-! ### Results, frames and completion, family by family -/

/-- R210 to R219: the ten register-register instructions, each with its row of the table. -/
def Obligations.RegisterArithmetic : Prop :=
  RTypeInstr .add 0x00000033#32 .add (fun a b => BitVec.ofNat 32 (a.toNat + b.toNat)) ∧
  RTypeInstr .sub 0x40000033#32 .sub (fun a b => BitVec.ofInt 32 ((a.toNat : Int) - b.toNat)) ∧
  RTypeInstr .sll 0x00001033#32 .sll (fun a b => BitVec.ofNat 32 (a.toNat * 2 ^ (b.toNat % 32))) ∧
  RTypeInstr .slt 0x00002033#32 .slt (fun a b => if a.toInt < b.toInt then 1#32 else 0#32) ∧
  RTypeInstr .sltu 0x00003033#32 .sltu (fun a b => if a.toNat < b.toNat then 1#32 else 0#32) ∧
  RTypeInstr .xor 0x00004033#32 .xor (fun a b => BitVec.ofFnLE fun i => a.getLsb i != b.getLsb i) ∧
  RTypeInstr .srl 0x00005033#32 .srl (fun a b => BitVec.ofNat 32 (a.toNat / 2 ^ (b.toNat % 32))) ∧
  RTypeInstr .sra 0x40005033#32 .sra (fun a b => BitVec.ofInt 32 (a.toInt / 2 ^ (b.toNat % 32))) ∧
  RTypeInstr .or 0x00006033#32 .or (fun a b => BitVec.ofFnLE fun i => a.getLsb i || b.getLsb i) ∧
  RTypeInstr .and 0x00007033#32 .and (fun a b => BitVec.ofFnLE fun i => a.getLsb i && b.getLsb i)

/-- R230, R231, R233 to R235: five OP-IMM instructions with a sign-extended 12-bit immediate, each with its row. -/
def Obligations.ImmediateArithmetic : Prop :=
  (ITypeRow 0x00000013#32 .addi ∧ ImmediateOp .addi .addi fun a v => BitVec.ofInt 32 ((a.toNat : Int) + v.toInt)) ∧
  (ITypeRow 0x00002013#32 .slti ∧ ImmediateOp .slti .slti fun a v => if a.toInt < v.toInt then 1#32 else 0#32) ∧
  (ITypeRow 0x00004013#32 .xori ∧
    ImmediateOp .xori .xori fun a v => BitVec.ofFnLE fun i => a.getLsb i != v.getLsb i) ∧
  (ITypeRow 0x00006013#32 .ori ∧ ImmediateOp .ori .ori fun a v => BitVec.ofFnLE fun i => a.getLsb i || v.getLsb i) ∧
  (ITypeRow 0x00007013#32 .andi ∧ ImmediateOp .andi .andi fun a v => BitVec.ofFnLE fun i => a.getLsb i && v.getLsb i)

/-- R237, R238: the right shifts by an immediate: the handler uses the low 5 bits of the decoded immediate. -/
def Obligations.ImmediateRightShifts : Prop :=
  (ShiftRow 0x00005013#32 .srli ∧
    ImmediateOp .srli .srli fun a v => BitVec.ofNat 32 (a.toNat / 2 ^ (v.toNat % 32))) ∧
  (ShiftRow 0x40005013#32 .srai ∧ ImmediateOp .srai .srai fun a v => BitVec.ofInt 32 (a.toInt / 2 ^ (v.toNat % 32)))

/-- R232, R236, with the spec's decision D7: SLTIU sign-extends its immediate and compares unsigned; SLLI shifts by the
low 5 bits of the decoded immediate, and a word of its opcode and funct3 with another funct7 is UNKNOWN. -/
def Obligations.SltiuAndSlli : Prop :=
  (ITypeRow 0x00003013#32 .sltiu ∧ ImmediateOp .sltiu .sltiu fun a v => if a.toNat < v.toNat then 1#32 else 0#32) ∧
  (ShiftRow 0x00001013#32 .slli ∧
    ImmediateOp .slli .slli fun a v => BitVec.ofNat 32 (a.toNat * 2 ^ (v.toNat % 32))) ∧
  ∀ mFull w, w &&& 0x0000707F#32 = 0x00001013#32 → w &&& 0xFE000000#32 ≠ 0#32 → decode mFull w = .unknown

/-- R239, R240: LUI writes the immediate as decoded, AUIPC its sum with the address of the AUIPC. -/
def Obligations.UpperImmediates : Prop :=
  UTypeRow 0x00000037#32 .lui ∧ UTypeRow 0x00000017#32 .auipc ∧
  ∀ s rd imm, s.branchIsTaken = false →
    (∃ t, exec (.lui rd imm) s = .next t ∧ WritesRegister .lui rd imm s t) ∧
    (∃ t, exec (.auipc rd imm) s = .next t ∧
      WritesRegister .auipc rd (BitVec.ofNat 32 (s.pc.toNat + imm.toNat)) s t)

/-- R251 to R255: the five loads: the little-endian value at x[rs1] + imm, sign- or zero-extended, and their faults. -/
def Obligations.Loads : Prop :=
  (ITypeRow 0x00000003#32 .lb ∧ LoadInstr .lb 1 .lb fun n => (BitVec.ofNat 8 n).signExtend 32) ∧
  (ITypeRow 0x00001003#32 .lh ∧ LoadInstr .lh 2 .lh fun n => (BitVec.ofNat 16 n).signExtend 32) ∧
  (ITypeRow 0x00002003#32 .lw ∧ LoadInstr .lw 4 .lw fun n => BitVec.ofNat 32 n) ∧
  (ITypeRow 0x00004003#32 .lbu ∧ LoadInstr .lbu 1 .lbu fun n => (BitVec.ofNat 8 n).setWidth 32) ∧
  (ITypeRow 0x00005003#32 .lhu ∧ LoadInstr .lhu 2 .lhu fun n => (BitVec.ofNat 16 n).setWidth 32)

/-- R256 to R258: the three stores: their bytes, their frame on memory and registers, and their one fault. -/
def Obligations.Stores : Prop :=
  (STypeRow 0x00000023#32 .sb ∧ StoreInstr .sb 1 .sb) ∧ (STypeRow 0x00001023#32 .sh ∧ StoreInstr .sh 2 .sh) ∧
  (STypeRow 0x00002023#32 .sw ∧ StoreInstr .sw 4 .sw)

/-- R271 to R276: the six conditional branches. -/
def Obligations.Branches : Prop :=
  (BTypeRow 0x00000063#32 .beq ∧ BranchInstr .beq .beq fun a b => a = b) ∧
  (BTypeRow 0x00001063#32 .bne ∧ BranchInstr .bne .bne fun a b => a ≠ b) ∧
  (BTypeRow 0x00004063#32 .blt ∧ BranchInstr .blt .blt fun a b => a.toInt < b.toInt) ∧
  (BTypeRow 0x00005063#32 .bge ∧ BranchInstr .bge .bge fun a b => b.toInt ≤ a.toInt) ∧
  (BTypeRow 0x00006063#32 .bltu ∧ BranchInstr .bltu .bltu fun a b => a.toNat < b.toNat) ∧
  (BTypeRow 0x00007063#32 .bgeu ∧ BranchInstr .bgeu .bgeu fun a b => b.toNat ≤ a.toNat)

/-- R277 to R279: JAL and JALR, for every offset and every rd, rd = rs1 included: the target comes from the old x[rs1],
with bit 0 and no other bit cleared. -/
def Obligations.Jumps : Prop :=
  JTypeRow 0x0000006F#32 .jal ∧ ITypeRow 0x00000067#32 .jalr ∧
  (∀ s rd imm, ∃ t, exec (.jal rd imm) s = .next t ∧ JumpsAndLinks .jal rd (s.pc + imm) s t) ∧
  (∀ s rd rs1 imm, ∃ t, exec (.jalr rd rs1 imm) s = .next t ∧
    JumpsAndLinks .jalr rd ((readReg s rs1 + imm) &&& 0xFFFFFFFE#32) s t)

/-- R290, R292: ECALL sets `complete` and advances; FENCE only advances.  Neither reads or writes a register.
That FENCE does nothing is the spec's decision D4. -/
def Obligations.EcallAndFence : Prop :=
  DecodesAs 0xFFFFFFFF#32 0x00000073#32 (fun _ => .ecall) ∧ DecodesAs 0x0000707F#32 0x0000000F#32 (fun _ => .fence) ∧
  ∀ s, s.branchIsTaken = false →
    (∃ t, exec .ecall s = .next t ∧ t.complete = true ∧ SameRegisters s t ∧ SameMemory s t ∧ Advances s t ∧
      Retired .ecall s.csrs s t) ∧
    (∃ t, exec .fence s = .next t ∧ WritesNothing .fence s t ∧ Advances s t)

/-- R295 to R300: the six CSR instructions, for all 4096 CSR numbers and every rd, rd = rs1 included.  That every
number is plain storage is the spec's decision D11 (log entry 18). -/
def Obligations.CsrInstructions : Prop :=
  (CsrRegRow 0x00001073#32 .csrrw ∧ ∀ rs1, CsrInstr .csrrw (fun rd c => .csrrw rd c rs1) (fun s => readReg s rs1)
    fun _ v => v) ∧
  (CsrRegRow 0x00002073#32 .csrrs ∧ ∀ rs1, CsrInstr .csrrs (fun rd c => .csrrs rd c rs1) (fun s => readReg s rs1)
    fun old v => old ||| v) ∧
  (CsrRegRow 0x00003073#32 .csrrc ∧ ∀ rs1, CsrInstr .csrrc (fun rd c => .csrrc rd c rs1) (fun s => readReg s rs1)
    fun old v => old &&& ~~~v) ∧
  (CsrImmRow 0x00005073#32 .csrrwi ∧ ∀ imm, CsrInstr .csrrwi (fun rd c => .csrrwi rd c imm) (fun _ => imm)
    fun _ v => v) ∧
  (CsrImmRow 0x00006073#32 .csrrsi ∧ ∀ imm, CsrInstr .csrrsi (fun rd c => .csrrsi rd c imm) (fun _ => imm)
    fun old v => old ||| v) ∧
  (CsrImmRow 0x00007073#32 .csrrci ∧ ∀ imm, CsrInstr .csrrci (fun rd c => .csrrci rd c imm) (fun _ => imm)
    fun old v => old &&& ~~~v)

/-- R311 to R314: the low and high words of the 64-bit products.  The signedness is general knowledge the spec takes over;
that three of them exist only under `M_FULL` is its decision D9 (log entry 1). -/
def Obligations.Multiplications : Prop :=
  RTypeInstr .mul 0x02000033#32 .mul (fun a b => BitVec.ofNat 32 (a.toNat * b.toNat)) ∧
  (MFullRow 0x02001033#32 .mulh ∧
    RegisterOp .mulh .mulh fun a b => (a.signExtend 64 * b.signExtend 64).extractLsb' 32 32) ∧
  (MFullRow 0x02002033#32 .mulhsu ∧
    RegisterOp .mulhsu .mulhsu fun a b => (a.signExtend 64 * b.setWidth 64).extractLsb' 32 32) ∧
  (MFullRow 0x02003033#32 .mulhu ∧
    RegisterOp .mulhu .mulhu fun a b => (a.setWidth 64 * b.setWidth 64).extractLsb' 32 32)

/-- R315 to R319: quotients rounded toward zero, remainders with the sign of the dividend, the Arithmetic fault of a zero
divisor, rd = x0 included and nothing changed, and -2^31 by -1 under each value of `DIV_OVERFLOW`.  The zero divisor of DIVU, REM and REMU
is the spec's decision D9, the open parameter its decision D10. -/
def Obligations.Divisions : Prop :=
  (RTypeRow 0x02004033#32 .div ∧ DivideOp .div true .div fun a b =>
    BitVec.ofInt 32 (a.toInt.sign * b.toInt.sign * (a.toInt.natAbs / b.toInt.natAbs : Nat))) ∧
  (MFullRow 0x02005033#32 .divu ∧ DivideOp .divu false .divu fun a b => BitVec.ofNat 32 (a.toNat / b.toNat)) ∧
  (MFullRow 0x02006033#32 .rem ∧ DivideOp .rem true .rem fun a b =>
    BitVec.ofInt 32 (a.toInt.sign * (a.toInt.natAbs % b.toInt.natAbs : Nat))) ∧
  (MFullRow 0x02007033#32 .remu ∧ DivideOp .remu false .remu fun a b => BitVec.ofNat 32 (a.toNat % b.toNat)) ∧
  OverflowOp .div .div 0x80000000#32 ∧ OverflowOp .rem .rem 0#32

/-- R320: dividend = quotient * divisor + remainder modulo 2^32 with |REM| < |divisor| and REMU < divisor, and the two
words of a product together are the 64-bit product, of the registers the instructions write. -/
def Obligations.MulDivIdentities : Prop :=
  ∀ s rd rs1 rs2, rd ≠ 0#5 → s.branchIsTaken = false →
    (readReg s rs2 ≠ 0#32 → ¬ Overflows s rs1 rs2 →
      ∃ q r qu ru, exec (.div rd rs1 rs2) s = .next q ∧ exec (.rem rd rs1 rs2) s = .next r ∧
        exec (.divu rd rs1 rs2) s = .next qu ∧ exec (.remu rd rs1 rs2) s = .next ru ∧
        readReg s rs1 = readReg q rd * readReg s rs2 + readReg r rd ∧
        (readReg r rd).toInt.natAbs < (readReg s rs2).toInt.natAbs ∧
        readReg s rs1 = readReg qu rd * readReg s rs2 + readReg ru rd ∧
        (readReg ru rd).toNat < (readReg s rs2).toNat) ∧
    (∃ lo hs hu, exec (.mul rd rs1 rs2) s = .next lo ∧ exec (.mulh rd rs1 rs2) s = .next hs ∧
      exec (.mulhu rd rs1 rs2) s = .next hu ∧
      (readReg hu rd ++ readReg lo rd).toNat = (readReg s rs1).toNat * (readReg s rs2).toNat ∧
      (readReg hs rd ++ readReg lo rd).toInt = (readReg s rs1).toInt * (readReg s rs2).toInt)

/-- R330, R332: every word of the seven floating-point opcodes and of the AMO opcode raises Not-Implemented when executed,
and leaves the state exactly as it was but for the run status.  For the reserved words under these opcodes (R171, D6) the
spec allows either kind (U6); the kind stated for every word is the model's choice (log entry 15). -/
def Obligations.UnimplementedClasses : Prop :=
  ClassInstr 0x7F#32 0x07#32 .fpLoad ∧ ClassInstr 0x7F#32 0x27#32 .fpStore ∧ ClassInstr 0x7F#32 0x43#32 .fpMadd ∧
  ClassInstr 0x7F#32 0x47#32 .fpMsub ∧ ClassInstr 0x7F#32 0x4B#32 .fpNmsub ∧ ClassInstr 0x7F#32 0x4F#32 .fpNmadd ∧
  ClassInstr 0x7F#32 0x53#32 .fpOp ∧ ClassInstr 0x7F#32 0x2F#32 .amo

/-- R333, R291, R334, R302: a word whose low two bits are not 11 raises Not-Implemented; EBREAK, a word that is UNKNOWN,
and so every SYSTEM word of funct3 000 but ECALL and EBREAK, raises Illegal-Instruction; the state stays exactly as it was
but for the run status.  For EBREAK and the all-zero word the spec allows either kind (U6); the kind stated is the model's choice (log entry 15). -/
def Obligations.CompressedEbreakAndUnknown : Prop :=
  ClassInstr 0x03#32 0x00#32 .compressed00 ∧ ClassInstr 0x03#32 0x01#32 .compressed01 ∧
  ClassInstr 0x03#32 0x02#32 .compressed10 ∧
  DecodesAs 0xFFFFFFFF#32 0x00100073#32 (fun _ => .ebreak) ∧ (∀ s, FaultsUnchanged .illegalInstruction none .ebreak s) ∧
  (∀ mFull w, w &&& 0x0000707F#32 = 0x00000073#32 → w ≠ 0x00000073#32 → w ≠ 0x00100073#32 →
    decode mFull w = .unknown) ∧
  ∀ s, ∃ f, execDecoded .unknown s = .fault f ∧ f.kind = .illegalInstruction ∧ f.addr = none ∧
    f.left = abortRun .illegalInstruction s

/-- R176: the expansions of `li`, `la` and `call` are instructions some word encodes, and executed in order they load the
constant, the address pc + d, or go to pc + d (bit 0 cleared by JALR) with the link pc + 8.  The
expansions are general knowledge the spec takes over. -/
def Obligations.PseudoInstructions : Prop :=
  ∀ s rd d, s.branchIsTaken = false → rd ≠ 0#5 →
    (∃ t, execAll (Pseudo.li rd d).expand s = .next t ∧ readReg t rd = d ∧ OnlyRegister rd s t ∧ SameMemory s t) ∧
    (∃ t, execAll (Pseudo.la rd d).expand s = .next t ∧ readReg t rd = s.pc + d ∧ OnlyRegister rd s t ∧
      SameMemory s t) ∧
    (∃ t, execAll (Pseudo.call d).expand s = .next t ∧ t.pc = (s.pc + d) &&& 0xFFFFFFFE#32 ∧
      readReg t 1#5 = s.pc + 8#32 ∧ OnlyRegister 1#5 s t ∧ SameMemory s t) ∧
    ∀ mFull, ∀ i ∈ (Pseudo.li rd d).expand ++ (Pseudo.la rd d).expand ++ (Pseudo.call d).expand,
      WellFormed mFull i = true

/-! ### Rules over all instructions -/

/-- R382: executing an instruction gives a next state or one of the faults listed for its kind, never a refusal. -/
def Obligations.FaultsOfEachKind : Prop :=
  ∀ d s, (∃ t, execDecoded d s = .next t) ∨
    ∃ f, execDecoded d s = .fault f ∧ f.kind ∈ possibleFaults d.opType

/-- R335: executing a record gives Illegal-Instruction exactly for UNKNOWN and EBREAK and Not-Implemented exactly for the
nine class kinds, and both leave the state exactly as it was, but for the run status.  For EBREAK and for the class kinds
the spec allows either of the two (R291 with D3, U6); the kinds stated are the model's choice (log entry 15). -/
def Obligations.IllegalAgainstNotImplemented : Prop :=
  ∀ d s, ((∃ f, execDecoded d s = .fault f ∧ f.kind = .illegalInstruction) ↔ (d.opType = .unknown ∨ d.opType = .ebreak)) ∧
    ((∃ f, execDecoded d s = .fault f ∧ f.kind = .notImplemented) ↔ isClassKind d.opType = true) ∧
    ∀ f, execDecoded d s = .fault f → f.kind = .illegalInstruction ∨ f.kind = .notImplemented →
      f.left = abortRun f.kind s

/-- R195, R377: a fault raised by `execute` leaves pc at the instruction and changes no register, CSR, flag, memory byte,
instruction counter or cached block; only the TLB request and miss counters and the optional page-fault count may have
moved; the run is aborted for good. -/
def Obligations.FaultLeavesState : Prop :=
  ∀ d s f, execDecoded d s = .fault f → FaultLeaves f.kind s f.left ∧ step f.left = .refused (.aborted f.kind)

/-- R198: what an instruction that completes can change: the register its record names (x0 always reads 0); beside the
counter pairs, for a CSR instruction, the CSR its record names; for SB, SH, SW the `n` bytes at the address `storedAt`
gives, which is aligned, and, if their page was unmapped, that page, its other bytes 0.  Every other form, the loads
included, leaves every byte and every mapping as it was. -/
def Obligations.WhatAStepChanges : Prop :=
  ∀ i s t, s.mem.Inv s.params.tlbBits → exec i s = .next t →
    OnlyRegister i.record.rd s t ∧
    (∀ c, c ∉ tickedCsrs → (isCsrKind i.opType = true → c ≠ i.record.csr) → readCsr t c = readCsr s c) ∧
    (∀ a n, storedAt i s = some (a, n) → a.toNat % n = 0 ∧ ∀ b, ¬ inAccess a b n →
      byteAt t b = if vpn b = vpn a ∧ byteAt s b = none then some 0#8 else byteAt s b) ∧
    (storedAt i s = none → (∀ b, byteAt t b = byteAt s b) ∧ t.mem.level1 = s.mem.level1 ∧
      t.mem.pageCount = s.mem.pageCount) ∧
    (∀ a p, walk s.mem.level1 a = some p → walk t.mem.level1 a = some p) ∧
    t.mem.pageCount ≤ s.mem.pageCount + 1 ∧ (accessesMemory i.opType = false → t.mem = s.mem) ∧
    (t.npc = s.npc ∨ (t.npc = t.pc ∧ i.opType.isBranch = true ∧ i ≠ .ecall)) ∧
    (t.complete = s.complete ∨ i = .ecall) ∧ t.icount = s.icount + 1 ∧ t.branchIsTaken = false ∧
    t.blocks = s.blocks ∧ t.pending = s.pending ∧ t.params = s.params ∧ t.status = s.status

/-- R43, R44, R194: every completed instruction that is not a CSR instruction adds 1 to the instret pair and `COST` of its
kind to the cycle pair, modulo 2^64, and leaves every other CSR, time and timeh among them (its decision D12). -/
def Obligations.CountersAdvance : Prop :=
  ∀ i s t, exec i s = .next t → isCsrKind i.opType = false → Retired i.opType s.csrs s t

/-- R303: CSR instructions and the counters: a read gives the value before the instruction's own increment; a written
value is incremented as a 64-bit pair at the end of the same instruction. -/
def Obligations.CsrCounters : Prop :=
  ∀ s, s.branchIsTaken = false →
    (∀ rd c, rd ≠ 0#5 → ∃ t, exec (.csrrs rd c 0#5) s = .next t ∧ readReg t rd = readCsr s c ∧
      Retired .csrrs s.csrs s t) ∧
    (∃ t, exec (.csrrwi 0#5 0xC02#12 10#32) s = .next t ∧ readCsr t 0xC02#12 = 11#32 ∧
      readCsr t 0xC82#12 = readCsr s 0xC82#12) ∧
    (∀ rs1, readReg s rs1 = 0xFFFFFFFF#32 → readCsr s 0xC82#12 = 0#32 →
      ∃ t, exec (.csrrw 0#5 0xC02#12 rs1) s = .next t ∧ readCsr t 0xC02#12 = 0#32 ∧ readCsr t 0xC82#12 = 1#32) ∧
    (∀ v : Word, ∃ t, exec (.csrrwi 0#5 0xC00#12 v) s = .next t ∧
      pairValue (readCsr t 0xC80#12) (readCsr t 0xC00#12) =
        (pairValue (readCsr s 0xC80#12) v + Config.cost .csrrwi) % 2 ^ 64)

/-- R61: as long as no instruction executed writes instret or instreth, `icount` and the instret pair count alike.
`icount` as a count apart is the spec's decision D24. -/
def Obligations.IcountIsInstret : Prop :=
  ∀ s t d u, fetch s = .ready d u → step s = .next t → isCsrKind d.opType = false →
    s.icount % 2 ^ 64 = pairValue s.csrs.instreth s.csrs.instret →
    t.icount % 2 ^ 64 = pairValue t.csrs.instreth t.csrs.instret ∧ t.icount = s.icount + 1

/-- R33: x0 reads 0, and a write to it changes nothing. -/
def Obligations.ZeroRegister : Prop :=
  ∀ s v, writeReg s 0#5 v = s ∧ readReg (writeReg s 0#5 v) 0#5 = 0#32

/-- R13, R14: `getBits` and `setBit`, bit by bit, with the source's example and the idempotence it requires. -/
def Obligations.BitFunctions : Prop :=
  (∀ w hi lo i, lo ≤ hi → hi < 32 → (getBits w hi lo).getLsbD i = (decide (i ≤ hi - lo) && w.getLsbD (lo + i))) ∧
  getBits 0xDEADBEEF#32 31 16 = 0xDEAD#32 ∧
  (∀ w p v i, p < 32 → i < 32 → (setBit w p v).getLsbD i = if i = p then v else w.getLsbD i) ∧
  (∀ w p v, p < 32 → setBit (setBit w p v) p v = setBit w p v)

/-- R15: `signExtend`, bit by bit, and the identity on values that fit.  That the bits above the new width are 0 is the
spec's own decision D34. -/
def Obligations.SignExtension : Prop :=
  (∀ w old new i, 1 ≤ old → old ≤ new → new ≤ 32 → i < 32 → (signExtend w old new).getLsbD i =
    if i < old then w.getLsbD i else if i < new then w.getLsbD (old - 1) else false) ∧
  (∀ v n, 1 ≤ n → n ≤ 32 → v.toNat < 2 ^ n → signExtend v n n = v)

/-! ### Memory -/

/-- R109: storing then loading a word; the little-endian halves and bytes of a stored word; a load of an unmapped page
faults and a store of it succeeds, the rest of the new page reading 0; after any access, load or store, of another address
of the same TLB slot, the next access, load or store, of this one misses, a load that page-faults included (with the
full-address tag of the spec's decision D16, log entry 10); hits + misses = requests. -/
def Obligations.MemoryProperties : Prop :=
  ∀ s a v, s.mem.Inv s.params.tlbBits →
    (a.toNat % 4 = 0 → ∃ t, memWrite .word a v s = .ok () t ∧ t.mem.Inv t.params.tlbBits ∧
      t.mem.hits + t.mem.misses = t.mem.requests ∧
      (∃ u, memRead .word a t = .ok v u) ∧
      (∀ j, j < 2 → ∃ u, memRead .half (a + BitVec.ofNat 32 (2 * j)) t =
        .ok ((v.extractLsb' (16 * j) 16).setWidth 32) u) ∧
      (∀ j, j < 4 → ∃ u, memRead .byte (a + BitVec.ofNat 32 j) t = .ok ((v.extractLsb' (8 * j) 8).setWidth 32) u) ∧
      (byteAt s a = none → ∀ b, vpn b = vpn a → ¬ inAccess a b 4 → byteAt t b = some 0#8)) ∧
    (a.toNat % 4 = 0 → byteAt s a = none → ∃ l, memRead .word a s = .fault (.pageFault a l)) ∧
    (∀ b t, b ≠ a → tlbIndex s.params.tlbBits b = tlbIndex s.params.tlbBits a → Accesses b s t →
      (∀ u, Accesses a t u → u.mem.misses = t.mem.misses + 1 ∧ u.mem.hits = t.mem.hits) ∧
      (∀ wd l, memRead wd a t = .fault (.pageFault a l) →
        l.mem.misses = t.mem.misses + 1 ∧ l.mem.hits = t.mem.hits))

/-- R105: an aligned load answers the bytes of the byte function `B` at its addresses, least significant first, and
faults exactly when the page is unmapped; an aligned store maps the page, sets its bytes and changes no other. -/
def Obligations.ByteLevelView : Prop :=
  ∀ s a v (wd : Width), s.mem.Inv s.params.tlbBits → a.toNat % wd.bytes = 0 →
    (byteAt s a ≠ none → ∃ t, memRead wd a s = .ok (BitVec.ofNat 32 (littleEndian s a wd.bytes)) t ∧ LoadFrame a s t) ∧
    (byteAt s a = none → ∃ l, memRead wd a s = .fault (.pageFault a l)) ∧
    ∃ t, memWrite wd a v s = .ok () t ∧ StoreFrame wd.bytes a v s t

/-- R92, R102, R108: how the counters move in one access; a hit is the full-address hit of the spec's decision D16 (log
entry 10). -/
def Obligations.AccessCounters : Prop :=
  ∀ s a v (wd : Width), s.mem.Inv s.params.tlbBits →
    (a.toNat % wd.bytes ≠ 0 →
      memRead wd a s = .fault (.misalignedAccess a (abortRun .misalignedAccess s)) ∧
      memWrite wd a v s = .fault (.misalignedAccess a (abortRun .misalignedAccess s))) ∧
    (∀ l, memRead wd a s = .fault (.pageFault a l) → l.mem.requests = s.mem.requests + 1 ∧
      l.mem.misses = s.mem.misses + 1 ∧ l.mem.hits = s.mem.hits ∧ l.mem.numLoads = s.mem.numLoads ∧
      l.mem.numStores = s.mem.numStores ∧ l.mem.tlb = s.mem.tlb) ∧
    (∀ x t, memRead wd a s = .ok x t → t.mem.numLoads = s.mem.numLoads + 1 ∧ t.mem.numStores = s.mem.numStores ∧
      LookupEffect a s t) ∧
    (∀ t, memWrite wd a v s = .ok () t → t.mem.numStores = s.mem.numStores + 1 ∧ t.mem.numLoads = s.mem.numLoads ∧
      LookupEffect a s t)

/-- R52 (b), (c), R58: no step removes or changes a mapping, gives back a page, or changes a cached block. -/
def Obligations.MappingsAndBlocksStay : Prop :=
  ∀ s t, step s = .next t →
    (∀ a p, walk s.mem.level1 a = some p → walk t.mem.level1 a = some p) ∧ s.mem.pageCount ≤ t.mem.pageCount ∧
    (∀ e b, lookupKey e s.blocks = some b → lookupKey e t.blocks = some b) ∧ t.params = s.params

/-! ### The hart loop -/

/-- R348, R349, R350: from an aligned entry, when the words up to the first that ends a block are mapped, the build gives
the decodings of exactly those words, having counted one load for each and changed no byte and no mapping. -/
def Obligations.BuildMakesBlock : Prop :=
  ∀ s e n, s.mem.Inv s.params.tlbBits → e.toNat % 4 = 0 → n < 2 ^ 30 →
    (∀ j < n, ∃ w, wordAt s (e + BitVec.ofNat 32 (4 * j)) = some w ∧ (decode s.params.mFull w).isBranch = false) →
    (∃ w, wordAt s (e + BitVec.ofNat 32 (4 * n)) = some w ∧ (decode s.params.mFull w).isBranch = true) →
    ∃ b m, build s e = .block b m ∧ b.length = n + 1 ∧ endsAtBranch b = true ∧
      (∀ j ≤ n, ∃ w, wordAt s (e + BitVec.ofNat 32 (4 * j)) = some w ∧ b[j]? = some (decode s.params.mFull w)) ∧
      m.numLoads = s.mem.numLoads + (n + 1) ∧ m.numStores = s.mem.numStores ∧ m.bytes = s.mem.bytes ∧
      m.level1 = s.mem.level1 ∧ m.Inv s.params.tlbBits

/-- R349, R350, R351: when a build faults, and what that leaves.  At a block boundary with no block cached at pc, a
misaligned pc raises Misaligned-Access at pc, and an unmapped word before any that ends a block raises Page-Fault at that
word.  A fetch fault ends the run with pc at the entry of the block, no register, CSR or byte changed, nothing counted but
the words fetched and the TLB lookups, and nothing inserted in the block cache; it is a Misaligned-Access at the entry or
a Page-Fault at the first unmapped word, all words before it mapped and none ending a block. -/
def Obligations.BuildFaults : Prop :=
  ∀ s, s.mem.Inv s.params.tlbBits → s.status = .running → s.pending = [] → s.complete = false →
    lookupKey s.pc.toNat s.blocks = none →
    (s.pc.toNat % 4 ≠ 0 → ∃ f, fetch s = .fault f ∧ f.kind = .misalignedAccess ∧ f.addr = some s.pc) ∧
    (s.pc.toNat % 4 = 0 → ∀ n, byteAt s (s.pc + BitVec.ofNat 32 (4 * n)) = none →
      (∀ j < n, ∃ w, wordAt s (s.pc + BitVec.ofNat 32 (4 * j)) = some w ∧
        (decode s.params.mFull w).isBranch = false) →
      ∃ f, fetch s = .fault f ∧ f.kind = .pageFault ∧ f.addr = some (s.pc + BitVec.ofNat 32 (4 * n))) ∧
    ∀ f, fetch s = .fault f →
      step s = .fault f ∧ f.left.pc = s.pc ∧ SameRegisters s f.left ∧ f.left.csrs = s.csrs ∧ f.left.npc = s.npc ∧
      f.left.icount = s.icount ∧ f.left.branchIsTaken = s.branchIsTaken ∧ f.left.complete = false ∧
      (∀ a, byteAt f.left a = byteAt s a) ∧ f.left.blocks = s.blocks ∧ f.left.status = .faulted f.kind ∧
      f.left.mem.numStores = s.mem.numStores ∧
      ((s.pc.toNat % 4 ≠ 0 ∧ f.kind = .misalignedAccess ∧ f.addr = some s.pc ∧ f.left.mem = s.mem) ∨
       (s.pc.toNat % 4 = 0 ∧ f.kind = .pageFault ∧ ∃ n, f.addr = some (s.pc + BitVec.ofNat 32 (4 * n)) ∧
        byteAt s (s.pc + BitVec.ofNat 32 (4 * n)) = none ∧ f.left.mem.numLoads = s.mem.numLoads + n ∧
        ∀ j < n, ∃ w, wordAt s (s.pc + BitVec.ofNat 32 (4 * j)) = some w ∧
          (decode s.params.mFull w).isBranch = false))

/-- R112, R355 (a): taking an instruction from the current block or from a cached block fetches nothing: it executes in the
state it was taken in but for the rest of the block, the Memory component and the block cache as they were; and the step
leaves the block cache so, and the Memory component too unless the instruction itself accesses memory. -/
def Obligations.CachedBlocksDoNotFetch : Prop :=
  ∀ s d u, fetch s = .ready d u → (s.pending ≠ [] ∨ lookupKey s.pc.toNat s.blocks ≠ none) →
    u = s.withPending u.pending ∧ u.mem = s.mem ∧ u.blocks = s.blocks ∧ step s = finish (execDecoded d u) ∧
    ∀ t, step s = .next t → t.blocks = s.blocks ∧ (accessesMemory d.opType = false → t.mem = s.mem)

/-- R353: the hart halts exactly by executing ECALL, with `complete` true, the flag clear, pc after the ECALL and the
counters including it, and then takes no further step. -/
def Obligations.HaltsExactlyByEcall : Prop :=
  ∀ s t, s.Inv → step s = .next t →
    (t.status = .halted ↔ ∃ u, fetch s = .ready (.instr .ecall) u) ∧
    (t.status = .halted → t.complete = true ∧ t.branchIsTaken = false ∧ t.pending = [] ∧ t.pc = s.pc + 4#32 ∧
      t.icount = s.icount + 1 ∧
      pairValue t.csrs.instreth t.csrs.instret = (pairValue s.csrs.instreth s.csrs.instret + 1) % 2 ^ 64 ∧
      pairValue t.csrs.cycleh t.csrs.cycle = (pairValue s.csrs.cycleh s.csrs.cycle + Config.cost .ecall) % 2 ^ 64 ∧
      step t = .refused .halted)

/-- R60, R18, R377: Halted and Faulted are terminal, and a step that faults makes the status Faulted of its kind
(the spec's decision D20). -/
def Obligations.TerminalStatus : Prop :=
  ∀ s, (s.status = .halted → step s = .refused .halted) ∧
    (∀ k, s.status = .faulted k → step s = .refused (.aborted k)) ∧
    (∀ f, step s = .fault f → f.left.status = .faulted f.kind ∧ step f.left = .refused (.aborted f.kind))

/-! ### What cannot be observed -/

/-- R54, R64 (b), R105: no instruction's outcome depends on npc, the TLB, its size, the statistics counters, the page
handles or the block cache: two states that agree in the architectural view give the same outcome in that view. -/
def Obligations.TlbInvisible : Prop :=
  ∀ d s u, s.mem.Inv s.params.tlbBits → u.mem.Inv u.params.tlbBits → s.branchIsTaken = false →
    u.branchIsTaken = false → s.params.divOverflow = u.params.divOverflow → ArchEq s u →
    (∀ t, execDecoded d s = .next t → ∃ t', execDecoded d u = .next t' ∧ ArchEq t t') ∧
    (∀ f, execDecoded d s = .fault f → ∃ f', execDecoded d u = .fault f' ∧ f.kind = f'.kind ∧ f.addr = f'.addr ∧
      ArchEq f.left f'.left)

/-- R356: while no fetched word has been overwritten, each instruction the hart executes is the one the simple machine
(`w <- loadWord(pc); decode; execute`) executes there, with the same next architectural state or the same fault; and as
long as the step leaves every fetched word as it was, the condition still holds after it. -/
def Obligations.SimpleMachineAgrees : Prop :=
  ∀ s d u, s.Inv → CodeFresh s → fetch s = .ready d u →
    (∀ t, step s = .next t → (∃ t', simpleStep s = .next t' ∧ ArchEq t t') ∧
      ((∀ a, FetchedAt t a → wordAt t a = wordAt s a) → CodeFresh t)) ∧
    (∀ f, step s = .fault f → ∃ f', simpleStep s = .fault f' ∧ f.kind = f'.kind ∧ f.addr = f'.addr ∧
      ArchEq f.left f'.left)
end

