-- ==== Sys2Proof/Laws/Assoc.lean ====
section
/-! SUPPORT. The laws of the sparse maps of Machine/Assoc.lean: reading after writing, and the canonical form kept. -/

namespace Sys2Proof.Machine

variable {α : Type}

@[simp] theorem lookupKey_nil (k : Nat) : lookupKey k ([] : List (Nat × α)) = none := rfl

theorem lookupKey_insertKey (k k' : Nat) (v : α) (m : List (Nat × α)) :
    lookupKey k (insertKey k' v m) = if k = k' then some v else lookupKey k m := by
  induction m with
  | nil => simp [insertKey, lookupKey]
  | cons e m ih =>
    obtain ⟨j, x⟩ := e
    unfold insertKey
    split
    · simp [lookupKey]
    · split
      · subst_vars; simp only [lookupKey]; split <;> simp_all
      · simp only [lookupKey, ih]; split <;> split <;> simp_all

@[simp] theorem lookupKey_insertKey_self (k : Nat) (v : α) (m : List (Nat × α)) :
    lookupKey k (insertKey k v m) = some v := by simp [lookupKey_insertKey]

theorem lookupKey_eraseKey (k k' : Nat) (m : List (Nat × α)) :
    lookupKey k (eraseKey k' m) = if k = k' then none else lookupKey k m := by
  induction m with
  | nil => simp [eraseKey]
  | cons e m ih =>
    obtain ⟨j, x⟩ := e
    unfold eraseKey
    split
    · subst_vars; simp only [ih, lookupKey]; split <;> simp_all
    · simp only [lookupKey, ih]; split <;> split <;> simp_all

theorem mem_of_lookupKey {k : Nat} {v : α} {m : List (Nat × α)} (h : lookupKey k m = some v) : (k, v) ∈ m := by
  induction m with
  | nil => simp at h
  | cons e m ih =>
    obtain ⟨j, x⟩ := e
    simp only [lookupKey] at h
    split at h
    · simp_all
    · exact List.mem_cons_of_mem _ (ih h)

theorem lookupKey_of_mem {k : Nat} {v : α} {m : List (Nat × α)} (hm : risingKeys m) (h : (k, v) ∈ m) :
    lookupKey k m = some v := by
  induction m with
  | nil => simp at h
  | cons e m ih =>
    obtain ⟨j, x⟩ := e
    simp only [risingKeys, List.map_cons, List.pairwise_cons] at hm
    simp only [lookupKey]
    rcases List.mem_cons.mp h with h | h
    · simp_all
    · have : j < k := hm.1 k (List.mem_map.mpr ⟨_, h, rfl⟩)
      rw [if_neg (by omega)]
      exact ih hm.2 h

theorem mem_insertKey {k : Nat} {v : α} {m : List (Nat × α)} {e : Nat × α} (h : e ∈ insertKey k v m) :
    e = (k, v) ∨ e ∈ m := by
  induction m with
  | nil => simpa [insertKey] using h
  | cons x m ih =>
    obtain ⟨j, y⟩ := x
    unfold insertKey at h
    split at h
    · simpa using h
    · split at h
      · simp only [List.mem_cons] at h ⊢; tauto
      · rcases List.mem_cons.mp h with h | h
        · simp [h]
        · rcases ih h with h | h <;> simp [h]

theorem mem_eraseKey {k : Nat} {m : List (Nat × α)} {e : Nat × α} (h : e ∈ eraseKey k m) : e ∈ m ∧ e.1 ≠ k := by
  induction m with
  | nil => simp [eraseKey] at h
  | cons x m ih =>
    obtain ⟨j, y⟩ := x
    unfold eraseKey at h
    split at h
    · exact ⟨List.mem_cons_of_mem _ (ih h).1, (ih h).2⟩
    · rcases List.mem_cons.mp h with h | h
      · subst h; exact ⟨by simp, by simpa [eq_comm] using ‹¬k = j›⟩
      · exact ⟨List.mem_cons_of_mem _ (ih h).1, (ih h).2⟩

@[simp] theorem risingKeys_nil : risingKeys ([] : List (Nat × α)) := by simp [risingKeys]

theorem risingKeys_cons {e : Nat × α} {m : List (Nat × α)} :
    risingKeys (e :: m) ↔ (∀ x ∈ m, e.1 < x.1) ∧ risingKeys m := by
  simp [risingKeys]

theorem risingKeys_insertKey {k : Nat} {v : α} {m : List (Nat × α)} (hm : risingKeys m) :
    risingKeys (insertKey k v m) := by
  induction m with
  | nil => simp [insertKey, risingKeys]
  | cons e m ih =>
    obtain ⟨j, x⟩ := e
    obtain ⟨h1, h2⟩ := risingKeys_cons.mp hm
    unfold insertKey
    split
    · refine risingKeys_cons.mpr ⟨fun y hy => ?_, hm⟩
      rcases List.mem_cons.mp hy with rfl | hy
      · assumption
      · exact Nat.lt_trans ‹k < j› (h1 y hy)
    · split
      · subst_vars; exact risingKeys_cons.mpr ⟨h1, h2⟩
      · refine risingKeys_cons.mpr ⟨fun y hy => ?_, ih h2⟩
        rcases mem_insertKey hy with rfl | hy
        · simp only; omega
        · exact h1 y hy

theorem risingKeys_eraseKey {k : Nat} {m : List (Nat × α)} (hm : risingKeys m) : risingKeys (eraseKey k m) := by
  induction m with
  | nil => simp [eraseKey]
  | cons e m ih =>
    obtain ⟨j, x⟩ := e
    obtain ⟨h1, h2⟩ := risingKeys_cons.mp hm
    unfold eraseKey
    split
    · exact ih h2
    · exact risingKeys_cons.mpr ⟨fun y hy => h1 y (mem_eraseKey hy).1, ih h2⟩

/-- Two canonical maps that answer every key alike are the same list. -/
theorem risingKeys_ext {m n : List (Nat × α)} (hm : risingKeys m) (hn : risingKeys n)
    (h : ∀ k, lookupKey k m = lookupKey k n) : m = n := by
  induction m generalizing n with
  | nil =>
    cases n with
    | nil => rfl
    | cons e n => have := h e.1; simp [lookupKey] at this
  | cons a m ih =>
    cases n with
    | nil => have := h a.1; simp [lookupKey] at this
    | cons b n =>
      obtain ⟨ha, hm'⟩ := risingKeys_cons.mp hm
      obtain ⟨hb, hn'⟩ := risingKeys_cons.mp hn
      have hab : a.1 = b.1 := by
        by_contra hne
        rcases Nat.lt_or_gt_of_ne hne with hlt | hgt
        · have := h a.1
          simp only [lookupKey, if_true, if_neg hne] at this
          have := hb _ (mem_of_lookupKey this.symm)
          simp at this; omega
        · have := h b.1
          simp only [lookupKey, if_true, if_neg (Ne.symm hne)] at this
          have := ha _ (mem_of_lookupKey this)
          simp at this; omega
      have hv : a = b := by
        have := h a.1
        simp only [lookupKey, hab, if_true, Option.some.injEq] at this
        exact Prod.ext hab this
      subst hv
      refine congrArg _ (ih hm' hn' fun k => ?_)
      have hk := h k
      simp only [lookupKey] at hk
      by_cases hka : k = a.1
      · have e1 : lookupKey k m = none := by
          rcases h1 : lookupKey k m with _ | v
          · rfl
          · have := ha _ (mem_of_lookupKey h1); simp at this; omega
        have e2 : lookupKey k n = none := by
          rcases h1 : lookupKey k n with _ | v
          · rfl
          · have := hb _ (mem_of_lookupKey h1); simp at this; omega
        rw [e1, e2]
      · simpa [hka] using hk

end Sys2Proof.Machine
end

