-- ==== Sys2Proof/Laws/State.lean ====
section
/-! SUPPORT. One lemma per field per update of `State`, true by rfl, so that no later proof unfolds a record update. -/

namespace Sys2Proof.Machine

variable (s : State)

@[simp] theorem State.withParams_params (v : Params) : (s.withParams v).params = v := rfl
@[simp] theorem State.withParams_pc (v : Params) : (s.withParams v).pc = s.pc := rfl
@[simp] theorem State.withParams_npc (v : Params) : (s.withParams v).npc = s.npc := rfl
@[simp] theorem State.withParams_branchIsTaken (v : Params) : (s.withParams v).branchIsTaken = s.branchIsTaken := rfl
@[simp] theorem State.withParams_complete (v : Params) : (s.withParams v).complete = s.complete := rfl
@[simp] theorem State.withParams_regs (v : Params) : (s.withParams v).regs = s.regs := rfl
@[simp] theorem State.withParams_csrs (v : Params) : (s.withParams v).csrs = s.csrs := rfl
@[simp] theorem State.withParams_mem (v : Params) : (s.withParams v).mem = s.mem := rfl
@[simp] theorem State.withParams_icount (v : Params) : (s.withParams v).icount = s.icount := rfl
@[simp] theorem State.withParams_blocks (v : Params) : (s.withParams v).blocks = s.blocks := rfl
@[simp] theorem State.withParams_pending (v : Params) : (s.withParams v).pending = s.pending := rfl
@[simp] theorem State.withParams_status (v : Params) : (s.withParams v).status = s.status := rfl

@[simp] theorem State.withPc_params (v : Word) : (s.withPc v).params = s.params := rfl
@[simp] theorem State.withPc_pc (v : Word) : (s.withPc v).pc = v := rfl
@[simp] theorem State.withPc_npc (v : Word) : (s.withPc v).npc = s.npc := rfl
@[simp] theorem State.withPc_branchIsTaken (v : Word) : (s.withPc v).branchIsTaken = s.branchIsTaken := rfl
@[simp] theorem State.withPc_complete (v : Word) : (s.withPc v).complete = s.complete := rfl
@[simp] theorem State.withPc_regs (v : Word) : (s.withPc v).regs = s.regs := rfl
@[simp] theorem State.withPc_csrs (v : Word) : (s.withPc v).csrs = s.csrs := rfl
@[simp] theorem State.withPc_mem (v : Word) : (s.withPc v).mem = s.mem := rfl
@[simp] theorem State.withPc_icount (v : Word) : (s.withPc v).icount = s.icount := rfl
@[simp] theorem State.withPc_blocks (v : Word) : (s.withPc v).blocks = s.blocks := rfl
@[simp] theorem State.withPc_pending (v : Word) : (s.withPc v).pending = s.pending := rfl
@[simp] theorem State.withPc_status (v : Word) : (s.withPc v).status = s.status := rfl

@[simp] theorem State.withNpc_params (v : Word) : (s.withNpc v).params = s.params := rfl
@[simp] theorem State.withNpc_pc (v : Word) : (s.withNpc v).pc = s.pc := rfl
@[simp] theorem State.withNpc_npc (v : Word) : (s.withNpc v).npc = v := rfl
@[simp] theorem State.withNpc_branchIsTaken (v : Word) : (s.withNpc v).branchIsTaken = s.branchIsTaken := rfl
@[simp] theorem State.withNpc_complete (v : Word) : (s.withNpc v).complete = s.complete := rfl
@[simp] theorem State.withNpc_regs (v : Word) : (s.withNpc v).regs = s.regs := rfl
@[simp] theorem State.withNpc_csrs (v : Word) : (s.withNpc v).csrs = s.csrs := rfl
@[simp] theorem State.withNpc_mem (v : Word) : (s.withNpc v).mem = s.mem := rfl
@[simp] theorem State.withNpc_icount (v : Word) : (s.withNpc v).icount = s.icount := rfl
@[simp] theorem State.withNpc_blocks (v : Word) : (s.withNpc v).blocks = s.blocks := rfl
@[simp] theorem State.withNpc_pending (v : Word) : (s.withNpc v).pending = s.pending := rfl
@[simp] theorem State.withNpc_status (v : Word) : (s.withNpc v).status = s.status := rfl

@[simp] theorem State.withBranchIsTaken_params (v : Bool) : (s.withBranchIsTaken v).params = s.params := rfl
@[simp] theorem State.withBranchIsTaken_pc (v : Bool) : (s.withBranchIsTaken v).pc = s.pc := rfl
@[simp] theorem State.withBranchIsTaken_npc (v : Bool) : (s.withBranchIsTaken v).npc = s.npc := rfl
@[simp] theorem State.withBranchIsTaken_branchIsTaken (v : Bool) : (s.withBranchIsTaken v).branchIsTaken = v := rfl
@[simp] theorem State.withBranchIsTaken_complete (v : Bool) : (s.withBranchIsTaken v).complete = s.complete := rfl
@[simp] theorem State.withBranchIsTaken_regs (v : Bool) : (s.withBranchIsTaken v).regs = s.regs := rfl
@[simp] theorem State.withBranchIsTaken_csrs (v : Bool) : (s.withBranchIsTaken v).csrs = s.csrs := rfl
@[simp] theorem State.withBranchIsTaken_mem (v : Bool) : (s.withBranchIsTaken v).mem = s.mem := rfl
@[simp] theorem State.withBranchIsTaken_icount (v : Bool) : (s.withBranchIsTaken v).icount = s.icount := rfl
@[simp] theorem State.withBranchIsTaken_blocks (v : Bool) : (s.withBranchIsTaken v).blocks = s.blocks := rfl
@[simp] theorem State.withBranchIsTaken_pending (v : Bool) : (s.withBranchIsTaken v).pending = s.pending := rfl
@[simp] theorem State.withBranchIsTaken_status (v : Bool) : (s.withBranchIsTaken v).status = s.status := rfl

@[simp] theorem State.withComplete_params (v : Bool) : (s.withComplete v).params = s.params := rfl
@[simp] theorem State.withComplete_pc (v : Bool) : (s.withComplete v).pc = s.pc := rfl
@[simp] theorem State.withComplete_npc (v : Bool) : (s.withComplete v).npc = s.npc := rfl
@[simp] theorem State.withComplete_branchIsTaken (v : Bool) : (s.withComplete v).branchIsTaken = s.branchIsTaken := rfl
@[simp] theorem State.withComplete_complete (v : Bool) : (s.withComplete v).complete = v := rfl
@[simp] theorem State.withComplete_regs (v : Bool) : (s.withComplete v).regs = s.regs := rfl
@[simp] theorem State.withComplete_csrs (v : Bool) : (s.withComplete v).csrs = s.csrs := rfl
@[simp] theorem State.withComplete_mem (v : Bool) : (s.withComplete v).mem = s.mem := rfl
@[simp] theorem State.withComplete_icount (v : Bool) : (s.withComplete v).icount = s.icount := rfl
@[simp] theorem State.withComplete_blocks (v : Bool) : (s.withComplete v).blocks = s.blocks := rfl
@[simp] theorem State.withComplete_pending (v : Bool) : (s.withComplete v).pending = s.pending := rfl
@[simp] theorem State.withComplete_status (v : Bool) : (s.withComplete v).status = s.status := rfl

@[simp] theorem State.withRegs_params (v : Vector Word 32) : (s.withRegs v).params = s.params := rfl
@[simp] theorem State.withRegs_pc (v : Vector Word 32) : (s.withRegs v).pc = s.pc := rfl
@[simp] theorem State.withRegs_npc (v : Vector Word 32) : (s.withRegs v).npc = s.npc := rfl
@[simp] theorem State.withRegs_branchIsTaken (v : Vector Word 32) : (s.withRegs v).branchIsTaken = s.branchIsTaken := rfl
@[simp] theorem State.withRegs_complete (v : Vector Word 32) : (s.withRegs v).complete = s.complete := rfl
@[simp] theorem State.withRegs_regs (v : Vector Word 32) : (s.withRegs v).regs = v := rfl
@[simp] theorem State.withRegs_csrs (v : Vector Word 32) : (s.withRegs v).csrs = s.csrs := rfl
@[simp] theorem State.withRegs_mem (v : Vector Word 32) : (s.withRegs v).mem = s.mem := rfl
@[simp] theorem State.withRegs_icount (v : Vector Word 32) : (s.withRegs v).icount = s.icount := rfl
@[simp] theorem State.withRegs_blocks (v : Vector Word 32) : (s.withRegs v).blocks = s.blocks := rfl
@[simp] theorem State.withRegs_pending (v : Vector Word 32) : (s.withRegs v).pending = s.pending := rfl
@[simp] theorem State.withRegs_status (v : Vector Word 32) : (s.withRegs v).status = s.status := rfl

@[simp] theorem State.withCsrs_params (v : Csrs) : (s.withCsrs v).params = s.params := rfl
@[simp] theorem State.withCsrs_pc (v : Csrs) : (s.withCsrs v).pc = s.pc := rfl
@[simp] theorem State.withCsrs_npc (v : Csrs) : (s.withCsrs v).npc = s.npc := rfl
@[simp] theorem State.withCsrs_branchIsTaken (v : Csrs) : (s.withCsrs v).branchIsTaken = s.branchIsTaken := rfl
@[simp] theorem State.withCsrs_complete (v : Csrs) : (s.withCsrs v).complete = s.complete := rfl
@[simp] theorem State.withCsrs_regs (v : Csrs) : (s.withCsrs v).regs = s.regs := rfl
@[simp] theorem State.withCsrs_csrs (v : Csrs) : (s.withCsrs v).csrs = v := rfl
@[simp] theorem State.withCsrs_mem (v : Csrs) : (s.withCsrs v).mem = s.mem := rfl
@[simp] theorem State.withCsrs_icount (v : Csrs) : (s.withCsrs v).icount = s.icount := rfl
@[simp] theorem State.withCsrs_blocks (v : Csrs) : (s.withCsrs v).blocks = s.blocks := rfl
@[simp] theorem State.withCsrs_pending (v : Csrs) : (s.withCsrs v).pending = s.pending := rfl
@[simp] theorem State.withCsrs_status (v : Csrs) : (s.withCsrs v).status = s.status := rfl

@[simp] theorem State.withMem_params (v : Mem) : (s.withMem v).params = s.params := rfl
@[simp] theorem State.withMem_pc (v : Mem) : (s.withMem v).pc = s.pc := rfl
@[simp] theorem State.withMem_npc (v : Mem) : (s.withMem v).npc = s.npc := rfl
@[simp] theorem State.withMem_branchIsTaken (v : Mem) : (s.withMem v).branchIsTaken = s.branchIsTaken := rfl
@[simp] theorem State.withMem_complete (v : Mem) : (s.withMem v).complete = s.complete := rfl
@[simp] theorem State.withMem_regs (v : Mem) : (s.withMem v).regs = s.regs := rfl
@[simp] theorem State.withMem_csrs (v : Mem) : (s.withMem v).csrs = s.csrs := rfl
@[simp] theorem State.withMem_mem (v : Mem) : (s.withMem v).mem = v := rfl
@[simp] theorem State.withMem_icount (v : Mem) : (s.withMem v).icount = s.icount := rfl
@[simp] theorem State.withMem_blocks (v : Mem) : (s.withMem v).blocks = s.blocks := rfl
@[simp] theorem State.withMem_pending (v : Mem) : (s.withMem v).pending = s.pending := rfl
@[simp] theorem State.withMem_status (v : Mem) : (s.withMem v).status = s.status := rfl

@[simp] theorem State.withIcount_params (v : Nat) : (s.withIcount v).params = s.params := rfl
@[simp] theorem State.withIcount_pc (v : Nat) : (s.withIcount v).pc = s.pc := rfl
@[simp] theorem State.withIcount_npc (v : Nat) : (s.withIcount v).npc = s.npc := rfl
@[simp] theorem State.withIcount_branchIsTaken (v : Nat) : (s.withIcount v).branchIsTaken = s.branchIsTaken := rfl
@[simp] theorem State.withIcount_complete (v : Nat) : (s.withIcount v).complete = s.complete := rfl
@[simp] theorem State.withIcount_regs (v : Nat) : (s.withIcount v).regs = s.regs := rfl
@[simp] theorem State.withIcount_csrs (v : Nat) : (s.withIcount v).csrs = s.csrs := rfl
@[simp] theorem State.withIcount_mem (v : Nat) : (s.withIcount v).mem = s.mem := rfl
@[simp] theorem State.withIcount_icount (v : Nat) : (s.withIcount v).icount = v := rfl
@[simp] theorem State.withIcount_blocks (v : Nat) : (s.withIcount v).blocks = s.blocks := rfl
@[simp] theorem State.withIcount_pending (v : Nat) : (s.withIcount v).pending = s.pending := rfl
@[simp] theorem State.withIcount_status (v : Nat) : (s.withIcount v).status = s.status := rfl

@[simp] theorem State.withBlocks_params (v : List (Nat × List Decoded)) : (s.withBlocks v).params = s.params := rfl
@[simp] theorem State.withBlocks_pc (v : List (Nat × List Decoded)) : (s.withBlocks v).pc = s.pc := rfl
@[simp] theorem State.withBlocks_npc (v : List (Nat × List Decoded)) : (s.withBlocks v).npc = s.npc := rfl
@[simp] theorem State.withBlocks_branchIsTaken (v : List (Nat × List Decoded)) : (s.withBlocks v).branchIsTaken = s.branchIsTaken := rfl
@[simp] theorem State.withBlocks_complete (v : List (Nat × List Decoded)) : (s.withBlocks v).complete = s.complete := rfl
@[simp] theorem State.withBlocks_regs (v : List (Nat × List Decoded)) : (s.withBlocks v).regs = s.regs := rfl
@[simp] theorem State.withBlocks_csrs (v : List (Nat × List Decoded)) : (s.withBlocks v).csrs = s.csrs := rfl
@[simp] theorem State.withBlocks_mem (v : List (Nat × List Decoded)) : (s.withBlocks v).mem = s.mem := rfl
@[simp] theorem State.withBlocks_icount (v : List (Nat × List Decoded)) : (s.withBlocks v).icount = s.icount := rfl
@[simp] theorem State.withBlocks_blocks (v : List (Nat × List Decoded)) : (s.withBlocks v).blocks = v := rfl
@[simp] theorem State.withBlocks_pending (v : List (Nat × List Decoded)) : (s.withBlocks v).pending = s.pending := rfl
@[simp] theorem State.withBlocks_status (v : List (Nat × List Decoded)) : (s.withBlocks v).status = s.status := rfl

@[simp] theorem State.withPending_params (v : List Decoded) : (s.withPending v).params = s.params := rfl
@[simp] theorem State.withPending_pc (v : List Decoded) : (s.withPending v).pc = s.pc := rfl
@[simp] theorem State.withPending_npc (v : List Decoded) : (s.withPending v).npc = s.npc := rfl
@[simp] theorem State.withPending_branchIsTaken (v : List Decoded) : (s.withPending v).branchIsTaken = s.branchIsTaken := rfl
@[simp] theorem State.withPending_complete (v : List Decoded) : (s.withPending v).complete = s.complete := rfl
@[simp] theorem State.withPending_regs (v : List Decoded) : (s.withPending v).regs = s.regs := rfl
@[simp] theorem State.withPending_csrs (v : List Decoded) : (s.withPending v).csrs = s.csrs := rfl
@[simp] theorem State.withPending_mem (v : List Decoded) : (s.withPending v).mem = s.mem := rfl
@[simp] theorem State.withPending_icount (v : List Decoded) : (s.withPending v).icount = s.icount := rfl
@[simp] theorem State.withPending_blocks (v : List Decoded) : (s.withPending v).blocks = s.blocks := rfl
@[simp] theorem State.withPending_pending (v : List Decoded) : (s.withPending v).pending = v := rfl
@[simp] theorem State.withPending_status (v : List Decoded) : (s.withPending v).status = s.status := rfl

@[simp] theorem State.withStatus_params (v : RunStatus) : (s.withStatus v).params = s.params := rfl
@[simp] theorem State.withStatus_pc (v : RunStatus) : (s.withStatus v).pc = s.pc := rfl
@[simp] theorem State.withStatus_npc (v : RunStatus) : (s.withStatus v).npc = s.npc := rfl
@[simp] theorem State.withStatus_branchIsTaken (v : RunStatus) : (s.withStatus v).branchIsTaken = s.branchIsTaken := rfl
@[simp] theorem State.withStatus_complete (v : RunStatus) : (s.withStatus v).complete = s.complete := rfl
@[simp] theorem State.withStatus_regs (v : RunStatus) : (s.withStatus v).regs = s.regs := rfl
@[simp] theorem State.withStatus_csrs (v : RunStatus) : (s.withStatus v).csrs = s.csrs := rfl
@[simp] theorem State.withStatus_mem (v : RunStatus) : (s.withStatus v).mem = s.mem := rfl
@[simp] theorem State.withStatus_icount (v : RunStatus) : (s.withStatus v).icount = s.icount := rfl
@[simp] theorem State.withStatus_blocks (v : RunStatus) : (s.withStatus v).blocks = s.blocks := rfl
@[simp] theorem State.withStatus_pending (v : RunStatus) : (s.withStatus v).pending = s.pending := rfl
@[simp] theorem State.withStatus_status (v : RunStatus) : (s.withStatus v).status = v := rfl

end Sys2Proof.Machine
end

