-- ==== Sys2Proof/Laws/Memory.lean ====
section
/-! SUPPORT. Laws of memory contents, address fields and the page table: reading after writing, and the canonical
forms kept by every operation. -/

namespace Sys2Proof.Machine

/-! ### Address fields -/

theorem toNat_eq_vpn_offset (a : Word) : a.toNat = 4096 * vpn a + pageOffset a := by
  have := a.isLt
  simp only [vpn, pageOffset, bits]; omega

theorem vpn_eq_pt (a : Word) : vpn a = 1024 * pt1 a + pt2 a := by
  have := a.isLt
  simp only [vpn, pt1, pt2, bits]; omega

theorem pageOffset_lt (a : Word) : pageOffset a < 4096 := by simp only [pageOffset, bits]; omega
theorem pt1_lt (a : Word) : pt1 a < 1024 := by simp only [pt1, bits]; omega
theorem pt2_lt (a : Word) : pt2 a < 1024 := by simp only [pt2, bits]; omega
theorem vpn_lt (a : Word) : vpn a < 2 ^ 20 := by simp only [vpn, bits]; omega

theorem vpn_eq_iff (a b : Word) : vpn a = vpn b ↔ pt1 a = pt1 b ∧ pt2 a = pt2 b := by
  have := pt2_lt a; have := pt2_lt b
  rw [vpn_eq_pt, vpn_eq_pt]; omega

theorem addr_eq_iff (a b : Word) : a = b ↔ vpn a = vpn b ∧ pageOffset a = pageOffset b := by
  constructor
  · rintro rfl; exact ⟨rfl, rfl⟩
  · rintro ⟨h1, h2⟩
    exact BitVec.eq_of_toNat_eq (by rw [toNat_eq_vpn_offset a, toNat_eq_vpn_offset b, h1, h2])

theorem toNat_add_small (a : Word) (i : Nat) (h : a.toNat + i < 2 ^ 32) :
    (a + BitVec.ofNat 32 i).toNat = a.toNat + i := by
  rw [BitVec.toNat_add, BitVec.toNat_ofNat]; omega

theorem aligned_iff (wd : Width) (a : Word) : aligned wd a = true ↔ a.toNat % wd.bytes = 0 := by
  simp [aligned]

/-- The bytes of an aligned access stand in one page, at rising offsets (R91). -/
theorem aligned_add (wd : Width) (a : Word) (h : aligned wd a = true) (i : Nat) (hi : i < wd.bytes) :
    (a + BitVec.ofNat 32 i).toNat = a.toNat + i ∧ vpn (a + BitVec.ofNat 32 i) = vpn a ∧
      pageOffset (a + BitVec.ofNat 32 i) = pageOffset a + i := by
  have ha := a.isLt
  have hw : a.toNat % wd.bytes = 0 := (aligned_iff wd a).mp h
  have hlt : a.toNat + i < 2 ^ 32 := by cases wd <;> simp only [Width.bytes] at * <;> omega
  have hn := toNat_add_small a i hlt
  refine ⟨hn, ?_, ?_⟩
  · simp only [vpn, bits, hn]; cases wd <;> simp only [Width.bytes] at * <;> omega
  · simp only [pageOffset, bits, hn]; cases wd <;> simp only [Width.bytes] at * <;> omega

/-! ### Cells -/

theorem readCell_writeCell (m : Memory) (k j : Nat) (b : Byte) :
    readCell (writeCell m k b) j = if j = k then b else readCell m j := by
  unfold writeCell
  split
  · simp only [readCell, lookupKey_eraseKey]; split <;> simp_all
  · simp only [readCell, lookupKey_insertKey]; split <;> simp

theorem writeCell_wf {m : Memory} (k : Nat) (b : Byte) (h : Memory.wf m) : Memory.wf (writeCell m k b) := by
  unfold writeCell
  split
  · exact ⟨risingKeys_eraseKey h.1, fun c hc => h.2 c (mem_eraseKey hc).1⟩
  · refine ⟨risingKeys_insertKey h.1, fun c hc => ?_⟩
    rcases mem_insertKey hc with rfl | hc
    · assumption
    · exact h.2 c hc

theorem mem_writeCell {m : Memory} {k : Nat} {b : Byte} {c : Host.Cell} (h : c ∈ writeCell m k b) :
    c.1 = k ∨ c ∈ m := by
  unfold writeCell at h
  split at h
  · exact .inr (mem_eraseKey h).1
  · rcases mem_insertKey h with rfl | h
    · exact .inl rfl
    · exact .inr h

theorem writeLE_wf {m : Memory} (k v n : Nat) (h : Memory.wf m) : Memory.wf (writeLE m k v n) := by
  induction n generalizing m k v with
  | zero => exact h
  | succ n ih => exact ih _ _ (writeCell_wf _ _ h)

theorem mem_writeLE {m : Memory} {k v n : Nat} {c : Host.Cell} (h : c ∈ writeLE m k v n) :
    (k ≤ c.1 ∧ c.1 < k + n) ∨ c ∈ m := by
  induction n generalizing m k v with
  | zero => exact .inr h
  | succ n ih =>
    rcases ih h with h | h
    · exact .inl (by omega)
    · rcases mem_writeCell h with h | h
      · exact .inl (by omega)
      · exact .inr h

/-- A cell after a little-endian write: byte `j - k` of the value inside, the old cell outside (R95, R96). -/
theorem readCell_writeLE (m : Memory) (k v n j : Nat) :
    readCell (writeLE m k v n) j =
      if k ≤ j ∧ j < k + n then BitVec.ofNat 8 (v / 2 ^ (8 * (j - k))) else readCell m j := by
  induction n generalizing m k v with
  | zero => rw [if_neg (by omega)]; rfl
  | succ n ih =>
    rw [writeLE, ih, readCell_writeCell]
    by_cases h1 : k + 1 ≤ j ∧ j < k + 1 + n
    · rw [if_pos h1, if_pos (by omega), Nat.div_div_eq_div_mul, ← pow_add]
      congr 3; omega
    · rw [if_neg h1]
      by_cases h2 : j = k
      · subst h2; simp
      · rw [if_neg h2, if_neg (by omega)]

theorem readLE_lt (m : Memory) (k n : Nat) : readLE m k n < 2 ^ (8 * n) := by
  induction n generalizing k with
  | zero => simp [readLE]
  | succ n ih =>
    have h1 := ih (k + 1)
    have h2 := (readCell m k).isLt
    have h3 : 2 ^ (8 * (n + 1)) = 2 ^ 8 * 2 ^ (8 * n) := by rw [← pow_add]; congr 1; omega
    simp only [readLE]; omega

theorem readLE_congr {m m' : Memory} {k k' n : Nat} (h : ∀ i < n, readCell m (k + i) = readCell m' (k' + i)) :
    readLE m k n = readLE m' k' n := by
  induction n generalizing k k' with
  | zero => rfl
  | succ n ih =>
    have h0 := h 0 (by omega)
    simp only [Nat.add_zero] at h0
    simp only [readLE, h0]
    congr 2
    refine ih fun i hi => ?_
    have := h (i + 1) (by omega)
    rw [show k + 1 + i = k + (i + 1) by omega, show k' + 1 + i = k' + (i + 1) by omega]; exact this

/-- Reading back what was written: the low `n` bytes of the value (R109). -/
theorem readLE_writeLE (m : Memory) (k v n : Nat) : readLE (writeLE m k v n) k n = v % 2 ^ (8 * n) := by
  have key : ∀ n k' v' (m' : Memory), (∀ i < n, readCell m' (k' + i) = BitVec.ofNat 8 (v' / 2 ^ (8 * i))) →
      readLE m' k' n = v' % 2 ^ (8 * n) := by
    intro n
    induction n with
    | zero => intros; simp [readLE, Nat.mod_one]
    | succ n ih =>
      intro k' v' m' h
      have h0 := h 0 (by omega)
      have hr := ih (k' + 1) (v' / 2 ^ 8) m' (fun i hi => by
        have := h (i + 1) (by omega)
        rw [show k' + 1 + i = k' + (i + 1) by omega, this, Nat.div_div_eq_div_mul, ← pow_add]
        congr 3; omega)
      simp only [readLE, hr]
      simp only [Nat.add_zero, Nat.mul_zero, pow_zero, Nat.div_one] at h0
      rw [h0, BitVec.toNat_ofNat, show 8 * (n + 1) = 8 + 8 * n by omega, pow_add, Nat.mod_mul]
  refine key n k v _ fun i hi => ?_
  rw [readCell_writeLE, if_pos (by omega)]
  congr 3; omega

/-! ### The page table -/

theorem walk_mapPage (t : Level1) (a b : Word) (h : Nat) :
    walk (mapPage t a h) b = if vpn b = vpn a then some h else walk t b := by
  unfold walk mapPage
  rw [lookupKey_insertKey]
  by_cases h1 : pt1 b = pt1 a
  · rw [if_pos h1]
    simp only [lookupKey_insertKey]
    by_cases h2 : pt2 b = pt2 a
    · rw [if_pos h2, if_pos ((vpn_eq_iff b a).mpr ⟨h1, h2⟩)]
    · rw [if_neg h2, if_neg (fun h => h2 ((vpn_eq_iff b a).mp h).2), h1]
      cases lookupKey (pt1 a) t <;> simp
  · rw [if_neg h1, if_neg (fun h => h1 ((vpn_eq_iff b a).mp h).1)]

theorem walk_congr {t : Level1} {a b : Word} (h : vpn a = vpn b) : walk t a = walk t b := by
  obtain ⟨h1, h2⟩ := (vpn_eq_iff a b).mp h
  simp only [walk, h1, h2]

theorem mapPage_wf {t : Level1} (a : Word) (h : Nat) (ht : Level1.wf t) : Level1.wf (mapPage t a h) := by
  have sub : risingKeys ((lookupKey (pt1 a) t).getD []) ∧ ∀ f ∈ (lookupKey (pt1 a) t).getD [], f.1 < 1024 := by
    rcases hl : lookupKey (pt1 a) t with _ | t2
    · simp
    · exact (ht.2 _ (mem_of_lookupKey hl)).2
  refine ⟨risingKeys_insertKey ht.1, fun e he => ?_⟩
  rcases mem_insertKey he with rfl | he
  · refine ⟨pt1_lt a, risingKeys_insertKey sub.1, fun f hf => ?_⟩
    rcases mem_insertKey hf with rfl | hf
    · exact pt2_lt a
    · exact sub.2 f hf
  · exact ht.2 e he

end Sys2Proof.Machine
end

