-- ==== Sys2Proof/Laws/Access.lean ====
section
/-! SUPPORT. What the Memory component's operations do, said once: translation, loads, stores, and that each keeps the
component's invariant. -/

namespace Sys2Proof.Machine

variable {tb : Nat} {m m' : Mem} {a b v : Word} {p : Nat} {wd : Width}

/-! ### Field equations of the small updates -/

@[simp] theorem Mem.countHit_bytes : m.countHit.bytes = m.bytes := rfl
@[simp] theorem Mem.countHit_level1 : m.countHit.level1 = m.level1 := rfl
@[simp] theorem Mem.countHit_pageCount : m.countHit.pageCount = m.pageCount := rfl
@[simp] theorem Mem.countHit_tlb : m.countHit.tlb = m.tlb := rfl
@[simp] theorem Mem.countMiss_bytes : m.countMiss.bytes = m.bytes := rfl
@[simp] theorem Mem.countMiss_level1 : m.countMiss.level1 = m.level1 := rfl
@[simp] theorem Mem.countMiss_pageCount : m.countMiss.pageCount = m.pageCount := rfl
@[simp] theorem Mem.countMiss_tlb : m.countMiss.tlb = m.tlb := rfl
@[simp] theorem Mem.fill_bytes : (m.fill tb a p).bytes = m.bytes := rfl
@[simp] theorem Mem.fill_level1 : (m.fill tb a p).level1 = m.level1 := rfl
@[simp] theorem Mem.fill_pageCount : (m.fill tb a p).pageCount = m.pageCount := rfl
@[simp] theorem Mem.fill_tlb : (m.fill tb a p).tlb = insertKey (tlbIndex tb a) ⟨a, p⟩ m.tlb := rfl
@[simp] theorem Mem.allocate_bytes : (m.allocate a).bytes = m.bytes := rfl
@[simp] theorem Mem.allocate_level1 : (m.allocate a).level1 = mapPage m.level1 a m.pageCount := rfl
@[simp] theorem Mem.allocate_pageCount : (m.allocate a).pageCount = m.pageCount + 1 := rfl
@[simp] theorem Mem.allocate_tlb : (m.allocate a).tlb = m.tlb := rfl

/-! ### The invariant through the small updates -/

theorem Mem.Inv.empty : Mem.Inv tb Mem.empty where
  bytesCanonical := ⟨by simp [Mem.empty], by simp [Mem.empty]⟩
  bytesInArena := by simp [Mem.empty]
  tableCanonical := ⟨by simp [Mem.empty], by simp [Mem.empty]⟩
  handlesInArena := by simp [Mem.empty, walk]
  pagesDistinct := by simp [Mem.empty, walk]
  slotsCanonical := by simp [Mem.empty]
  slotsCoherent := by simp [Mem.empty]
  lookupsCounted := rfl

/-- The invariant depends on the counters only through `hits + misses = requests`. -/
theorem Mem.Inv.recount (h : m.Inv tb) (hb : m'.bytes = m.bytes) (hp : m'.pageCount = m.pageCount)
    (hl : m'.level1 = m.level1) (ht : m'.tlb = m.tlb) (hc : m'.hits + m'.misses = m'.requests) : m'.Inv tb where
  bytesCanonical := hb ▸ h.bytesCanonical
  bytesInArena := by rw [hb, hp]; exact h.bytesInArena
  tableCanonical := hl ▸ h.tableCanonical
  handlesInArena := by rw [hl, hp]; exact h.handlesInArena
  pagesDistinct := by rw [hl]; exact h.pagesDistinct
  slotsCanonical := ht ▸ h.slotsCanonical
  slotsCoherent := by rw [ht, hl]; exact h.slotsCoherent
  lookupsCounted := hc

theorem Mem.Inv.countHit (h : m.Inv tb) : m.countHit.Inv tb :=
  h.recount rfl rfl rfl rfl (by have := h.lookupsCounted; simp only [Mem.countHit]; omega)

theorem Mem.Inv.countMiss (h : m.Inv tb) : m.countMiss.Inv tb :=
  h.recount rfl rfl rfl rfl (by have := h.lookupsCounted; simp only [Mem.countMiss]; omega)

theorem Mem.Inv.fill (h : m.Inv tb) (hw : walk m.level1 a = some p) : (m.fill tb a p).Inv tb where
  bytesCanonical := h.bytesCanonical
  bytesInArena := h.bytesInArena
  tableCanonical := h.tableCanonical
  handlesInArena := h.handlesInArena
  pagesDistinct := h.pagesDistinct
  slotsCanonical := risingKeys_insertKey h.slotsCanonical
  slotsCoherent := fun e he => by
    rcases mem_insertKey he with rfl | he
    · exact ⟨rfl, hw⟩
    · exact h.slotsCoherent e he
  lookupsCounted := h.lookupsCounted

theorem Mem.Inv.allocate (h : m.Inv tb) (hw : walk m.level1 a = none) : (m.allocate a).Inv tb where
  bytesCanonical := h.bytesCanonical
  bytesInArena := fun c hc => by
    have h1 : c.1 < 4096 * m.pageCount := h.bytesInArena c hc
    rw [Mem.allocate_pageCount, Nat.mul_succ]
    exact Nat.lt_add_right _ h1
  tableCanonical := mapPage_wf _ _ h.tableCanonical
  handlesInArena := fun b q hq => by
    rw [Mem.allocate_level1, walk_mapPage] at hq
    simp only [Mem.allocate_pageCount]
    split at hq
    · simp only [Option.some.injEq] at hq; omega
    · have := h.handlesInArena b q hq; omega
  pagesDistinct := fun b c q hb hc => by
    rw [Mem.allocate_level1, walk_mapPage] at hb hc
    split at hb <;> split at hc
    · simp_all
    · have := h.handlesInArena c q hc
      simp only [Option.some.injEq] at hb; omega
    · have := h.handlesInArena b q hb
      simp only [Option.some.injEq] at hc; omega
    · exact h.pagesDistinct b c q hb hc
  slotsCanonical := h.slotsCanonical
  slotsCoherent := fun e he => by
    have := h.slotsCoherent e he
    refine ⟨this.1, ?_⟩
    rw [Mem.allocate_level1, walk_mapPage, if_neg, this.2]
    intro hv
    rw [walk_congr hv, hw] at this
    exact absurd this.2 (by simp)
  lookupsCounted := h.lookupsCounted

theorem cellKey_lt (h : p < m.pageCount) (i : Nat) (hi : pageOffset a + i < 4096) :
    cellKey p a + i < 4096 * m.pageCount := by
  unfold cellKey
  omega

theorem aligned_fits (h : aligned wd a = true) : pageOffset a + wd.bytes ≤ 4096 := by
  have h1 := (aligned_iff wd a).mp h
  have h2 := toNat_eq_vpn_offset a
  have h3 := pageOffset_lt a
  cases wd <;> simp only [Width.bytes] at * <;> omega

theorem Mem.Inv.write (h : m.Inv tb) (hp : p < m.pageCount) (ha : aligned wd a = true) (n : Nat) (x : Nat) :
    Mem.Inv tb { m with bytes := writeLE m.bytes (cellKey p a) x wd.bytes, numStores := n } where
  bytesCanonical := writeLE_wf _ _ _ h.bytesCanonical
  bytesInArena := fun c hc => by
    rcases mem_writeLE hc with hc | hc
    · have := aligned_fits ha
      have := cellKey_lt (m := m) (a := a) hp (c.1 - cellKey p a) (by omega)
      simp only; omega
    · exact h.bytesInArena c hc
  tableCanonical := h.tableCanonical
  handlesInArena := h.handlesInArena
  pagesDistinct := h.pagesDistinct
  slotsCanonical := h.slotsCanonical
  slotsCoherent := h.slotsCoherent
  lookupsCounted := h.lookupsCounted

/-! ### Translation -/

/-- A TLB hit gives the page the walk would give (R54). -/
theorem Mem.probe_walk (h : m.Inv tb) (hp : m.probe tb a = some p) : walk m.level1 a = some p := by
  unfold Mem.probe at hp
  split at hp
  · rename_i e he
    split at hp
    · rename_i htag
      have := h.slotsCoherent _ (mem_of_lookupKey he)
      simp only [Option.some.injEq] at hp
      rw [← htag, ← hp]; exact this.2
    · simp at hp
  · simp at hp

/-- What a translation leaves of the component: the contents, the access counts, one more lookup, and every slot but that
of the address. -/
structure Mem.Translated (tb : Nat) (a : Word) (m m' : Mem) : Prop where
  bytes     : m'.bytes = m.bytes
  numLoads  : m'.numLoads = m.numLoads
  numStores : m'.numStores = m.numStores
  requests  : m'.requests = m.requests + 1
  slots     : ∀ i, i ≠ tlbIndex tb a → lookupKey i m'.tlb = lookupKey i m.tlb

theorem Mem.translateLoad_mapped (h : m.Inv tb) (hw : walk m.level1 a = some p) :
    ∃ m', m.translateLoad tb a = (some p, m') ∧ m'.Inv tb ∧ Mem.Translated tb a m m' ∧ m'.level1 = m.level1 ∧
      m'.pageCount = m.pageCount ∧ m'.pageFaults = m.pageFaults := by
  unfold Mem.translateLoad
  split
  · rename_i q hq
    have := Mem.probe_walk h hq
    rw [hw] at this; cases this
    exact ⟨_, rfl, h.countHit, ⟨rfl, rfl, rfl, rfl, fun _ _ => rfl⟩, rfl, rfl, rfl⟩
  · simp only [hw]
    refine ⟨_, rfl, h.countMiss.fill hw, ⟨rfl, rfl, rfl, rfl, fun i hi => ?_⟩, rfl, rfl, rfl⟩
    simp [lookupKey_insertKey, hi]

theorem Mem.translateLoad_unmapped (h : m.Inv tb) (hw : walk m.level1 a = none) :
    m.translateLoad tb a = (none, { m.countMiss with pageFaults := m.pageFaults + 1 }) := by
  unfold Mem.translateLoad
  split
  · rename_i q hq
    rw [Mem.probe_walk h hq] at hw; simp at hw
  · simp only [hw]

/-- The table after the walk of a store. -/
def tableAfterStore (m : Mem) (a : Word) : Level1 :=
  if walk m.level1 a = none then mapPage m.level1 a m.pageCount else m.level1

theorem Mem.translateStore_spec (h : m.Inv tb) (a : Word) :
    ∃ p m', m.translateStore tb a = (p, m') ∧ m'.Inv tb ∧ Mem.Translated tb a m m' ∧ walk m'.level1 a = some p ∧
      p = (walk m.level1 a).getD m.pageCount ∧ m'.level1 = tableAfterStore m a ∧
      m'.pageCount = m.pageCount + (if walk m.level1 a = none then 1 else 0) ∧ m'.pageFaults = m.pageFaults := by
  unfold Mem.translateStore
  split
  · rename_i q hq
    have hw := Mem.probe_walk h hq
    exact ⟨q, _, rfl, h.countHit, ⟨rfl, rfl, rfl, rfl, fun _ _ => rfl⟩, hw, by simp [hw],
      by simp [tableAfterStore, hw], by simp [hw], rfl⟩
  · unfold Mem.ownPage
    rcases hw : walk m.level1 a with _ | q
    · have hw' : walk m.countMiss.level1 a = none := hw
      simp only [Mem.countMiss_level1, hw]
      have hmap : walk (m.countMiss.allocate a).level1 a = some m.pageCount := by
        simp [walk_mapPage]
      refine ⟨_, _, rfl, (h.countMiss.allocate hw').fill hmap, ⟨rfl, rfl, rfl, rfl, fun i hi => ?_⟩, hmap, ?_,
        by simp [tableAfterStore, hw], by simp, rfl⟩
      · simp [lookupKey_insertKey, hi]
      · simp
    · simp only [Mem.countMiss_level1, hw]
      refine ⟨_, _, rfl, h.countMiss.fill hw, ⟨rfl, rfl, rfl, rfl, fun i hi => ?_⟩, hw, ?_,
        by simp [tableAfterStore, hw], by simp, rfl⟩
      · simp [lookupKey_insertKey, hi]
      · simp

theorem walk_tableAfterStore (m : Mem) (a b : Word) :
    walk (tableAfterStore m a) b =
      if vpn b = vpn a then some ((walk m.level1 a).getD m.pageCount) else walk m.level1 b := by
  unfold tableAfterStore
  rcases hw : walk m.level1 a with _ | q
  · simp [walk_mapPage]
  · simp only [reduceCtorEq, if_false, Option.getD_some]
    split
    · rw [walk_congr ‹_›, hw]
    · rfl

/-! ### Loads and stores -/

/-- A successful load: the value, and what it leaves. -/
theorem Mem.load_mapped (h : m.Inv tb) (ha : aligned wd a = true) (hw : walk m.level1 a = some p) :
    ∃ m', m.load tb wd a = .done (BitVec.ofNat 32 (readLE m.bytes (cellKey p a) wd.bytes)) m' ∧ m'.Inv tb ∧
      m'.bytes = m.bytes ∧ m'.level1 = m.level1 ∧ m'.pageCount = m.pageCount ∧ m'.pageFaults = m.pageFaults ∧
      m'.numLoads = m.numLoads + 1 ∧ m'.numStores = m.numStores ∧ m'.requests = m.requests + 1 ∧
      (∀ i, i ≠ tlbIndex tb a → lookupKey i m'.tlb = lookupKey i m.tlb) := by
  obtain ⟨m1, e1, hi, ht, hl, hc, hf⟩ := Mem.translateLoad_mapped h hw
  refine ⟨{ m1 with numLoads := m1.numLoads + 1 }, ?_, hi.recount rfl rfl rfl rfl hi.lookupsCounted, ht.bytes, hl, hc,
    hf, by simp [ht.numLoads], ht.numStores, ht.requests, ht.slots⟩
  simp only [Mem.load, ha, e1, ht.bytes, if_true]

theorem Mem.load_misaligned (ha : aligned wd a = false) : m.load tb wd a = .misaligned := by
  simp [Mem.load, ha]

theorem Mem.load_unmapped (h : m.Inv tb) (ha : aligned wd a = true) (hw : walk m.level1 a = none) :
    m.load tb wd a = .unmapped { m.countMiss with pageFaults := m.pageFaults + 1 } := by
  simp only [Mem.load, ha, Mem.translateLoad_unmapped h hw, if_true]

/-- A successful store: the cells, the table, and what it leaves. -/
theorem Mem.store_aligned (h : m.Inv tb) (ha : aligned wd a = true) (v : Word) :
    ∃ m', m.store tb wd a v = some m' ∧ m'.Inv tb ∧
      m'.bytes = writeLE m.bytes (cellKey ((walk m.level1 a).getD m.pageCount) a) v.toNat wd.bytes ∧
      m'.level1 = tableAfterStore m a ∧ m'.pageCount = m.pageCount + (if walk m.level1 a = none then 1 else 0) ∧
      m'.pageFaults = m.pageFaults ∧ m'.numLoads = m.numLoads ∧ m'.numStores = m.numStores + 1 ∧
      m'.requests = m.requests + 1 ∧ (∀ i, i ≠ tlbIndex tb a → lookupKey i m'.tlb = lookupKey i m.tlb) := by
  obtain ⟨p, m1, e1, hi, ht, hw, hp, hl, hc, hf⟩ := Mem.translateStore_spec h a
  refine ⟨{ m1 with bytes := writeLE m1.bytes (cellKey p a) v.toNat wd.bytes, numStores := m1.numStores + 1 }, ?_,
    hi.write (hi.handlesInArena a p hw) ha _ _, by simp only [ht.bytes, hp], hl, hc, hf, ht.numLoads,
    by simp [ht.numStores], ht.requests, ht.slots⟩
  simp only [Mem.store, ha, e1, if_true]

theorem Mem.store_misaligned (ha : aligned wd a = false) : m.store tb wd a v = none := by
  simp [Mem.store, ha]

/-- The preload's store keeps the invariant of a component, its counters untouched. -/
theorem Mem.pokeWord_spec (h : m.Inv tb) (ha : aligned .word a = true) (v : Word) :
    (m.pokeWord a v).Inv tb ∧
      (m.pokeWord a v).bytes = writeLE m.bytes (cellKey ((walk m.level1 a).getD m.pageCount) a) v.toNat 4 ∧
      (m.pokeWord a v).level1 = tableAfterStore m a ∧
      (m.pokeWord a v).pageCount = m.pageCount + (if walk m.level1 a = none then 1 else 0) ∧
      (m.pokeWord a v).tlb = m.tlb ∧ (m.pokeWord a v).hits = m.hits ∧ (m.pokeWord a v).misses = m.misses ∧
      (m.pokeWord a v).requests = m.requests := by
  unfold Mem.pokeWord Mem.ownPage
  rcases hw : walk m.level1 a with _ | q
  · have hi := h.allocate hw
    refine ⟨hi.write (wd := .word) (hi.handlesInArena a _ (by simp [walk_mapPage])) ha _ _, ?_,
      by simp [tableAfterStore, hw], by simp, rfl, rfl, rfl, rfl⟩
    simp
  · refine ⟨h.write (wd := .word) (h.handlesInArena a _ hw) ha _ _, ?_, by simp [tableAfterStore, hw], by simp,
      rfl, rfl, rfl, rfl⟩
    simp

/-! ### The byte view through an access -/

theorem byteAt_mapped {s : State} (hw : walk s.mem.level1 a = some p) :
    byteAt s a = some (readCell s.mem.bytes (cellKey p a)) := by
  simp [byteAt, hw]

theorem byteAt_none_iff {s : State} : byteAt s a = none ↔ walk s.mem.level1 a = none := by
  unfold byteAt; split <;> simp_all

theorem byteAt_congr {s t : State} (hb : t.mem.bytes = s.mem.bytes) (hl : t.mem.level1 = s.mem.level1) (a : Word) :
    byteAt t a = byteAt s a := by
  simp only [byteAt, hb, hl]

theorem wordAt_congr {s t : State} (hb : t.mem.bytes = s.mem.bytes) (hl : t.mem.level1 = s.mem.level1) (a : Word) :
    wordAt t a = wordAt s a := by
  simp only [wordAt, hb, hl]

/-- No byte is listed past the arena, so a fresh page reads 0 (R85). -/
theorem readCell_fresh (h : m.Inv tb) {k : Nat} (hk : 4096 * m.pageCount ≤ k) : readCell m.bytes k = 0#8 := by
  unfold readCell
  rcases hl : lookupKey k m.bytes with _ | v
  · rfl
  · have := h.bytesInArena _ (mem_of_lookupKey hl)
    simp only at this; omega

/-- The cells of two addresses in mapped pages coincide only for equal addresses. -/
theorem cellKey_inj (h : m.Inv tb) {q : Nat} (ha : walk m.level1 a = some p) (hb : walk m.level1 b = some q)
    (he : cellKey p a = cellKey q b) : a = b := by
  have h1 := pageOffset_lt a
  have h2 := pageOffset_lt b
  unfold cellKey at he
  have hpq : p = q := by omega
  subst hpq
  exact (addr_eq_iff a b).mpr ⟨h.pagesDistinct a b p ha hb, by omega⟩

end Sys2Proof.Machine
end

