-- ==== Sys2Proof/Laws/Exec.lean ====
section
/-! SUPPORT. What the operations shared by the meanings do, said once: registers, CSRs, counters, the uniform end of an
instruction, the two memory primitives and the fault they raise. -/

namespace Sys2Proof.Machine

variable {s t : State} {k : OpType}

/-! ### Registers (R33) -/

@[simp] theorem readReg_zero (s : State) : readReg s 0#5 = 0#32 := by simp [readReg]

theorem readReg_congr (h : t.regs = s.regs) (r : RegIdx) : readReg t r = readReg s r := by
  simp only [readReg, h]

theorem writeReg_zero (s : State) (v : Word) : writeReg s 0#5 v = s := by simp [writeReg]

theorem readReg_writeReg (s : State) (r q : RegIdx) (v : Word) :
    readReg (writeReg s q v) r = if r = q ∧ q ≠ 0#5 then v else readReg s r := by
  unfold writeReg
  by_cases hq : q = 0#5
  · simp [hq]
  · rw [if_neg hq]
    unfold readReg
    by_cases hr : r = 0#5
    · rw [if_pos hr, if_neg (by rintro ⟨rfl, -⟩; exact hq hr), if_pos hr]
    · rw [if_neg hr, if_neg hr]
      by_cases hrq : r = q
      · subst hrq; simp [hq]
      · rw [if_neg (by simp [hrq])]
        have : q.toNat ≠ r.toNat := fun h => hrq (BitVec.eq_of_toNat_eq h.symm)
        simp [this]

@[simp] theorem writeReg_pc (s : State) (q : RegIdx) (v : Word) : (writeReg s q v).pc = s.pc := by
  unfold writeReg; split <;> rfl
@[simp] theorem writeReg_npc (s : State) (q : RegIdx) (v : Word) : (writeReg s q v).npc = s.npc := by
  unfold writeReg; split <;> rfl
@[simp] theorem writeReg_params (s : State) (q : RegIdx) (v : Word) : (writeReg s q v).params = s.params := by
  unfold writeReg; split <;> rfl
@[simp] theorem writeReg_branchIsTaken (s : State) (q : RegIdx) (v : Word) :
    (writeReg s q v).branchIsTaken = s.branchIsTaken := by unfold writeReg; split <;> rfl
@[simp] theorem writeReg_complete (s : State) (q : RegIdx) (v : Word) : (writeReg s q v).complete = s.complete := by
  unfold writeReg; split <;> rfl
@[simp] theorem writeReg_csrs (s : State) (q : RegIdx) (v : Word) : (writeReg s q v).csrs = s.csrs := by
  unfold writeReg; split <;> rfl
@[simp] theorem writeReg_mem (s : State) (q : RegIdx) (v : Word) : (writeReg s q v).mem = s.mem := by
  unfold writeReg; split <;> rfl
@[simp] theorem writeReg_icount (s : State) (q : RegIdx) (v : Word) : (writeReg s q v).icount = s.icount := by
  unfold writeReg; split <;> rfl
@[simp] theorem writeReg_blocks (s : State) (q : RegIdx) (v : Word) : (writeReg s q v).blocks = s.blocks := by
  unfold writeReg; split <;> rfl
@[simp] theorem writeReg_pending (s : State) (q : RegIdx) (v : Word) : (writeReg s q v).pending = s.pending := by
  unfold writeReg; split <;> rfl
@[simp] theorem writeReg_status (s : State) (q : RegIdx) (v : Word) : (writeReg s q v).status = s.status := by
  unfold writeReg; split <;> rfl

/-- x0's own storage stays 0. -/
theorem writeReg_regs_zero (s : State) (q : RegIdx) (v : Word) : (writeReg s q v).regs[0] = s.regs[0] := by
  unfold writeReg
  split
  · rfl
  · rename_i hq
    have : q.toNat ≠ 0 := fun h => hq (BitVec.eq_of_toNat_eq h)
    simp [this]

/-! ### CSRs (R40) -/

theorem Csrs.get_set (f : Csrs) (c d : CsrIdx) (v : Word) :
    (f.set c v).get d = if d = c then v else f.get d := by
  have inj : ∀ {a b : CsrIdx}, a ≠ b → b.toNat ≠ a.toNat := fun h e => h (BitVec.eq_of_toNat_eq e.symm)
  by_cases hdc : d = c
  · subst hdc
    rw [if_pos rfl]
    unfold Csrs.set
    split_ifs <;> unfold Csrs.get <;> simp_all [lookupKey_eraseKey]
  · rw [if_neg hdc]
    unfold Csrs.set
    split_ifs <;> unfold Csrs.get <;> simp_all [lookupKey_eraseKey, lookupKey_insertKey, inj (Ne.symm hdc)]

theorem Csrs.Canonical.zero : Csrs.zero.Canonical := ⟨by simp [Csrs.zero], by simp [Csrs.zero]⟩

theorem Csrs.Canonical.set {f : Csrs} (h : f.Canonical) (c : CsrIdx) (v : Word) : (f.set c v).Canonical := by
  unfold Csrs.set
  split_ifs with h1 h2 h3 h4 h5 h6 h7
  · exact ⟨h.rising, h.inRange⟩
  · exact ⟨h.rising, h.inRange⟩
  · exact ⟨h.rising, h.inRange⟩
  · exact ⟨h.rising, h.inRange⟩
  · exact ⟨h.rising, h.inRange⟩
  · exact ⟨h.rising, h.inRange⟩
  · exact ⟨risingKeys_eraseKey h.rising, fun e he => h.inRange e (mem_eraseKey he).1⟩
  · refine ⟨risingKeys_insertKey h.rising, fun e he => ?_⟩
    rcases mem_insertKey he with rfl | he
    · have inj : ∀ (n : Nat) (b : CsrIdx), c ≠ b → b.toNat = n → c.toNat ≠ n :=
        fun n b hb hn e => hb (BitVec.eq_of_toNat_eq (e.trans hn.symm))
      refine ⟨c.isLt, ?_, h7⟩
      simp only [counterNumbers, List.mem_cons, List.not_mem_nil, or_false, not_or]
      exact ⟨inj _ _ h1 rfl, inj _ _ h2 rfl, inj _ _ h3 rfl, inj _ _ h4 rfl, inj _ _ h5 rfl, inj _ _ h6 rfl⟩
    · exact h.inRange e he

theorem Csrs.Canonical.updateTimers {f : Csrs} (h : f.Canonical) (k : OpType) : (f.updateTimers k).Canonical :=
  ⟨h.rising, h.inRange⟩

/-- The two halves of an updated pair hold the sum modulo 2^64 (R42). -/
theorem pairValue_update (hi lo : Word) (d : Nat) :
    pairValue (pairHigh hi lo d) (pairLow hi lo d) = (pairValue hi lo + d) % 2 ^ 64 := by
  have key : ∀ x : Nat, x < 2 ^ 64 →
      2 ^ 32 * (BitVec.ofNat 32 (x / 2 ^ 32)).toNat + (BitVec.ofNat 32 x).toNat = x := by
    intro x hx
    rw [BitVec.toNat_ofNat, BitVec.toNat_ofNat]; omega
  rw [Nat.add_comm]
  exact key _ (Nat.mod_lt _ (by norm_num))

theorem Csrs.updateTimers_get (f : Csrs) (k : OpType) (c : CsrIdx) (hc : c ∉ tickedCsrs) :
    (f.updateTimers k).get c = f.get c := by
  simp only [tickedCsrs, List.mem_cons, List.not_mem_nil, or_false, not_or] at hc
  obtain ⟨h1, h2, h3, h4⟩ := hc
  simp only [Csrs.get, if_neg h1, if_neg h2, if_neg h3, if_neg h4, Csrs.updateTimers]

/-! ### The end of an instruction (R190, R193, R194) -/

@[simp] theorem countInstruction_pc (k : OpType) (s : State) : (countInstruction k s).pc = s.pc := by simp [countInstruction]
@[simp] theorem countInstruction_npc (k : OpType) (s : State) : (countInstruction k s).npc = s.npc := by simp [countInstruction]
@[simp] theorem countInstruction_regs (k : OpType) (s : State) : (countInstruction k s).regs = s.regs := by simp [countInstruction]
@[simp] theorem countInstruction_mem (k : OpType) (s : State) : (countInstruction k s).mem = s.mem := by simp [countInstruction]
@[simp] theorem countInstruction_params (k : OpType) (s : State) : (countInstruction k s).params = s.params := by simp [countInstruction]
@[simp] theorem countInstruction_flag (k : OpType) (s : State) :
    (countInstruction k s).branchIsTaken = s.branchIsTaken := by simp [countInstruction]
@[simp] theorem countInstruction_complete (k : OpType) (s : State) : (countInstruction k s).complete = s.complete := by simp [countInstruction]
@[simp] theorem countInstruction_csrs (k : OpType) (s : State) :
    (countInstruction k s).csrs = s.csrs.updateTimers k := by simp [countInstruction]
@[simp] theorem countInstruction_icount (k : OpType) (s : State) : (countInstruction k s).icount = s.icount + 1 := by simp [countInstruction]
@[simp] theorem countInstruction_blocks (k : OpType) (s : State) : (countInstruction k s).blocks = s.blocks := by simp [countInstruction]
@[simp] theorem countInstruction_pending (k : OpType) (s : State) : (countInstruction k s).pending = s.pending := by simp [countInstruction]
@[simp] theorem countInstruction_status (k : OpType) (s : State) : (countInstruction k s).status = s.status := by simp [countInstruction]

@[simp] theorem updatePc_npc (s : State) : (updatePc s).npc = s.npc := by unfold updatePc; split <;> simp
@[simp] theorem updatePc_regs (s : State) : (updatePc s).regs = s.regs := by unfold updatePc; split <;> simp
@[simp] theorem updatePc_mem (s : State) : (updatePc s).mem = s.mem := by unfold updatePc; split <;> simp
@[simp] theorem updatePc_params (s : State) : (updatePc s).params = s.params := by unfold updatePc; split <;> simp
@[simp] theorem updatePc_complete (s : State) : (updatePc s).complete = s.complete := by unfold updatePc; split <;> simp
@[simp] theorem updatePc_csrs (s : State) : (updatePc s).csrs = s.csrs := by unfold updatePc; split <;> simp
@[simp] theorem updatePc_icount (s : State) : (updatePc s).icount = s.icount := by unfold updatePc; split <;> simp
@[simp] theorem updatePc_blocks (s : State) : (updatePc s).blocks = s.blocks := by unfold updatePc; split <;> simp
@[simp] theorem updatePc_pending (s : State) : (updatePc s).pending = s.pending := by unfold updatePc; split <;> simp
@[simp] theorem updatePc_status (s : State) : (updatePc s).status = s.status := by unfold updatePc; split <;> simp

@[simp] theorem updatePc_flag (s : State) : (updatePc s).branchIsTaken = false := by
  unfold updatePc; split
  · simp
  · simpa using ‹¬ s.branchIsTaken = true›

theorem updatePc_pc (s : State) : (updatePc s).pc = if s.branchIsTaken then s.npc else s.pc + 4#32 := by
  unfold updatePc; split <;> simp

/-- The next state of an instruction whose handler left `s`. -/
def retired (k : OpType) (s : State) : State := countInstruction k (updatePc s)

theorem retire_eq (k : OpType) (s : State) : retire k s = .next (retired k s) := rfl

@[simp] theorem retired_npc : (retired k s).npc = s.npc := by simp [retired]
@[simp] theorem retired_regs : (retired k s).regs = s.regs := by simp [retired]
@[simp] theorem retired_mem : (retired k s).mem = s.mem := by simp [retired]
@[simp] theorem retired_params : (retired k s).params = s.params := by simp [retired]
@[simp] theorem retired_complete : (retired k s).complete = s.complete := by simp [retired]
@[simp] theorem retired_csrs : (retired k s).csrs = s.csrs.updateTimers k := by simp [retired]
@[simp] theorem retired_icount : (retired k s).icount = s.icount + 1 := by simp [retired]
@[simp] theorem retired_blocks : (retired k s).blocks = s.blocks := by simp [retired]
@[simp] theorem retired_pending : (retired k s).pending = s.pending := by simp [retired]
@[simp] theorem retired_status : (retired k s).status = s.status := by simp [retired]
@[simp] theorem retired_flag : (retired k s).branchIsTaken = false := by simp [retired]
theorem retired_pc : (retired k s).pc = if s.branchIsTaken then s.npc else s.pc + 4#32 := by
  simp [retired, updatePc_pc]

/-- The counters and the untouched fields of `retired`, from a handler's state `u` that came from `s`. -/
theorem retired_spec {u : State} (hi : u.icount = s.icount) (hp : u.params = s.params) (hb : u.blocks = s.blocks)
    (hd : u.pending = s.pending) (hs : u.status = s.status) : Retired k u.csrs s (retired k u) where
  instret := by rw [retired_csrs]; exact pairValue_update ..
  cycle := by rw [retired_csrs]; exact pairValue_update ..
  otherCsrs := fun c hc => by rw [readCsr, retired_csrs]; exact Csrs.updateTimers_get _ _ _ hc
  icount := by rw [retired_icount, hi]
  flag := retired_flag
  params := by rw [retired_params, hp]
  blocks := by rw [retired_blocks, hb]
  pending := by rw [retired_pending, hd]
  status := by rw [retired_status, hs]

/-- An instruction that only writes a register (R192, R193). -/
theorem writeBack_spec (k : OpType) (rd : RegIdx) (v : Word) (h : s.branchIsTaken = false) :
    ∃ t, writeBack k rd v s = .next t ∧ WritesRegister k rd v s t := by
  refine ⟨retired k (writeReg s rd v), rfl, ?_, ⟨?_, ?_⟩, ⟨?_, ?_⟩, ?_, ⟨?_, ?_⟩, ?_⟩
  · intro h0
    rw [readReg_congr (t := retired k (writeReg s rd v)) retired_regs, readReg_writeReg, if_pos ⟨rfl, h0⟩]
  · intro r hr
    rw [readReg_congr (t := retired k (writeReg s rd v)) retired_regs, readReg_writeReg, if_neg (by simp [hr])]
  · simp
  · intro a; exact byteAt_congr (by simp) (by simp) a
  · simp
  · simp
  · simp [retired_pc, h]
  · simp
  · have := retired_spec (k := k) (s := s) (u := writeReg s rd v) (by simp) (by simp) (by simp) (by simp) (by simp)
    rwa [writeReg_csrs] at this

/-! ### The two memory primitives (R17) -/

/-- `MemRead` of an aligned address of a mapped page. -/
theorem memRead_mapped {wd : Width} {a : Word} {p : Nat} (h : s.mem.Inv s.params.tlbBits)
    (ha : aligned wd a = true) (hw : walk s.mem.level1 a = some p) :
    ∃ m, memRead wd a s = .ok (BitVec.ofNat 32 (readLE s.mem.bytes (cellKey p a) wd.bytes)) (s.withMem m) ∧
      m.Inv s.params.tlbBits ∧ m.bytes = s.mem.bytes ∧ m.level1 = s.mem.level1 ∧ LoadFrame a s (s.withMem m) := by
  obtain ⟨m, e, hi, hb, hl, hp, hf, hn, hst, hr, hsl⟩ := Mem.load_mapped h ha hw
  refine ⟨m, by simp [memRead, e], hi, hb, hl, ?_, hl, hp, ⟨hsl, fun b q hq => ?_⟩, hn, hst, hf, hr⟩
  · intro b; exact byteAt_congr (by simpa using hb) (by simpa using hl) b
  · simpa [hl] using hq

theorem memRead_misaligned {wd : Width} {a : Word} (ha : aligned wd a = false) :
    memRead wd a s = .fault (.misalignedAccess a (abortRun .misalignedAccess s)) := by
  simp [memRead, Mem.load_misaligned ha]

theorem memRead_unmapped {wd : Width} {a : Word} (h : s.mem.Inv s.params.tlbBits) (ha : aligned wd a = true)
    (hw : walk s.mem.level1 a = none) :
    memRead wd a s = .fault (.pageFault a (abortRun .pageFault
      (s.withMem { s.mem.countMiss with pageFaults := s.mem.pageFaults + 1 }))) := by
  simp [memRead, Mem.load_unmapped h ha hw]

/-- `MemWrite` of an aligned address (R101, R105). -/
theorem memWrite_aligned {wd : Width} {a : Word} (v : Word) (h : s.mem.Inv s.params.tlbBits)
    (ha : aligned wd a = true) :
    ∃ m, memWrite wd a v s = .ok () (s.withMem m) ∧ m.Inv s.params.tlbBits ∧ StoreFrame wd.bytes a v s (s.withMem m) := by
  obtain ⟨m, e, hi, hb, hl, hp, hf, hn, hst, hr, hsl⟩ := Mem.store_aligned h ha v
  have hwk : ∀ b, walk m.level1 b = if vpn b = vpn a then some ((walk s.mem.level1 a).getD s.mem.pageCount)
      else walk s.mem.level1 b := fun b => by rw [hl, walk_tableAfterStore]
  have hwa : walk m.level1 a = some ((walk s.mem.level1 a).getD s.mem.pageCount) := by rw [hwk, if_pos rfl]
  -- the cell of another address of the new memory is outside the stored ones
  have hout : ∀ b q, ¬ inAccess a b wd.bytes → walk m.level1 b = some q →
      readCell m.bytes (cellKey q b) = readCell s.mem.bytes (cellKey q b) := by
    intro b q hnb hq
    rw [hb, readCell_writeLE, if_neg]
    rintro ⟨h1, h2⟩
    refine hnb ⟨cellKey q b - cellKey ((walk s.mem.level1 a).getD s.mem.pageCount) a, by omega, ?_⟩
    obtain ⟨_, hv, ho⟩ := aligned_add wd a ha
      (cellKey q b - cellKey ((walk s.mem.level1 a).getD s.mem.pageCount) a) (by omega)
    refine cellKey_inj hi hq (by rw [walk_congr hv]; exact hwa) ?_
    have hk : cellKey q b - cellKey ((walk s.mem.level1 a).getD s.mem.pageCount) a +
        cellKey ((walk s.mem.level1 a).getD s.mem.pageCount) a = cellKey q b := by omega
    have hc : ∀ x, cellKey ((walk s.mem.level1 a).getD s.mem.pageCount) x =
        4096 * (walk s.mem.level1 a).getD s.mem.pageCount + pageOffset x := fun _ => rfl
    rw [hc (a + _), ho, ← Nat.add_assoc, ← hc a]
    omega
  refine ⟨m, by simp [memWrite, e], hi, ?_, ?_, ?_, ⟨hsl, ?_⟩, hp, hn, hst, hf, hr⟩
  · intro i hi'
    obtain ⟨_, hv, ho⟩ := aligned_add wd a ha i hi'
    have hw' : walk (s.withMem m).mem.level1 (a + BitVec.ofNat 32 i) =
        some ((walk s.mem.level1 a).getD s.mem.pageCount) := by rw [State.withMem_mem, walk_congr hv, hwa]
    rw [byteAt_mapped hw']
    simp only [State.withMem_mem, hb]
    rw [readCell_writeLE, if_pos (by simp only [cellKey, ho]; omega)]
    simp only [cellKey, ho]
    congr 4; omega
  · intro b hnb hmap
    obtain ⟨q0, hq0⟩ := Option.ne_none_iff_exists'.mp hmap
    have hwb : walk m.level1 b = walk s.mem.level1 b := by
      rw [hwk]; split
      · rename_i hv
        rw [walk_congr hv, hq0]; rfl
      · rfl
    rcases hq : walk s.mem.level1 b with _ | q
    · rw [byteAt_none_iff.mpr hq, byteAt_none_iff]; rw [State.withMem_mem, hwb, hq]
    · rw [byteAt_mapped hq, byteAt_mapped (s := s.withMem m) (by rw [State.withMem_mem, hwb, hq]), State.withMem_mem,
        hout b q hnb (hwb.trans hq)]
  · intro hun b hnb
    have hwb := hwk b
    rw [hun] at hwb
    simp only [Option.getD_none] at hwb
    split
    · rename_i hv
      rw [if_pos hv] at hwb
      rw [byteAt_mapped (s := s.withMem m) hwb, State.withMem_mem, hout b _ hnb hwb,
        readCell_fresh h (by simp only [cellKey]; omega)]
    · rename_i hv
      rw [if_neg hv] at hwb
      rcases hq : walk s.mem.level1 b with _ | q
      · rw [byteAt_none_iff.mpr hq, byteAt_none_iff, State.withMem_mem, hwb, hq]
      · rw [byteAt_mapped hq, byteAt_mapped (s := s.withMem m) (hwb.trans hq), State.withMem_mem,
          hout b q hnb (hwb.trans hq)]
  · intro b q hq
    rw [State.withMem_mem, hwk]
    split
    · rw [← walk_congr ‹_›, hq]; rfl
    · exact hq

theorem memWrite_misaligned {wd : Width} {a v : Word} (ha : aligned wd a = false) :
    memWrite wd a v s = .fault (.misalignedAccess a (abortRun .misalignedAccess s)) := by
  simp [memWrite, Mem.store_misaligned ha]

/-! ### Faults (R195, R377) -/

theorem faultLeaves_abortRun (k : FaultKind) (s : State) : FaultLeaves k s (abortRun k s) where
  status := rfl
  registers := fun _ => rfl
  pc := rfl
  npc := rfl
  flags := ⟨rfl, rfl⟩
  csrs := rfl
  icount := rfl
  bytes := fun _ => rfl
  table := ⟨rfl, rfl⟩
  slots := rfl
  accesses := ⟨rfl, rfl⟩
  hits := rfl
  blocks := rfl
  pending := rfl
  params := rfl

theorem faultLeaves_unmapped (s : State) : FaultLeaves .pageFault s (abortRun .pageFault
    (s.withMem { s.mem.countMiss with pageFaults := s.mem.pageFaults + 1 })) where
  status := rfl
  registers := fun _ => rfl
  pc := rfl
  npc := rfl
  flags := ⟨rfl, rfl⟩
  csrs := rfl
  icount := rfl
  bytes := fun _ => rfl
  table := ⟨rfl, rfl⟩
  slots := rfl
  accesses := ⟨rfl, rfl⟩
  hits := rfl
  blocks := rfl
  pending := rfl
  params := rfl

/-! ### The bytes of a little-endian value (R96) -/

/-- Splitting off the highest byte instead of the lowest. -/
theorem readLE_succ_top (m : Memory) (k n : Nat) :
    readLE m k (n + 1) = readLE m k n + 2 ^ (8 * n) * (readCell m (k + n)).toNat := by
  induction n generalizing k with
  | zero => simp [readLE]
  | succ n ih =>
    rw [readLE, ih, show readLE m k (n + 1) = (readCell m k).toNat + 2 ^ 8 * readLE m (k + 1) n from rfl,
      show k + 1 + n = k + (n + 1) by omega, show 8 * (n + 1) = 8 + 8 * n by omega, pow_add]
    ring

/-- The value a load reads is the little-endian number of the bytes at its address (R105). -/
theorem readLE_eq_littleEndian {wd : Width} {a : Word} {p : Nat} (ha : aligned wd a = true)
    (hw : walk s.mem.level1 a = some p) :
    readLE s.mem.bytes (cellKey p a) wd.bytes = littleEndian s a wd.bytes := by
  have hbyte : ∀ i, i < wd.bytes →
      (byteAt s (a + BitVec.ofNat 32 i)).getD 0#8 = readCell s.mem.bytes (cellKey p a + i) := by
    intro i hi
    obtain ⟨_, hv, ho⟩ := aligned_add wd a ha i hi
    rw [byteAt_mapped (by rw [walk_congr hv]; exact hw)]
    simp only [cellKey, ho, Option.getD_some]
    congr 1; omega
  have key : ∀ n, n ≤ wd.bytes → readLE s.mem.bytes (cellKey p a) n = littleEndian s a n := by
    intro n
    induction n with
    | zero => intro _; rfl
    | succ n ih =>
      intro hn
      rw [readLE_succ_top, ih (by omega), littleEndian, hbyte n (by omega)]
  exact key _ le_rfl

theorem littleEndian_lt (s : State) (a : Word) (n : Nat) : littleEndian s a n < 2 ^ (8 * n) := by
  induction n with
  | zero => simp [littleEndian]
  | succ n ih =>
    have h2 := ((byteAt s (a + BitVec.ofNat 32 n)).getD 0#8).isLt
    rw [littleEndian, show 8 * (n + 1) = 8 * n + 8 by omega, pow_add]
    nlinarith

end Sys2Proof.Machine
end

