-- ==== Sys2Proof/Laws/Effects.lean ====
section
/-! SUPPORT. What executing an instruction can do, said once: it completes with a handler's effect and the uniform end of
an instruction, or it faults with one of the faults of its kind.  Later proofs cite `exec_cases` and unfold no meaning. -/

namespace Sys2Proof.Machine

variable {s u : State}

/-- The effect of the Memory component's one access, if there is one (R192 (c)); a store is at the address `storedAt`
gives. -/
inductive MemEffect (i : Instr) (s u : State) : Prop where
  | none (hs : storedAt i s = Option.none) (h : u.mem = s.mem)
  | load (hk : accessesMemory i.opType = true) (hs : storedAt i s = Option.none) (wd : Width) (a v : Word)
      (h : s.mem.load s.params.tlbBits wd a = .done v u.mem)
  | store (hk : accessesMemory i.opType = true) (wd : Width) (a v : Word) (hs : storedAt i s = some (a, wd.bytes))
      (h : s.mem.store s.params.tlbBits wd a v = some u.mem)

/-- What the handler of `i` can have done when it left `u` (R192). -/
structure Effect (i : Instr) (s u : State) : Prop where
  icount   : u.icount = s.icount
  params   : u.params = s.params
  blocks   : u.blocks = s.blocks
  pending  : u.pending = s.pending
  status   : u.status = s.status
  pc       : u.pc = s.pc
  regs     : ∃ v, u.regs = (writeReg s i.record.rd v).regs
  csrs     : u.csrs = s.csrs ∨ (isCsrKind i.opType = true ∧ ∃ v, u.csrs = s.csrs.set i.record.csr v)
  transfer : (u.npc = s.npc ∧ u.branchIsTaken = s.branchIsTaken) ∨
    (u.branchIsTaken = true ∧ i.opType.isBranch = true ∧ i ≠ .ecall)
  complete : (u.complete = s.complete ∧ i ≠ .ecall) ∨ (u.complete = true ∧ i = .ecall)
  memory   : MemEffect i s u

/-- How executing `i` ends. -/
def ExecEnds (i : Instr) (s : State) (o : Host.Outcome State Fault Refusal) : Prop :=
  (∃ u, o = .next (retired i.opType u) ∧ Effect i s u) ∨
    ∃ f, o = .fault f ∧ f.kind ∈ possibleFaults i.opType ∧ FaultLeaves f.kind s f.left

/-- A handler that wrote one register, and perhaps made a transfer, keeps everything else. -/
theorem Effect.register {i : Instr} (rd : RegIdx) (v : Word) (h : i ≠ .ecall) (hr : i.record.rd = rd)
    (hs : storedAt i s = none) : Effect i s (writeReg s rd v) where
  icount := by simp
  params := by simp
  blocks := by simp
  pending := by simp
  status := by simp
  pc := by simp
  regs := ⟨v, by rw [hr]⟩
  csrs := .inl (by simp)
  transfer := .inl (by simp)
  complete := .inl ⟨by simp, h⟩
  memory := .none hs (by simp)

theorem Effect.nothing {i : Instr} (h : i ≠ .ecall) (hr : i.record.rd = 0#5)
    (hs : storedAt i s = none) : Effect i s s :=
  (writeReg_zero s 0#32) ▸ Effect.register (s := s) (i := i) 0#5 0#32 h hr hs

theorem writeBack_ends {i : Instr} (rd : RegIdx) (v : Word) (h : i ≠ .ecall) (hr : i.record.rd = rd)
    (hs : storedAt i s = none) : ExecEnds i s (writeBack i.opType rd v s) :=
  .inl ⟨_, rfl, Effect.register rd v h hr hs⟩

theorem loadInto_ends {i : Instr} (wd : Width) (ext : Word → Word) (rd rs1 : RegIdx) (imm : Word) (h : i ≠ .ecall)
    (hk : accessesMemory i.opType = true) (hp : .pageFault ∈ possibleFaults i.opType)
    (hm : wd = .byte ∨ .misalignedAccess ∈ possibleFaults i.opType) (hr : i.record.rd = rd)
    (hs : storedAt i s = none) :
    ExecEnds i s (loadInto i.opType wd ext rd rs1 imm s) := by
  generalize ha : effectiveAddress s rs1 imm = a
  unfold loadInto
  rw [ha]
  rcases hl : s.mem.load s.params.tlbBits wd a with ⟨v, m⟩ | _ | m
  · refine .inl ⟨writeReg (s.withMem m) rd (ext v), ?_, ?_⟩
    · simp only [memRead, hl]; rfl
    · exact {
        icount := by simp
        params := by simp
        blocks := by simp
        pending := by simp
        status := by simp
        pc := by simp
        regs := ⟨ext v, by rw [hr]; unfold writeReg; split <;> rfl⟩
        csrs := .inl (by simp)
        transfer := .inl (by simp)
        complete := .inl ⟨by simp, h⟩
        memory := .load hk hs wd a v (by simpa using hl) }
  · refine .inr ⟨.misalignedAccess a (abortRun .misalignedAccess s), by simp only [memRead, hl], ?_,
      faultLeaves_abortRun _ _⟩
    rcases hm with rfl | hm
    · exfalso
      have : aligned .byte a = true := by simp [aligned, Width.bytes, Nat.mod_one]
      unfold Mem.load at hl
      rw [this] at hl
      simp only [if_true] at hl
      split at hl <;> simp at hl
    · exact hm
  · refine .inr ⟨.pageFault a (abortRun .pageFault (s.withMem m)), by simp only [memRead, hl], hp, ?_⟩
    have hm' : m.bytes = s.mem.bytes ∧ m.level1 = s.mem.level1 ∧ m.pageCount = s.mem.pageCount ∧ m.tlb = s.mem.tlb ∧
        m.numLoads = s.mem.numLoads ∧ m.numStores = s.mem.numStores ∧ m.hits = s.mem.hits := by
      unfold Mem.load at hl
      split at hl
      · unfold Mem.translateLoad at hl
        split at hl
        · rename_i h1; split at h1 <;> simp_all
        · rename_i h1
          split at h1
          · simp at h1
          · split at h1
            · simp at h1
            · simp only [Prod.mk.injEq, true_and] at h1
              simp only [Access.unmapped.injEq] at hl
              subst hl; subst h1
              exact ⟨rfl, rfl, rfl, rfl, rfl, rfl, rfl⟩
      · simp at hl
    obtain ⟨hb, hl1, hp1, ht, hn, hst, hh⟩ := hm'
    exact {
      status := rfl
      registers := fun _ => rfl
      pc := rfl
      npc := rfl
      flags := ⟨rfl, rfl⟩
      csrs := rfl
      icount := rfl
      bytes := fun b => byteAt_congr (s := s) (t := abortRun .pageFault (s.withMem m)) hb hl1 b
      table := ⟨hl1, hp1⟩
      slots := ht
      accesses := ⟨hn, hst⟩
      hits := hh
      blocks := rfl
      pending := rfl
      params := rfl }

theorem storeFrom_ends {i : Instr} (wd : Width) (rs1 rs2 : RegIdx) (imm : Word) (h : i ≠ .ecall)
    (hk : accessesMemory i.opType = true) (hm : wd = .byte ∨ .misalignedAccess ∈ possibleFaults i.opType)
    (hr : i.record.rd = 0#5)
    (hs : storedAt i s = some (effectiveAddress s rs1 imm, wd.bytes)) :
    ExecEnds i s (storeFrom i.opType wd rs1 rs2 imm s) := by
  generalize ha : effectiveAddress s rs1 imm = a
  unfold storeFrom
  rw [ha]
  rcases hl : s.mem.store s.params.tlbBits wd a (readReg s rs2) with _ | m
  · refine .inr ⟨.misalignedAccess a (abortRun .misalignedAccess s), by simp only [memWrite, hl], ?_,
      faultLeaves_abortRun _ _⟩
    rcases hm with rfl | hm
    · exfalso
      have : aligned .byte a = true := by simp [aligned, Width.bytes, Nat.mod_one]
      simp [Mem.store, this] at hl
    · exact hm
  · refine .inl ⟨s.withMem m, by simp only [memWrite, hl]; rfl, ?_⟩
    exact {
      icount := by simp
      params := by simp
      blocks := by simp
      pending := by simp
      status := by simp
      pc := by simp
      regs := ⟨0#32, by rw [hr, writeReg_zero]; rfl⟩
      csrs := .inl (by simp)
      transfer := .inl (by simp)
      complete := .inl ⟨by simp, h⟩
      memory := .store hk wd a _ (ha ▸ hs) (by simpa using hl) }

theorem branchIf_ends {i : Instr} (cond : Word → Word → Bool) (rs1 rs2 : RegIdx) (imm : Word) (h : i ≠ .ecall)
    (hb : i.opType.isBranch = true) (hr : i.record.rd = 0#5) (hs : storedAt i s = none) :
    ExecEnds i s (branchIf i.opType cond rs1 rs2 imm s) := by
  unfold branchIf
  split
  · exact .inl ⟨_, rfl, {
      icount := rfl
      params := rfl
      blocks := rfl
      pending := rfl
      status := rfl
      pc := rfl
      regs := ⟨0#32, by rw [hr, writeReg_zero]; rfl⟩
      csrs := .inl rfl
      transfer := .inr ⟨rfl, hb, h⟩
      complete := .inl ⟨rfl, h⟩
      memory := .none hs rfl }⟩
  · exact .inl ⟨s, rfl, Effect.nothing h hr hs⟩

theorem jumpTo_ends {i : Instr} (rd : RegIdx) (target : Word) (h : i ≠ .ecall) (hb : i.opType.isBranch = true)
    (hr : i.record.rd = rd)
    (hs : storedAt i s = none) :
    ExecEnds i s (jumpTo i.opType rd target s) :=
  .inl ⟨_, rfl, {
    icount := by simp [takeTransfer]
    params := by simp [takeTransfer]
    blocks := by simp [takeTransfer]
    pending := by simp [takeTransfer]
    status := by simp [takeTransfer]
    pc := by simp [takeTransfer]
    regs := ⟨s.pc + 4#32, by simp [takeTransfer, hr]⟩
    csrs := .inl (by simp [takeTransfer])
    transfer := .inr ⟨by simp [takeTransfer], hb, h⟩
    complete := .inl ⟨by simp [takeTransfer], h⟩
    memory := .none hs (by simp [takeTransfer]) }⟩

theorem csrModify_ends {i : Instr} (f : Word → Word → Word) (rd : RegIdx) (c : CsrIdx) (src : Word) (h : i ≠ .ecall)
    (hc : isCsrKind i.opType = true) (hr : i.record.rd = rd) (hi : i.record.csr = c)
    (hs : storedAt i s = none) : ExecEnds i s (csrModify i.opType f rd c src s) :=
  .inl ⟨_, rfl, {
    icount := by simp [writeCsr]
    params := by simp [writeCsr]
    blocks := by simp [writeCsr]
    pending := by simp [writeCsr]
    status := by simp [writeCsr]
    pc := by simp [writeCsr]
    regs := ⟨readCsr s c, by rw [hr]; unfold writeReg; split <;> simp [writeCsr]⟩
    csrs := .inr ⟨hc, _, by rw [hi]; simp [writeCsr]; rfl⟩
    transfer := .inl (by simp [writeCsr])
    complete := .inl ⟨by simp [writeCsr], h⟩
    memory := .none hs (by simp [writeCsr]) }⟩

theorem divideInto_ends {i : Instr} (q : Word → Word → Word) (rd rs1 rs2 : RegIdx) (h : i ≠ .ecall)
    (hf : .arithmetic ∈ possibleFaults i.opType) (hr : i.record.rd = rd)
    (hs : storedAt i s = none) : ExecEnds i s (divideInto i.opType q rd rs1 rs2 s) := by
  unfold divideInto
  split
  · exact .inr ⟨_, rfl, hf, faultLeaves_abortRun _ _⟩
  · exact writeBack_ends _ _ h hr hs

theorem signedDivideInto_ends {i : Instr} (q : Word → Word → Word) (ov : Word) (rd rs1 rs2 : RegIdx) (h : i ≠ .ecall)
    (hf : .arithmetic ∈ possibleFaults i.opType) (hr : i.record.rd = rd)
    (hs : storedAt i s = none) : ExecEnds i s (signedDivideInto i.opType q ov rd rs1 rs2 s) := by
  unfold signedDivideInto
  split
  · split
    · exact writeBack_ends _ _ h hr hs
    · exact .inr ⟨_, rfl, hf, faultLeaves_abortRun _ _⟩
  · exact divideInto_ends _ _ _ _ h hf hr hs

theorem raiseNotImplemented_ends {i : Instr} (hf : .notImplemented ∈ possibleFaults i.opType) :
    ExecEnds i s (raiseNotImplemented s) :=
  .inr ⟨_, rfl, hf, faultLeaves_abortRun _ _⟩

theorem execAdd_ends (rd : RegIdx) (rs1 : RegIdx) (rs2 : RegIdx) : ExecEnds (.add rd rs1 rs2) s (execAdd rd rs1 rs2 s) := by
  unfold execAdd
  exact writeBack_ends (i := .add rd rs1 rs2) _ _ (by simp) rfl rfl

theorem execSub_ends (rd : RegIdx) (rs1 : RegIdx) (rs2 : RegIdx) : ExecEnds (.sub rd rs1 rs2) s (execSub rd rs1 rs2 s) := by
  unfold execSub
  exact writeBack_ends (i := .sub rd rs1 rs2) _ _ (by simp) rfl rfl

theorem execSll_ends (rd : RegIdx) (rs1 : RegIdx) (rs2 : RegIdx) : ExecEnds (.sll rd rs1 rs2) s (execSll rd rs1 rs2 s) := by
  unfold execSll
  exact writeBack_ends (i := .sll rd rs1 rs2) _ _ (by simp) rfl rfl

theorem execSlt_ends (rd : RegIdx) (rs1 : RegIdx) (rs2 : RegIdx) : ExecEnds (.slt rd rs1 rs2) s (execSlt rd rs1 rs2 s) := by
  unfold execSlt
  exact writeBack_ends (i := .slt rd rs1 rs2) _ _ (by simp) rfl rfl

theorem execSltu_ends (rd : RegIdx) (rs1 : RegIdx) (rs2 : RegIdx) : ExecEnds (.sltu rd rs1 rs2) s (execSltu rd rs1 rs2 s) := by
  unfold execSltu
  exact writeBack_ends (i := .sltu rd rs1 rs2) _ _ (by simp) rfl rfl

theorem execXor_ends (rd : RegIdx) (rs1 : RegIdx) (rs2 : RegIdx) : ExecEnds (.xor rd rs1 rs2) s (execXor rd rs1 rs2 s) := by
  unfold execXor
  exact writeBack_ends (i := .xor rd rs1 rs2) _ _ (by simp) rfl rfl

theorem execSrl_ends (rd : RegIdx) (rs1 : RegIdx) (rs2 : RegIdx) : ExecEnds (.srl rd rs1 rs2) s (execSrl rd rs1 rs2 s) := by
  unfold execSrl
  exact writeBack_ends (i := .srl rd rs1 rs2) _ _ (by simp) rfl rfl

theorem execSra_ends (rd : RegIdx) (rs1 : RegIdx) (rs2 : RegIdx) : ExecEnds (.sra rd rs1 rs2) s (execSra rd rs1 rs2 s) := by
  unfold execSra
  exact writeBack_ends (i := .sra rd rs1 rs2) _ _ (by simp) rfl rfl

theorem execOr_ends (rd : RegIdx) (rs1 : RegIdx) (rs2 : RegIdx) : ExecEnds (.or rd rs1 rs2) s (execOr rd rs1 rs2 s) := by
  unfold execOr
  exact writeBack_ends (i := .or rd rs1 rs2) _ _ (by simp) rfl rfl

theorem execAnd_ends (rd : RegIdx) (rs1 : RegIdx) (rs2 : RegIdx) : ExecEnds (.and rd rs1 rs2) s (execAnd rd rs1 rs2 s) := by
  unfold execAnd
  exact writeBack_ends (i := .and rd rs1 rs2) _ _ (by simp) rfl rfl

theorem execMul_ends (rd : RegIdx) (rs1 : RegIdx) (rs2 : RegIdx) : ExecEnds (.mul rd rs1 rs2) s (execMul rd rs1 rs2 s) := by
  unfold execMul
  exact writeBack_ends (i := .mul rd rs1 rs2) _ _ (by simp) rfl rfl

theorem execMulh_ends (rd : RegIdx) (rs1 : RegIdx) (rs2 : RegIdx) : ExecEnds (.mulh rd rs1 rs2) s (execMulh rd rs1 rs2 s) := by
  unfold execMulh
  exact writeBack_ends (i := .mulh rd rs1 rs2) _ _ (by simp) rfl rfl

theorem execMulhsu_ends (rd : RegIdx) (rs1 : RegIdx) (rs2 : RegIdx) : ExecEnds (.mulhsu rd rs1 rs2) s (execMulhsu rd rs1 rs2 s) := by
  unfold execMulhsu
  exact writeBack_ends (i := .mulhsu rd rs1 rs2) _ _ (by simp) rfl rfl

theorem execMulhu_ends (rd : RegIdx) (rs1 : RegIdx) (rs2 : RegIdx) : ExecEnds (.mulhu rd rs1 rs2) s (execMulhu rd rs1 rs2 s) := by
  unfold execMulhu
  exact writeBack_ends (i := .mulhu rd rs1 rs2) _ _ (by simp) rfl rfl

theorem execDiv_ends (rd : RegIdx) (rs1 : RegIdx) (rs2 : RegIdx) : ExecEnds (.div rd rs1 rs2) s (execDiv rd rs1 rs2 s) := by
  unfold execDiv
  exact signedDivideInto_ends (i := .div rd rs1 rs2) _ _ _ _ _ (by simp) (by simp [possibleFaults, Instr.opType]) rfl rfl

theorem execDivu_ends (rd : RegIdx) (rs1 : RegIdx) (rs2 : RegIdx) : ExecEnds (.divu rd rs1 rs2) s (execDivu rd rs1 rs2 s) := by
  unfold execDivu
  exact divideInto_ends (i := .divu rd rs1 rs2) _ _ _ _ (by simp) (by simp [possibleFaults, Instr.opType]) rfl rfl

theorem execRem_ends (rd : RegIdx) (rs1 : RegIdx) (rs2 : RegIdx) : ExecEnds (.rem rd rs1 rs2) s (execRem rd rs1 rs2 s) := by
  unfold execRem
  exact signedDivideInto_ends (i := .rem rd rs1 rs2) _ _ _ _ _ (by simp) (by simp [possibleFaults, Instr.opType]) rfl rfl

theorem execRemu_ends (rd : RegIdx) (rs1 : RegIdx) (rs2 : RegIdx) : ExecEnds (.remu rd rs1 rs2) s (execRemu rd rs1 rs2 s) := by
  unfold execRemu
  exact divideInto_ends (i := .remu rd rs1 rs2) _ _ _ _ (by simp) (by simp [possibleFaults, Instr.opType]) rfl rfl

theorem execAddi_ends (rd : RegIdx) (rs1 : RegIdx) (imm : Word) : ExecEnds (.addi rd rs1 imm) s (execAddi rd rs1 imm s) := by
  unfold execAddi
  exact writeBack_ends (i := .addi rd rs1 imm) _ _ (by simp) rfl rfl

theorem execSlti_ends (rd : RegIdx) (rs1 : RegIdx) (imm : Word) : ExecEnds (.slti rd rs1 imm) s (execSlti rd rs1 imm s) := by
  unfold execSlti
  exact writeBack_ends (i := .slti rd rs1 imm) _ _ (by simp) rfl rfl

theorem execSltiu_ends (rd : RegIdx) (rs1 : RegIdx) (imm : Word) : ExecEnds (.sltiu rd rs1 imm) s (execSltiu rd rs1 imm s) := by
  unfold execSltiu
  exact writeBack_ends (i := .sltiu rd rs1 imm) _ _ (by simp) rfl rfl

theorem execXori_ends (rd : RegIdx) (rs1 : RegIdx) (imm : Word) : ExecEnds (.xori rd rs1 imm) s (execXori rd rs1 imm s) := by
  unfold execXori
  exact writeBack_ends (i := .xori rd rs1 imm) _ _ (by simp) rfl rfl

theorem execOri_ends (rd : RegIdx) (rs1 : RegIdx) (imm : Word) : ExecEnds (.ori rd rs1 imm) s (execOri rd rs1 imm s) := by
  unfold execOri
  exact writeBack_ends (i := .ori rd rs1 imm) _ _ (by simp) rfl rfl

theorem execAndi_ends (rd : RegIdx) (rs1 : RegIdx) (imm : Word) : ExecEnds (.andi rd rs1 imm) s (execAndi rd rs1 imm s) := by
  unfold execAndi
  exact writeBack_ends (i := .andi rd rs1 imm) _ _ (by simp) rfl rfl

theorem execSlli_ends (rd : RegIdx) (rs1 : RegIdx) (imm : Word) : ExecEnds (.slli rd rs1 imm) s (execSlli rd rs1 imm s) := by
  unfold execSlli
  exact writeBack_ends (i := .slli rd rs1 imm) _ _ (by simp) rfl rfl

theorem execSrli_ends (rd : RegIdx) (rs1 : RegIdx) (imm : Word) : ExecEnds (.srli rd rs1 imm) s (execSrli rd rs1 imm s) := by
  unfold execSrli
  exact writeBack_ends (i := .srli rd rs1 imm) _ _ (by simp) rfl rfl

theorem execSrai_ends (rd : RegIdx) (rs1 : RegIdx) (imm : Word) : ExecEnds (.srai rd rs1 imm) s (execSrai rd rs1 imm s) := by
  unfold execSrai
  exact writeBack_ends (i := .srai rd rs1 imm) _ _ (by simp) rfl rfl

theorem execLui_ends (rd : RegIdx) (imm : Word) : ExecEnds (.lui rd imm) s (execLui rd imm s) := by
  unfold execLui
  exact writeBack_ends (i := .lui rd imm) _ _ (by simp) rfl rfl

theorem execAuipc_ends (rd : RegIdx) (imm : Word) : ExecEnds (.auipc rd imm) s (execAuipc rd imm s) := by
  unfold execAuipc
  exact writeBack_ends (i := .auipc rd imm) _ _ (by simp) rfl rfl

theorem execJal_ends (rd : RegIdx) (imm : Word) : ExecEnds (.jal rd imm) s (execJal rd imm s) := by
  unfold execJal
  exact jumpTo_ends (i := .jal rd imm) _ _ (by simp) rfl rfl rfl

theorem execJalr_ends (rd : RegIdx) (rs1 : RegIdx) (imm : Word) : ExecEnds (.jalr rd rs1 imm) s (execJalr rd rs1 imm s) := by
  unfold execJalr
  exact jumpTo_ends (i := .jalr rd rs1 imm) _ _ (by simp) rfl rfl rfl

theorem execLb_ends (rd : RegIdx) (rs1 : RegIdx) (imm : Word) : ExecEnds (.lb rd rs1 imm) s (execLb rd rs1 imm s) := by
  unfold execLb
  exact loadInto_ends (i := .lb rd rs1 imm) _ _ _ _ _ (by simp) rfl (by simp [possibleFaults, Instr.opType]) (.inl rfl) rfl rfl

theorem execLh_ends (rd : RegIdx) (rs1 : RegIdx) (imm : Word) : ExecEnds (.lh rd rs1 imm) s (execLh rd rs1 imm s) := by
  unfold execLh
  exact loadInto_ends (i := .lh rd rs1 imm) _ _ _ _ _ (by simp) rfl (by simp [possibleFaults, Instr.opType]) (.inr (by simp [possibleFaults, Instr.opType])) rfl rfl

theorem execLw_ends (rd : RegIdx) (rs1 : RegIdx) (imm : Word) : ExecEnds (.lw rd rs1 imm) s (execLw rd rs1 imm s) := by
  unfold execLw
  exact loadInto_ends (i := .lw rd rs1 imm) _ _ _ _ _ (by simp) rfl (by simp [possibleFaults, Instr.opType]) (.inr (by simp [possibleFaults, Instr.opType])) rfl rfl

theorem execLbu_ends (rd : RegIdx) (rs1 : RegIdx) (imm : Word) : ExecEnds (.lbu rd rs1 imm) s (execLbu rd rs1 imm s) := by
  unfold execLbu
  exact loadInto_ends (i := .lbu rd rs1 imm) _ _ _ _ _ (by simp) rfl (by simp [possibleFaults, Instr.opType]) (.inl rfl) rfl rfl

theorem execLhu_ends (rd : RegIdx) (rs1 : RegIdx) (imm : Word) : ExecEnds (.lhu rd rs1 imm) s (execLhu rd rs1 imm s) := by
  unfold execLhu
  exact loadInto_ends (i := .lhu rd rs1 imm) _ _ _ _ _ (by simp) rfl (by simp [possibleFaults, Instr.opType]) (.inr (by simp [possibleFaults, Instr.opType])) rfl rfl

theorem execSb_ends (rs1 : RegIdx) (rs2 : RegIdx) (imm : Word) : ExecEnds (.sb rs1 rs2 imm) s (execSb rs1 rs2 imm s) := by
  unfold execSb
  exact storeFrom_ends (i := .sb rs1 rs2 imm) _ _ _ _ (by simp) rfl (.inl rfl) rfl rfl

theorem execSh_ends (rs1 : RegIdx) (rs2 : RegIdx) (imm : Word) : ExecEnds (.sh rs1 rs2 imm) s (execSh rs1 rs2 imm s) := by
  unfold execSh
  exact storeFrom_ends (i := .sh rs1 rs2 imm) _ _ _ _ (by simp) rfl (.inr (by simp [possibleFaults, Instr.opType])) rfl rfl

theorem execSw_ends (rs1 : RegIdx) (rs2 : RegIdx) (imm : Word) : ExecEnds (.sw rs1 rs2 imm) s (execSw rs1 rs2 imm s) := by
  unfold execSw
  exact storeFrom_ends (i := .sw rs1 rs2 imm) _ _ _ _ (by simp) rfl (.inr (by simp [possibleFaults, Instr.opType])) rfl rfl

theorem execBeq_ends (rs1 : RegIdx) (rs2 : RegIdx) (imm : Word) : ExecEnds (.beq rs1 rs2 imm) s (execBeq rs1 rs2 imm s) := by
  unfold execBeq
  exact branchIf_ends (i := .beq rs1 rs2 imm) _ _ _ _ (by simp) rfl rfl rfl

theorem execBne_ends (rs1 : RegIdx) (rs2 : RegIdx) (imm : Word) : ExecEnds (.bne rs1 rs2 imm) s (execBne rs1 rs2 imm s) := by
  unfold execBne
  exact branchIf_ends (i := .bne rs1 rs2 imm) _ _ _ _ (by simp) rfl rfl rfl

theorem execBlt_ends (rs1 : RegIdx) (rs2 : RegIdx) (imm : Word) : ExecEnds (.blt rs1 rs2 imm) s (execBlt rs1 rs2 imm s) := by
  unfold execBlt
  exact branchIf_ends (i := .blt rs1 rs2 imm) _ _ _ _ (by simp) rfl rfl rfl

theorem execBge_ends (rs1 : RegIdx) (rs2 : RegIdx) (imm : Word) : ExecEnds (.bge rs1 rs2 imm) s (execBge rs1 rs2 imm s) := by
  unfold execBge
  exact branchIf_ends (i := .bge rs1 rs2 imm) _ _ _ _ (by simp) rfl rfl rfl

theorem execBltu_ends (rs1 : RegIdx) (rs2 : RegIdx) (imm : Word) : ExecEnds (.bltu rs1 rs2 imm) s (execBltu rs1 rs2 imm s) := by
  unfold execBltu
  exact branchIf_ends (i := .bltu rs1 rs2 imm) _ _ _ _ (by simp) rfl rfl rfl

theorem execBgeu_ends (rs1 : RegIdx) (rs2 : RegIdx) (imm : Word) : ExecEnds (.bgeu rs1 rs2 imm) s (execBgeu rs1 rs2 imm s) := by
  unfold execBgeu
  exact branchIf_ends (i := .bgeu rs1 rs2 imm) _ _ _ _ (by simp) rfl rfl rfl

theorem execFence_ends : ExecEnds .fence s (execFence s) := by
  exact .inl ⟨s, rfl, Effect.nothing (by simp) rfl rfl⟩

theorem execEcall_ends : ExecEnds .ecall s (execEcall s) := by
  exact .inl ⟨setComplete s, rfl, {
      icount := rfl
      params := rfl
      blocks := rfl
      pending := rfl
      status := rfl
      pc := rfl
      regs := ⟨0#32, by rw [show Instr.ecall.record.rd = 0#5 from rfl, writeReg_zero]; rfl⟩
      csrs := .inl rfl
      transfer := .inl ⟨rfl, rfl⟩
      complete := .inr ⟨rfl, rfl⟩
      memory := .none rfl rfl }⟩

theorem execEbreak_ends : ExecEnds .ebreak s (execEbreak s) := by
  exact .inr ⟨_, rfl, by simp [possibleFaults, Instr.opType, Fault.kind], faultLeaves_abortRun _ _⟩

theorem execCsrrw_ends (rd : RegIdx) (csr : CsrIdx) (rs1 : RegIdx) : ExecEnds (.csrrw rd csr rs1) s (execCsrrw rd csr rs1 s) := by
  unfold execCsrrw
  exact csrModify_ends (i := .csrrw rd csr rs1) _ _ _ _ (by simp) rfl rfl rfl rfl

theorem execCsrrs_ends (rd : RegIdx) (csr : CsrIdx) (rs1 : RegIdx) : ExecEnds (.csrrs rd csr rs1) s (execCsrrs rd csr rs1 s) := by
  unfold execCsrrs
  exact csrModify_ends (i := .csrrs rd csr rs1) _ _ _ _ (by simp) rfl rfl rfl rfl

theorem execCsrrc_ends (rd : RegIdx) (csr : CsrIdx) (rs1 : RegIdx) : ExecEnds (.csrrc rd csr rs1) s (execCsrrc rd csr rs1 s) := by
  unfold execCsrrc
  exact csrModify_ends (i := .csrrc rd csr rs1) _ _ _ _ (by simp) rfl rfl rfl rfl

theorem execCsrrwi_ends (rd : RegIdx) (csr : CsrIdx) (imm : Word) : ExecEnds (.csrrwi rd csr imm) s (execCsrrwi rd csr imm s) := by
  unfold execCsrrwi
  exact csrModify_ends (i := .csrrwi rd csr imm) _ _ _ _ (by simp) rfl rfl rfl rfl

theorem execCsrrsi_ends (rd : RegIdx) (csr : CsrIdx) (imm : Word) : ExecEnds (.csrrsi rd csr imm) s (execCsrrsi rd csr imm s) := by
  unfold execCsrrsi
  exact csrModify_ends (i := .csrrsi rd csr imm) _ _ _ _ (by simp) rfl rfl rfl rfl

theorem execCsrrci_ends (rd : RegIdx) (csr : CsrIdx) (imm : Word) : ExecEnds (.csrrci rd csr imm) s (execCsrrci rd csr imm s) := by
  unfold execCsrrci
  exact csrModify_ends (i := .csrrci rd csr imm) _ _ _ _ (by simp) rfl rfl rfl rfl

theorem execFpLoad_ends (rd : RegIdx) (rs1 : RegIdx) (rs2 : RegIdx) (rs3 : RegIdx) (rm : RmField) : ExecEnds (.fpLoad rd rs1 rs2 rs3 rm) s (execFpLoad rd rs1 rs2 rs3 rm s) := by
  unfold execFpLoad
  exact raiseNotImplemented_ends (i := .fpLoad rd rs1 rs2 rs3 rm) (by simp [possibleFaults, Instr.opType])

theorem execFpStore_ends (rd : RegIdx) (rs1 : RegIdx) (rs2 : RegIdx) (rs3 : RegIdx) (rm : RmField) : ExecEnds (.fpStore rd rs1 rs2 rs3 rm) s (execFpStore rd rs1 rs2 rs3 rm s) := by
  unfold execFpStore
  exact raiseNotImplemented_ends (i := .fpStore rd rs1 rs2 rs3 rm) (by simp [possibleFaults, Instr.opType])

theorem execFpMadd_ends (rd : RegIdx) (rs1 : RegIdx) (rs2 : RegIdx) (rs3 : RegIdx) (rm : RmField) : ExecEnds (.fpMadd rd rs1 rs2 rs3 rm) s (execFpMadd rd rs1 rs2 rs3 rm s) := by
  unfold execFpMadd
  exact raiseNotImplemented_ends (i := .fpMadd rd rs1 rs2 rs3 rm) (by simp [possibleFaults, Instr.opType])

theorem execFpMsub_ends (rd : RegIdx) (rs1 : RegIdx) (rs2 : RegIdx) (rs3 : RegIdx) (rm : RmField) : ExecEnds (.fpMsub rd rs1 rs2 rs3 rm) s (execFpMsub rd rs1 rs2 rs3 rm s) := by
  unfold execFpMsub
  exact raiseNotImplemented_ends (i := .fpMsub rd rs1 rs2 rs3 rm) (by simp [possibleFaults, Instr.opType])

theorem execFpNmsub_ends (rd : RegIdx) (rs1 : RegIdx) (rs2 : RegIdx) (rs3 : RegIdx) (rm : RmField) : ExecEnds (.fpNmsub rd rs1 rs2 rs3 rm) s (execFpNmsub rd rs1 rs2 rs3 rm s) := by
  unfold execFpNmsub
  exact raiseNotImplemented_ends (i := .fpNmsub rd rs1 rs2 rs3 rm) (by simp [possibleFaults, Instr.opType])

theorem execFpNmadd_ends (rd : RegIdx) (rs1 : RegIdx) (rs2 : RegIdx) (rs3 : RegIdx) (rm : RmField) : ExecEnds (.fpNmadd rd rs1 rs2 rs3 rm) s (execFpNmadd rd rs1 rs2 rs3 rm s) := by
  unfold execFpNmadd
  exact raiseNotImplemented_ends (i := .fpNmadd rd rs1 rs2 rs3 rm) (by simp [possibleFaults, Instr.opType])

theorem execFpOp_ends (rd : RegIdx) (rs1 : RegIdx) (rs2 : RegIdx) (rs3 : RegIdx) (rm : RmField) : ExecEnds (.fpOp rd rs1 rs2 rs3 rm) s (execFpOp rd rs1 rs2 rs3 rm s) := by
  unfold execFpOp
  exact raiseNotImplemented_ends (i := .fpOp rd rs1 rs2 rs3 rm) (by simp [possibleFaults, Instr.opType])

theorem execAmo_ends (rd : RegIdx) (rs1 : RegIdx) (rs2 : RegIdx) (rs3 : RegIdx) (rm : RmField) : ExecEnds (.amo rd rs1 rs2 rs3 rm) s (execAmo rd rs1 rs2 rs3 rm s) := by
  unfold execAmo
  exact raiseNotImplemented_ends (i := .amo rd rs1 rs2 rs3 rm) (by simp [possibleFaults, Instr.opType])

theorem execCompressed00_ends (rd : RegIdx) (rs1 : RegIdx) (rs2 : RegIdx) (rs3 : RegIdx) (rm : RmField) : ExecEnds (.compressed00 rd rs1 rs2 rs3 rm) s (execCompressed00 rd rs1 rs2 rs3 rm s) := by
  unfold execCompressed00
  exact raiseNotImplemented_ends (i := .compressed00 rd rs1 rs2 rs3 rm) (by simp [possibleFaults, Instr.opType])

theorem execCompressed01_ends (rd : RegIdx) (rs1 : RegIdx) (rs2 : RegIdx) (rs3 : RegIdx) (rm : RmField) : ExecEnds (.compressed01 rd rs1 rs2 rs3 rm) s (execCompressed01 rd rs1 rs2 rs3 rm s) := by
  unfold execCompressed01
  exact raiseNotImplemented_ends (i := .compressed01 rd rs1 rs2 rs3 rm) (by simp [possibleFaults, Instr.opType])

theorem execCompressed10_ends (rd : RegIdx) (rs1 : RegIdx) (rs2 : RegIdx) (rs3 : RegIdx) (rm : RmField) : ExecEnds (.compressed10 rd rs1 rs2 rs3 rm) s (execCompressed10 rd rs1 rs2 rs3 rm s) := by
  unfold execCompressed10
  exact raiseNotImplemented_ends (i := .compressed10 rd rs1 rs2 rs3 rm) (by simp [possibleFaults, Instr.opType])

/-- How every instruction ends: the inversion lemma of `exec`. -/
theorem exec_ends (i : Instr) (s : State) : ExecEnds i s (exec i s) := by
  cases i with
  | add rd rs1 rs2 => exact execAdd_ends rd rs1 rs2
  | sub rd rs1 rs2 => exact execSub_ends rd rs1 rs2
  | sll rd rs1 rs2 => exact execSll_ends rd rs1 rs2
  | slt rd rs1 rs2 => exact execSlt_ends rd rs1 rs2
  | sltu rd rs1 rs2 => exact execSltu_ends rd rs1 rs2
  | xor rd rs1 rs2 => exact execXor_ends rd rs1 rs2
  | srl rd rs1 rs2 => exact execSrl_ends rd rs1 rs2
  | sra rd rs1 rs2 => exact execSra_ends rd rs1 rs2
  | or rd rs1 rs2 => exact execOr_ends rd rs1 rs2
  | and rd rs1 rs2 => exact execAnd_ends rd rs1 rs2
  | mul rd rs1 rs2 => exact execMul_ends rd rs1 rs2
  | mulh rd rs1 rs2 => exact execMulh_ends rd rs1 rs2
  | mulhsu rd rs1 rs2 => exact execMulhsu_ends rd rs1 rs2
  | mulhu rd rs1 rs2 => exact execMulhu_ends rd rs1 rs2
  | div rd rs1 rs2 => exact execDiv_ends rd rs1 rs2
  | divu rd rs1 rs2 => exact execDivu_ends rd rs1 rs2
  | rem rd rs1 rs2 => exact execRem_ends rd rs1 rs2
  | remu rd rs1 rs2 => exact execRemu_ends rd rs1 rs2
  | addi rd rs1 imm => exact execAddi_ends rd rs1 imm
  | slti rd rs1 imm => exact execSlti_ends rd rs1 imm
  | sltiu rd rs1 imm => exact execSltiu_ends rd rs1 imm
  | xori rd rs1 imm => exact execXori_ends rd rs1 imm
  | ori rd rs1 imm => exact execOri_ends rd rs1 imm
  | andi rd rs1 imm => exact execAndi_ends rd rs1 imm
  | slli rd rs1 imm => exact execSlli_ends rd rs1 imm
  | srli rd rs1 imm => exact execSrli_ends rd rs1 imm
  | srai rd rs1 imm => exact execSrai_ends rd rs1 imm
  | lui rd imm => exact execLui_ends rd imm
  | auipc rd imm => exact execAuipc_ends rd imm
  | jal rd imm => exact execJal_ends rd imm
  | jalr rd rs1 imm => exact execJalr_ends rd rs1 imm
  | lb rd rs1 imm => exact execLb_ends rd rs1 imm
  | lh rd rs1 imm => exact execLh_ends rd rs1 imm
  | lw rd rs1 imm => exact execLw_ends rd rs1 imm
  | lbu rd rs1 imm => exact execLbu_ends rd rs1 imm
  | lhu rd rs1 imm => exact execLhu_ends rd rs1 imm
  | sb rs1 rs2 imm => exact execSb_ends rs1 rs2 imm
  | sh rs1 rs2 imm => exact execSh_ends rs1 rs2 imm
  | sw rs1 rs2 imm => exact execSw_ends rs1 rs2 imm
  | beq rs1 rs2 imm => exact execBeq_ends rs1 rs2 imm
  | bne rs1 rs2 imm => exact execBne_ends rs1 rs2 imm
  | blt rs1 rs2 imm => exact execBlt_ends rs1 rs2 imm
  | bge rs1 rs2 imm => exact execBge_ends rs1 rs2 imm
  | bltu rs1 rs2 imm => exact execBltu_ends rs1 rs2 imm
  | bgeu rs1 rs2 imm => exact execBgeu_ends rs1 rs2 imm
  | fence => exact execFence_ends 
  | ecall => exact execEcall_ends 
  | ebreak => exact execEbreak_ends 
  | csrrw rd csr rs1 => exact execCsrrw_ends rd csr rs1
  | csrrs rd csr rs1 => exact execCsrrs_ends rd csr rs1
  | csrrc rd csr rs1 => exact execCsrrc_ends rd csr rs1
  | csrrwi rd csr imm => exact execCsrrwi_ends rd csr imm
  | csrrsi rd csr imm => exact execCsrrsi_ends rd csr imm
  | csrrci rd csr imm => exact execCsrrci_ends rd csr imm
  | fpLoad rd rs1 rs2 rs3 rm => exact execFpLoad_ends rd rs1 rs2 rs3 rm
  | fpStore rd rs1 rs2 rs3 rm => exact execFpStore_ends rd rs1 rs2 rs3 rm
  | fpMadd rd rs1 rs2 rs3 rm => exact execFpMadd_ends rd rs1 rs2 rs3 rm
  | fpMsub rd rs1 rs2 rs3 rm => exact execFpMsub_ends rd rs1 rs2 rs3 rm
  | fpNmsub rd rs1 rs2 rs3 rm => exact execFpNmsub_ends rd rs1 rs2 rs3 rm
  | fpNmadd rd rs1 rs2 rs3 rm => exact execFpNmadd_ends rd rs1 rs2 rs3 rm
  | fpOp rd rs1 rs2 rs3 rm => exact execFpOp_ends rd rs1 rs2 rs3 rm
  | amo rd rs1 rs2 rs3 rm => exact execAmo_ends rd rs1 rs2 rs3 rm
  | compressed00 rd rs1 rs2 rs3 rm => exact execCompressed00_ends rd rs1 rs2 rs3 rm
  | compressed01 rd rs1 rs2 rs3 rm => exact execCompressed01_ends rd rs1 rs2 rs3 rm
  | compressed10 rd rs1 rs2 rs3 rm => exact execCompressed10_ends rd rs1 rs2 rs3 rm

/-- The same of what the decoder answers. -/
theorem execDecoded_unknown (s : State) :
    execDecoded .unknown s = .fault (.illegalInstruction (abortRun .illegalInstruction s)) := rfl

theorem exec_next {i : Instr} {t : State} (h : exec i s = .next t) : ∃ u, t = retired i.opType u ∧ Effect i s u := by
  rcases exec_ends i s with ⟨u, e, hu⟩ | ⟨f, e, _⟩
  · rw [e] at h; cases h; exact ⟨u, rfl, hu⟩
  · rw [e] at h; cases h

theorem exec_fault {i : Instr} {f : Fault} (h : exec i s = .fault f) :
    f.kind ∈ possibleFaults i.opType ∧ FaultLeaves f.kind s f.left := by
  rcases exec_ends i s with ⟨u, e, _⟩ | ⟨g, e, hg⟩
  · rw [e] at h; cases h
  · rw [e] at h; cases h; exact hg

end Sys2Proof.Machine
end

