-- ==== Sys2Proof/Laws/Fields.lean ====
section
/-! SUPPORT. Bit fields of a word: `bits` against the bit-vector operations, masks against fields, the operand fields of
each encoded format. -/

namespace Sys2Proof

/-! ### `bits` -/

theorem bits_eq_extract (w : Word) (hi lo : Nat) : bits w hi lo = (w.extractLsb' lo (hi - lo + 1)).toNat := by
  simp [bits, BitVec.extractLsb'_toNat, Nat.shiftRight_eq_div_pow]

theorem bits_eq_extract' (w : Word) (hi lo n : Nat) (h : n = hi - lo + 1) :
    bits w hi lo = (w.extractLsb' lo n).toNat := by
  subst h; exact bits_eq_extract w hi lo

theorem ofNat_bits (w : Word) (hi lo n : Nat) (h : n = hi - lo + 1) : BitVec.ofNat n (bits w hi lo) = w.extractLsb' lo n := by
  subst h; rw [bits_eq_extract, BitVec.ofNat_toNat, BitVec.setWidth_eq]

theorem bits_lt (w : Word) (hi lo : Nat) : bits w hi lo < 2 ^ (hi - lo + 1) := Nat.mod_lt _ (by positivity)

theorem bits_testBit (w : Word) (hi lo i : Nat) :
    (bits w hi lo).testBit i = (decide (i < hi - lo + 1) && w.getLsbD (lo + i)) := by
  simp [bits, Nat.testBit_mod_two_pow, Nat.testBit_div_two_pow, BitVec.getLsbD, Nat.add_comm]

theorem getLsbD_eq_of_bits {w p : Word} {hi lo i : Nat} (h : bits w hi lo = bits p hi lo) (h1 : lo ≤ i) (h2 : i ≤ hi) :
    w.getLsbD i = p.getLsbD i := by
  have := congrArg (·.testBit (i - lo)) h
  simp only [bits_testBit] at this
  rw [show lo + (i - lo) = i by omega] at this
  simpa [show i - lo < hi - lo + 1 by omega] using this

theorem bits_eq_of_getLsbD {w p : Word} {hi lo : Nat} (hle : lo ≤ hi) (h : ∀ i, lo ≤ i → i ≤ hi → w.getLsbD i = p.getLsbD i) :
    bits w hi lo = bits p hi lo := by
  refine Nat.eq_of_testBit_eq fun i => ?_
  rw [bits_testBit, bits_testBit]
  by_cases hi' : i < hi - lo + 1
  · rw [h (lo + i) (by omega) (by omega)]
  · simp [hi']

/-! ### Masks -/

theorem and_mask_eq_iff (w mask p : Word) (hp : p &&& mask = p) :
    w &&& mask = p ↔ ∀ i, mask.getLsbD i = true → w.getLsbD i = p.getLsbD i := by
  constructor
  · intro h i hi
    rw [← h, BitVec.getLsbD_and, hi, Bool.and_true]
  · intro h
    refine BitVec.eq_of_getLsbD_eq fun i _ => ?_
    rw [← hp, BitVec.getLsbD_and, BitVec.getLsbD_and]
    by_cases hm : mask.getLsbD i = true
    · rw [h i hm]
    · simp [hm]

/-- The bits of 0xFE00707F: funct7, funct3, opcode. -/
theorem and_maskR_iff (w p : Word) (hp : p &&& 0xFE00707F#32 = p) :
    w &&& 0xFE00707F#32 = p ↔
      bits w 31 25 = bits p 31 25 ∧ bits w 14 12 = bits p 14 12 ∧ bits w 6 0 = bits p 6 0 := by
  rw [and_mask_eq_iff _ _ _ hp]
  constructor
  · intro h
    refine ⟨bits_eq_of_getLsbD (by decide) fun i _ _ => h i ?_, bits_eq_of_getLsbD (by decide) fun i _ _ => h i ?_,
      bits_eq_of_getLsbD (by decide) fun i _ _ => h i ?_⟩ <;> interval_cases i <;> rfl
  · rintro ⟨h1, h2, h3⟩ i hi
    by_cases hlt : i < 32
    · by_cases a : 25 ≤ i
      · exact getLsbD_eq_of_bits h1 a (by omega)
      · by_cases b : 12 ≤ i ∧ i ≤ 14
        · exact getLsbD_eq_of_bits h2 b.1 b.2
        · by_cases c : i ≤ 6
          · exact getLsbD_eq_of_bits h3 (by omega) c
          · exfalso; interval_cases i <;> simp_all
    · rw [BitVec.getLsbD_of_ge _ _ (by omega), BitVec.getLsbD_of_ge _ _ (by omega)]

/-- The bits of 0x0000707F: funct3, opcode. -/
theorem and_maskI_iff (w p : Word) (hp : p &&& 0x0000707F#32 = p) :
    w &&& 0x0000707F#32 = p ↔ bits w 14 12 = bits p 14 12 ∧ bits w 6 0 = bits p 6 0 := by
  rw [and_mask_eq_iff _ _ _ hp]
  constructor
  · intro h
    refine ⟨bits_eq_of_getLsbD (by decide) fun i _ _ => h i ?_, bits_eq_of_getLsbD (by decide) fun i _ _ => h i ?_⟩ <;> interval_cases i <;> rfl
  · rintro ⟨h2, h3⟩ i hi
    by_cases hlt : i < 32
    · by_cases b : 12 ≤ i ∧ i ≤ 14
      · exact getLsbD_eq_of_bits h2 b.1 b.2
      · by_cases c : i ≤ 6
        · exact getLsbD_eq_of_bits h3 (by omega) c
        · exfalso; interval_cases i <;> simp_all
    · rw [BitVec.getLsbD_of_ge _ _ (by omega), BitVec.getLsbD_of_ge _ _ (by omega)]

/-- The bits of 0x0000007F: opcode. -/
theorem and_maskU_iff (w p : Word) (hp : p &&& 0x0000007F#32 = p) :
    w &&& 0x0000007F#32 = p ↔ bits w 6 0 = bits p 6 0 := by
  rw [and_mask_eq_iff _ _ _ hp]
  constructor
  · intro h
    exact bits_eq_of_getLsbD (by decide) fun i _ _ => h i (by interval_cases i <;> rfl)
  · intro h3 i hi
    by_cases hlt : i < 32
    · by_cases c : i ≤ 6
      · exact getLsbD_eq_of_bits h3 (by omega) c
      · exfalso; interval_cases i <;> simp_all
    · rw [BitVec.getLsbD_of_ge _ _ (by omega), BitVec.getLsbD_of_ge _ _ (by omega)]

/-- The bits of 0x00000003. -/
theorem and_maskC_iff (w p : Word) (hp : p &&& 0x00000003#32 = p) :
    w &&& 0x00000003#32 = p ↔ bits w 1 0 = bits p 1 0 := by
  rw [and_mask_eq_iff _ _ _ hp]
  constructor
  · intro h
    exact bits_eq_of_getLsbD (by decide) fun i _ _ => h i (by interval_cases i <;> rfl)
  · intro h3 i hi
    by_cases hlt : i < 32
    · by_cases c : i ≤ 1
      · exact getLsbD_eq_of_bits h3 (by omega) c
      · exfalso; interval_cases i <;> simp_all
    · rw [BitVec.getLsbD_of_ge _ _ (by omega), BitVec.getLsbD_of_ge _ _ (by omega)]

/-- The low two bits follow from the opcode. -/
theorem bits_one_zero_of_opcode (w : Word) : bits w 1 0 = bits w 6 0 % 4 := by
  simp only [bits]; omega

/-! ### Operand fields of a word -/

theorem rdOf_eq (w : Word) : rdOf w = w.extractLsb' 7 5 := ofNat_bits _ _ _ _ rfl
theorem rs1Of_eq (w : Word) : rs1Of w = w.extractLsb' 15 5 := ofNat_bits _ _ _ _ rfl
theorem rs2Of_eq (w : Word) : rs2Of w = w.extractLsb' 20 5 := ofNat_bits _ _ _ _ rfl
theorem rs3Of_eq (w : Word) : rs3Of w = w.extractLsb' 27 5 := ofNat_bits _ _ _ _ rfl
theorem rmOf_eq (w : Word) : rmOf w = w.extractLsb' 12 3 := ofNat_bits _ _ _ _ rfl
theorem csrOf_eq (w : Word) : csrOf w = w.extractLsb' 20 12 := ofNat_bits _ _ _ _ rfl

/-- The two's-complement extension of a field number is the sign extension of the field. -/
theorem sextField_eq (width : Nat) (x : BitVec width) (h1 : 0 < width) (h2 : width ≤ 32) :
    sextField x.toNat width = x.signExtend 32 := by
  have hx := x.isLt
  have hpos : 2 ^ (width - 1) < 2 ^ width := Nat.pow_lt_pow_right (by norm_num) (by omega)
  have hmsb : x.msb = decide (2 ^ (width - 1) ≤ x.toNat) := by rw [BitVec.msb_eq_decide]
  have hp : 2 ^ width ≤ 2 ^ 32 := Nat.pow_le_pow_right (by norm_num) h2
  refine BitVec.eq_of_toNat_eq ?_
  rw [BitVec.toNat_signExtend, hmsb, sextField, BitVec.toNat_ofNat, sext, Nat.mod_eq_of_lt hx,
    BitVec.toNat_setWidth, Nat.mod_eq_of_lt (Nat.lt_of_lt_of_le hx hp)]
  by_cases hs : x.toNat < 2 ^ (width - 1)
  · rw [if_pos hs, if_neg (by simpa using hs), Nat.mod_eq_of_lt (Nat.lt_of_lt_of_le hx hp)]; rfl
  · rw [if_neg hs, if_pos (by simpa using hs), Nat.mod_eq_of_lt (by omega)]

theorem toNat_append' {n k : Nat} (x : BitVec n) (y : BitVec k) : (x ++ y).toNat = 2 ^ k * x.toNat + y.toNat := by
  rw [BitVec.toNat_append, ← Nat.shiftLeft_add_eq_or_of_lt y.isLt, Nat.shiftLeft_eq, Nat.mul_comm]

theorem immIOf_eq (w : Word) : immIOf w = (w.extractLsb' 20 12).signExtend 32 := by
  rw [immIOf, bits_eq_extract]; exact sextField_eq 12 _ (by decide) (by decide)

theorem immSOf_eq (w : Word) : immSOf w = (w.extractLsb' 25 7 ++ w.extractLsb' 7 5).signExtend 32 := by
  rw [← sextField_eq _ _ (by decide) (by decide), toNat_append', immSOf, bits_eq_extract, bits_eq_extract]

theorem immBOf_eq (w : Word) :
    immBOf w = (w.extractLsb' 31 1 ++ w.extractLsb' 7 1 ++ w.extractLsb' 25 6 ++ w.extractLsb' 8 4 ++ 0#1).signExtend 32 := by
  rw [← sextField_eq _ _ (by decide) (by decide)]
  rw [immBOf, bits_eq_extract' w 31 31 1 rfl, bits_eq_extract' w 7 7 1 rfl, bits_eq_extract' w 30 25 6 rfl,
    bits_eq_extract' w 11 8 4 rfl]
  simp only [toNat_append', BitVec.toNat_ofNat]
  congr 1; omega

theorem immJOf_eq (w : Word) :
    immJOf w = (w.extractLsb' 31 1 ++ w.extractLsb' 12 8 ++ w.extractLsb' 20 1 ++ w.extractLsb' 21 10 ++ 0#1).signExtend 32 := by
  rw [← sextField_eq _ _ (by decide) (by decide)]
  rw [immJOf, bits_eq_extract' w 31 31 1 rfl, bits_eq_extract' w 19 12 8 rfl, bits_eq_extract' w 20 20 1 rfl,
    bits_eq_extract' w 30 21 10 rfl]
  simp only [toNat_append', BitVec.toNat_ofNat]
  congr 1; omega

theorem immUOf_eq (w : Word) : immUOf w = w.extractLsb' 12 20 ++ 0#12 := by
  refine BitVec.eq_of_toNat_eq ?_
  rw [toNat_append', immUOf, BitVec.toNat_ofNat, bits_eq_extract]
  have := (w.extractLsb' 12 20).isLt
  show 2 ^ 12 * (w.extractLsb' 12 20).toNat % 2 ^ 32 = _
  rw [Nat.mod_eq_of_lt (by omega)]; rfl

theorem shamtOf_eq (w : Word) : shamtOf w = (w.extractLsb' 20 5).setWidth 32 := by
  rw [shamtOf, bits_eq_extract, ← BitVec.ofNat_toNat]

theorem uimmOf_eq (w : Word) : uimmOf w = (w.extractLsb' 15 5).setWidth 32 := by
  rw [uimmOf, bits_eq_extract, ← BitVec.ofNat_toNat]

/-! ### Fields of an encoded word -/

/-- `bits` of a word given as a number. -/
theorem bits_ofNat (x hi lo : Nat) : bits (BitVec.ofNat 32 x) hi lo = x % 2 ^ 32 / 2 ^ lo % 2 ^ (hi - lo + 1) := by
  simp [bits]

theorem regField_ofNat (x lo : Nat) (r : RegIdx) (h : x % 2 ^ 32 / 2 ^ lo % 2 ^ 5 = r.toNat) :
    regField (BitVec.ofNat 32 x) lo = r := by
  rw [regField, bits_ofNat, show lo + 4 - lo + 1 = 5 by omega, h, BitVec.ofNat_toNat, BitVec.setWidth_eq]

end Sys2Proof
end

