-- ==== Sys2Proof/Laws/Encode.lean ====
section
/-! SUPPORT. What the decoder's field readers find in an encoded word, format by format. -/

namespace Sys2Proof

variable {rd rs1 rs2 rs3 : RegIdx} {rm : RmField} {imm : Word} {csr : CsrIdx} {f7 f3 op src : Nat}

theorem ofNat_eq_of {n : Nat} (x : Nat) (b : BitVec n) (h : x = b.toNat) : BitVec.ofNat n x = b := by
  rw [h, BitVec.ofNat_toNat, BitVec.setWidth_eq]

theorem ofNat_toNat_bits (imm : Word) (h : imm.toNat < 2 ^ 5) : BitVec.ofNat 32 (bits imm 4 0) = imm := by
  refine BitVec.eq_of_toNat_eq ?_
  simp only [BitVec.toNat_ofNat, bits]; omega

theorem encR_funct7 (_h7 : f7 < 128) (_h3 : f3 < 8) (_ho : op < 128) :
    bits (encR f7 rs2 rs1 f3 rd op) 31 25 = f7 := by
  have := rd.isLt
  have := rs1.isLt
  have := rs2.isLt
  rw [encR, bits_ofNat]; omega

theorem encR_funct3 (_h7 : f7 < 128) (_h3 : f3 < 8) (_ho : op < 128) :
    bits (encR f7 rs2 rs1 f3 rd op) 14 12 = f3 := by
  have := rd.isLt
  have := rs1.isLt
  have := rs2.isLt
  rw [encR, bits_ofNat]; omega

theorem encR_opcode (_h7 : f7 < 128) (_h3 : f3 < 8) (_ho : op < 128) :
    bits (encR f7 rs2 rs1 f3 rd op) 6 0 = op := by
  have := rd.isLt
  have := rs1.isLt
  have := rs2.isLt
  rw [encR, bits_ofNat]; omega

theorem encR_rd (_h7 : f7 < 128) (_h3 : f3 < 8) (_ho : op < 128) :
    rdOf (encR f7 rs2 rs1 f3 rd op) = rd := by
  have := rd.isLt
  have := rs1.isLt
  have := rs2.isLt
  exact regField_ofNat _ _ _ (by omega)

theorem encR_rs1 (_h7 : f7 < 128) (_h3 : f3 < 8) (_ho : op < 128) :
    rs1Of (encR f7 rs2 rs1 f3 rd op) = rs1 := by
  have := rd.isLt
  have := rs1.isLt
  have := rs2.isLt
  exact regField_ofNat _ _ _ (by omega)

theorem encR_rs2 (_h7 : f7 < 128) (_h3 : f3 < 8) (_ho : op < 128) :
    rs2Of (encR f7 rs2 rs1 f3 rd op) = rs2 := by
  have := rd.isLt
  have := rs1.isLt
  have := rs2.isLt
  exact regField_ofNat _ _ _ (by omega)

theorem encI_funct3 (_h3 : f3 < 8) (_ho : op < 128) :
    bits (encI imm rs1 f3 rd op) 14 12 = f3 := by
  have := rd.isLt
  have := rs1.isLt
  have := bits_lt imm 11 0
  rw [encI, bits_ofNat]; omega

theorem encI_opcode (_h3 : f3 < 8) (_ho : op < 128) :
    bits (encI imm rs1 f3 rd op) 6 0 = op := by
  have := rd.isLt
  have := rs1.isLt
  have := bits_lt imm 11 0
  rw [encI, bits_ofNat]; omega

theorem encI_rd (_h3 : f3 < 8) (_ho : op < 128) :
    rdOf (encI imm rs1 f3 rd op) = rd := by
  have := rd.isLt
  have := rs1.isLt
  have := bits_lt imm 11 0
  exact regField_ofNat _ _ _ (by omega)

theorem encI_rs1 (_h3 : f3 < 8) (_ho : op < 128) :
    rs1Of (encI imm rs1 f3 rd op) = rs1 := by
  have := rd.isLt
  have := rs1.isLt
  have := bits_lt imm 11 0
  exact regField_ofNat _ _ _ (by omega)

theorem encI_imm (_h3 : f3 < 8) (_ho : op < 128) :
    bits (encI imm rs1 f3 rd op) 31 20 = bits imm 11 0 := by
  have := rd.isLt
  have := rs1.isLt
  have := bits_lt imm 11 0
  rw [encI, bits_ofNat]; omega

theorem encShift_funct7 (_h7 : f7 < 128) (_h3 : f3 < 8) (_ho : op < 128) :
    bits (encShift f7 imm rs1 f3 rd op) 31 25 = f7 := by
  have := rd.isLt
  have := rs1.isLt
  have := bits_lt imm 4 0
  rw [encShift, bits_ofNat]; omega

theorem encShift_funct3 (_h7 : f7 < 128) (_h3 : f3 < 8) (_ho : op < 128) :
    bits (encShift f7 imm rs1 f3 rd op) 14 12 = f3 := by
  have := rd.isLt
  have := rs1.isLt
  have := bits_lt imm 4 0
  rw [encShift, bits_ofNat]; omega

theorem encShift_opcode (_h7 : f7 < 128) (_h3 : f3 < 8) (_ho : op < 128) :
    bits (encShift f7 imm rs1 f3 rd op) 6 0 = op := by
  have := rd.isLt
  have := rs1.isLt
  have := bits_lt imm 4 0
  rw [encShift, bits_ofNat]; omega

theorem encShift_rd (_h7 : f7 < 128) (_h3 : f3 < 8) (_ho : op < 128) :
    rdOf (encShift f7 imm rs1 f3 rd op) = rd := by
  have := rd.isLt
  have := rs1.isLt
  have := bits_lt imm 4 0
  exact regField_ofNat _ _ _ (by omega)

theorem encShift_rs1 (_h7 : f7 < 128) (_h3 : f3 < 8) (_ho : op < 128) :
    rs1Of (encShift f7 imm rs1 f3 rd op) = rs1 := by
  have := rd.isLt
  have := rs1.isLt
  have := bits_lt imm 4 0
  exact regField_ofNat _ _ _ (by omega)

theorem encShift_imm (_h7 : f7 < 128) (_h3 : f3 < 8) (_ho : op < 128) :
    bits (encShift f7 imm rs1 f3 rd op) 24 20 = bits imm 4 0 := by
  have := rd.isLt
  have := rs1.isLt
  have := bits_lt imm 4 0
  rw [encShift, bits_ofNat]; omega

theorem encS_funct3 (_h3 : f3 < 8) (_ho : op < 128) :
    bits (encS imm rs2 rs1 f3 op) 14 12 = f3 := by
  have := rs1.isLt
  have := rs2.isLt
  have := bits_lt imm 11 5
  have := bits_lt imm 4 0
  rw [encS, bits_ofNat]; omega

theorem encS_opcode (_h3 : f3 < 8) (_ho : op < 128) :
    bits (encS imm rs2 rs1 f3 op) 6 0 = op := by
  have := rs1.isLt
  have := rs2.isLt
  have := bits_lt imm 11 5
  have := bits_lt imm 4 0
  rw [encS, bits_ofNat]; omega

theorem encS_rs1 (_h3 : f3 < 8) (_ho : op < 128) :
    rs1Of (encS imm rs2 rs1 f3 op) = rs1 := by
  have := rs1.isLt
  have := rs2.isLt
  have := bits_lt imm 11 5
  have := bits_lt imm 4 0
  exact regField_ofNat _ _ _ (by omega)

theorem encS_rs2 (_h3 : f3 < 8) (_ho : op < 128) :
    rs2Of (encS imm rs2 rs1 f3 op) = rs2 := by
  have := rs1.isLt
  have := rs2.isLt
  have := bits_lt imm 11 5
  have := bits_lt imm 4 0
  exact regField_ofNat _ _ _ (by omega)

theorem encS_immHigh (_h3 : f3 < 8) (_ho : op < 128) :
    bits (encS imm rs2 rs1 f3 op) 31 25 = bits imm 11 5 := by
  have := rs1.isLt
  have := rs2.isLt
  have := bits_lt imm 11 5
  have := bits_lt imm 4 0
  rw [encS, bits_ofNat]; omega

theorem encS_immLow (_h3 : f3 < 8) (_ho : op < 128) :
    bits (encS imm rs2 rs1 f3 op) 11 7 = bits imm 4 0 := by
  have := rs1.isLt
  have := rs2.isLt
  have := bits_lt imm 11 5
  have := bits_lt imm 4 0
  rw [encS, bits_ofNat]; omega

theorem encB_funct3 (_h3 : f3 < 8) (_ho : op < 128) :
    bits (encB imm rs2 rs1 f3 op) 14 12 = f3 := by
  have := rs1.isLt
  have := rs2.isLt
  have := bits_lt imm 12 12
  have := bits_lt imm 10 5
  have := bits_lt imm 4 1
  have := bits_lt imm 11 11
  rw [encB, bits_ofNat]; omega

theorem encB_opcode (_h3 : f3 < 8) (_ho : op < 128) :
    bits (encB imm rs2 rs1 f3 op) 6 0 = op := by
  have := rs1.isLt
  have := rs2.isLt
  have := bits_lt imm 12 12
  have := bits_lt imm 10 5
  have := bits_lt imm 4 1
  have := bits_lt imm 11 11
  rw [encB, bits_ofNat]; omega

theorem encB_rs1 (_h3 : f3 < 8) (_ho : op < 128) :
    rs1Of (encB imm rs2 rs1 f3 op) = rs1 := by
  have := rs1.isLt
  have := rs2.isLt
  have := bits_lt imm 12 12
  have := bits_lt imm 10 5
  have := bits_lt imm 4 1
  have := bits_lt imm 11 11
  exact regField_ofNat _ _ _ (by omega)

theorem encB_rs2 (_h3 : f3 < 8) (_ho : op < 128) :
    rs2Of (encB imm rs2 rs1 f3 op) = rs2 := by
  have := rs1.isLt
  have := rs2.isLt
  have := bits_lt imm 12 12
  have := bits_lt imm 10 5
  have := bits_lt imm 4 1
  have := bits_lt imm 11 11
  exact regField_ofNat _ _ _ (by omega)

theorem encB_imm12 (_h3 : f3 < 8) (_ho : op < 128) :
    bits (encB imm rs2 rs1 f3 op) 31 31 = bits imm 12 12 := by
  have := rs1.isLt
  have := rs2.isLt
  have := bits_lt imm 12 12
  have := bits_lt imm 10 5
  have := bits_lt imm 4 1
  have := bits_lt imm 11 11
  rw [encB, bits_ofNat]; omega

theorem encB_imm11 (_h3 : f3 < 8) (_ho : op < 128) :
    bits (encB imm rs2 rs1 f3 op) 7 7 = bits imm 11 11 := by
  have := rs1.isLt
  have := rs2.isLt
  have := bits_lt imm 12 12
  have := bits_lt imm 10 5
  have := bits_lt imm 4 1
  have := bits_lt imm 11 11
  rw [encB, bits_ofNat]; omega

theorem encB_imm10to5 (_h3 : f3 < 8) (_ho : op < 128) :
    bits (encB imm rs2 rs1 f3 op) 30 25 = bits imm 10 5 := by
  have := rs1.isLt
  have := rs2.isLt
  have := bits_lt imm 12 12
  have := bits_lt imm 10 5
  have := bits_lt imm 4 1
  have := bits_lt imm 11 11
  rw [encB, bits_ofNat]; omega

theorem encB_imm4to1 (_h3 : f3 < 8) (_ho : op < 128) :
    bits (encB imm rs2 rs1 f3 op) 11 8 = bits imm 4 1 := by
  have := rs1.isLt
  have := rs2.isLt
  have := bits_lt imm 12 12
  have := bits_lt imm 10 5
  have := bits_lt imm 4 1
  have := bits_lt imm 11 11
  rw [encB, bits_ofNat]; omega

theorem encU_opcode (_ho : op < 128) :
    bits (encU imm rd op) 6 0 = op := by
  have := rd.isLt
  have := bits_lt imm 31 12
  rw [encU, bits_ofNat]; omega

theorem encU_rd (_ho : op < 128) :
    rdOf (encU imm rd op) = rd := by
  have := rd.isLt
  have := bits_lt imm 31 12
  exact regField_ofNat _ _ _ (by omega)

theorem encU_imm (_ho : op < 128) :
    bits (encU imm rd op) 31 12 = bits imm 31 12 := by
  have := rd.isLt
  have := bits_lt imm 31 12
  rw [encU, bits_ofNat]; omega

theorem encJ_opcode (_ho : op < 128) :
    bits (encJ imm rd op) 6 0 = op := by
  have := rd.isLt
  have := bits_lt imm 20 20
  have := bits_lt imm 10 1
  have := bits_lt imm 11 11
  have := bits_lt imm 19 12
  rw [encJ, bits_ofNat]; omega

theorem encJ_rd (_ho : op < 128) :
    rdOf (encJ imm rd op) = rd := by
  have := rd.isLt
  have := bits_lt imm 20 20
  have := bits_lt imm 10 1
  have := bits_lt imm 11 11
  have := bits_lt imm 19 12
  exact regField_ofNat _ _ _ (by omega)

theorem encJ_imm20 (_ho : op < 128) :
    bits (encJ imm rd op) 31 31 = bits imm 20 20 := by
  have := rd.isLt
  have := bits_lt imm 20 20
  have := bits_lt imm 10 1
  have := bits_lt imm 11 11
  have := bits_lt imm 19 12
  rw [encJ, bits_ofNat]; omega

theorem encJ_imm19to12 (_ho : op < 128) :
    bits (encJ imm rd op) 19 12 = bits imm 19 12 := by
  have := rd.isLt
  have := bits_lt imm 20 20
  have := bits_lt imm 10 1
  have := bits_lt imm 11 11
  have := bits_lt imm 19 12
  rw [encJ, bits_ofNat]; omega

theorem encJ_imm11 (_ho : op < 128) :
    bits (encJ imm rd op) 20 20 = bits imm 11 11 := by
  have := rd.isLt
  have := bits_lt imm 20 20
  have := bits_lt imm 10 1
  have := bits_lt imm 11 11
  have := bits_lt imm 19 12
  rw [encJ, bits_ofNat]; omega

theorem encJ_imm10to1 (_ho : op < 128) :
    bits (encJ imm rd op) 30 21 = bits imm 10 1 := by
  have := rd.isLt
  have := bits_lt imm 20 20
  have := bits_lt imm 10 1
  have := bits_lt imm 11 11
  have := bits_lt imm 19 12
  rw [encJ, bits_ofNat]; omega

theorem encCsr_funct3 (_h3 : f3 < 8) (_hs : src < 32) :
    bits (encCsr csr src f3 rd) 14 12 = f3 := by
  have := rd.isLt
  have := csr.isLt
  rw [encCsr, bits_ofNat]; omega

theorem encCsr_opcode (_h3 : f3 < 8) (_hs : src < 32) :
    bits (encCsr csr src f3 rd) 6 0 = 0b1110011 := by
  have := rd.isLt
  have := csr.isLt
  rw [encCsr, bits_ofNat]; omega

theorem encCsr_rd (_h3 : f3 < 8) (_hs : src < 32) :
    rdOf (encCsr csr src f3 rd) = rd := by
  have := rd.isLt
  have := csr.isLt
  exact regField_ofNat _ _ _ (by omega)

theorem encCsr_csr (_h3 : f3 < 8) (_hs : src < 32) :
    csrOf (encCsr csr src f3 rd) = csr := by
  have := rd.isLt
  have := csr.isLt
  rw [csrOf, encCsr, bits_ofNat]; exact ofNat_eq_of _ _ (by omega)

theorem encCsr_src (_h3 : f3 < 8) (_hs : src < 32) :
    bits (encCsr csr src f3 rd) 19 15 = src := by
  have := rd.isLt
  have := csr.isLt
  rw [encCsr, bits_ofNat]; omega

theorem encCsr_rs1 (_h3 : f3 < 8) (_hs : src < 32) :
    rs1Of (encCsr csr src f3 rd) = BitVec.ofNat 5 src := by
  have := rd.isLt
  have := csr.isLt
  rw [rs1Of, regField, encCsr, bits_ofNat]; congr 1; omega

theorem encClass_opcode (_ho : op < 128) :
    bits (encClass rd rs1 rs2 rs3 rm op) 6 0 = op := by
  have := rd.isLt
  have := rs1.isLt
  have := rs2.isLt
  have := rs3.isLt
  have := rm.isLt
  rw [encClass, bits_ofNat]; omega

theorem encClass_rd (_ho : op < 128) :
    rdOf (encClass rd rs1 rs2 rs3 rm op) = rd := by
  have := rd.isLt
  have := rs1.isLt
  have := rs2.isLt
  have := rs3.isLt
  have := rm.isLt
  exact regField_ofNat _ _ _ (by omega)

theorem encClass_rs1 (_ho : op < 128) :
    rs1Of (encClass rd rs1 rs2 rs3 rm op) = rs1 := by
  have := rd.isLt
  have := rs1.isLt
  have := rs2.isLt
  have := rs3.isLt
  have := rm.isLt
  exact regField_ofNat _ _ _ (by omega)

theorem encClass_rs2 (_ho : op < 128) :
    rs2Of (encClass rd rs1 rs2 rs3 rm op) = rs2 := by
  have := rd.isLt
  have := rs1.isLt
  have := rs2.isLt
  have := rs3.isLt
  have := rm.isLt
  exact regField_ofNat _ _ _ (by omega)

theorem encClass_rs3 (_ho : op < 128) :
    rs3Of (encClass rd rs1 rs2 rs3 rm op) = rs3 := by
  have := rd.isLt
  have := rs1.isLt
  have := rs2.isLt
  have := rs3.isLt
  have := rm.isLt
  exact regField_ofNat _ _ _ (by omega)

theorem encClass_rm (_ho : op < 128) :
    rmOf (encClass rd rs1 rs2 rs3 rm op) = rm := by
  have := rd.isLt
  have := rs1.isLt
  have := rs2.isLt
  have := rs3.isLt
  have := rm.isLt
  rw [rmOf, encClass, bits_ofNat]; exact ofNat_eq_of _ _ (by omega)

/-! ### The row of an encoded word -/

theorem encR_row (h7 : f7 < 128) (h3 : f3 < 8) (ho : op < 128) {p : Word} (hp : p &&& 0xFE00707F#32 = p)
    (e : bits p 31 25 = f7 ∧ bits p 14 12 = f3 ∧ bits p 6 0 = op) :
    encR f7 rs2 rs1 f3 rd op &&& 0xFE00707F#32 = p :=
  (and_maskR_iff _ _ hp).mpr ⟨(encR_funct7 h7 h3 ho).trans e.1.symm, (encR_funct3 h7 h3 ho).trans e.2.1.symm, (encR_opcode h7 h3 ho).trans e.2.2.symm⟩

theorem encShift_row (h7 : f7 < 128) (h3 : f3 < 8) (ho : op < 128) {p : Word} (hp : p &&& 0xFE00707F#32 = p)
    (e : bits p 31 25 = f7 ∧ bits p 14 12 = f3 ∧ bits p 6 0 = op) :
    encShift f7 imm rs1 f3 rd op &&& 0xFE00707F#32 = p :=
  (and_maskR_iff _ _ hp).mpr ⟨(encShift_funct7 h7 h3 ho).trans e.1.symm, (encShift_funct3 h7 h3 ho).trans e.2.1.symm, (encShift_opcode h7 h3 ho).trans e.2.2.symm⟩

theorem encI_row (h3 : f3 < 8) (ho : op < 128) {p : Word} (hp : p &&& 0x0000707F#32 = p)
    (e : bits p 14 12 = f3 ∧ bits p 6 0 = op) :
    encI imm rs1 f3 rd op &&& 0x0000707F#32 = p :=
  (and_maskI_iff _ _ hp).mpr ⟨(encI_funct3 h3 ho).trans e.1.symm, (encI_opcode h3 ho).trans e.2.symm⟩

theorem encS_row (h3 : f3 < 8) (ho : op < 128) {p : Word} (hp : p &&& 0x0000707F#32 = p)
    (e : bits p 14 12 = f3 ∧ bits p 6 0 = op) :
    encS imm rs2 rs1 f3 op &&& 0x0000707F#32 = p :=
  (and_maskI_iff _ _ hp).mpr ⟨(encS_funct3 h3 ho).trans e.1.symm, (encS_opcode h3 ho).trans e.2.symm⟩

theorem encB_row (h3 : f3 < 8) (ho : op < 128) {p : Word} (hp : p &&& 0x0000707F#32 = p)
    (e : bits p 14 12 = f3 ∧ bits p 6 0 = op) :
    encB imm rs2 rs1 f3 op &&& 0x0000707F#32 = p :=
  (and_maskI_iff _ _ hp).mpr ⟨(encB_funct3 h3 ho).trans e.1.symm, (encB_opcode h3 ho).trans e.2.symm⟩

theorem encU_row (ho : op < 128) {p : Word} (hp : p &&& 0x0000007F#32 = p)
    (e : bits p 6 0 = op) :
    encU imm rd op &&& 0x0000007F#32 = p :=
  (and_maskU_iff _ _ hp).mpr (((encU_opcode ho).trans e.symm))

theorem encJ_row (ho : op < 128) {p : Word} (hp : p &&& 0x0000007F#32 = p)
    (e : bits p 6 0 = op) :
    encJ imm rd op &&& 0x0000007F#32 = p :=
  (and_maskU_iff _ _ hp).mpr (((encJ_opcode ho).trans e.symm))

theorem encCsr_row (h3 : f3 < 8) (hs : src < 32) {p : Word} (hp : p &&& 0x0000707F#32 = p)
    (e : bits p 14 12 = f3 ∧ bits p 6 0 = 0b1110011) :
    encCsr csr src f3 rd &&& 0x0000707F#32 = p :=
  (and_maskI_iff _ _ hp).mpr ⟨(encCsr_funct3 h3 hs).trans e.1.symm, (encCsr_opcode h3 hs).trans e.2.symm⟩

theorem encClass_row (ho : op < 128) {p : Word} (hp : p &&& 0x0000007F#32 = p)
    (e : bits p 6 0 = op) :
    encClass rd rs1 rs2 rs3 rm op &&& 0x0000007F#32 = p :=
  (and_maskU_iff _ _ hp).mpr (((encClass_opcode ho).trans e.symm))

theorem encClass_rowC (ho : op < 128) {p : Word} (hp : p &&& 0x00000003#32 = p) (e : bits p 1 0 = op % 4) :
    encClass rd rs1 rs2 rs3 rm op &&& 0x00000003#32 = p :=
  (and_maskC_iff _ _ hp).mpr ((bits_one_zero_of_opcode _).trans ((congrArg (· % 4) (encClass_opcode ho)).trans e.symm))

/-! ### Immediates: what the decoder rebuilds from the fields is the immediate -/

theorem fitsSigned_iff (width : Nat) (imm : Word) :
    fitsSigned width imm = true ↔ imm.toNat < 2 ^ (width - 1) ∨ 2 ^ 32 - 2 ^ (width - 1) ≤ imm.toNat := by
  simp [fitsSigned]

theorem sextField_bits (width : Nat) (imm : Word) (h1 : 0 < width) (h2 : width ≤ 32) (h : fitsSigned width imm = true)
    (x : Nat) (hx : x = imm.toNat % 2 ^ width) : sextField x width = imm := by
  have hlt := imm.isLt
  rw [fitsSigned_iff] at h
  subst hx
  refine BitVec.eq_of_toNat_eq ?_
  rw [sextField, BitVec.toNat_ofNat, sext, Nat.mod_mod]
  have hp : 2 ^ width = 2 * 2 ^ (width - 1) := by rw [← pow_succ']; congr 1; omega
  have hd : 2 ^ width ∣ 2 ^ 32 := Nat.pow_dvd_pow 2 h2
  obtain ⟨c, hc⟩ := hd
  have hpos : 0 < 2 ^ (width - 1) := by positivity
  rcases h with h | h
  · have : imm.toNat % 2 ^ width = imm.toNat := Nat.mod_eq_of_lt (by omega)
    rw [this, if_pos h, Nat.mod_eq_of_lt hlt]
  · have hc1 : 1 ≤ c := by
      rcases Nat.eq_zero_or_pos c with rfl | hc'
      · omega
      · exact hc'
    have hbig : 2 ^ width * (c - 1) = 2 ^ 32 - 2 ^ width := by
      rw [Nat.mul_sub, ← hc, Nat.mul_one]
    have hle : 2 ^ width ≤ 2 ^ 32 := Nat.pow_le_pow_right (by norm_num) h2
    have hm : imm.toNat % 2 ^ width = imm.toNat - (2 ^ 32 - 2 ^ width) := by
      have : imm.toNat = (imm.toNat - (2 ^ 32 - 2 ^ width)) + 2 ^ width * (c - 1) := by omega
      conv_lhs => rw [this]
      rw [Nat.add_mul_mod_self_left, Nat.mod_eq_of_lt (by omega)]
    rw [hm, if_neg (by omega), Nat.mod_eq_of_lt (by omega)]
    omega

theorem immIOf_encI (h3 : f3 < 8) (ho : op < 128) (h : immI imm = true) : immIOf (encI imm rs1 f3 rd op) = imm := by
  rw [immIOf, encI_imm h3 ho]
  exact sextField_bits 12 imm (by decide) (by decide) h _ (by simp only [bits]; omega)

theorem shamtOf_encShift (h7 : f7 < 128) (h3 : f3 < 8) (ho : op < 128) (h : imm5 imm = true) :
    shamtOf (encShift f7 imm rs1 f3 rd op) = imm := by
  rw [shamtOf, encShift_imm h7 h3 ho]
  exact ofNat_toNat_bits imm (by simpa [imm5] using h)

theorem immSOf_encS (h3 : f3 < 8) (ho : op < 128) (h : immI imm = true) : immSOf (encS imm rs2 rs1 f3 op) = imm := by
  rw [immSOf, encS_immHigh h3 ho, encS_immLow h3 ho]
  exact sextField_bits 12 imm (by decide) (by decide) h _ (by simp only [bits]; omega)

theorem immBOf_encB (h3 : f3 < 8) (ho : op < 128) (h : immB imm = true) : immBOf (encB imm rs2 rs1 f3 op) = imm := by
  simp only [immB, Bool.and_eq_true, decide_eq_true_eq] at h
  rw [immBOf, encB_imm12 h3 ho, encB_imm11 h3 ho, encB_imm10to5 h3 ho, encB_imm4to1 h3 ho]
  exact sextField_bits 13 imm (by decide) (by decide) h.1 _ (by simp only [bits]; omega)

theorem immUOf_encU (ho : op < 128) (h : immU imm = true) : immUOf (encU imm rd op) = imm := by
  have hlt := imm.isLt
  simp only [immU, decide_eq_true_eq] at h
  rw [immUOf, encU_imm ho]
  refine BitVec.eq_of_toNat_eq ?_
  simp only [BitVec.toNat_ofNat, bits]; omega

theorem immJOf_encJ (ho : op < 128) (h : immJ imm = true) : immJOf (encJ imm rd op) = imm := by
  simp only [immJ, Bool.and_eq_true, decide_eq_true_eq] at h
  rw [immJOf, encJ_imm20 ho, encJ_imm19to12 ho, encJ_imm11 ho, encJ_imm10to1 ho]
  exact sextField_bits 21 imm (by decide) (by decide) h.1 _ (by simp only [bits]; omega)

end Sys2Proof
end

