-- ==== Sys2Proof/Laws/Hart.lean ====
section
/-! SUPPORT. The hart loop: what a block build does, what fetching an instruction does, and what one step does. -/

namespace Sys2Proof.Machine

variable {m m' : Mem} {s t : State} {p : Params}

/-! ### Accesses without the invariant: what they never change -/

/-- The parts of the component a LOAD leaves alone. -/
structure Mem.SameContents (m m' : Mem) : Prop where
  bytes     : m'.bytes = m.bytes
  level1    : m'.level1 = m.level1
  pageCount : m'.pageCount = m.pageCount
  numStores : m'.numStores = m.numStores

theorem Mem.SameContents.refl (m : Mem) : Mem.SameContents m m := ⟨rfl, rfl, rfl, rfl⟩

theorem Mem.SameContents.trans {a b c : Mem} (h : Mem.SameContents a b) (g : Mem.SameContents b c) :
    Mem.SameContents a c :=
  ⟨g.1.trans h.1, g.2.trans h.2, g.3.trans h.3, g.4.trans h.4⟩

theorem Mem.translateLoad_same (tb : Nat) (m : Mem) (a : Word) :
    Mem.SameContents m (m.translateLoad tb a).2 ∧ (m.translateLoad tb a).2.numLoads = m.numLoads := by
  unfold Mem.translateLoad
  split
  · exact ⟨⟨rfl, rfl, rfl, rfl⟩, rfl⟩
  · split <;> exact ⟨⟨rfl, rfl, rfl, rfl⟩, rfl⟩

theorem Mem.load_done_same {tb : Nat} {wd : Width} {a v : Word} (h : m.load tb wd a = .done v m') :
    Mem.SameContents m m' ∧ m'.numLoads = m.numLoads + 1 := by
  have ht := Mem.translateLoad_same tb m a
  unfold Mem.load at h
  split at h
  · split at h
    · rename_i q m1 h1
      rw [h1] at ht
      simp only [Access.done.injEq] at h
      obtain ⟨-, rfl⟩ := h
      exact ⟨⟨ht.1.1, ht.1.2, ht.1.3, ht.1.4⟩, by simpa using ht.2⟩
    · simp at h
  · simp at h

theorem Mem.load_unmapped_same {tb : Nat} {wd : Width} {a : Word} (h : m.load tb wd a = .unmapped m') :
    Mem.SameContents m m' ∧ m'.numLoads = m.numLoads := by
  have ht := Mem.translateLoad_same tb m a
  unfold Mem.load at h
  split at h
  · split at h
    · simp at h
    · rename_i m1 h1
      rw [h1] at ht
      simp only [Access.unmapped.injEq] at h
      subst h; exact ht
  · simp at h

theorem Mem.load_done_aligned {tb : Nat} {wd : Width} {a v : Word} (h : m.load tb wd a = .done v m') :
    aligned wd a = true := by
  unfold Mem.load at h
  split at h
  · assumption
  · simp at h

/-- A store keeps every mapping and takes back no page (R52). -/
theorem Mem.store_keeps {tb : Nat} {wd : Width} {a v : Word} (h : m.store tb wd a v = some m') :
    (∀ b q, walk m.level1 b = some q → walk m'.level1 b = some q) ∧ m.pageCount ≤ m'.pageCount := by
  have ht : (∀ b q, walk m.level1 b = some q → walk (m.translateStore tb a).2.level1 b = some q) ∧
      m.pageCount ≤ (m.translateStore tb a).2.pageCount := by
    unfold Mem.translateStore
    split
    · exact ⟨fun _ _ h => h, Nat.le_refl _⟩
    · unfold Mem.ownPage
      rcases hw : walk m.countMiss.level1 a with _ | q
      · refine ⟨fun b q hq => ?_, by simp⟩
        simp only [Mem.fill_level1, Mem.allocate_level1, walk_mapPage]
        rw [if_neg]
        · exact hq
        · intro hv
          rw [walk_congr hv] at hq
          simp [hq] at hw
      · exact ⟨fun _ _ h => h, Nat.le_refl _⟩
  unfold Mem.store at h
  split at h
  · simp only [Option.some.injEq] at h
    subst h; exact ht
  · simp at h

/-! ### Words of memory -/

/-- The word at `a`, of the Memory component alone. -/
def memWord (m : Mem) (a : Word) : Option Word :=
  match walk m.level1 a with
  | some q => some (BitVec.ofNat 32 (readLE m.bytes (cellKey q a) 4))
  | none => none

theorem wordAt_eq_memWord (s : State) (a : Word) : wordAt s a = memWord s.mem a := rfl

theorem memWord_congr (h : Mem.SameContents m m') (a : Word) : memWord m' a = memWord m a := by
  simp only [memWord, h.bytes, h.level1]

/-- A word load of an aligned address answers the word there, or finds the page unmapped. -/
theorem Mem.load_word {tb : Nat} (h : m.Inv tb) {a : Word} (ha : aligned .word a = true) :
    (∃ w m', m.load tb .word a = .done w m' ∧ memWord m a = some w ∧ m'.Inv tb) ∨
    (∃ m', m.load tb .word a = .unmapped m' ∧ memWord m a = none ∧ m'.Inv tb) := by
  rcases hw : walk m.level1 a with _ | q
  · refine .inr ⟨_, Mem.load_unmapped h ha hw, by simp [memWord, hw],
      h.recount rfl rfl rfl rfl ?_⟩
    have := h.lookupsCounted
    simp only [Mem.countMiss]; omega
  · obtain ⟨m', e, hi, _⟩ := Mem.load_mapped h ha hw
    exact .inl ⟨_, m', e, by simp [memWord, hw, Width.bytes], hi⟩

theorem byteAt_of_memWord {a : Word} : byteAt s a = none ↔ memWord s.mem a = none := by
  rw [byteAt_none_iff]; unfold memWord; split <;> simp_all

/-! ### Building a block -/

theorem aligned_word_next {a : Word} (h : aligned .word a = true) : aligned .word (a + 4#32) = true := by
  rw [aligned_iff] at *
  simp only [Width.bytes] at *
  have : (a + 4#32).toNat = (a.toNat + 4) % 2 ^ 32 := by rw [BitVec.toNat_add]; rfl
  rw [this]; omega

theorem add_four_mul (a : Word) (j : Nat) :
    a + 4#32 + BitVec.ofNat 32 (4 * j) = a + BitVec.ofNat 32 (4 * (j + 1)) := by
  refine BitVec.eq_of_toNat_eq ?_
  simp only [BitVec.toNat_add, BitVec.toNat_ofNat]
  omega

/-- A build keeps the contents, whatever it answers. -/
theorem buildFrom_same {n : Nat} {a : Word} :
    (∀ b m', buildFrom p n m a = .block b m' → Mem.SameContents m m' ∧ m'.numLoads = m.numLoads + b.length) ∧
    (∀ e m', buildFrom p n m a = .misaligned e m' → Mem.SameContents m m') ∧
    (∀ e m', buildFrom p n m a = .unmapped e m' → Mem.SameContents m m') := by
  induction n generalizing m a with
  | zero => simp [buildFrom]
  | succ n ih =>
    rcases hl : m.load p.tlbBits .word a with ⟨w, m1⟩ | _ | m1
    · obtain ⟨h1, h2⟩ := Mem.load_done_same hl
      simp only [buildFrom, hl]
      by_cases hb : (decode p.mFull w).isBranch = true
      · simp only [hb, if_true]
        refine ⟨fun b m' h => ?_, fun _ _ h => by simp at h, fun _ _ h => by simp at h⟩
        simp only [Build.block.injEq] at h
        obtain ⟨rfl, rfl⟩ := h
        exact ⟨h1, by simpa using h2⟩
      · simp only [hb]
        obtain ⟨i1, i2, i3⟩ := ih (m := m1) (a := a + 4#32)
        rcases hr : buildFrom p n m1 (a + 4#32) with ⟨b, m2⟩ | ⟨e, m2⟩ | ⟨e, m2⟩ | _
        · refine ⟨fun b' m' h => ?_, fun _ _ h => by simp [Build.push] at h, fun _ _ h => by simp [Build.push] at h⟩
          simp only [Build.push, Bool.false_eq_true, if_false, Build.block.injEq] at h
          obtain ⟨rfl, rfl⟩ := h
          obtain ⟨j1, j2⟩ := i1 b m2 hr
          exact ⟨h1.trans j1, by simp [j2, h2]; omega⟩
        · refine ⟨fun b' m' h => by simp [Build.push] at h, fun _ _ h => ?_, fun _ _ h => by simp [Build.push] at h⟩
          simp only [Build.push, Bool.false_eq_true, if_false, Build.misaligned.injEq] at h
          obtain ⟨rfl, rfl⟩ := h
          exact h1.trans (i2 e m2 hr)
        · refine ⟨fun b' m' h => by simp [Build.push] at h, fun _ _ h => by simp [Build.push] at h, fun _ _ h => ?_⟩
          simp only [Build.push, Bool.false_eq_true, if_false, Build.unmapped.injEq] at h
          obtain ⟨rfl, rfl⟩ := h
          exact h1.trans (i3 e m2 hr)
        · exact ⟨fun _ _ h => by simp [Build.push] at h, fun _ _ h => by simp [Build.push] at h,
            fun _ _ h => by simp [Build.push] at h⟩
    · simp only [buildFrom, hl]
      refine ⟨fun _ _ h => by simp at h, fun e m' h => ?_, fun _ _ h => by simp at h⟩
      simp only [Build.misaligned.injEq] at h
      exact h.2 ▸ Mem.SameContents.refl m
    · simp only [buildFrom, hl]
      refine ⟨fun _ _ h => by simp at h, fun _ _ h => by simp at h, fun e m' h => ?_⟩
      simp only [Build.unmapped.injEq] at h
      exact h.2 ▸ (Mem.load_unmapped_same hl).1

/-- A block that was built: aligned, ending at its only branch, each record the decoding of the word at its address. -/
theorem buildFrom_block {n : Nat} {a : Word} {b : List Decoded} (hi : m.Inv p.tlbBits)
    (h : buildFrom p n m a = .block b m') :
    m'.Inv p.tlbBits ∧ aligned .word a = true ∧ endsAtBranch b = true ∧
      ∀ j d, b[j]? = some d → ∃ w, memWord m (a + BitVec.ofNat 32 (4 * j)) = some w ∧ d = decode p.mFull w := by
  induction n generalizing m a b with
  | zero => simp [buildFrom] at h
  | succ n ih =>
    have ha : aligned .word a = true := by
      by_contra hna
      simp only [Bool.not_eq_true] at hna
      simp [buildFrom, Mem.load_misaligned hna] at h
    rcases Mem.load_word hi ha with ⟨w, m1, hl, hw, hi1⟩ | ⟨m1, hl, hw, hi1⟩
    · simp only [buildFrom, hl] at h
      have h0 : memWord m (a + BitVec.ofNat 32 (4 * 0)) = some w := by simpa using hw
      by_cases hb : (decode p.mFull w).isBranch = true
      · rw [if_pos hb] at h
        simp only [Build.block.injEq] at h
        obtain ⟨rfl, rfl⟩ := h
        refine ⟨hi1, ha, by simpa [endsAtBranch] using hb, fun j d hd => ?_⟩
        rcases j with _ | j
        · simp only [List.getElem?_cons_zero, Option.some.injEq] at hd
          exact ⟨w, h0, hd.symm⟩
        · simp at hd
      · rw [if_neg hb] at h
        rcases hr : buildFrom p n m1 (a + 4#32) with ⟨b1, m2⟩ | ⟨e, m2⟩ | ⟨e, m2⟩ | _ <;>
          rw [hr] at h <;> simp only [Build.push, Build.block.injEq, reduceCtorEq] at h
        obtain ⟨rfl, rfl⟩ := h
        obtain ⟨j1, j2, j3, j4⟩ := ih hi1 hr
        refine ⟨j1, ha, ?_, fun j d hd => ?_⟩
        · rcases b1 with _ | ⟨d1, b1⟩
          · simp [endsAtBranch] at j3
          · simp only [Bool.not_eq_true] at hb
            simp [endsAtBranch, hb, j3]
        · rcases j with _ | j
          · simp only [List.getElem?_cons_zero, Option.some.injEq] at hd
            exact ⟨w, h0, hd.symm⟩
          · simp only [List.getElem?_cons_succ] at hd
            obtain ⟨w', h1, h2⟩ := j4 j d hd
            rw [memWord_congr (Mem.load_done_same hl).1, add_four_mul] at h1
            exact ⟨w', h1, h2⟩
    · simp [buildFrom, hl] at h

/-- A build that meets an unmapped page: where, and what it had fetched. -/
theorem buildFrom_unmapped {n : Nat} {a e : Word} (hi : m.Inv p.tlbBits) (h : buildFrom p n m a = .unmapped e m') :
    aligned .word a = true ∧ ∃ k, e = a + BitVec.ofNat 32 (4 * k) ∧ memWord m e = none ∧
      m'.numLoads = m.numLoads + k ∧ ∀ j < k, ∃ w, memWord m (a + BitVec.ofNat 32 (4 * j)) = some w ∧
        (decode p.mFull w).isBranch = false := by
  induction n generalizing m a with
  | zero => simp [buildFrom] at h
  | succ n ih =>
    have ha : aligned .word a = true := by
      by_contra hna
      simp only [Bool.not_eq_true] at hna
      simp [buildFrom, Mem.load_misaligned hna] at h
    refine ⟨ha, ?_⟩
    rcases Mem.load_word hi ha with ⟨w, m1, hl, hw, hi1⟩ | ⟨m1, hl, hw, hi1⟩
    · simp only [buildFrom, hl] at h
      by_cases hb : (decode p.mFull w).isBranch = true
      · rw [if_pos hb] at h; simp at h
      · rw [if_neg hb] at h
        rcases hr : buildFrom p n m1 (a + 4#32) with ⟨b1, m2⟩ | ⟨e', m2⟩ | ⟨e', m2⟩ | _ <;>
          rw [hr] at h <;> simp only [Build.push, Build.unmapped.injEq, reduceCtorEq] at h
        obtain ⟨rfl, rfl⟩ := h
        have hs := (Mem.load_done_same hl)
        obtain ⟨-, k, h1, h2, h3, h4⟩ := ih hi1 hr
        refine ⟨k + 1, by rw [h1, add_four_mul], by rwa [memWord_congr hs.1] at h2, by omega, fun j hj => ?_⟩
        rcases j with _ | j
        · exact ⟨w, by simpa using hw, by simpa using hb⟩
        · obtain ⟨w', g1, g2⟩ := h4 j (by omega)
          rw [memWord_congr hs.1, add_four_mul] at g1
          exact ⟨w', g1, g2⟩
    · simp only [buildFrom, hl, Build.unmapped.injEq] at h
      obtain ⟨rfl, rfl⟩ := h
      exact ⟨0, by simp, hw, by simpa using (Mem.load_unmapped_same hl).2, fun j hj => by omega⟩

/-- A build meets a misaligned address only at its entry (R349), having touched nothing. -/
theorem buildFrom_misaligned {n : Nat} {a e : Word} (hi : m.Inv p.tlbBits)
    (h : buildFrom p n m a = .misaligned e m') : e = a ∧ m' = m ∧ aligned .word a = false := by
  have key : ∀ n m a, m.Inv p.tlbBits → aligned .word a = true → ∀ e m', buildFrom p n m a ≠ .misaligned e m' := by
    intro n
    induction n with
    | zero => simp [buildFrom]
    | succ n ih =>
      intro m a hi ha e m' h
      rcases Mem.load_word hi ha with ⟨w, m1, hl, hw, hi1⟩ | ⟨m1, hl, hw, hi1⟩
      · simp only [buildFrom, hl] at h
        split at h
        · simp at h
        · rcases hr : buildFrom p n m1 (a + 4#32) with ⟨b1, m2⟩ | ⟨e', m2⟩ | ⟨e', m2⟩ | _ <;>
            rw [hr] at h <;> simp only [Build.push, reduceCtorEq] at h
          exact ih m1 _ hi1 (aligned_word_next ha) _ _ hr
      · simp [buildFrom, hl] at h
  by_cases ha : aligned .word a = true
  · exact absurd h (key n m a hi ha e m')
  · simp only [Bool.not_eq_true] at ha
    rcases n with _ | n
    · simp [buildFrom] at h
    · simp only [buildFrom, Mem.load_misaligned ha, Build.misaligned.injEq] at h
      exact ⟨h.1.symm, h.2.symm, ha⟩

/-- A build succeeds when the words up to the first that ends a block are mapped and the fuel suffices (R348). -/
theorem buildFrom_succeeds {n k : Nat} {a : Word} (hi : m.Inv p.tlbBits) (ha : aligned .word a = true) (hk : k < n)
    (h1 : ∀ j < k, ∃ w, memWord m (a + BitVec.ofNat 32 (4 * j)) = some w ∧ (decode p.mFull w).isBranch = false)
    (h2 : ∃ w, memWord m (a + BitVec.ofNat 32 (4 * k)) = some w ∧ (decode p.mFull w).isBranch = true) :
    ∃ b m', buildFrom p n m a = .block b m' ∧ b.length = k + 1 := by
  induction n generalizing m a k with
  | zero => omega
  | succ n ih =>
    rcases Mem.load_word hi ha with ⟨w, m1, hl, hw, hi1⟩ | ⟨m1, hl, hw, hi1⟩
    · simp only [buildFrom, hl]
      have hs := (Mem.load_done_same hl).1
      rcases k with _ | k
      · obtain ⟨w', g1, g2⟩ := h2
        rw [show a + BitVec.ofNat 32 (4 * 0) = a by simp, hw, Option.some.injEq] at g1
        subst g1
        exact ⟨_, _, if_pos g2, rfl⟩
      · obtain ⟨w', g1, g2⟩ := h1 0 (by omega)
        rw [show a + BitVec.ofNat 32 (4 * 0) = a by simp, hw, Option.some.injEq] at g1
        subst g1
        rw [if_neg (by simp [g2])]
        obtain ⟨b, m2, e, hb⟩ := ih (k := k) hi1 (aligned_word_next ha) (by omega)
          (fun j hj => by
            obtain ⟨w', q1, q2⟩ := h1 (j + 1) (by omega)
            exact ⟨w', by rwa [memWord_congr hs, add_four_mul], q2⟩)
          (by
            obtain ⟨w', q1, q2⟩ := h2
            exact ⟨w', by rwa [memWord_congr hs, add_four_mul], q2⟩)
        exact ⟨decode p.mFull w :: b, m2, by rw [e]; rfl, by simp [hb]⟩
    · exfalso
      rcases k with _ | k
      · obtain ⟨w', g1, -⟩ := h2
        rw [show a + BitVec.ofNat 32 (4 * 0) = a by simp, hw] at g1; simp at g1
      · obtain ⟨w', g1, -⟩ := h1 0 (by omega)
        rw [show a + BitVec.ofNat 32 (4 * 0) = a by simp, hw] at g1; simp at g1

/-- Past the last word of the address space the words repeat: word `n` is an earlier one. -/
theorem word_repeats {n : Nat} (h : wordsOfAddressSpace ≤ n) : ∃ k < n, BitVec.ofNat 32 (4 * k) = BitVec.ofNat 32 (4 * n) := by
  obtain ⟨k, hk⟩ := Nat.exists_eq_add_of_le h
  have key : ∀ N : Nat, N = 2 ^ 30 → n = N + k → k < n ∧ BitVec.ofNat 32 (4 * k) = BitVec.ofNat 32 (4 * n) := by
    intro N hN hn
    refine ⟨by omega, BitVec.eq_of_toNat_eq ?_⟩
    simp only [BitVec.toNat_ofNat]
    omega
  exact ⟨k, key _ rfl hk⟩

/-- A build from a misaligned entry fails at the entry, having touched nothing (R349). -/
theorem buildFrom_meets_misaligned {n : Nat} {a : Word} (hn : 0 < n) (ha : aligned .word a = false) :
    buildFrom p n m a = .misaligned a m := by
  rcases n with _ | n
  · omega
  · simp only [buildFrom, Mem.load_misaligned ha]

/-- A build meets an unmapped page when the words before it are mapped, none ends a block, and the fuel suffices (R350). -/
theorem buildFrom_meets_unmapped {n k : Nat} {a : Word} (hi : m.Inv p.tlbBits) (ha : aligned .word a = true) (hk : k < n)
    (h1 : ∀ j < k, ∃ w, memWord m (a + BitVec.ofNat 32 (4 * j)) = some w ∧ (decode p.mFull w).isBranch = false)
    (h2 : memWord m (a + BitVec.ofNat 32 (4 * k)) = none) :
    ∃ m', buildFrom p n m a = .unmapped (a + BitVec.ofNat 32 (4 * k)) m' := by
  have h0 : a + BitVec.ofNat 32 (4 * 0) = a := by simp
  induction n generalizing m a k with
  | zero => omega
  | succ n ih =>
    rcases Mem.load_word hi ha with ⟨w, m1, hl, hw, hi1⟩ | ⟨m1, hl, hw, -⟩
    · have hs := (Mem.load_done_same hl).1
      rcases k with _ | k
      · rw [h0, hw] at h2; simp at h2
      · obtain ⟨w', g1, g2⟩ := h1 0 (by omega)
        rw [h0, hw, Option.some.injEq] at g1
        subst g1
        obtain ⟨m', e⟩ := ih (k := k) hi1 (aligned_word_next ha) (by omega)
          (fun j hj => by
            obtain ⟨w', q1, q2⟩ := h1 (j + 1) (by omega)
            exact ⟨w', by rwa [memWord_congr hs, add_four_mul], q2⟩)
          (by rwa [memWord_congr hs, add_four_mul]) (by simp)
        refine ⟨m', ?_⟩
        simp only [buildFrom, hl, g2, Bool.false_eq_true, if_false, e, Build.push, add_four_mul]
    · rcases k with _ | k
      · exact ⟨m1, by simp only [buildFrom, hl, h0]⟩
      · obtain ⟨w', g1, -⟩ := h1 0 (by omega)
        rw [h0, hw] at g1; simp at g1

/-! ### Fetching -/

/-- How an instruction comes to be executed: from the current block, from a cached block, or from a block just built. -/
inductive FetchCase (s : State) (d : Decoded) (u : State) : Prop where
  | pending (rest : List Decoded) (h : s.pending = d :: rest) (hu : u = s.withPending rest)
  | cached (rest : List Decoded) (hp : s.pending = []) (hc : s.complete = false)
      (h : lookupKey s.pc.toNat s.blocks = some (d :: rest)) (hu : u = s.withPending rest)
  | built (rest : List Decoded) (m : Mem) (hp : s.pending = []) (hc : s.complete = false)
      (hn : lookupKey s.pc.toNat s.blocks = none) (h : build s s.pc = .block (d :: rest) m)
      (hu : u = ((s.withMem m).withBlocks (insertKey s.pc.toNat (d :: rest) s.blocks)).withPending rest)

theorem startBlock_ready {b : List Decoded} {d : Decoded} {u : State} (h : startBlock b s = .ready d u) :
    ∃ rest, b = d :: rest ∧ u = s.withPending rest := by
  rcases b with _ | ⟨d', rest⟩
  · simp [startBlock] at h
  · simp only [startBlock, Fetched.ready.injEq] at h
    exact ⟨rest, by rw [h.1], h.2.symm⟩

theorem fetch_ready {d : Decoded} {u : State} (h : fetch s = .ready d u) : s.status = .running ∧ FetchCase s d u := by
  unfold fetch at h
  split at h
  · simp at h
  · simp at h
  · refine ⟨by assumption, ?_⟩
    split at h
    · rename_i d' rest hp
      simp only [Fetched.ready.injEq] at h
      exact .pending rest (by rw [hp, h.1]) h.2.symm
    · rename_i hp
      split at h
      · simp at h
      · rename_i hc
        simp only [Bool.not_eq_true] at hc
        unfold enterBlock at h
        split at h
        · rename_i b hb
          obtain ⟨rest, rfl, hu⟩ := startBlock_ready h
          exact .cached rest hp hc hb hu
        · rename_i hn
          split at h
          · rename_i b m hb
            obtain ⟨rest, rfl, hu⟩ := startBlock_ready h
            exact .built rest m hp hc hn hb hu
          · simp at h
          · simp at h
          · simp at h

/-- A next step: what was fetched, what executing it gave, and the end of the iteration. -/
theorem step_next (h : step s = .next t) :
    ∃ d u v, fetch s = .ready d u ∧ execDecoded d u = .next v ∧ t = endIteration v := by
  unfold step at h
  split at h
  · rename_i d u hf
    rcases he : execDecoded d u with v | f | r
    · rw [he] at h
      simp only [finish, Host.Outcome.next.injEq] at h
      exact ⟨d, u, v, hf, he, h.symm⟩
    · rw [he] at h; simp [finish] at h
    · rw [he] at h; simp [finish] at h
  · simp at h
  · simp at h

/-- A faulting step: a fetch fault, or an instruction that faulted. -/
theorem step_fault {f : Fault} (h : step s = .fault f) :
    fetch s = .fault f ∨ ∃ d u, fetch s = .ready d u ∧ execDecoded d u = .fault f := by
  unfold step at h
  split at h
  · rename_i d u hf
    rcases he : execDecoded d u with v | g | r
    · rw [he] at h; simp [finish] at h
    · rw [he] at h
      simp only [finish, Host.Outcome.fault.injEq] at h
      exact .inr ⟨d, u, hf, by rw [he, h]⟩
    · rw [he] at h; simp [finish] at h
  · rename_i g hf
    simp only [Host.Outcome.fault.injEq] at h
    exact .inl (by rw [hf, h])
  · simp at h

/-- A fetch fault comes from the build of a block at pc. -/
theorem fetch_fault {f : Fault} (h : fetch s = .fault f) :
    s.status = .running ∧ s.pending = [] ∧ s.complete = false ∧ lookupKey s.pc.toNat s.blocks = none ∧
      ((∃ a m, build s s.pc = .misaligned a m ∧ f = .misalignedAccess a (abortRun .misalignedAccess (s.withMem m))) ∨
       (∃ a m, build s s.pc = .unmapped a m ∧ f = .pageFault a (abortRun .pageFault (s.withMem m)))) := by
  unfold fetch at h
  split at h
  · simp at h
  · simp at h
  · refine ⟨by assumption, ?_⟩
    split at h
    · simp at h
    · rename_i hp
      split at h
      · simp at h
      · rename_i hc
        simp only [Bool.not_eq_true] at hc
        refine ⟨hp, hc, ?_⟩
        unfold enterBlock at h
        split at h
        · rename_i b hb
          rcases b with _ | ⟨d, rest⟩ <;> simp [startBlock] at h
        · rename_i hn
          refine ⟨hn, ?_⟩
          split at h
          · rename_i b m hb
            rcases b with _ | ⟨d, rest⟩ <;> simp [startBlock] at h
          · rename_i a m hb
            simp only [Fetched.fault.injEq] at h
            exact .inl ⟨a, m, hb, h.symm⟩
          · rename_i a m hb
            simp only [Fetched.fault.injEq] at h
            exact .inr ⟨a, m, hb, h.symm⟩
          · simp at h

/-- The end of an iteration changes the status at most. -/
theorem endIteration_cases (s : State) :
    (endIteration s = s ∧ ¬ (s.pending = [] ∧ s.complete = true)) ∨
    (endIteration s = s.withStatus .halted ∧ s.pending = [] ∧ s.complete = true) := by
  unfold endIteration
  split
  · exact .inr ⟨rfl, by assumption⟩
  · exact .inl ⟨rfl, by assumption⟩

@[simp] theorem endIteration_pc (s : State) : (endIteration s).pc = s.pc := by unfold endIteration; split <;> rfl
@[simp] theorem endIteration_npc (s : State) : (endIteration s).npc = s.npc := by unfold endIteration; split <;> rfl
@[simp] theorem endIteration_regs (s : State) : (endIteration s).regs = s.regs := by unfold endIteration; split <;> rfl
@[simp] theorem endIteration_csrs (s : State) : (endIteration s).csrs = s.csrs := by unfold endIteration; split <;> rfl
@[simp] theorem endIteration_mem (s : State) : (endIteration s).mem = s.mem := by unfold endIteration; split <;> rfl
@[simp] theorem endIteration_params (s : State) : (endIteration s).params = s.params := by
  unfold endIteration; split <;> rfl
@[simp] theorem endIteration_flag (s : State) : (endIteration s).branchIsTaken = s.branchIsTaken := by
  unfold endIteration; split <;> rfl
@[simp] theorem endIteration_complete (s : State) : (endIteration s).complete = s.complete := by
  unfold endIteration; split <;> rfl
@[simp] theorem endIteration_icount (s : State) : (endIteration s).icount = s.icount := by
  unfold endIteration; split <;> rfl
@[simp] theorem endIteration_blocks (s : State) : (endIteration s).blocks = s.blocks := by
  unfold endIteration; split <;> rfl
@[simp] theorem endIteration_pending (s : State) : (endIteration s).pending = s.pending := by
  unfold endIteration; split <;> rfl

end Sys2Proof.Machine
end

