-- ==== Sys2Proof/Laws/PerInstr.lean ====
section
/-! SUPPORT. The family of laws `TableRow`, one lemma per constructor of `Instr`: the instruction's row stands in the
opcode table under the instruction's kind, and the instruction's word belongs to that row. -/

namespace Sys2Proof

/-- The row of `i` is a row of the opcode table, of `i`'s kind, and the word of `i` belongs to it. -/
def Laws.TableRow.Statement (i : Instr) : Prop :=
  i.row ∈ opcodeTable ∧ i.row.kind = i.opType ∧ encode i &&& i.row.mask = i.row.pattern

theorem Laws.TableRow.add (rd : RegIdx) (rs1 : RegIdx) (rs2 : RegIdx) : Laws.TableRow.Statement (.add rd rs1 rs2) := by
  refine ⟨?_, rfl, ?_⟩
  · show (⟨.add, 0xFE00707F#32, 0x00000033#32, false⟩ : OpcodeRow) ∈ opcodeTable
    decide
  · show encR 0b0000000 rs2 rs1 0b000 rd 0b0110011 &&& 0xFE00707F#32 = 0x00000033#32
    exact encR_row (by decide) (by decide) (by decide) (by decide) (by decide)

theorem Laws.TableRow.sub (rd : RegIdx) (rs1 : RegIdx) (rs2 : RegIdx) : Laws.TableRow.Statement (.sub rd rs1 rs2) := by
  refine ⟨?_, rfl, ?_⟩
  · show (⟨.sub, 0xFE00707F#32, 0x40000033#32, false⟩ : OpcodeRow) ∈ opcodeTable
    decide
  · show encR 0b0100000 rs2 rs1 0b000 rd 0b0110011 &&& 0xFE00707F#32 = 0x40000033#32
    exact encR_row (by decide) (by decide) (by decide) (by decide) (by decide)

theorem Laws.TableRow.sll (rd : RegIdx) (rs1 : RegIdx) (rs2 : RegIdx) : Laws.TableRow.Statement (.sll rd rs1 rs2) := by
  refine ⟨?_, rfl, ?_⟩
  · show (⟨.sll, 0xFE00707F#32, 0x00001033#32, false⟩ : OpcodeRow) ∈ opcodeTable
    decide
  · show encR 0b0000000 rs2 rs1 0b001 rd 0b0110011 &&& 0xFE00707F#32 = 0x00001033#32
    exact encR_row (by decide) (by decide) (by decide) (by decide) (by decide)

theorem Laws.TableRow.slt (rd : RegIdx) (rs1 : RegIdx) (rs2 : RegIdx) : Laws.TableRow.Statement (.slt rd rs1 rs2) := by
  refine ⟨?_, rfl, ?_⟩
  · show (⟨.slt, 0xFE00707F#32, 0x00002033#32, false⟩ : OpcodeRow) ∈ opcodeTable
    decide
  · show encR 0b0000000 rs2 rs1 0b010 rd 0b0110011 &&& 0xFE00707F#32 = 0x00002033#32
    exact encR_row (by decide) (by decide) (by decide) (by decide) (by decide)

theorem Laws.TableRow.sltu (rd : RegIdx) (rs1 : RegIdx) (rs2 : RegIdx) : Laws.TableRow.Statement (.sltu rd rs1 rs2) := by
  refine ⟨?_, rfl, ?_⟩
  · show (⟨.sltu, 0xFE00707F#32, 0x00003033#32, false⟩ : OpcodeRow) ∈ opcodeTable
    decide
  · show encR 0b0000000 rs2 rs1 0b011 rd 0b0110011 &&& 0xFE00707F#32 = 0x00003033#32
    exact encR_row (by decide) (by decide) (by decide) (by decide) (by decide)

theorem Laws.TableRow.xor (rd : RegIdx) (rs1 : RegIdx) (rs2 : RegIdx) : Laws.TableRow.Statement (.xor rd rs1 rs2) := by
  refine ⟨?_, rfl, ?_⟩
  · show (⟨.xor, 0xFE00707F#32, 0x00004033#32, false⟩ : OpcodeRow) ∈ opcodeTable
    decide
  · show encR 0b0000000 rs2 rs1 0b100 rd 0b0110011 &&& 0xFE00707F#32 = 0x00004033#32
    exact encR_row (by decide) (by decide) (by decide) (by decide) (by decide)

theorem Laws.TableRow.srl (rd : RegIdx) (rs1 : RegIdx) (rs2 : RegIdx) : Laws.TableRow.Statement (.srl rd rs1 rs2) := by
  refine ⟨?_, rfl, ?_⟩
  · show (⟨.srl, 0xFE00707F#32, 0x00005033#32, false⟩ : OpcodeRow) ∈ opcodeTable
    decide
  · show encR 0b0000000 rs2 rs1 0b101 rd 0b0110011 &&& 0xFE00707F#32 = 0x00005033#32
    exact encR_row (by decide) (by decide) (by decide) (by decide) (by decide)

theorem Laws.TableRow.sra (rd : RegIdx) (rs1 : RegIdx) (rs2 : RegIdx) : Laws.TableRow.Statement (.sra rd rs1 rs2) := by
  refine ⟨?_, rfl, ?_⟩
  · show (⟨.sra, 0xFE00707F#32, 0x40005033#32, false⟩ : OpcodeRow) ∈ opcodeTable
    decide
  · show encR 0b0100000 rs2 rs1 0b101 rd 0b0110011 &&& 0xFE00707F#32 = 0x40005033#32
    exact encR_row (by decide) (by decide) (by decide) (by decide) (by decide)

theorem Laws.TableRow.or (rd : RegIdx) (rs1 : RegIdx) (rs2 : RegIdx) : Laws.TableRow.Statement (.or rd rs1 rs2) := by
  refine ⟨?_, rfl, ?_⟩
  · show (⟨.or, 0xFE00707F#32, 0x00006033#32, false⟩ : OpcodeRow) ∈ opcodeTable
    decide
  · show encR 0b0000000 rs2 rs1 0b110 rd 0b0110011 &&& 0xFE00707F#32 = 0x00006033#32
    exact encR_row (by decide) (by decide) (by decide) (by decide) (by decide)

theorem Laws.TableRow.and (rd : RegIdx) (rs1 : RegIdx) (rs2 : RegIdx) : Laws.TableRow.Statement (.and rd rs1 rs2) := by
  refine ⟨?_, rfl, ?_⟩
  · show (⟨.and, 0xFE00707F#32, 0x00007033#32, false⟩ : OpcodeRow) ∈ opcodeTable
    decide
  · show encR 0b0000000 rs2 rs1 0b111 rd 0b0110011 &&& 0xFE00707F#32 = 0x00007033#32
    exact encR_row (by decide) (by decide) (by decide) (by decide) (by decide)

theorem Laws.TableRow.mul (rd : RegIdx) (rs1 : RegIdx) (rs2 : RegIdx) : Laws.TableRow.Statement (.mul rd rs1 rs2) := by
  refine ⟨?_, rfl, ?_⟩
  · show (⟨.mul, 0xFE00707F#32, 0x02000033#32, false⟩ : OpcodeRow) ∈ opcodeTable
    decide
  · show encR 0b0000001 rs2 rs1 0b000 rd 0b0110011 &&& 0xFE00707F#32 = 0x02000033#32
    exact encR_row (by decide) (by decide) (by decide) (by decide) (by decide)

theorem Laws.TableRow.mulh (rd : RegIdx) (rs1 : RegIdx) (rs2 : RegIdx) : Laws.TableRow.Statement (.mulh rd rs1 rs2) := by
  refine ⟨?_, rfl, ?_⟩
  · show (⟨.mulh, 0xFE00707F#32, 0x02001033#32, true⟩ : OpcodeRow) ∈ opcodeTable
    decide
  · show encR 0b0000001 rs2 rs1 0b001 rd 0b0110011 &&& 0xFE00707F#32 = 0x02001033#32
    exact encR_row (by decide) (by decide) (by decide) (by decide) (by decide)

theorem Laws.TableRow.mulhsu (rd : RegIdx) (rs1 : RegIdx) (rs2 : RegIdx) : Laws.TableRow.Statement (.mulhsu rd rs1 rs2) := by
  refine ⟨?_, rfl, ?_⟩
  · show (⟨.mulhsu, 0xFE00707F#32, 0x02002033#32, true⟩ : OpcodeRow) ∈ opcodeTable
    decide
  · show encR 0b0000001 rs2 rs1 0b010 rd 0b0110011 &&& 0xFE00707F#32 = 0x02002033#32
    exact encR_row (by decide) (by decide) (by decide) (by decide) (by decide)

theorem Laws.TableRow.mulhu (rd : RegIdx) (rs1 : RegIdx) (rs2 : RegIdx) : Laws.TableRow.Statement (.mulhu rd rs1 rs2) := by
  refine ⟨?_, rfl, ?_⟩
  · show (⟨.mulhu, 0xFE00707F#32, 0x02003033#32, true⟩ : OpcodeRow) ∈ opcodeTable
    decide
  · show encR 0b0000001 rs2 rs1 0b011 rd 0b0110011 &&& 0xFE00707F#32 = 0x02003033#32
    exact encR_row (by decide) (by decide) (by decide) (by decide) (by decide)

theorem Laws.TableRow.div (rd : RegIdx) (rs1 : RegIdx) (rs2 : RegIdx) : Laws.TableRow.Statement (.div rd rs1 rs2) := by
  refine ⟨?_, rfl, ?_⟩
  · show (⟨.div, 0xFE00707F#32, 0x02004033#32, false⟩ : OpcodeRow) ∈ opcodeTable
    decide
  · show encR 0b0000001 rs2 rs1 0b100 rd 0b0110011 &&& 0xFE00707F#32 = 0x02004033#32
    exact encR_row (by decide) (by decide) (by decide) (by decide) (by decide)

theorem Laws.TableRow.divu (rd : RegIdx) (rs1 : RegIdx) (rs2 : RegIdx) : Laws.TableRow.Statement (.divu rd rs1 rs2) := by
  refine ⟨?_, rfl, ?_⟩
  · show (⟨.divu, 0xFE00707F#32, 0x02005033#32, true⟩ : OpcodeRow) ∈ opcodeTable
    decide
  · show encR 0b0000001 rs2 rs1 0b101 rd 0b0110011 &&& 0xFE00707F#32 = 0x02005033#32
    exact encR_row (by decide) (by decide) (by decide) (by decide) (by decide)

theorem Laws.TableRow.rem (rd : RegIdx) (rs1 : RegIdx) (rs2 : RegIdx) : Laws.TableRow.Statement (.rem rd rs1 rs2) := by
  refine ⟨?_, rfl, ?_⟩
  · show (⟨.rem, 0xFE00707F#32, 0x02006033#32, true⟩ : OpcodeRow) ∈ opcodeTable
    decide
  · show encR 0b0000001 rs2 rs1 0b110 rd 0b0110011 &&& 0xFE00707F#32 = 0x02006033#32
    exact encR_row (by decide) (by decide) (by decide) (by decide) (by decide)

theorem Laws.TableRow.remu (rd : RegIdx) (rs1 : RegIdx) (rs2 : RegIdx) : Laws.TableRow.Statement (.remu rd rs1 rs2) := by
  refine ⟨?_, rfl, ?_⟩
  · show (⟨.remu, 0xFE00707F#32, 0x02007033#32, true⟩ : OpcodeRow) ∈ opcodeTable
    decide
  · show encR 0b0000001 rs2 rs1 0b111 rd 0b0110011 &&& 0xFE00707F#32 = 0x02007033#32
    exact encR_row (by decide) (by decide) (by decide) (by decide) (by decide)

theorem Laws.TableRow.addi (rd : RegIdx) (rs1 : RegIdx) (imm : Word) : Laws.TableRow.Statement (.addi rd rs1 imm) := by
  refine ⟨?_, rfl, ?_⟩
  · show (⟨.addi, 0x0000707F#32, 0x00000013#32, false⟩ : OpcodeRow) ∈ opcodeTable
    decide
  · show encI imm rs1 0b000 rd 0b0010011 &&& 0x0000707F#32 = 0x00000013#32
    exact encI_row (by decide) (by decide) (by decide) (by decide)

theorem Laws.TableRow.slti (rd : RegIdx) (rs1 : RegIdx) (imm : Word) : Laws.TableRow.Statement (.slti rd rs1 imm) := by
  refine ⟨?_, rfl, ?_⟩
  · show (⟨.slti, 0x0000707F#32, 0x00002013#32, false⟩ : OpcodeRow) ∈ opcodeTable
    decide
  · show encI imm rs1 0b010 rd 0b0010011 &&& 0x0000707F#32 = 0x00002013#32
    exact encI_row (by decide) (by decide) (by decide) (by decide)

theorem Laws.TableRow.sltiu (rd : RegIdx) (rs1 : RegIdx) (imm : Word) : Laws.TableRow.Statement (.sltiu rd rs1 imm) := by
  refine ⟨?_, rfl, ?_⟩
  · show (⟨.sltiu, 0x0000707F#32, 0x00003013#32, false⟩ : OpcodeRow) ∈ opcodeTable
    decide
  · show encI imm rs1 0b011 rd 0b0010011 &&& 0x0000707F#32 = 0x00003013#32
    exact encI_row (by decide) (by decide) (by decide) (by decide)

theorem Laws.TableRow.xori (rd : RegIdx) (rs1 : RegIdx) (imm : Word) : Laws.TableRow.Statement (.xori rd rs1 imm) := by
  refine ⟨?_, rfl, ?_⟩
  · show (⟨.xori, 0x0000707F#32, 0x00004013#32, false⟩ : OpcodeRow) ∈ opcodeTable
    decide
  · show encI imm rs1 0b100 rd 0b0010011 &&& 0x0000707F#32 = 0x00004013#32
    exact encI_row (by decide) (by decide) (by decide) (by decide)

theorem Laws.TableRow.ori (rd : RegIdx) (rs1 : RegIdx) (imm : Word) : Laws.TableRow.Statement (.ori rd rs1 imm) := by
  refine ⟨?_, rfl, ?_⟩
  · show (⟨.ori, 0x0000707F#32, 0x00006013#32, false⟩ : OpcodeRow) ∈ opcodeTable
    decide
  · show encI imm rs1 0b110 rd 0b0010011 &&& 0x0000707F#32 = 0x00006013#32
    exact encI_row (by decide) (by decide) (by decide) (by decide)

theorem Laws.TableRow.andi (rd : RegIdx) (rs1 : RegIdx) (imm : Word) : Laws.TableRow.Statement (.andi rd rs1 imm) := by
  refine ⟨?_, rfl, ?_⟩
  · show (⟨.andi, 0x0000707F#32, 0x00007013#32, false⟩ : OpcodeRow) ∈ opcodeTable
    decide
  · show encI imm rs1 0b111 rd 0b0010011 &&& 0x0000707F#32 = 0x00007013#32
    exact encI_row (by decide) (by decide) (by decide) (by decide)

theorem Laws.TableRow.slli (rd : RegIdx) (rs1 : RegIdx) (imm : Word) : Laws.TableRow.Statement (.slli rd rs1 imm) := by
  refine ⟨?_, rfl, ?_⟩
  · show (⟨.slli, 0xFE00707F#32, 0x00001013#32, false⟩ : OpcodeRow) ∈ opcodeTable
    decide
  · show encShift 0b0000000 imm rs1 0b001 rd 0b0010011 &&& 0xFE00707F#32 = 0x00001013#32
    exact encShift_row (by decide) (by decide) (by decide) (by decide) (by decide)

theorem Laws.TableRow.srli (rd : RegIdx) (rs1 : RegIdx) (imm : Word) : Laws.TableRow.Statement (.srli rd rs1 imm) := by
  refine ⟨?_, rfl, ?_⟩
  · show (⟨.srli, 0xFE00707F#32, 0x00005013#32, false⟩ : OpcodeRow) ∈ opcodeTable
    decide
  · show encShift 0b0000000 imm rs1 0b101 rd 0b0010011 &&& 0xFE00707F#32 = 0x00005013#32
    exact encShift_row (by decide) (by decide) (by decide) (by decide) (by decide)

theorem Laws.TableRow.srai (rd : RegIdx) (rs1 : RegIdx) (imm : Word) : Laws.TableRow.Statement (.srai rd rs1 imm) := by
  refine ⟨?_, rfl, ?_⟩
  · show (⟨.srai, 0xFE00707F#32, 0x40005013#32, false⟩ : OpcodeRow) ∈ opcodeTable
    decide
  · show encShift 0b0100000 imm rs1 0b101 rd 0b0010011 &&& 0xFE00707F#32 = 0x40005013#32
    exact encShift_row (by decide) (by decide) (by decide) (by decide) (by decide)

theorem Laws.TableRow.lui (rd : RegIdx) (imm : Word) : Laws.TableRow.Statement (.lui rd imm) := by
  refine ⟨?_, rfl, ?_⟩
  · show (⟨.lui, 0x0000007F#32, 0x00000037#32, false⟩ : OpcodeRow) ∈ opcodeTable
    decide
  · show encU imm rd 0b0110111 &&& 0x0000007F#32 = 0x00000037#32
    exact encU_row (by decide) (by decide) (by decide)

theorem Laws.TableRow.auipc (rd : RegIdx) (imm : Word) : Laws.TableRow.Statement (.auipc rd imm) := by
  refine ⟨?_, rfl, ?_⟩
  · show (⟨.auipc, 0x0000007F#32, 0x00000017#32, false⟩ : OpcodeRow) ∈ opcodeTable
    decide
  · show encU imm rd 0b0010111 &&& 0x0000007F#32 = 0x00000017#32
    exact encU_row (by decide) (by decide) (by decide)

theorem Laws.TableRow.jal (rd : RegIdx) (imm : Word) : Laws.TableRow.Statement (.jal rd imm) := by
  refine ⟨?_, rfl, ?_⟩
  · show (⟨.jal, 0x0000007F#32, 0x0000006F#32, false⟩ : OpcodeRow) ∈ opcodeTable
    decide
  · show encJ imm rd 0b1101111 &&& 0x0000007F#32 = 0x0000006F#32
    exact encJ_row (by decide) (by decide) (by decide)

theorem Laws.TableRow.jalr (rd : RegIdx) (rs1 : RegIdx) (imm : Word) : Laws.TableRow.Statement (.jalr rd rs1 imm) := by
  refine ⟨?_, rfl, ?_⟩
  · show (⟨.jalr, 0x0000707F#32, 0x00000067#32, false⟩ : OpcodeRow) ∈ opcodeTable
    decide
  · show encI imm rs1 0b000 rd 0b1100111 &&& 0x0000707F#32 = 0x00000067#32
    exact encI_row (by decide) (by decide) (by decide) (by decide)

theorem Laws.TableRow.lb (rd : RegIdx) (rs1 : RegIdx) (imm : Word) : Laws.TableRow.Statement (.lb rd rs1 imm) := by
  refine ⟨?_, rfl, ?_⟩
  · show (⟨.lb, 0x0000707F#32, 0x00000003#32, false⟩ : OpcodeRow) ∈ opcodeTable
    decide
  · show encI imm rs1 0b000 rd 0b0000011 &&& 0x0000707F#32 = 0x00000003#32
    exact encI_row (by decide) (by decide) (by decide) (by decide)

theorem Laws.TableRow.lh (rd : RegIdx) (rs1 : RegIdx) (imm : Word) : Laws.TableRow.Statement (.lh rd rs1 imm) := by
  refine ⟨?_, rfl, ?_⟩
  · show (⟨.lh, 0x0000707F#32, 0x00001003#32, false⟩ : OpcodeRow) ∈ opcodeTable
    decide
  · show encI imm rs1 0b001 rd 0b0000011 &&& 0x0000707F#32 = 0x00001003#32
    exact encI_row (by decide) (by decide) (by decide) (by decide)

theorem Laws.TableRow.lw (rd : RegIdx) (rs1 : RegIdx) (imm : Word) : Laws.TableRow.Statement (.lw rd rs1 imm) := by
  refine ⟨?_, rfl, ?_⟩
  · show (⟨.lw, 0x0000707F#32, 0x00002003#32, false⟩ : OpcodeRow) ∈ opcodeTable
    decide
  · show encI imm rs1 0b010 rd 0b0000011 &&& 0x0000707F#32 = 0x00002003#32
    exact encI_row (by decide) (by decide) (by decide) (by decide)

theorem Laws.TableRow.lbu (rd : RegIdx) (rs1 : RegIdx) (imm : Word) : Laws.TableRow.Statement (.lbu rd rs1 imm) := by
  refine ⟨?_, rfl, ?_⟩
  · show (⟨.lbu, 0x0000707F#32, 0x00004003#32, false⟩ : OpcodeRow) ∈ opcodeTable
    decide
  · show encI imm rs1 0b100 rd 0b0000011 &&& 0x0000707F#32 = 0x00004003#32
    exact encI_row (by decide) (by decide) (by decide) (by decide)

theorem Laws.TableRow.lhu (rd : RegIdx) (rs1 : RegIdx) (imm : Word) : Laws.TableRow.Statement (.lhu rd rs1 imm) := by
  refine ⟨?_, rfl, ?_⟩
  · show (⟨.lhu, 0x0000707F#32, 0x00005003#32, false⟩ : OpcodeRow) ∈ opcodeTable
    decide
  · show encI imm rs1 0b101 rd 0b0000011 &&& 0x0000707F#32 = 0x00005003#32
    exact encI_row (by decide) (by decide) (by decide) (by decide)

theorem Laws.TableRow.sb (rs1 : RegIdx) (rs2 : RegIdx) (imm : Word) : Laws.TableRow.Statement (.sb rs1 rs2 imm) := by
  refine ⟨?_, rfl, ?_⟩
  · show (⟨.sb, 0x0000707F#32, 0x00000023#32, false⟩ : OpcodeRow) ∈ opcodeTable
    decide
  · show encS imm rs2 rs1 0b000 0b0100011 &&& 0x0000707F#32 = 0x00000023#32
    exact encS_row (by decide) (by decide) (by decide) (by decide)

theorem Laws.TableRow.sh (rs1 : RegIdx) (rs2 : RegIdx) (imm : Word) : Laws.TableRow.Statement (.sh rs1 rs2 imm) := by
  refine ⟨?_, rfl, ?_⟩
  · show (⟨.sh, 0x0000707F#32, 0x00001023#32, false⟩ : OpcodeRow) ∈ opcodeTable
    decide
  · show encS imm rs2 rs1 0b001 0b0100011 &&& 0x0000707F#32 = 0x00001023#32
    exact encS_row (by decide) (by decide) (by decide) (by decide)

theorem Laws.TableRow.sw (rs1 : RegIdx) (rs2 : RegIdx) (imm : Word) : Laws.TableRow.Statement (.sw rs1 rs2 imm) := by
  refine ⟨?_, rfl, ?_⟩
  · show (⟨.sw, 0x0000707F#32, 0x00002023#32, false⟩ : OpcodeRow) ∈ opcodeTable
    decide
  · show encS imm rs2 rs1 0b010 0b0100011 &&& 0x0000707F#32 = 0x00002023#32
    exact encS_row (by decide) (by decide) (by decide) (by decide)

theorem Laws.TableRow.beq (rs1 : RegIdx) (rs2 : RegIdx) (imm : Word) : Laws.TableRow.Statement (.beq rs1 rs2 imm) := by
  refine ⟨?_, rfl, ?_⟩
  · show (⟨.beq, 0x0000707F#32, 0x00000063#32, false⟩ : OpcodeRow) ∈ opcodeTable
    decide
  · show encB imm rs2 rs1 0b000 0b1100011 &&& 0x0000707F#32 = 0x00000063#32
    exact encB_row (by decide) (by decide) (by decide) (by decide)

theorem Laws.TableRow.bne (rs1 : RegIdx) (rs2 : RegIdx) (imm : Word) : Laws.TableRow.Statement (.bne rs1 rs2 imm) := by
  refine ⟨?_, rfl, ?_⟩
  · show (⟨.bne, 0x0000707F#32, 0x00001063#32, false⟩ : OpcodeRow) ∈ opcodeTable
    decide
  · show encB imm rs2 rs1 0b001 0b1100011 &&& 0x0000707F#32 = 0x00001063#32
    exact encB_row (by decide) (by decide) (by decide) (by decide)

theorem Laws.TableRow.blt (rs1 : RegIdx) (rs2 : RegIdx) (imm : Word) : Laws.TableRow.Statement (.blt rs1 rs2 imm) := by
  refine ⟨?_, rfl, ?_⟩
  · show (⟨.blt, 0x0000707F#32, 0x00004063#32, false⟩ : OpcodeRow) ∈ opcodeTable
    decide
  · show encB imm rs2 rs1 0b100 0b1100011 &&& 0x0000707F#32 = 0x00004063#32
    exact encB_row (by decide) (by decide) (by decide) (by decide)

theorem Laws.TableRow.bge (rs1 : RegIdx) (rs2 : RegIdx) (imm : Word) : Laws.TableRow.Statement (.bge rs1 rs2 imm) := by
  refine ⟨?_, rfl, ?_⟩
  · show (⟨.bge, 0x0000707F#32, 0x00005063#32, false⟩ : OpcodeRow) ∈ opcodeTable
    decide
  · show encB imm rs2 rs1 0b101 0b1100011 &&& 0x0000707F#32 = 0x00005063#32
    exact encB_row (by decide) (by decide) (by decide) (by decide)

theorem Laws.TableRow.bltu (rs1 : RegIdx) (rs2 : RegIdx) (imm : Word) : Laws.TableRow.Statement (.bltu rs1 rs2 imm) := by
  refine ⟨?_, rfl, ?_⟩
  · show (⟨.bltu, 0x0000707F#32, 0x00006063#32, false⟩ : OpcodeRow) ∈ opcodeTable
    decide
  · show encB imm rs2 rs1 0b110 0b1100011 &&& 0x0000707F#32 = 0x00006063#32
    exact encB_row (by decide) (by decide) (by decide) (by decide)

theorem Laws.TableRow.bgeu (rs1 : RegIdx) (rs2 : RegIdx) (imm : Word) : Laws.TableRow.Statement (.bgeu rs1 rs2 imm) := by
  refine ⟨?_, rfl, ?_⟩
  · show (⟨.bgeu, 0x0000707F#32, 0x00007063#32, false⟩ : OpcodeRow) ∈ opcodeTable
    decide
  · show encB imm rs2 rs1 0b111 0b1100011 &&& 0x0000707F#32 = 0x00007063#32
    exact encB_row (by decide) (by decide) (by decide) (by decide)

theorem Laws.TableRow.fence : Laws.TableRow.Statement .fence := by
  refine ⟨?_, rfl, ?_⟩
  · show (⟨.fence, 0x0000707F#32, 0x0000000F#32, false⟩ : OpcodeRow) ∈ opcodeTable
    decide
  · show 0x0000000F#32 &&& 0x0000707F#32 = 0x0000000F#32
    decide

theorem Laws.TableRow.ecall : Laws.TableRow.Statement .ecall := by
  refine ⟨?_, rfl, ?_⟩
  · show (⟨.ecall, 0xFFFFFFFF#32, 0x00000073#32, false⟩ : OpcodeRow) ∈ opcodeTable
    decide
  · show 0x00000073#32 &&& 0xFFFFFFFF#32 = 0x00000073#32
    decide

theorem Laws.TableRow.ebreak : Laws.TableRow.Statement .ebreak := by
  refine ⟨?_, rfl, ?_⟩
  · show (⟨.ebreak, 0xFFFFFFFF#32, 0x00100073#32, false⟩ : OpcodeRow) ∈ opcodeTable
    decide
  · show 0x00100073#32 &&& 0xFFFFFFFF#32 = 0x00100073#32
    decide

theorem Laws.TableRow.csrrw (rd : RegIdx) (csr : CsrIdx) (rs1 : RegIdx) : Laws.TableRow.Statement (.csrrw rd csr rs1) := by
  refine ⟨?_, rfl, ?_⟩
  · show (⟨.csrrw, 0x0000707F#32, 0x00001073#32, false⟩ : OpcodeRow) ∈ opcodeTable
    decide
  · show encCsr csr rs1.toNat 0b001 rd &&& 0x0000707F#32 = 0x00001073#32
    exact encCsr_row (by decide) rs1.isLt (by decide) (by decide)

theorem Laws.TableRow.csrrs (rd : RegIdx) (csr : CsrIdx) (rs1 : RegIdx) : Laws.TableRow.Statement (.csrrs rd csr rs1) := by
  refine ⟨?_, rfl, ?_⟩
  · show (⟨.csrrs, 0x0000707F#32, 0x00002073#32, false⟩ : OpcodeRow) ∈ opcodeTable
    decide
  · show encCsr csr rs1.toNat 0b010 rd &&& 0x0000707F#32 = 0x00002073#32
    exact encCsr_row (by decide) rs1.isLt (by decide) (by decide)

theorem Laws.TableRow.csrrc (rd : RegIdx) (csr : CsrIdx) (rs1 : RegIdx) : Laws.TableRow.Statement (.csrrc rd csr rs1) := by
  refine ⟨?_, rfl, ?_⟩
  · show (⟨.csrrc, 0x0000707F#32, 0x00003073#32, false⟩ : OpcodeRow) ∈ opcodeTable
    decide
  · show encCsr csr rs1.toNat 0b011 rd &&& 0x0000707F#32 = 0x00003073#32
    exact encCsr_row (by decide) rs1.isLt (by decide) (by decide)

theorem Laws.TableRow.csrrwi (rd : RegIdx) (csr : CsrIdx) (imm : Word) : Laws.TableRow.Statement (.csrrwi rd csr imm) := by
  refine ⟨?_, rfl, ?_⟩
  · show (⟨.csrrwi, 0x0000707F#32, 0x00005073#32, false⟩ : OpcodeRow) ∈ opcodeTable
    decide
  · show encCsr csr (bits imm 4 0) 0b101 rd &&& 0x0000707F#32 = 0x00005073#32
    exact encCsr_row (by decide) (bits_lt imm 4 0) (by decide) (by decide)

theorem Laws.TableRow.csrrsi (rd : RegIdx) (csr : CsrIdx) (imm : Word) : Laws.TableRow.Statement (.csrrsi rd csr imm) := by
  refine ⟨?_, rfl, ?_⟩
  · show (⟨.csrrsi, 0x0000707F#32, 0x00006073#32, false⟩ : OpcodeRow) ∈ opcodeTable
    decide
  · show encCsr csr (bits imm 4 0) 0b110 rd &&& 0x0000707F#32 = 0x00006073#32
    exact encCsr_row (by decide) (bits_lt imm 4 0) (by decide) (by decide)

theorem Laws.TableRow.csrrci (rd : RegIdx) (csr : CsrIdx) (imm : Word) : Laws.TableRow.Statement (.csrrci rd csr imm) := by
  refine ⟨?_, rfl, ?_⟩
  · show (⟨.csrrci, 0x0000707F#32, 0x00007073#32, false⟩ : OpcodeRow) ∈ opcodeTable
    decide
  · show encCsr csr (bits imm 4 0) 0b111 rd &&& 0x0000707F#32 = 0x00007073#32
    exact encCsr_row (by decide) (bits_lt imm 4 0) (by decide) (by decide)

theorem Laws.TableRow.fpLoad (rd : RegIdx) (rs1 : RegIdx) (rs2 : RegIdx) (rs3 : RegIdx) (rm : RmField) : Laws.TableRow.Statement (.fpLoad rd rs1 rs2 rs3 rm) := by
  refine ⟨?_, rfl, ?_⟩
  · show (⟨.fpLoad, 0x0000007F#32, 0x00000007#32, false⟩ : OpcodeRow) ∈ opcodeTable
    decide
  · show encClass rd rs1 rs2 rs3 rm 0b0000111 &&& 0x0000007F#32 = 0x00000007#32
    exact encClass_row (by decide) (by decide) (by decide)

theorem Laws.TableRow.fpStore (rd : RegIdx) (rs1 : RegIdx) (rs2 : RegIdx) (rs3 : RegIdx) (rm : RmField) : Laws.TableRow.Statement (.fpStore rd rs1 rs2 rs3 rm) := by
  refine ⟨?_, rfl, ?_⟩
  · show (⟨.fpStore, 0x0000007F#32, 0x00000027#32, false⟩ : OpcodeRow) ∈ opcodeTable
    decide
  · show encClass rd rs1 rs2 rs3 rm 0b0100111 &&& 0x0000007F#32 = 0x00000027#32
    exact encClass_row (by decide) (by decide) (by decide)

theorem Laws.TableRow.fpMadd (rd : RegIdx) (rs1 : RegIdx) (rs2 : RegIdx) (rs3 : RegIdx) (rm : RmField) : Laws.TableRow.Statement (.fpMadd rd rs1 rs2 rs3 rm) := by
  refine ⟨?_, rfl, ?_⟩
  · show (⟨.fpMadd, 0x0000007F#32, 0x00000043#32, false⟩ : OpcodeRow) ∈ opcodeTable
    decide
  · show encClass rd rs1 rs2 rs3 rm 0b1000011 &&& 0x0000007F#32 = 0x00000043#32
    exact encClass_row (by decide) (by decide) (by decide)

theorem Laws.TableRow.fpMsub (rd : RegIdx) (rs1 : RegIdx) (rs2 : RegIdx) (rs3 : RegIdx) (rm : RmField) : Laws.TableRow.Statement (.fpMsub rd rs1 rs2 rs3 rm) := by
  refine ⟨?_, rfl, ?_⟩
  · show (⟨.fpMsub, 0x0000007F#32, 0x00000047#32, false⟩ : OpcodeRow) ∈ opcodeTable
    decide
  · show encClass rd rs1 rs2 rs3 rm 0b1000111 &&& 0x0000007F#32 = 0x00000047#32
    exact encClass_row (by decide) (by decide) (by decide)

theorem Laws.TableRow.fpNmsub (rd : RegIdx) (rs1 : RegIdx) (rs2 : RegIdx) (rs3 : RegIdx) (rm : RmField) : Laws.TableRow.Statement (.fpNmsub rd rs1 rs2 rs3 rm) := by
  refine ⟨?_, rfl, ?_⟩
  · show (⟨.fpNmsub, 0x0000007F#32, 0x0000004B#32, false⟩ : OpcodeRow) ∈ opcodeTable
    decide
  · show encClass rd rs1 rs2 rs3 rm 0b1001011 &&& 0x0000007F#32 = 0x0000004B#32
    exact encClass_row (by decide) (by decide) (by decide)

theorem Laws.TableRow.fpNmadd (rd : RegIdx) (rs1 : RegIdx) (rs2 : RegIdx) (rs3 : RegIdx) (rm : RmField) : Laws.TableRow.Statement (.fpNmadd rd rs1 rs2 rs3 rm) := by
  refine ⟨?_, rfl, ?_⟩
  · show (⟨.fpNmadd, 0x0000007F#32, 0x0000004F#32, false⟩ : OpcodeRow) ∈ opcodeTable
    decide
  · show encClass rd rs1 rs2 rs3 rm 0b1001111 &&& 0x0000007F#32 = 0x0000004F#32
    exact encClass_row (by decide) (by decide) (by decide)

theorem Laws.TableRow.fpOp (rd : RegIdx) (rs1 : RegIdx) (rs2 : RegIdx) (rs3 : RegIdx) (rm : RmField) : Laws.TableRow.Statement (.fpOp rd rs1 rs2 rs3 rm) := by
  refine ⟨?_, rfl, ?_⟩
  · show (⟨.fpOp, 0x0000007F#32, 0x00000053#32, false⟩ : OpcodeRow) ∈ opcodeTable
    decide
  · show encClass rd rs1 rs2 rs3 rm 0b1010011 &&& 0x0000007F#32 = 0x00000053#32
    exact encClass_row (by decide) (by decide) (by decide)

theorem Laws.TableRow.amo (rd : RegIdx) (rs1 : RegIdx) (rs2 : RegIdx) (rs3 : RegIdx) (rm : RmField) : Laws.TableRow.Statement (.amo rd rs1 rs2 rs3 rm) := by
  refine ⟨?_, rfl, ?_⟩
  · show (⟨.amo, 0x0000007F#32, 0x0000002F#32, false⟩ : OpcodeRow) ∈ opcodeTable
    decide
  · show encClass rd rs1 rs2 rs3 rm 0b0101111 &&& 0x0000007F#32 = 0x0000002F#32
    exact encClass_row (by decide) (by decide) (by decide)

theorem Laws.TableRow.compressed00 (rd : RegIdx) (rs1 : RegIdx) (rs2 : RegIdx) (rs3 : RegIdx) (rm : RmField) : Laws.TableRow.Statement (.compressed00 rd rs1 rs2 rs3 rm) := by
  refine ⟨?_, rfl, ?_⟩
  · show (⟨.compressed, 0x00000003#32, 0x00000000#32, false⟩ : OpcodeRow) ∈ opcodeTable
    decide
  · show encClass rd rs1 rs2 rs3 rm 0b00 &&& 0x00000003#32 = 0x00000000#32
    exact encClass_rowC (by decide) (by decide) (by decide)

theorem Laws.TableRow.compressed01 (rd : RegIdx) (rs1 : RegIdx) (rs2 : RegIdx) (rs3 : RegIdx) (rm : RmField) : Laws.TableRow.Statement (.compressed01 rd rs1 rs2 rs3 rm) := by
  refine ⟨?_, rfl, ?_⟩
  · show (⟨.compressed, 0x00000003#32, 0x00000001#32, false⟩ : OpcodeRow) ∈ opcodeTable
    decide
  · show encClass rd rs1 rs2 rs3 rm 0b01 &&& 0x00000003#32 = 0x00000001#32
    exact encClass_rowC (by decide) (by decide) (by decide)

theorem Laws.TableRow.compressed10 (rd : RegIdx) (rs1 : RegIdx) (rs2 : RegIdx) (rs3 : RegIdx) (rm : RmField) : Laws.TableRow.Statement (.compressed10 rd rs1 rs2 rs3 rm) := by
  refine ⟨?_, rfl, ?_⟩
  · show (⟨.compressed, 0x00000003#32, 0x00000002#32, false⟩ : OpcodeRow) ∈ opcodeTable
    decide
  · show encClass rd rs1 rs2 rs3 rm 0b10 &&& 0x00000003#32 = 0x00000002#32
    exact encClass_rowC (by decide) (by decide) (by decide)

end Sys2Proof
end

