-- ==== Sys2Proof/Laws/Preload.lean ====
section
/-! SUPPORT. The byte view of memory after the preload's store of a word. -/

namespace Sys2Proof.Machine

/-- The word address of an address: the low two bits cleared. -/
theorem and_mask_toNat (a : Word) : (a &&& 0xFFFFFFFC#32).toNat = 4 * (a.toNat / 4) := by
  have h : a &&& 0xFFFFFFFC#32 = (a >>> 2) <<< 2 := by
    refine BitVec.eq_of_getLsbD_eq fun i hi => ?_
    interval_cases i <;> simp
  rw [h, BitVec.toNat_shiftLeft, BitVec.toNat_ushiftRight, Nat.shiftLeft_eq, Nat.shiftRight_eq_div_pow]
  have := a.isLt
  omega

/-- Every byte after the preload's store of one word (R103). -/
theorem byteAt_poke (m : Mem) (tb : Nat) (hi : m.Inv tb) (a v : Word) (ha : aligned .word a = true) (s t : State)
    (hs : s.mem = m) (ht : t.mem = m.pokeWord a v) (b : Word) :
    byteAt t b = if a = b &&& 0xFFFFFFFC#32 then some (BitVec.ofNat 8 (v.toNat / 2 ^ (8 * (b.toNat % 4))))
      else if vpn b = vpn a then some ((byteAt s b).getD 0#8) else byteAt s b := by
  obtain ⟨hi', hb, hl, -⟩ := Mem.pokeWord_spec hi ha v
  have hwk : ∀ c, walk (m.pokeWord a v).level1 c = if vpn c = vpn a then some ((walk m.level1 a).getD m.pageCount)
      else walk m.level1 c := fun c => by rw [hl, walk_tableAfterStore]
  have ha4 : a.toNat % 4 = 0 := by simpa [Width.bytes] using (aligned_iff .word a).mp ha
  have hiff : a = b &&& 0xFFFFFFFC#32 ↔ b.toNat / 4 = a.toNat / 4 := by
    constructor
    · intro h; rw [h, and_mask_toNat]; omega
    · intro h; refine BitVec.eq_of_toNat_eq ?_; rw [and_mask_toNat]; omega
  have hb1 := toNat_eq_vpn_offset a
  have hb2 := toNat_eq_vpn_offset b
  have o1 := pageOffset_lt a
  have o2 := pageOffset_lt b
  by_cases hv : vpn b = vpn a
  · have hw : walk t.mem.level1 b = some ((walk m.level1 a).getD m.pageCount) := by rw [ht, hwk, if_pos hv]
    rw [byteAt_mapped hw, ht, hb, readCell_writeLE]
    by_cases he : b.toNat / 4 = a.toNat / 4
    · rw [if_pos (by simp only [cellKey]; omega), if_pos (hiff.mpr he)]
      congr 4
      simp only [cellKey]; omega
    · rw [if_neg (by simp only [cellKey]; omega), if_neg (fun h => he (hiff.mp h)), if_pos hv]
      rcases hq : walk m.level1 a with _ | q
      · rw [byteAt_none_iff.mpr (by rw [hs, walk_congr hv, hq]), Option.getD_none, Option.getD_none,
          readCell_fresh hi (by simp only [cellKey]; omega)]
      · rw [byteAt_mapped (s := s) (by rw [hs, walk_congr hv, hq]), hs]; rfl
  · rw [if_neg (fun h => hv (by have := hiff.mp h; simp only [vpn, bits]; omega)), if_neg hv]
    rcases hq : walk m.level1 b with _ | q
    · rw [byteAt_none_iff.mpr (show walk s.mem.level1 b = none by rw [hs, hq]), byteAt_none_iff, ht, hwk, if_neg hv, hq]
    · have hwt : walk (m.pokeWord a v).level1 b = some q := by rw [hwk, if_neg hv, hq]
      rw [byteAt_mapped (s := s) (by rw [hs, hq]), byteAt_mapped (s := t) (by rw [ht]; exact hwt), hs, ht, hb,
        readCell_writeLE, if_neg]
      rintro ⟨h1, h2⟩
      have hwa : walk (m.pokeWord a v).level1 a = some ((walk m.level1 a).getD m.pageCount) := by rw [hwk, if_pos rfl]
      have : q = (walk m.level1 a).getD m.pageCount := by simp only [cellKey] at h1 h2; omega
      exact hv (hi'.pagesDistinct b a q hwt (this ▸ hwa))

end Sys2Proof.Machine
end

