-- ==== Sys2Proof/Laws/Rows.lean ====
section
/-! SUPPORT. The decoder row by row: what a word of each row of the opcode table decodes to, and the case analysis of
`decode` by rows. -/

set_option linter.unusedSimpArgs false

namespace Sys2Proof

theorem row_add (m : Bool) (w : Word) (h : w &&& 0xFE00707F#32 = 0x00000033#32) : decode m w = .instr (.add (rdOf w) (rs1Of w) (rs2Of w)) := by
  obtain ⟨g1, g2, g3⟩ := (and_maskR_iff _ _ (by decide)).mp h
  have h1 : bits w 31 25 = 0 := g1.trans (by decide)
  have h2 : bits w 14 12 = 0 := g2.trans (by decide)
  have h3 : bits w 6 0 = 51 := g3.trans (by decide)
  have e : bits w 1 0 = 3 := (bits_one_zero_of_opcode _).trans (congrArg (· % 4) h3)
  simp only [decode, e, decodeMajor, h3, h1, h2, decodeOp, decodeOpImm, decodeLoad, decodeStore, decodeBranch, decodeJalr, decodeMiscMem, decodeSystem, classRecord, if_true]

theorem row_sub (m : Bool) (w : Word) (h : w &&& 0xFE00707F#32 = 0x40000033#32) : decode m w = .instr (.sub (rdOf w) (rs1Of w) (rs2Of w)) := by
  obtain ⟨g1, g2, g3⟩ := (and_maskR_iff _ _ (by decide)).mp h
  have h1 : bits w 31 25 = 32 := g1.trans (by decide)
  have h2 : bits w 14 12 = 0 := g2.trans (by decide)
  have h3 : bits w 6 0 = 51 := g3.trans (by decide)
  have e : bits w 1 0 = 3 := (bits_one_zero_of_opcode _).trans (congrArg (· % 4) h3)
  simp only [decode, e, decodeMajor, h3, h1, h2, decodeOp, decodeOpImm, decodeLoad, decodeStore, decodeBranch, decodeJalr, decodeMiscMem, decodeSystem, classRecord, if_true]

theorem row_sll (m : Bool) (w : Word) (h : w &&& 0xFE00707F#32 = 0x00001033#32) : decode m w = .instr (.sll (rdOf w) (rs1Of w) (rs2Of w)) := by
  obtain ⟨g1, g2, g3⟩ := (and_maskR_iff _ _ (by decide)).mp h
  have h1 : bits w 31 25 = 0 := g1.trans (by decide)
  have h2 : bits w 14 12 = 1 := g2.trans (by decide)
  have h3 : bits w 6 0 = 51 := g3.trans (by decide)
  have e : bits w 1 0 = 3 := (bits_one_zero_of_opcode _).trans (congrArg (· % 4) h3)
  simp only [decode, e, decodeMajor, h3, h1, h2, decodeOp, decodeOpImm, decodeLoad, decodeStore, decodeBranch, decodeJalr, decodeMiscMem, decodeSystem, classRecord, if_true]

theorem row_slt (m : Bool) (w : Word) (h : w &&& 0xFE00707F#32 = 0x00002033#32) : decode m w = .instr (.slt (rdOf w) (rs1Of w) (rs2Of w)) := by
  obtain ⟨g1, g2, g3⟩ := (and_maskR_iff _ _ (by decide)).mp h
  have h1 : bits w 31 25 = 0 := g1.trans (by decide)
  have h2 : bits w 14 12 = 2 := g2.trans (by decide)
  have h3 : bits w 6 0 = 51 := g3.trans (by decide)
  have e : bits w 1 0 = 3 := (bits_one_zero_of_opcode _).trans (congrArg (· % 4) h3)
  simp only [decode, e, decodeMajor, h3, h1, h2, decodeOp, decodeOpImm, decodeLoad, decodeStore, decodeBranch, decodeJalr, decodeMiscMem, decodeSystem, classRecord, if_true]

theorem row_sltu (m : Bool) (w : Word) (h : w &&& 0xFE00707F#32 = 0x00003033#32) : decode m w = .instr (.sltu (rdOf w) (rs1Of w) (rs2Of w)) := by
  obtain ⟨g1, g2, g3⟩ := (and_maskR_iff _ _ (by decide)).mp h
  have h1 : bits w 31 25 = 0 := g1.trans (by decide)
  have h2 : bits w 14 12 = 3 := g2.trans (by decide)
  have h3 : bits w 6 0 = 51 := g3.trans (by decide)
  have e : bits w 1 0 = 3 := (bits_one_zero_of_opcode _).trans (congrArg (· % 4) h3)
  simp only [decode, e, decodeMajor, h3, h1, h2, decodeOp, decodeOpImm, decodeLoad, decodeStore, decodeBranch, decodeJalr, decodeMiscMem, decodeSystem, classRecord, if_true]

theorem row_xor (m : Bool) (w : Word) (h : w &&& 0xFE00707F#32 = 0x00004033#32) : decode m w = .instr (.xor (rdOf w) (rs1Of w) (rs2Of w)) := by
  obtain ⟨g1, g2, g3⟩ := (and_maskR_iff _ _ (by decide)).mp h
  have h1 : bits w 31 25 = 0 := g1.trans (by decide)
  have h2 : bits w 14 12 = 4 := g2.trans (by decide)
  have h3 : bits w 6 0 = 51 := g3.trans (by decide)
  have e : bits w 1 0 = 3 := (bits_one_zero_of_opcode _).trans (congrArg (· % 4) h3)
  simp only [decode, e, decodeMajor, h3, h1, h2, decodeOp, decodeOpImm, decodeLoad, decodeStore, decodeBranch, decodeJalr, decodeMiscMem, decodeSystem, classRecord, if_true]

theorem row_srl (m : Bool) (w : Word) (h : w &&& 0xFE00707F#32 = 0x00005033#32) : decode m w = .instr (.srl (rdOf w) (rs1Of w) (rs2Of w)) := by
  obtain ⟨g1, g2, g3⟩ := (and_maskR_iff _ _ (by decide)).mp h
  have h1 : bits w 31 25 = 0 := g1.trans (by decide)
  have h2 : bits w 14 12 = 5 := g2.trans (by decide)
  have h3 : bits w 6 0 = 51 := g3.trans (by decide)
  have e : bits w 1 0 = 3 := (bits_one_zero_of_opcode _).trans (congrArg (· % 4) h3)
  simp only [decode, e, decodeMajor, h3, h1, h2, decodeOp, decodeOpImm, decodeLoad, decodeStore, decodeBranch, decodeJalr, decodeMiscMem, decodeSystem, classRecord, if_true]

theorem row_sra (m : Bool) (w : Word) (h : w &&& 0xFE00707F#32 = 0x40005033#32) : decode m w = .instr (.sra (rdOf w) (rs1Of w) (rs2Of w)) := by
  obtain ⟨g1, g2, g3⟩ := (and_maskR_iff _ _ (by decide)).mp h
  have h1 : bits w 31 25 = 32 := g1.trans (by decide)
  have h2 : bits w 14 12 = 5 := g2.trans (by decide)
  have h3 : bits w 6 0 = 51 := g3.trans (by decide)
  have e : bits w 1 0 = 3 := (bits_one_zero_of_opcode _).trans (congrArg (· % 4) h3)
  simp only [decode, e, decodeMajor, h3, h1, h2, decodeOp, decodeOpImm, decodeLoad, decodeStore, decodeBranch, decodeJalr, decodeMiscMem, decodeSystem, classRecord, if_true]

theorem row_or (m : Bool) (w : Word) (h : w &&& 0xFE00707F#32 = 0x00006033#32) : decode m w = .instr (.or (rdOf w) (rs1Of w) (rs2Of w)) := by
  obtain ⟨g1, g2, g3⟩ := (and_maskR_iff _ _ (by decide)).mp h
  have h1 : bits w 31 25 = 0 := g1.trans (by decide)
  have h2 : bits w 14 12 = 6 := g2.trans (by decide)
  have h3 : bits w 6 0 = 51 := g3.trans (by decide)
  have e : bits w 1 0 = 3 := (bits_one_zero_of_opcode _).trans (congrArg (· % 4) h3)
  simp only [decode, e, decodeMajor, h3, h1, h2, decodeOp, decodeOpImm, decodeLoad, decodeStore, decodeBranch, decodeJalr, decodeMiscMem, decodeSystem, classRecord, if_true]

theorem row_and (m : Bool) (w : Word) (h : w &&& 0xFE00707F#32 = 0x00007033#32) : decode m w = .instr (.and (rdOf w) (rs1Of w) (rs2Of w)) := by
  obtain ⟨g1, g2, g3⟩ := (and_maskR_iff _ _ (by decide)).mp h
  have h1 : bits w 31 25 = 0 := g1.trans (by decide)
  have h2 : bits w 14 12 = 7 := g2.trans (by decide)
  have h3 : bits w 6 0 = 51 := g3.trans (by decide)
  have e : bits w 1 0 = 3 := (bits_one_zero_of_opcode _).trans (congrArg (· % 4) h3)
  simp only [decode, e, decodeMajor, h3, h1, h2, decodeOp, decodeOpImm, decodeLoad, decodeStore, decodeBranch, decodeJalr, decodeMiscMem, decodeSystem, classRecord, if_true]

theorem row_mul (m : Bool) (w : Word) (h : w &&& 0xFE00707F#32 = 0x02000033#32) : decode m w = .instr (.mul (rdOf w) (rs1Of w) (rs2Of w)) := by
  obtain ⟨g1, g2, g3⟩ := (and_maskR_iff _ _ (by decide)).mp h
  have h1 : bits w 31 25 = 1 := g1.trans (by decide)
  have h2 : bits w 14 12 = 0 := g2.trans (by decide)
  have h3 : bits w 6 0 = 51 := g3.trans (by decide)
  have e : bits w 1 0 = 3 := (bits_one_zero_of_opcode _).trans (congrArg (· % 4) h3)
  simp only [decode, e, decodeMajor, h3, h1, h2, decodeOp, decodeOpImm, decodeLoad, decodeStore, decodeBranch, decodeJalr, decodeMiscMem, decodeSystem, classRecord, if_true]

theorem row_mulh (w : Word) (h : w &&& 0xFE00707F#32 = 0x02001033#32) : decode true w = .instr (.mulh (rdOf w) (rs1Of w) (rs2Of w)) := by
  obtain ⟨g1, g2, g3⟩ := (and_maskR_iff _ _ (by decide)).mp h
  have h1 : bits w 31 25 = 1 := g1.trans (by decide)
  have h2 : bits w 14 12 = 1 := g2.trans (by decide)
  have h3 : bits w 6 0 = 51 := g3.trans (by decide)
  have e : bits w 1 0 = 3 := (bits_one_zero_of_opcode _).trans (congrArg (· % 4) h3)
  simp only [decode, e, decodeMajor, h3, h1, h2, decodeOp, decodeOpImm, decodeLoad, decodeStore, decodeBranch, decodeJalr, decodeMiscMem, decodeSystem, classRecord, if_true]

theorem rowU_mulh (w : Word) (h : w &&& 0xFE00707F#32 = 0x02001033#32) : decode false w = .unknown := by
  obtain ⟨g1, g2, g3⟩ := (and_maskR_iff _ _ (by decide)).mp h
  have h1 : bits w 31 25 = 1 := g1.trans (by decide)
  have h2 : bits w 14 12 = 1 := g2.trans (by decide)
  have h3 : bits w 6 0 = 51 := g3.trans (by decide)
  have e : bits w 1 0 = 3 := (bits_one_zero_of_opcode _).trans (congrArg (· % 4) h3)
  simp only [decode, e, decodeMajor, h3, h1, h2, decodeOp, decodeOpImm, decodeLoad, decodeStore, decodeBranch, decodeJalr, decodeMiscMem, decodeSystem, classRecord, Bool.false_eq_true, if_false]

theorem row_mulhsu (w : Word) (h : w &&& 0xFE00707F#32 = 0x02002033#32) : decode true w = .instr (.mulhsu (rdOf w) (rs1Of w) (rs2Of w)) := by
  obtain ⟨g1, g2, g3⟩ := (and_maskR_iff _ _ (by decide)).mp h
  have h1 : bits w 31 25 = 1 := g1.trans (by decide)
  have h2 : bits w 14 12 = 2 := g2.trans (by decide)
  have h3 : bits w 6 0 = 51 := g3.trans (by decide)
  have e : bits w 1 0 = 3 := (bits_one_zero_of_opcode _).trans (congrArg (· % 4) h3)
  simp only [decode, e, decodeMajor, h3, h1, h2, decodeOp, decodeOpImm, decodeLoad, decodeStore, decodeBranch, decodeJalr, decodeMiscMem, decodeSystem, classRecord, if_true]

theorem rowU_mulhsu (w : Word) (h : w &&& 0xFE00707F#32 = 0x02002033#32) : decode false w = .unknown := by
  obtain ⟨g1, g2, g3⟩ := (and_maskR_iff _ _ (by decide)).mp h
  have h1 : bits w 31 25 = 1 := g1.trans (by decide)
  have h2 : bits w 14 12 = 2 := g2.trans (by decide)
  have h3 : bits w 6 0 = 51 := g3.trans (by decide)
  have e : bits w 1 0 = 3 := (bits_one_zero_of_opcode _).trans (congrArg (· % 4) h3)
  simp only [decode, e, decodeMajor, h3, h1, h2, decodeOp, decodeOpImm, decodeLoad, decodeStore, decodeBranch, decodeJalr, decodeMiscMem, decodeSystem, classRecord, Bool.false_eq_true, if_false]

theorem row_mulhu (w : Word) (h : w &&& 0xFE00707F#32 = 0x02003033#32) : decode true w = .instr (.mulhu (rdOf w) (rs1Of w) (rs2Of w)) := by
  obtain ⟨g1, g2, g3⟩ := (and_maskR_iff _ _ (by decide)).mp h
  have h1 : bits w 31 25 = 1 := g1.trans (by decide)
  have h2 : bits w 14 12 = 3 := g2.trans (by decide)
  have h3 : bits w 6 0 = 51 := g3.trans (by decide)
  have e : bits w 1 0 = 3 := (bits_one_zero_of_opcode _).trans (congrArg (· % 4) h3)
  simp only [decode, e, decodeMajor, h3, h1, h2, decodeOp, decodeOpImm, decodeLoad, decodeStore, decodeBranch, decodeJalr, decodeMiscMem, decodeSystem, classRecord, if_true]

theorem rowU_mulhu (w : Word) (h : w &&& 0xFE00707F#32 = 0x02003033#32) : decode false w = .unknown := by
  obtain ⟨g1, g2, g3⟩ := (and_maskR_iff _ _ (by decide)).mp h
  have h1 : bits w 31 25 = 1 := g1.trans (by decide)
  have h2 : bits w 14 12 = 3 := g2.trans (by decide)
  have h3 : bits w 6 0 = 51 := g3.trans (by decide)
  have e : bits w 1 0 = 3 := (bits_one_zero_of_opcode _).trans (congrArg (· % 4) h3)
  simp only [decode, e, decodeMajor, h3, h1, h2, decodeOp, decodeOpImm, decodeLoad, decodeStore, decodeBranch, decodeJalr, decodeMiscMem, decodeSystem, classRecord, Bool.false_eq_true, if_false]

theorem row_div (m : Bool) (w : Word) (h : w &&& 0xFE00707F#32 = 0x02004033#32) : decode m w = .instr (.div (rdOf w) (rs1Of w) (rs2Of w)) := by
  obtain ⟨g1, g2, g3⟩ := (and_maskR_iff _ _ (by decide)).mp h
  have h1 : bits w 31 25 = 1 := g1.trans (by decide)
  have h2 : bits w 14 12 = 4 := g2.trans (by decide)
  have h3 : bits w 6 0 = 51 := g3.trans (by decide)
  have e : bits w 1 0 = 3 := (bits_one_zero_of_opcode _).trans (congrArg (· % 4) h3)
  simp only [decode, e, decodeMajor, h3, h1, h2, decodeOp, decodeOpImm, decodeLoad, decodeStore, decodeBranch, decodeJalr, decodeMiscMem, decodeSystem, classRecord, if_true]

theorem row_divu (w : Word) (h : w &&& 0xFE00707F#32 = 0x02005033#32) : decode true w = .instr (.divu (rdOf w) (rs1Of w) (rs2Of w)) := by
  obtain ⟨g1, g2, g3⟩ := (and_maskR_iff _ _ (by decide)).mp h
  have h1 : bits w 31 25 = 1 := g1.trans (by decide)
  have h2 : bits w 14 12 = 5 := g2.trans (by decide)
  have h3 : bits w 6 0 = 51 := g3.trans (by decide)
  have e : bits w 1 0 = 3 := (bits_one_zero_of_opcode _).trans (congrArg (· % 4) h3)
  simp only [decode, e, decodeMajor, h3, h1, h2, decodeOp, decodeOpImm, decodeLoad, decodeStore, decodeBranch, decodeJalr, decodeMiscMem, decodeSystem, classRecord, if_true]

theorem rowU_divu (w : Word) (h : w &&& 0xFE00707F#32 = 0x02005033#32) : decode false w = .unknown := by
  obtain ⟨g1, g2, g3⟩ := (and_maskR_iff _ _ (by decide)).mp h
  have h1 : bits w 31 25 = 1 := g1.trans (by decide)
  have h2 : bits w 14 12 = 5 := g2.trans (by decide)
  have h3 : bits w 6 0 = 51 := g3.trans (by decide)
  have e : bits w 1 0 = 3 := (bits_one_zero_of_opcode _).trans (congrArg (· % 4) h3)
  simp only [decode, e, decodeMajor, h3, h1, h2, decodeOp, decodeOpImm, decodeLoad, decodeStore, decodeBranch, decodeJalr, decodeMiscMem, decodeSystem, classRecord, Bool.false_eq_true, if_false]

theorem row_rem (w : Word) (h : w &&& 0xFE00707F#32 = 0x02006033#32) : decode true w = .instr (.rem (rdOf w) (rs1Of w) (rs2Of w)) := by
  obtain ⟨g1, g2, g3⟩ := (and_maskR_iff _ _ (by decide)).mp h
  have h1 : bits w 31 25 = 1 := g1.trans (by decide)
  have h2 : bits w 14 12 = 6 := g2.trans (by decide)
  have h3 : bits w 6 0 = 51 := g3.trans (by decide)
  have e : bits w 1 0 = 3 := (bits_one_zero_of_opcode _).trans (congrArg (· % 4) h3)
  simp only [decode, e, decodeMajor, h3, h1, h2, decodeOp, decodeOpImm, decodeLoad, decodeStore, decodeBranch, decodeJalr, decodeMiscMem, decodeSystem, classRecord, if_true]

theorem rowU_rem (w : Word) (h : w &&& 0xFE00707F#32 = 0x02006033#32) : decode false w = .unknown := by
  obtain ⟨g1, g2, g3⟩ := (and_maskR_iff _ _ (by decide)).mp h
  have h1 : bits w 31 25 = 1 := g1.trans (by decide)
  have h2 : bits w 14 12 = 6 := g2.trans (by decide)
  have h3 : bits w 6 0 = 51 := g3.trans (by decide)
  have e : bits w 1 0 = 3 := (bits_one_zero_of_opcode _).trans (congrArg (· % 4) h3)
  simp only [decode, e, decodeMajor, h3, h1, h2, decodeOp, decodeOpImm, decodeLoad, decodeStore, decodeBranch, decodeJalr, decodeMiscMem, decodeSystem, classRecord, Bool.false_eq_true, if_false]

theorem row_remu (w : Word) (h : w &&& 0xFE00707F#32 = 0x02007033#32) : decode true w = .instr (.remu (rdOf w) (rs1Of w) (rs2Of w)) := by
  obtain ⟨g1, g2, g3⟩ := (and_maskR_iff _ _ (by decide)).mp h
  have h1 : bits w 31 25 = 1 := g1.trans (by decide)
  have h2 : bits w 14 12 = 7 := g2.trans (by decide)
  have h3 : bits w 6 0 = 51 := g3.trans (by decide)
  have e : bits w 1 0 = 3 := (bits_one_zero_of_opcode _).trans (congrArg (· % 4) h3)
  simp only [decode, e, decodeMajor, h3, h1, h2, decodeOp, decodeOpImm, decodeLoad, decodeStore, decodeBranch, decodeJalr, decodeMiscMem, decodeSystem, classRecord, if_true]

theorem rowU_remu (w : Word) (h : w &&& 0xFE00707F#32 = 0x02007033#32) : decode false w = .unknown := by
  obtain ⟨g1, g2, g3⟩ := (and_maskR_iff _ _ (by decide)).mp h
  have h1 : bits w 31 25 = 1 := g1.trans (by decide)
  have h2 : bits w 14 12 = 7 := g2.trans (by decide)
  have h3 : bits w 6 0 = 51 := g3.trans (by decide)
  have e : bits w 1 0 = 3 := (bits_one_zero_of_opcode _).trans (congrArg (· % 4) h3)
  simp only [decode, e, decodeMajor, h3, h1, h2, decodeOp, decodeOpImm, decodeLoad, decodeStore, decodeBranch, decodeJalr, decodeMiscMem, decodeSystem, classRecord, Bool.false_eq_true, if_false]

theorem row_addi (m : Bool) (w : Word) (h : w &&& 0x0000707F#32 = 0x00000013#32) : decode m w = .instr (.addi (rdOf w) (rs1Of w) (immIOf w)) := by
  obtain ⟨g2, g3⟩ := (and_maskI_iff _ _ (by decide)).mp h
  have h2 : bits w 14 12 = 0 := g2.trans (by decide)
  have h3 : bits w 6 0 = 19 := g3.trans (by decide)
  have e : bits w 1 0 = 3 := (bits_one_zero_of_opcode _).trans (congrArg (· % 4) h3)
  simp only [decode, e, decodeMajor, h3, h2, decodeOp, decodeOpImm, decodeLoad, decodeStore, decodeBranch, decodeJalr, decodeMiscMem, decodeSystem, classRecord, if_true]

theorem row_slti (m : Bool) (w : Word) (h : w &&& 0x0000707F#32 = 0x00002013#32) : decode m w = .instr (.slti (rdOf w) (rs1Of w) (immIOf w)) := by
  obtain ⟨g2, g3⟩ := (and_maskI_iff _ _ (by decide)).mp h
  have h2 : bits w 14 12 = 2 := g2.trans (by decide)
  have h3 : bits w 6 0 = 19 := g3.trans (by decide)
  have e : bits w 1 0 = 3 := (bits_one_zero_of_opcode _).trans (congrArg (· % 4) h3)
  simp only [decode, e, decodeMajor, h3, h2, decodeOp, decodeOpImm, decodeLoad, decodeStore, decodeBranch, decodeJalr, decodeMiscMem, decodeSystem, classRecord, if_true]

theorem row_sltiu (m : Bool) (w : Word) (h : w &&& 0x0000707F#32 = 0x00003013#32) : decode m w = .instr (.sltiu (rdOf w) (rs1Of w) (immIOf w)) := by
  obtain ⟨g2, g3⟩ := (and_maskI_iff _ _ (by decide)).mp h
  have h2 : bits w 14 12 = 3 := g2.trans (by decide)
  have h3 : bits w 6 0 = 19 := g3.trans (by decide)
  have e : bits w 1 0 = 3 := (bits_one_zero_of_opcode _).trans (congrArg (· % 4) h3)
  simp only [decode, e, decodeMajor, h3, h2, decodeOp, decodeOpImm, decodeLoad, decodeStore, decodeBranch, decodeJalr, decodeMiscMem, decodeSystem, classRecord, if_true]

theorem row_xori (m : Bool) (w : Word) (h : w &&& 0x0000707F#32 = 0x00004013#32) : decode m w = .instr (.xori (rdOf w) (rs1Of w) (immIOf w)) := by
  obtain ⟨g2, g3⟩ := (and_maskI_iff _ _ (by decide)).mp h
  have h2 : bits w 14 12 = 4 := g2.trans (by decide)
  have h3 : bits w 6 0 = 19 := g3.trans (by decide)
  have e : bits w 1 0 = 3 := (bits_one_zero_of_opcode _).trans (congrArg (· % 4) h3)
  simp only [decode, e, decodeMajor, h3, h2, decodeOp, decodeOpImm, decodeLoad, decodeStore, decodeBranch, decodeJalr, decodeMiscMem, decodeSystem, classRecord, if_true]

theorem row_ori (m : Bool) (w : Word) (h : w &&& 0x0000707F#32 = 0x00006013#32) : decode m w = .instr (.ori (rdOf w) (rs1Of w) (immIOf w)) := by
  obtain ⟨g2, g3⟩ := (and_maskI_iff _ _ (by decide)).mp h
  have h2 : bits w 14 12 = 6 := g2.trans (by decide)
  have h3 : bits w 6 0 = 19 := g3.trans (by decide)
  have e : bits w 1 0 = 3 := (bits_one_zero_of_opcode _).trans (congrArg (· % 4) h3)
  simp only [decode, e, decodeMajor, h3, h2, decodeOp, decodeOpImm, decodeLoad, decodeStore, decodeBranch, decodeJalr, decodeMiscMem, decodeSystem, classRecord, if_true]

theorem row_andi (m : Bool) (w : Word) (h : w &&& 0x0000707F#32 = 0x00007013#32) : decode m w = .instr (.andi (rdOf w) (rs1Of w) (immIOf w)) := by
  obtain ⟨g2, g3⟩ := (and_maskI_iff _ _ (by decide)).mp h
  have h2 : bits w 14 12 = 7 := g2.trans (by decide)
  have h3 : bits w 6 0 = 19 := g3.trans (by decide)
  have e : bits w 1 0 = 3 := (bits_one_zero_of_opcode _).trans (congrArg (· % 4) h3)
  simp only [decode, e, decodeMajor, h3, h2, decodeOp, decodeOpImm, decodeLoad, decodeStore, decodeBranch, decodeJalr, decodeMiscMem, decodeSystem, classRecord, if_true]

theorem row_slli (m : Bool) (w : Word) (h : w &&& 0xFE00707F#32 = 0x00001013#32) : decode m w = .instr (.slli (rdOf w) (rs1Of w) (shamtOf w)) := by
  obtain ⟨g1, g2, g3⟩ := (and_maskR_iff _ _ (by decide)).mp h
  have h1 : bits w 31 25 = 0 := g1.trans (by decide)
  have h2 : bits w 14 12 = 1 := g2.trans (by decide)
  have h3 : bits w 6 0 = 19 := g3.trans (by decide)
  have e : bits w 1 0 = 3 := (bits_one_zero_of_opcode _).trans (congrArg (· % 4) h3)
  simp only [decode, e, decodeMajor, h3, h1, h2, decodeOp, decodeOpImm, decodeLoad, decodeStore, decodeBranch, decodeJalr, decodeMiscMem, decodeSystem, classRecord, if_true]

theorem row_srli (m : Bool) (w : Word) (h : w &&& 0xFE00707F#32 = 0x00005013#32) : decode m w = .instr (.srli (rdOf w) (rs1Of w) (shamtOf w)) := by
  obtain ⟨g1, g2, g3⟩ := (and_maskR_iff _ _ (by decide)).mp h
  have h1 : bits w 31 25 = 0 := g1.trans (by decide)
  have h2 : bits w 14 12 = 5 := g2.trans (by decide)
  have h3 : bits w 6 0 = 19 := g3.trans (by decide)
  have e : bits w 1 0 = 3 := (bits_one_zero_of_opcode _).trans (congrArg (· % 4) h3)
  simp only [decode, e, decodeMajor, h3, h1, h2, decodeOp, decodeOpImm, decodeLoad, decodeStore, decodeBranch, decodeJalr, decodeMiscMem, decodeSystem, classRecord, if_true]

theorem row_srai (m : Bool) (w : Word) (h : w &&& 0xFE00707F#32 = 0x40005013#32) : decode m w = .instr (.srai (rdOf w) (rs1Of w) (shamtOf w)) := by
  obtain ⟨g1, g2, g3⟩ := (and_maskR_iff _ _ (by decide)).mp h
  have h1 : bits w 31 25 = 32 := g1.trans (by decide)
  have h2 : bits w 14 12 = 5 := g2.trans (by decide)
  have h3 : bits w 6 0 = 19 := g3.trans (by decide)
  have e : bits w 1 0 = 3 := (bits_one_zero_of_opcode _).trans (congrArg (· % 4) h3)
  simp only [decode, e, decodeMajor, h3, h1, h2, decodeOp, decodeOpImm, decodeLoad, decodeStore, decodeBranch, decodeJalr, decodeMiscMem, decodeSystem, classRecord, if_true]

theorem row_lui (m : Bool) (w : Word) (h : w &&& 0x0000007F#32 = 0x00000037#32) : decode m w = .instr (.lui (rdOf w) (immUOf w)) := by
  have h3 : bits w 6 0 = 55 := ((and_maskU_iff _ _ (by decide)).mp h).trans (by decide)
  have e : bits w 1 0 = 3 := (bits_one_zero_of_opcode _).trans (congrArg (· % 4) h3)
  simp only [decode, e, decodeMajor, h3, decodeOp, decodeOpImm, decodeLoad, decodeStore, decodeBranch, decodeJalr, decodeMiscMem, decodeSystem, classRecord, if_true]

theorem row_auipc (m : Bool) (w : Word) (h : w &&& 0x0000007F#32 = 0x00000017#32) : decode m w = .instr (.auipc (rdOf w) (immUOf w)) := by
  have h3 : bits w 6 0 = 23 := ((and_maskU_iff _ _ (by decide)).mp h).trans (by decide)
  have e : bits w 1 0 = 3 := (bits_one_zero_of_opcode _).trans (congrArg (· % 4) h3)
  simp only [decode, e, decodeMajor, h3, decodeOp, decodeOpImm, decodeLoad, decodeStore, decodeBranch, decodeJalr, decodeMiscMem, decodeSystem, classRecord, if_true]

theorem row_jal (m : Bool) (w : Word) (h : w &&& 0x0000007F#32 = 0x0000006F#32) : decode m w = .instr (.jal (rdOf w) (immJOf w)) := by
  have h3 : bits w 6 0 = 111 := ((and_maskU_iff _ _ (by decide)).mp h).trans (by decide)
  have e : bits w 1 0 = 3 := (bits_one_zero_of_opcode _).trans (congrArg (· % 4) h3)
  simp only [decode, e, decodeMajor, h3, decodeOp, decodeOpImm, decodeLoad, decodeStore, decodeBranch, decodeJalr, decodeMiscMem, decodeSystem, classRecord, if_true]

theorem row_jalr (m : Bool) (w : Word) (h : w &&& 0x0000707F#32 = 0x00000067#32) : decode m w = .instr (.jalr (rdOf w) (rs1Of w) (immIOf w)) := by
  obtain ⟨g2, g3⟩ := (and_maskI_iff _ _ (by decide)).mp h
  have h2 : bits w 14 12 = 0 := g2.trans (by decide)
  have h3 : bits w 6 0 = 103 := g3.trans (by decide)
  have e : bits w 1 0 = 3 := (bits_one_zero_of_opcode _).trans (congrArg (· % 4) h3)
  simp only [decode, e, decodeMajor, h3, h2, decodeOp, decodeOpImm, decodeLoad, decodeStore, decodeBranch, decodeJalr, decodeMiscMem, decodeSystem, classRecord, if_true]

theorem row_lb (m : Bool) (w : Word) (h : w &&& 0x0000707F#32 = 0x00000003#32) : decode m w = .instr (.lb (rdOf w) (rs1Of w) (immIOf w)) := by
  obtain ⟨g2, g3⟩ := (and_maskI_iff _ _ (by decide)).mp h
  have h2 : bits w 14 12 = 0 := g2.trans (by decide)
  have h3 : bits w 6 0 = 3 := g3.trans (by decide)
  have e : bits w 1 0 = 3 := (bits_one_zero_of_opcode _).trans (congrArg (· % 4) h3)
  simp only [decode, e, decodeMajor, h3, h2, decodeOp, decodeOpImm, decodeLoad, decodeStore, decodeBranch, decodeJalr, decodeMiscMem, decodeSystem, classRecord, if_true]

theorem row_lh (m : Bool) (w : Word) (h : w &&& 0x0000707F#32 = 0x00001003#32) : decode m w = .instr (.lh (rdOf w) (rs1Of w) (immIOf w)) := by
  obtain ⟨g2, g3⟩ := (and_maskI_iff _ _ (by decide)).mp h
  have h2 : bits w 14 12 = 1 := g2.trans (by decide)
  have h3 : bits w 6 0 = 3 := g3.trans (by decide)
  have e : bits w 1 0 = 3 := (bits_one_zero_of_opcode _).trans (congrArg (· % 4) h3)
  simp only [decode, e, decodeMajor, h3, h2, decodeOp, decodeOpImm, decodeLoad, decodeStore, decodeBranch, decodeJalr, decodeMiscMem, decodeSystem, classRecord, if_true]

theorem row_lw (m : Bool) (w : Word) (h : w &&& 0x0000707F#32 = 0x00002003#32) : decode m w = .instr (.lw (rdOf w) (rs1Of w) (immIOf w)) := by
  obtain ⟨g2, g3⟩ := (and_maskI_iff _ _ (by decide)).mp h
  have h2 : bits w 14 12 = 2 := g2.trans (by decide)
  have h3 : bits w 6 0 = 3 := g3.trans (by decide)
  have e : bits w 1 0 = 3 := (bits_one_zero_of_opcode _).trans (congrArg (· % 4) h3)
  simp only [decode, e, decodeMajor, h3, h2, decodeOp, decodeOpImm, decodeLoad, decodeStore, decodeBranch, decodeJalr, decodeMiscMem, decodeSystem, classRecord, if_true]

theorem row_lbu (m : Bool) (w : Word) (h : w &&& 0x0000707F#32 = 0x00004003#32) : decode m w = .instr (.lbu (rdOf w) (rs1Of w) (immIOf w)) := by
  obtain ⟨g2, g3⟩ := (and_maskI_iff _ _ (by decide)).mp h
  have h2 : bits w 14 12 = 4 := g2.trans (by decide)
  have h3 : bits w 6 0 = 3 := g3.trans (by decide)
  have e : bits w 1 0 = 3 := (bits_one_zero_of_opcode _).trans (congrArg (· % 4) h3)
  simp only [decode, e, decodeMajor, h3, h2, decodeOp, decodeOpImm, decodeLoad, decodeStore, decodeBranch, decodeJalr, decodeMiscMem, decodeSystem, classRecord, if_true]

theorem row_lhu (m : Bool) (w : Word) (h : w &&& 0x0000707F#32 = 0x00005003#32) : decode m w = .instr (.lhu (rdOf w) (rs1Of w) (immIOf w)) := by
  obtain ⟨g2, g3⟩ := (and_maskI_iff _ _ (by decide)).mp h
  have h2 : bits w 14 12 = 5 := g2.trans (by decide)
  have h3 : bits w 6 0 = 3 := g3.trans (by decide)
  have e : bits w 1 0 = 3 := (bits_one_zero_of_opcode _).trans (congrArg (· % 4) h3)
  simp only [decode, e, decodeMajor, h3, h2, decodeOp, decodeOpImm, decodeLoad, decodeStore, decodeBranch, decodeJalr, decodeMiscMem, decodeSystem, classRecord, if_true]

theorem row_sb (m : Bool) (w : Word) (h : w &&& 0x0000707F#32 = 0x00000023#32) : decode m w = .instr (.sb (rs1Of w) (rs2Of w) (immSOf w)) := by
  obtain ⟨g2, g3⟩ := (and_maskI_iff _ _ (by decide)).mp h
  have h2 : bits w 14 12 = 0 := g2.trans (by decide)
  have h3 : bits w 6 0 = 35 := g3.trans (by decide)
  have e : bits w 1 0 = 3 := (bits_one_zero_of_opcode _).trans (congrArg (· % 4) h3)
  simp only [decode, e, decodeMajor, h3, h2, decodeOp, decodeOpImm, decodeLoad, decodeStore, decodeBranch, decodeJalr, decodeMiscMem, decodeSystem, classRecord, if_true]

theorem row_sh (m : Bool) (w : Word) (h : w &&& 0x0000707F#32 = 0x00001023#32) : decode m w = .instr (.sh (rs1Of w) (rs2Of w) (immSOf w)) := by
  obtain ⟨g2, g3⟩ := (and_maskI_iff _ _ (by decide)).mp h
  have h2 : bits w 14 12 = 1 := g2.trans (by decide)
  have h3 : bits w 6 0 = 35 := g3.trans (by decide)
  have e : bits w 1 0 = 3 := (bits_one_zero_of_opcode _).trans (congrArg (· % 4) h3)
  simp only [decode, e, decodeMajor, h3, h2, decodeOp, decodeOpImm, decodeLoad, decodeStore, decodeBranch, decodeJalr, decodeMiscMem, decodeSystem, classRecord, if_true]

theorem row_sw (m : Bool) (w : Word) (h : w &&& 0x0000707F#32 = 0x00002023#32) : decode m w = .instr (.sw (rs1Of w) (rs2Of w) (immSOf w)) := by
  obtain ⟨g2, g3⟩ := (and_maskI_iff _ _ (by decide)).mp h
  have h2 : bits w 14 12 = 2 := g2.trans (by decide)
  have h3 : bits w 6 0 = 35 := g3.trans (by decide)
  have e : bits w 1 0 = 3 := (bits_one_zero_of_opcode _).trans (congrArg (· % 4) h3)
  simp only [decode, e, decodeMajor, h3, h2, decodeOp, decodeOpImm, decodeLoad, decodeStore, decodeBranch, decodeJalr, decodeMiscMem, decodeSystem, classRecord, if_true]

theorem row_beq (m : Bool) (w : Word) (h : w &&& 0x0000707F#32 = 0x00000063#32) : decode m w = .instr (.beq (rs1Of w) (rs2Of w) (immBOf w)) := by
  obtain ⟨g2, g3⟩ := (and_maskI_iff _ _ (by decide)).mp h
  have h2 : bits w 14 12 = 0 := g2.trans (by decide)
  have h3 : bits w 6 0 = 99 := g3.trans (by decide)
  have e : bits w 1 0 = 3 := (bits_one_zero_of_opcode _).trans (congrArg (· % 4) h3)
  simp only [decode, e, decodeMajor, h3, h2, decodeOp, decodeOpImm, decodeLoad, decodeStore, decodeBranch, decodeJalr, decodeMiscMem, decodeSystem, classRecord, if_true]

theorem row_bne (m : Bool) (w : Word) (h : w &&& 0x0000707F#32 = 0x00001063#32) : decode m w = .instr (.bne (rs1Of w) (rs2Of w) (immBOf w)) := by
  obtain ⟨g2, g3⟩ := (and_maskI_iff _ _ (by decide)).mp h
  have h2 : bits w 14 12 = 1 := g2.trans (by decide)
  have h3 : bits w 6 0 = 99 := g3.trans (by decide)
  have e : bits w 1 0 = 3 := (bits_one_zero_of_opcode _).trans (congrArg (· % 4) h3)
  simp only [decode, e, decodeMajor, h3, h2, decodeOp, decodeOpImm, decodeLoad, decodeStore, decodeBranch, decodeJalr, decodeMiscMem, decodeSystem, classRecord, if_true]

theorem row_blt (m : Bool) (w : Word) (h : w &&& 0x0000707F#32 = 0x00004063#32) : decode m w = .instr (.blt (rs1Of w) (rs2Of w) (immBOf w)) := by
  obtain ⟨g2, g3⟩ := (and_maskI_iff _ _ (by decide)).mp h
  have h2 : bits w 14 12 = 4 := g2.trans (by decide)
  have h3 : bits w 6 0 = 99 := g3.trans (by decide)
  have e : bits w 1 0 = 3 := (bits_one_zero_of_opcode _).trans (congrArg (· % 4) h3)
  simp only [decode, e, decodeMajor, h3, h2, decodeOp, decodeOpImm, decodeLoad, decodeStore, decodeBranch, decodeJalr, decodeMiscMem, decodeSystem, classRecord, if_true]

theorem row_bge (m : Bool) (w : Word) (h : w &&& 0x0000707F#32 = 0x00005063#32) : decode m w = .instr (.bge (rs1Of w) (rs2Of w) (immBOf w)) := by
  obtain ⟨g2, g3⟩ := (and_maskI_iff _ _ (by decide)).mp h
  have h2 : bits w 14 12 = 5 := g2.trans (by decide)
  have h3 : bits w 6 0 = 99 := g3.trans (by decide)
  have e : bits w 1 0 = 3 := (bits_one_zero_of_opcode _).trans (congrArg (· % 4) h3)
  simp only [decode, e, decodeMajor, h3, h2, decodeOp, decodeOpImm, decodeLoad, decodeStore, decodeBranch, decodeJalr, decodeMiscMem, decodeSystem, classRecord, if_true]

theorem row_bltu (m : Bool) (w : Word) (h : w &&& 0x0000707F#32 = 0x00006063#32) : decode m w = .instr (.bltu (rs1Of w) (rs2Of w) (immBOf w)) := by
  obtain ⟨g2, g3⟩ := (and_maskI_iff _ _ (by decide)).mp h
  have h2 : bits w 14 12 = 6 := g2.trans (by decide)
  have h3 : bits w 6 0 = 99 := g3.trans (by decide)
  have e : bits w 1 0 = 3 := (bits_one_zero_of_opcode _).trans (congrArg (· % 4) h3)
  simp only [decode, e, decodeMajor, h3, h2, decodeOp, decodeOpImm, decodeLoad, decodeStore, decodeBranch, decodeJalr, decodeMiscMem, decodeSystem, classRecord, if_true]

theorem row_bgeu (m : Bool) (w : Word) (h : w &&& 0x0000707F#32 = 0x00007063#32) : decode m w = .instr (.bgeu (rs1Of w) (rs2Of w) (immBOf w)) := by
  obtain ⟨g2, g3⟩ := (and_maskI_iff _ _ (by decide)).mp h
  have h2 : bits w 14 12 = 7 := g2.trans (by decide)
  have h3 : bits w 6 0 = 99 := g3.trans (by decide)
  have e : bits w 1 0 = 3 := (bits_one_zero_of_opcode _).trans (congrArg (· % 4) h3)
  simp only [decode, e, decodeMajor, h3, h2, decodeOp, decodeOpImm, decodeLoad, decodeStore, decodeBranch, decodeJalr, decodeMiscMem, decodeSystem, classRecord, if_true]

theorem row_fence (m : Bool) (w : Word) (h : w &&& 0x0000707F#32 = 0x0000000F#32) : decode m w = .instr .fence := by
  obtain ⟨g2, g3⟩ := (and_maskI_iff _ _ (by decide)).mp h
  have h2 : bits w 14 12 = 0 := g2.trans (by decide)
  have h3 : bits w 6 0 = 15 := g3.trans (by decide)
  have e : bits w 1 0 = 3 := (bits_one_zero_of_opcode _).trans (congrArg (· % 4) h3)
  simp only [decode, e, decodeMajor, h3, h2, decodeOp, decodeOpImm, decodeLoad, decodeStore, decodeBranch, decodeJalr, decodeMiscMem, decodeSystem, classRecord, if_true]

theorem row_ecall (m : Bool) (w : Word) (h : w &&& 0xFFFFFFFF#32 = 0x00000073#32) : decode m w = .instr .ecall := by
  rw [show (0xFFFFFFFF#32 : Word) = BitVec.allOnes 32 from rfl, BitVec.and_allOnes] at h
  subst h; cases m <;> decide

theorem row_ebreak (m : Bool) (w : Word) (h : w &&& 0xFFFFFFFF#32 = 0x00100073#32) : decode m w = .instr .ebreak := by
  rw [show (0xFFFFFFFF#32 : Word) = BitVec.allOnes 32 from rfl, BitVec.and_allOnes] at h
  subst h; cases m <;> decide

theorem row_csrrw (m : Bool) (w : Word) (h : w &&& 0x0000707F#32 = 0x00001073#32) : decode m w = .instr (.csrrw (rdOf w) (csrOf w) (rs1Of w)) := by
  obtain ⟨g2, g3⟩ := (and_maskI_iff _ _ (by decide)).mp h
  have h2 : bits w 14 12 = 1 := g2.trans (by decide)
  have h3 : bits w 6 0 = 115 := g3.trans (by decide)
  have e : bits w 1 0 = 3 := (bits_one_zero_of_opcode _).trans (congrArg (· % 4) h3)
  simp only [decode, e, decodeMajor, h3, h2, decodeOp, decodeOpImm, decodeLoad, decodeStore, decodeBranch, decodeJalr, decodeMiscMem, decodeSystem, classRecord, if_true]

theorem row_csrrs (m : Bool) (w : Word) (h : w &&& 0x0000707F#32 = 0x00002073#32) : decode m w = .instr (.csrrs (rdOf w) (csrOf w) (rs1Of w)) := by
  obtain ⟨g2, g3⟩ := (and_maskI_iff _ _ (by decide)).mp h
  have h2 : bits w 14 12 = 2 := g2.trans (by decide)
  have h3 : bits w 6 0 = 115 := g3.trans (by decide)
  have e : bits w 1 0 = 3 := (bits_one_zero_of_opcode _).trans (congrArg (· % 4) h3)
  simp only [decode, e, decodeMajor, h3, h2, decodeOp, decodeOpImm, decodeLoad, decodeStore, decodeBranch, decodeJalr, decodeMiscMem, decodeSystem, classRecord, if_true]

theorem row_csrrc (m : Bool) (w : Word) (h : w &&& 0x0000707F#32 = 0x00003073#32) : decode m w = .instr (.csrrc (rdOf w) (csrOf w) (rs1Of w)) := by
  obtain ⟨g2, g3⟩ := (and_maskI_iff _ _ (by decide)).mp h
  have h2 : bits w 14 12 = 3 := g2.trans (by decide)
  have h3 : bits w 6 0 = 115 := g3.trans (by decide)
  have e : bits w 1 0 = 3 := (bits_one_zero_of_opcode _).trans (congrArg (· % 4) h3)
  simp only [decode, e, decodeMajor, h3, h2, decodeOp, decodeOpImm, decodeLoad, decodeStore, decodeBranch, decodeJalr, decodeMiscMem, decodeSystem, classRecord, if_true]

theorem row_csrrwi (m : Bool) (w : Word) (h : w &&& 0x0000707F#32 = 0x00005073#32) : decode m w = .instr (.csrrwi (rdOf w) (csrOf w) (uimmOf w)) := by
  obtain ⟨g2, g3⟩ := (and_maskI_iff _ _ (by decide)).mp h
  have h2 : bits w 14 12 = 5 := g2.trans (by decide)
  have h3 : bits w 6 0 = 115 := g3.trans (by decide)
  have e : bits w 1 0 = 3 := (bits_one_zero_of_opcode _).trans (congrArg (· % 4) h3)
  simp only [decode, e, decodeMajor, h3, h2, decodeOp, decodeOpImm, decodeLoad, decodeStore, decodeBranch, decodeJalr, decodeMiscMem, decodeSystem, classRecord, if_true]

theorem row_csrrsi (m : Bool) (w : Word) (h : w &&& 0x0000707F#32 = 0x00006073#32) : decode m w = .instr (.csrrsi (rdOf w) (csrOf w) (uimmOf w)) := by
  obtain ⟨g2, g3⟩ := (and_maskI_iff _ _ (by decide)).mp h
  have h2 : bits w 14 12 = 6 := g2.trans (by decide)
  have h3 : bits w 6 0 = 115 := g3.trans (by decide)
  have e : bits w 1 0 = 3 := (bits_one_zero_of_opcode _).trans (congrArg (· % 4) h3)
  simp only [decode, e, decodeMajor, h3, h2, decodeOp, decodeOpImm, decodeLoad, decodeStore, decodeBranch, decodeJalr, decodeMiscMem, decodeSystem, classRecord, if_true]

theorem row_csrrci (m : Bool) (w : Word) (h : w &&& 0x0000707F#32 = 0x00007073#32) : decode m w = .instr (.csrrci (rdOf w) (csrOf w) (uimmOf w)) := by
  obtain ⟨g2, g3⟩ := (and_maskI_iff _ _ (by decide)).mp h
  have h2 : bits w 14 12 = 7 := g2.trans (by decide)
  have h3 : bits w 6 0 = 115 := g3.trans (by decide)
  have e : bits w 1 0 = 3 := (bits_one_zero_of_opcode _).trans (congrArg (· % 4) h3)
  simp only [decode, e, decodeMajor, h3, h2, decodeOp, decodeOpImm, decodeLoad, decodeStore, decodeBranch, decodeJalr, decodeMiscMem, decodeSystem, classRecord, if_true]

theorem row_fpLoad (m : Bool) (w : Word) (h : w &&& 0x0000007F#32 = 0x00000007#32) : decode m w = .instr (.fpLoad (rdOf w) (rs1Of w) (rs2Of w) (rs3Of w) (rmOf w)) := by
  have h3 : bits w 6 0 = 7 := ((and_maskU_iff _ _ (by decide)).mp h).trans (by decide)
  have e : bits w 1 0 = 3 := (bits_one_zero_of_opcode _).trans (congrArg (· % 4) h3)
  simp only [decode, e, decodeMajor, h3, decodeOp, decodeOpImm, decodeLoad, decodeStore, decodeBranch, decodeJalr, decodeMiscMem, decodeSystem, classRecord, if_true]

theorem row_fpStore (m : Bool) (w : Word) (h : w &&& 0x0000007F#32 = 0x00000027#32) : decode m w = .instr (.fpStore (rdOf w) (rs1Of w) (rs2Of w) (rs3Of w) (rmOf w)) := by
  have h3 : bits w 6 0 = 39 := ((and_maskU_iff _ _ (by decide)).mp h).trans (by decide)
  have e : bits w 1 0 = 3 := (bits_one_zero_of_opcode _).trans (congrArg (· % 4) h3)
  simp only [decode, e, decodeMajor, h3, decodeOp, decodeOpImm, decodeLoad, decodeStore, decodeBranch, decodeJalr, decodeMiscMem, decodeSystem, classRecord, if_true]

theorem row_fpMadd (m : Bool) (w : Word) (h : w &&& 0x0000007F#32 = 0x00000043#32) : decode m w = .instr (.fpMadd (rdOf w) (rs1Of w) (rs2Of w) (rs3Of w) (rmOf w)) := by
  have h3 : bits w 6 0 = 67 := ((and_maskU_iff _ _ (by decide)).mp h).trans (by decide)
  have e : bits w 1 0 = 3 := (bits_one_zero_of_opcode _).trans (congrArg (· % 4) h3)
  simp only [decode, e, decodeMajor, h3, decodeOp, decodeOpImm, decodeLoad, decodeStore, decodeBranch, decodeJalr, decodeMiscMem, decodeSystem, classRecord, if_true]

theorem row_fpMsub (m : Bool) (w : Word) (h : w &&& 0x0000007F#32 = 0x00000047#32) : decode m w = .instr (.fpMsub (rdOf w) (rs1Of w) (rs2Of w) (rs3Of w) (rmOf w)) := by
  have h3 : bits w 6 0 = 71 := ((and_maskU_iff _ _ (by decide)).mp h).trans (by decide)
  have e : bits w 1 0 = 3 := (bits_one_zero_of_opcode _).trans (congrArg (· % 4) h3)
  simp only [decode, e, decodeMajor, h3, decodeOp, decodeOpImm, decodeLoad, decodeStore, decodeBranch, decodeJalr, decodeMiscMem, decodeSystem, classRecord, if_true]

theorem row_fpNmsub (m : Bool) (w : Word) (h : w &&& 0x0000007F#32 = 0x0000004B#32) : decode m w = .instr (.fpNmsub (rdOf w) (rs1Of w) (rs2Of w) (rs3Of w) (rmOf w)) := by
  have h3 : bits w 6 0 = 75 := ((and_maskU_iff _ _ (by decide)).mp h).trans (by decide)
  have e : bits w 1 0 = 3 := (bits_one_zero_of_opcode _).trans (congrArg (· % 4) h3)
  simp only [decode, e, decodeMajor, h3, decodeOp, decodeOpImm, decodeLoad, decodeStore, decodeBranch, decodeJalr, decodeMiscMem, decodeSystem, classRecord, if_true]

theorem row_fpNmadd (m : Bool) (w : Word) (h : w &&& 0x0000007F#32 = 0x0000004F#32) : decode m w = .instr (.fpNmadd (rdOf w) (rs1Of w) (rs2Of w) (rs3Of w) (rmOf w)) := by
  have h3 : bits w 6 0 = 79 := ((and_maskU_iff _ _ (by decide)).mp h).trans (by decide)
  have e : bits w 1 0 = 3 := (bits_one_zero_of_opcode _).trans (congrArg (· % 4) h3)
  simp only [decode, e, decodeMajor, h3, decodeOp, decodeOpImm, decodeLoad, decodeStore, decodeBranch, decodeJalr, decodeMiscMem, decodeSystem, classRecord, if_true]

theorem row_fpOp (m : Bool) (w : Word) (h : w &&& 0x0000007F#32 = 0x00000053#32) : decode m w = .instr (.fpOp (rdOf w) (rs1Of w) (rs2Of w) (rs3Of w) (rmOf w)) := by
  have h3 : bits w 6 0 = 83 := ((and_maskU_iff _ _ (by decide)).mp h).trans (by decide)
  have e : bits w 1 0 = 3 := (bits_one_zero_of_opcode _).trans (congrArg (· % 4) h3)
  simp only [decode, e, decodeMajor, h3, decodeOp, decodeOpImm, decodeLoad, decodeStore, decodeBranch, decodeJalr, decodeMiscMem, decodeSystem, classRecord, if_true]

theorem row_amo (m : Bool) (w : Word) (h : w &&& 0x0000007F#32 = 0x0000002F#32) : decode m w = .instr (.amo (rdOf w) (rs1Of w) (rs2Of w) (rs3Of w) (rmOf w)) := by
  have h3 : bits w 6 0 = 47 := ((and_maskU_iff _ _ (by decide)).mp h).trans (by decide)
  have e : bits w 1 0 = 3 := (bits_one_zero_of_opcode _).trans (congrArg (· % 4) h3)
  simp only [decode, e, decodeMajor, h3, decodeOp, decodeOpImm, decodeLoad, decodeStore, decodeBranch, decodeJalr, decodeMiscMem, decodeSystem, classRecord, if_true]

theorem row_compressed00 (m : Bool) (w : Word) (h : w &&& 0x00000003#32 = 0x00000000#32) : decode m w = .instr (.compressed00 (rdOf w) (rs1Of w) (rs2Of w) (rs3Of w) (rmOf w)) := by
  have h1 : bits w 1 0 = 0 := ((and_maskC_iff _ _ (by decide)).mp h).trans (by decide)
  simp only [decode, h1, classRecord]

theorem row_compressed01 (m : Bool) (w : Word) (h : w &&& 0x00000003#32 = 0x00000001#32) : decode m w = .instr (.compressed01 (rdOf w) (rs1Of w) (rs2Of w) (rs3Of w) (rmOf w)) := by
  have h1 : bits w 1 0 = 1 := ((and_maskC_iff _ _ (by decide)).mp h).trans (by decide)
  simp only [decode, h1, classRecord]

theorem row_compressed10 (m : Bool) (w : Word) (h : w &&& 0x00000003#32 = 0x00000002#32) : decode m w = .instr (.compressed10 (rdOf w) (rs1Of w) (rs2Of w) (rs3Of w) (rmOf w)) := by
  have h1 : bits w 1 0 = 2 := ((and_maskC_iff _ _ (by decide)).mp h).trans (by decide)
  simp only [decode, h1, classRecord]


/-- What holds of UNKNOWN and of the record of every row holds of every decoded word. -/
theorem decode_inv (m : Bool) (w : Word) (P : Decoded → Prop) (hu : P .unknown)
    (h_add : w &&& 0xFE00707F#32 = 0x00000033#32 → P (.instr (.add (rdOf w) (rs1Of w) (rs2Of w))))
    (h_sub : w &&& 0xFE00707F#32 = 0x40000033#32 → P (.instr (.sub (rdOf w) (rs1Of w) (rs2Of w))))
    (h_sll : w &&& 0xFE00707F#32 = 0x00001033#32 → P (.instr (.sll (rdOf w) (rs1Of w) (rs2Of w))))
    (h_slt : w &&& 0xFE00707F#32 = 0x00002033#32 → P (.instr (.slt (rdOf w) (rs1Of w) (rs2Of w))))
    (h_sltu : w &&& 0xFE00707F#32 = 0x00003033#32 → P (.instr (.sltu (rdOf w) (rs1Of w) (rs2Of w))))
    (h_xor : w &&& 0xFE00707F#32 = 0x00004033#32 → P (.instr (.xor (rdOf w) (rs1Of w) (rs2Of w))))
    (h_srl : w &&& 0xFE00707F#32 = 0x00005033#32 → P (.instr (.srl (rdOf w) (rs1Of w) (rs2Of w))))
    (h_sra : w &&& 0xFE00707F#32 = 0x40005033#32 → P (.instr (.sra (rdOf w) (rs1Of w) (rs2Of w))))
    (h_or : w &&& 0xFE00707F#32 = 0x00006033#32 → P (.instr (.or (rdOf w) (rs1Of w) (rs2Of w))))
    (h_and : w &&& 0xFE00707F#32 = 0x00007033#32 → P (.instr (.and (rdOf w) (rs1Of w) (rs2Of w))))
    (h_mul : w &&& 0xFE00707F#32 = 0x02000033#32 → P (.instr (.mul (rdOf w) (rs1Of w) (rs2Of w))))
    (h_mulh : m = true → w &&& 0xFE00707F#32 = 0x02001033#32 → P (.instr (.mulh (rdOf w) (rs1Of w) (rs2Of w))))
    (h_mulhsu : m = true → w &&& 0xFE00707F#32 = 0x02002033#32 → P (.instr (.mulhsu (rdOf w) (rs1Of w) (rs2Of w))))
    (h_mulhu : m = true → w &&& 0xFE00707F#32 = 0x02003033#32 → P (.instr (.mulhu (rdOf w) (rs1Of w) (rs2Of w))))
    (h_div : w &&& 0xFE00707F#32 = 0x02004033#32 → P (.instr (.div (rdOf w) (rs1Of w) (rs2Of w))))
    (h_divu : m = true → w &&& 0xFE00707F#32 = 0x02005033#32 → P (.instr (.divu (rdOf w) (rs1Of w) (rs2Of w))))
    (h_rem : m = true → w &&& 0xFE00707F#32 = 0x02006033#32 → P (.instr (.rem (rdOf w) (rs1Of w) (rs2Of w))))
    (h_remu : m = true → w &&& 0xFE00707F#32 = 0x02007033#32 → P (.instr (.remu (rdOf w) (rs1Of w) (rs2Of w))))
    (h_addi : w &&& 0x0000707F#32 = 0x00000013#32 → P (.instr (.addi (rdOf w) (rs1Of w) (immIOf w))))
    (h_slti : w &&& 0x0000707F#32 = 0x00002013#32 → P (.instr (.slti (rdOf w) (rs1Of w) (immIOf w))))
    (h_sltiu : w &&& 0x0000707F#32 = 0x00003013#32 → P (.instr (.sltiu (rdOf w) (rs1Of w) (immIOf w))))
    (h_xori : w &&& 0x0000707F#32 = 0x00004013#32 → P (.instr (.xori (rdOf w) (rs1Of w) (immIOf w))))
    (h_ori : w &&& 0x0000707F#32 = 0x00006013#32 → P (.instr (.ori (rdOf w) (rs1Of w) (immIOf w))))
    (h_andi : w &&& 0x0000707F#32 = 0x00007013#32 → P (.instr (.andi (rdOf w) (rs1Of w) (immIOf w))))
    (h_slli : w &&& 0xFE00707F#32 = 0x00001013#32 → P (.instr (.slli (rdOf w) (rs1Of w) (shamtOf w))))
    (h_srli : w &&& 0xFE00707F#32 = 0x00005013#32 → P (.instr (.srli (rdOf w) (rs1Of w) (shamtOf w))))
    (h_srai : w &&& 0xFE00707F#32 = 0x40005013#32 → P (.instr (.srai (rdOf w) (rs1Of w) (shamtOf w))))
    (h_lui : w &&& 0x0000007F#32 = 0x00000037#32 → P (.instr (.lui (rdOf w) (immUOf w))))
    (h_auipc : w &&& 0x0000007F#32 = 0x00000017#32 → P (.instr (.auipc (rdOf w) (immUOf w))))
    (h_jal : w &&& 0x0000007F#32 = 0x0000006F#32 → P (.instr (.jal (rdOf w) (immJOf w))))
    (h_jalr : w &&& 0x0000707F#32 = 0x00000067#32 → P (.instr (.jalr (rdOf w) (rs1Of w) (immIOf w))))
    (h_lb : w &&& 0x0000707F#32 = 0x00000003#32 → P (.instr (.lb (rdOf w) (rs1Of w) (immIOf w))))
    (h_lh : w &&& 0x0000707F#32 = 0x00001003#32 → P (.instr (.lh (rdOf w) (rs1Of w) (immIOf w))))
    (h_lw : w &&& 0x0000707F#32 = 0x00002003#32 → P (.instr (.lw (rdOf w) (rs1Of w) (immIOf w))))
    (h_lbu : w &&& 0x0000707F#32 = 0x00004003#32 → P (.instr (.lbu (rdOf w) (rs1Of w) (immIOf w))))
    (h_lhu : w &&& 0x0000707F#32 = 0x00005003#32 → P (.instr (.lhu (rdOf w) (rs1Of w) (immIOf w))))
    (h_sb : w &&& 0x0000707F#32 = 0x00000023#32 → P (.instr (.sb (rs1Of w) (rs2Of w) (immSOf w))))
    (h_sh : w &&& 0x0000707F#32 = 0x00001023#32 → P (.instr (.sh (rs1Of w) (rs2Of w) (immSOf w))))
    (h_sw : w &&& 0x0000707F#32 = 0x00002023#32 → P (.instr (.sw (rs1Of w) (rs2Of w) (immSOf w))))
    (h_beq : w &&& 0x0000707F#32 = 0x00000063#32 → P (.instr (.beq (rs1Of w) (rs2Of w) (immBOf w))))
    (h_bne : w &&& 0x0000707F#32 = 0x00001063#32 → P (.instr (.bne (rs1Of w) (rs2Of w) (immBOf w))))
    (h_blt : w &&& 0x0000707F#32 = 0x00004063#32 → P (.instr (.blt (rs1Of w) (rs2Of w) (immBOf w))))
    (h_bge : w &&& 0x0000707F#32 = 0x00005063#32 → P (.instr (.bge (rs1Of w) (rs2Of w) (immBOf w))))
    (h_bltu : w &&& 0x0000707F#32 = 0x00006063#32 → P (.instr (.bltu (rs1Of w) (rs2Of w) (immBOf w))))
    (h_bgeu : w &&& 0x0000707F#32 = 0x00007063#32 → P (.instr (.bgeu (rs1Of w) (rs2Of w) (immBOf w))))
    (h_fence : w &&& 0x0000707F#32 = 0x0000000F#32 → P (.instr .fence))
    (h_ecall : w &&& 0xFFFFFFFF#32 = 0x00000073#32 → P (.instr .ecall))
    (h_ebreak : w &&& 0xFFFFFFFF#32 = 0x00100073#32 → P (.instr .ebreak))
    (h_csrrw : w &&& 0x0000707F#32 = 0x00001073#32 → P (.instr (.csrrw (rdOf w) (csrOf w) (rs1Of w))))
    (h_csrrs : w &&& 0x0000707F#32 = 0x00002073#32 → P (.instr (.csrrs (rdOf w) (csrOf w) (rs1Of w))))
    (h_csrrc : w &&& 0x0000707F#32 = 0x00003073#32 → P (.instr (.csrrc (rdOf w) (csrOf w) (rs1Of w))))
    (h_csrrwi : w &&& 0x0000707F#32 = 0x00005073#32 → P (.instr (.csrrwi (rdOf w) (csrOf w) (uimmOf w))))
    (h_csrrsi : w &&& 0x0000707F#32 = 0x00006073#32 → P (.instr (.csrrsi (rdOf w) (csrOf w) (uimmOf w))))
    (h_csrrci : w &&& 0x0000707F#32 = 0x00007073#32 → P (.instr (.csrrci (rdOf w) (csrOf w) (uimmOf w))))
    (h_fpLoad : w &&& 0x0000007F#32 = 0x00000007#32 → P (.instr (.fpLoad (rdOf w) (rs1Of w) (rs2Of w) (rs3Of w) (rmOf w))))
    (h_fpStore : w &&& 0x0000007F#32 = 0x00000027#32 → P (.instr (.fpStore (rdOf w) (rs1Of w) (rs2Of w) (rs3Of w) (rmOf w))))
    (h_fpMadd : w &&& 0x0000007F#32 = 0x00000043#32 → P (.instr (.fpMadd (rdOf w) (rs1Of w) (rs2Of w) (rs3Of w) (rmOf w))))
    (h_fpMsub : w &&& 0x0000007F#32 = 0x00000047#32 → P (.instr (.fpMsub (rdOf w) (rs1Of w) (rs2Of w) (rs3Of w) (rmOf w))))
    (h_fpNmsub : w &&& 0x0000007F#32 = 0x0000004B#32 → P (.instr (.fpNmsub (rdOf w) (rs1Of w) (rs2Of w) (rs3Of w) (rmOf w))))
    (h_fpNmadd : w &&& 0x0000007F#32 = 0x0000004F#32 → P (.instr (.fpNmadd (rdOf w) (rs1Of w) (rs2Of w) (rs3Of w) (rmOf w))))
    (h_fpOp : w &&& 0x0000007F#32 = 0x00000053#32 → P (.instr (.fpOp (rdOf w) (rs1Of w) (rs2Of w) (rs3Of w) (rmOf w))))
    (h_amo : w &&& 0x0000007F#32 = 0x0000002F#32 → P (.instr (.amo (rdOf w) (rs1Of w) (rs2Of w) (rs3Of w) (rmOf w))))
    (h_compressed00 : w &&& 0x00000003#32 = 0x00000000#32 → P (.instr (.compressed00 (rdOf w) (rs1Of w) (rs2Of w) (rs3Of w) (rmOf w))))
    (h_compressed01 : w &&& 0x00000003#32 = 0x00000001#32 → P (.instr (.compressed01 (rdOf w) (rs1Of w) (rs2Of w) (rs3Of w) (rmOf w))))
    (h_compressed10 : w &&& 0x00000003#32 = 0x00000002#32 → P (.instr (.compressed10 (rdOf w) (rs1Of w) (rs2Of w) (rs3Of w) (rmOf w)))) : P (decode m w) := by
  have hR : ∀ p : Word, p &&& 0xFE00707F#32 = p → bits w 31 25 = bits p 31 25 → bits w 14 12 = bits p 14 12 → bits w 6 0 = bits p 6 0 →
      w &&& 0xFE00707F#32 = p := fun p hp a b c => (and_maskR_iff _ _ hp).mpr ⟨a, b, c⟩
  have hI : ∀ p : Word, p &&& 0x0000707F#32 = p → bits w 14 12 = bits p 14 12 → bits w 6 0 = bits p 6 0 →
      w &&& 0x0000707F#32 = p := fun p hp a b => (and_maskI_iff _ _ hp).mpr ⟨a, b⟩
  have hU : ∀ p : Word, p &&& 0x0000007F#32 = p → bits w 6 0 = bits p 6 0 →
      w &&& 0x0000007F#32 = p := fun p hp a => (and_maskU_iff _ _ hp).mpr a
  have hC : ∀ p : Word, p &&& 0x00000003#32 = p → bits w 1 0 = bits p 1 0 →
      w &&& 0x00000003#32 = p := fun p hp a => (and_maskC_iff _ _ hp).mpr a
  unfold decode
  split
  · exact h_compressed00 (hC _ (by decide) ‹_›)
  · exact h_compressed01 (hC _ (by decide) ‹_›)
  · exact h_compressed10 (hC _ (by decide) ‹_›)
  · unfold decodeMajor
    split
    · rename_i hop
      unfold decodeLoad
      split
      · exact h_lb (hI _ (by decide) ‹_› hop)
      · exact h_lh (hI _ (by decide) ‹_› hop)
      · exact h_lw (hI _ (by decide) ‹_› hop)
      · exact h_lbu (hI _ (by decide) ‹_› hop)
      · exact h_lhu (hI _ (by decide) ‹_› hop)
      · exact hu
    · exact h_fpLoad (hU _ (by decide) ‹_›)
    · rename_i hop
      unfold decodeMiscMem
      split
      · exact h_fence (hI _ (by decide) ‹_› hop)
      · exact hu
    · rename_i hop
      unfold decodeOpImm
      split
      · exact h_addi (hI _ (by decide) ‹_› hop)
      · exact h_slti (hI _ (by decide) ‹_› hop)
      · exact h_sltiu (hI _ (by decide) ‹_› hop)
      · exact h_xori (hI _ (by decide) ‹_› hop)
      · exact h_ori (hI _ (by decide) ‹_› hop)
      · exact h_andi (hI _ (by decide) ‹_› hop)
      · rename_i hf3
        split
        · exact h_slli (hR _ (by decide) ‹_› hf3 hop)
        · exact hu
      · rename_i hf3
        split
        · exact h_srli (hR _ (by decide) ‹_› hf3 hop)
        · exact h_srai (hR _ (by decide) ‹_› hf3 hop)
        · exact hu
      · exact hu
    · exact h_auipc (hU _ (by decide) ‹_›)
    · rename_i hop
      unfold decodeStore
      split
      · exact h_sb (hI _ (by decide) ‹_› hop)
      · exact h_sh (hI _ (by decide) ‹_› hop)
      · exact h_sw (hI _ (by decide) ‹_› hop)
      · exact hu
    · exact h_fpStore (hU _ (by decide) ‹_›)
    · exact h_amo (hU _ (by decide) ‹_›)
    · rename_i hop
      unfold decodeOp
      split
      · rename_i a b; exact h_add (hR _ (by decide) a b hop)
      · rename_i a b; exact h_sll (hR _ (by decide) a b hop)
      · rename_i a b; exact h_slt (hR _ (by decide) a b hop)
      · rename_i a b; exact h_sltu (hR _ (by decide) a b hop)
      · rename_i a b; exact h_xor (hR _ (by decide) a b hop)
      · rename_i a b; exact h_srl (hR _ (by decide) a b hop)
      · rename_i a b; exact h_or (hR _ (by decide) a b hop)
      · rename_i a b; exact h_and (hR _ (by decide) a b hop)
      · rename_i a b; exact h_sub (hR _ (by decide) a b hop)
      · rename_i a b; exact h_sra (hR _ (by decide) a b hop)
      · rename_i a b; exact h_mul (hR _ (by decide) a b hop)
      · rename_i a b
        split
        · exact h_mulh ‹_› (hR _ (by decide) a b hop)
        · exact hu
      · rename_i a b
        split
        · exact h_mulhsu ‹_› (hR _ (by decide) a b hop)
        · exact hu
      · rename_i a b
        split
        · exact h_mulhu ‹_› (hR _ (by decide) a b hop)
        · exact hu
      · rename_i a b; exact h_div (hR _ (by decide) a b hop)
      · rename_i a b
        split
        · exact h_divu ‹_› (hR _ (by decide) a b hop)
        · exact hu
      · rename_i a b
        split
        · exact h_rem ‹_› (hR _ (by decide) a b hop)
        · exact hu
      · rename_i a b
        split
        · exact h_remu ‹_› (hR _ (by decide) a b hop)
        · exact hu
      · exact hu
    · exact h_lui (hU _ (by decide) ‹_›)
    · exact h_fpMadd (hU _ (by decide) ‹_›)
    · exact h_fpMsub (hU _ (by decide) ‹_›)
    · exact h_fpNmsub (hU _ (by decide) ‹_›)
    · exact h_fpNmadd (hU _ (by decide) ‹_›)
    · exact h_fpOp (hU _ (by decide) ‹_›)
    · rename_i hop
      unfold decodeBranch
      split
      · exact h_beq (hI _ (by decide) ‹_› hop)
      · exact h_bne (hI _ (by decide) ‹_› hop)
      · exact h_blt (hI _ (by decide) ‹_› hop)
      · exact h_bge (hI _ (by decide) ‹_› hop)
      · exact h_bltu (hI _ (by decide) ‹_› hop)
      · exact h_bgeu (hI _ (by decide) ‹_› hop)
      · exact hu
    · rename_i hop
      unfold decodeJalr
      split
      · exact h_jalr (hI _ (by decide) ‹_› hop)
      · exact hu
    · exact h_jal (hU _ (by decide) ‹_›)
    · rename_i hop
      unfold decodeSystem
      split
      · split
        · exact h_ecall (by rw [show (0xFFFFFFFF#32 : Word) = BitVec.allOnes 32 from rfl, BitVec.and_allOnes]; assumption)
        · split
          · exact h_ebreak (by rw [show (0xFFFFFFFF#32 : Word) = BitVec.allOnes 32 from rfl, BitVec.and_allOnes]; assumption)
          · exact hu
      · exact h_csrrw (hI _ (by decide) ‹_› hop)
      · exact h_csrrs (hI _ (by decide) ‹_› hop)
      · exact h_csrrc (hI _ (by decide) ‹_› hop)
      · exact h_csrrwi (hI _ (by decide) ‹_› hop)
      · exact h_csrrsi (hI _ (by decide) ‹_› hop)
      · exact h_csrrci (hI _ (by decide) ‹_› hop)
      · exact hu
    · exact hu

end Sys2Proof
end

