-- ==== Sys2Proof/Laws/Runs.lean ====
section
/-! SUPPORT. The case analysis of a step, and what fetching and the one memory access of an instruction keep. -/

namespace Sys2Proof.Machine

/-- A load keeps the invariant of the Memory component. -/
theorem Mem.load_done_inv {tb : Nat} {m m' : Mem} {wd : Width} {a v : Word} (h : m.Inv tb)
    (e : m.load tb wd a = .done v m') : m'.Inv tb := by
  have ha := Mem.load_done_aligned e
  rcases hw : walk m.level1 a with _ | p
  · rw [Mem.load_unmapped h ha hw] at e; simp at e
  · obtain ⟨m1, e1, hi, _⟩ := Mem.load_mapped h ha hw
    rw [e1] at e
    simp only [Access.done.injEq] at e
    rw [← e.2]; exact hi

/-- A store keeps the invariant of the Memory component. -/
theorem Mem.store_inv {tb : Nat} {m m' : Mem} {wd : Width} {a v : Word} (h : m.Inv tb)
    (e : m.store tb wd a v = some m') : m'.Inv tb := by
  by_cases ha : aligned wd a = true
  · obtain ⟨m1, e1, hi, _⟩ := Mem.store_aligned h ha v
    rw [e1] at e
    simp only [Option.some.injEq] at e
    rw [← e]; exact hi
  · simp only [Bool.not_eq_true] at ha
    rw [Mem.store_misaligned ha] at e; simp at e

/-- The one access of an instruction keeps the invariant of the Memory component. -/
theorem MemEffect.inv {i : Instr} {s u : State} (h : s.mem.Inv s.params.tlbBits) (e : MemEffect i s u) :
    u.mem.Inv s.params.tlbBits := by
  rcases e with ⟨_, h1⟩ | ⟨_, _, wd, a, v, h1⟩ | ⟨_, wd, a, v, _, h1⟩
  · rw [h1]; exact h
  · exact Mem.load_done_inv h h1
  · exact Mem.store_inv h h1

/-- The one access of an instruction keeps every mapping and gives back no page. -/
theorem MemEffect.keeps {i : Instr} {s u : State} (e : MemEffect i s u) :
    (∀ a p, walk s.mem.level1 a = some p → walk u.mem.level1 a = some p) ∧ s.mem.pageCount ≤ u.mem.pageCount := by
  rcases e with ⟨_, h1⟩ | ⟨_, _, wd, a, v, h1⟩ | ⟨_, wd, a, v, _, h1⟩
  · rw [h1]; exact ⟨fun _ _ h => h, Nat.le_refl _⟩
  · have := (Mem.load_done_same h1).1
    rw [this.level1, this.pageCount]; exact ⟨fun _ _ h => h, Nat.le_refl _⟩
  · exact Mem.store_keeps h1

/-- The inversion lemma of `step`: what a step that answers next did. -/
theorem step_cases {s t : State} (h : step s = .next t) :
    ∃ i u w, fetch s = .ready (.instr i) u ∧ FetchCase s (.instr i) u ∧ s.status = .running ∧ exec i u = .next (retired i.opType w) ∧
      Effect i u w ∧ t = endIteration (retired i.opType w) := by
  obtain ⟨d, u, v, hf, he, ht⟩ := step_next h
  rcases d with i | _
  · obtain ⟨w, rfl, hw⟩ := exec_next he
    exact ⟨i, u, w, hf, (fetch_ready hf).2, (fetch_ready hf).1, he, hw, ht⟩
  · simp [execDecoded, execUnknown] at he

/-- What the state in which a fetched instruction executes is, from a state with the invariant. -/
theorem fetch_inv {s u : State} {d : Decoded} (hs : s.Inv) (hf : fetch s = .ready d u) :
    u.params = s.params ∧ u.mem.Inv s.params.tlbBits ∧ u.regs = s.regs ∧ u.csrs = s.csrs ∧ u.pc = s.pc ∧
      u.npc = s.npc ∧ u.icount = s.icount ∧
      u.branchIsTaken = false ∧ u.complete = false ∧ u.status = .running ∧ risingKeys u.blocks ∧
      (∀ e ∈ u.blocks, e.1 < 2 ^ 32 ∧ e.1 % 4 = 0 ∧ endsAtBranch e.2 = true) ∧
      endsAtBranch (d :: u.pending) = true ∧
      ∃ e ∈ u.blocks, ∃ k, k < e.2.length ∧ d :: u.pending = e.2.drop k ∧ s.pc = BitVec.ofNat 32 (e.1 + 4 * k) := by
  obtain ⟨hst, hc⟩ := fetch_ready hf
  have hcomp : s.complete = false := by
    by_contra h
    have := hs.haltedIffEnded.mpr (by simpa using h)
    rw [this] at hst; simp at hst
  have drop_ends : ∀ (b : List Decoded) k d rest, endsAtBranch b = true → b.drop k = d :: rest → endsAtBranch (d :: rest) = true := by
    intro b
    induction b with
    | nil => intro k d rest h; simp [endsAtBranch] at h
    | cons x xs ih =>
      intro k d rest h hd
      rcases k with _ | k
      · simp only [List.drop_zero] at hd; rw [← hd]; exact h
      · simp only [List.drop_succ_cons] at hd
        rcases xs with _ | ⟨y, ys⟩
        · simp at hd
        · simp only [endsAtBranch, Bool.and_eq_true] at h
          exact ih k d rest h.2 hd
  rcases hc with ⟨rest, hp, hu⟩ | ⟨rest, hp, hcm, hl, hu⟩ | ⟨rest, m, hp, hcm, hn, hb, hu⟩
  · subst hu
    obtain ⟨e, he, k, hk, h1, h2⟩ := hs.pendingInBlock (by rw [hp]; simp)
    rw [hp] at h1
    exact ⟨rfl, hs.memory, rfl, rfl, rfl, rfl, rfl, hs.flagClear, hcomp, hst, hs.blocksCanonical, hs.blocksWellFormed,
      drop_ends _ _ _ _ (hs.blocksWellFormed e he).2.2 h1.symm, e, he, k, hk, h1, h2⟩
  · subst hu
    have hm := mem_of_lookupKey hl
    refine ⟨rfl, hs.memory, rfl, rfl, rfl, rfl, rfl, hs.flagClear, hcomp, hst, hs.blocksCanonical, hs.blocksWellFormed,
      (hs.blocksWellFormed _ hm).2.2, _, hm, 0, by simp, rfl, ?_⟩
    simp
  · subst hu
    obtain ⟨h1, h2, h3, h4⟩ := buildFrom_block hs.memory hb
    have hnew : (s.pc.toNat, d :: rest) ∈ insertKey s.pc.toNat (d :: rest) s.blocks :=
      mem_of_lookupKey (by simp)
    refine ⟨rfl, h1, rfl, rfl, rfl, rfl, rfl, hs.flagClear, hcomp, hst, risingKeys_insertKey hs.blocksCanonical, ?_, h3,
      _, hnew, 0, by simp, rfl, by simp⟩
    intro e he
    rcases mem_insertKey he with rfl | he
    · refine ⟨s.pc.isLt, ?_, h3⟩
      simpa [Width.bytes] using (aligned_iff .word s.pc).mp h2
    · exact hs.blocksWellFormed e he

/-- Any memory that meets the invariant, in a hart as construction leaves it, makes a state that meets the invariant. -/
theorem initial_inv (p : Params) (e : Word) (m : Mem) (hp : p.wf) (hm : m.Inv p.tlbBits) :
    ((State.initial p e).withMem m).Inv where
  params := hp
  memory := hm
  zeroRegister := by simp [State.initial]
  csrFile := Csrs.Canonical.zero
  flagClear := rfl
  haltedIffEnded := by simp [State.initial]
  endedAtBoundary := fun _ => rfl
  blocksCanonical := by simp [State.initial]
  blocksWellFormed := by simp [State.initial]
  pendingInBlock := fun h => absurd rfl h

/-- Writing a register keeps the invariant. -/
theorem State.Inv.writeReg {s : State} (h : s.Inv) (r : RegIdx) (v : Word) : (writeReg s r v).Inv where
  params := by simpa using h.params
  memory := by simpa using h.memory
  zeroRegister := by rw [writeReg_regs_zero]; exact h.zeroRegister
  csrFile := by simpa using h.csrFile
  flagClear := by simpa using h.flagClear
  haltedIffEnded := by simpa using h.haltedIffEnded
  endedAtBoundary := by simpa using h.endedAtBoundary
  blocksCanonical := by simpa using h.blocksCanonical
  blocksWellFormed := by simpa using h.blocksWellFormed
  pendingInBlock := by simpa using h.pendingInBlock

end Sys2Proof.Machine
end

