-- ==== Sys2Proof/Machine/Observer.lean ====
section
/-! DEFINITION. The observer of spec/10_state.md rule R66 (d) and spec/40_executor_dispatch.md rule R199: what it is given.
It changes nothing, so it is a view of a step and no part of one (log entry 14). -/

namespace Sys2Proof.Machine

/-- What the observer is called with by the step from `s`: the instruction and the state after step 4 of `execute`.  It is
not called for an instruction that faulted, nor when there is no step (R199). -/
def observed (s : State) : Option (Decoded × State) :=
  match fetch s with
  | .ready d u =>
    match execDecoded d u with
    | .next t => some (d, t)
    | .fault _ => none
    | .refused _ => none
  | .fault _ => none
  | .noStep _ => none

end Sys2Proof.Machine
end

