-- ==== Sys2Proof/Tests/Slice0.lean ====
section
/-! SUPPORT. The author's own tests: ill-formed terms that WellFormed refuses, words written out from the spec's encodings,
single steps with results taken from spec/95_test_vectors.md (named V-...) or from a rule's example, and for every
obligation with hypotheses a concrete state and operands that meet them. -/

namespace Sys2Proof.Tests

open Sys2Proof Sys2Proof.Machine

/-! ## WellFormed refuses one ill-formed term for each check -/

theorem test_wellFormed_immI_high : WellFormed true (.addi 1#5 2#5 2048#32) = false := by decide
theorem test_wellFormed_immI_low : WellFormed true (.lw 1#5 2#5 0xFFFFF7FF#32) = false := by decide
theorem test_wellFormed_immS_high : WellFormed true (.sw 1#5 2#5 2048#32) = false := by decide
theorem test_wellFormed_immB_odd : WellFormed true (.beq 1#5 2#5 3#32) = false := by decide
theorem test_wellFormed_immB_high : WellFormed true (.bne 1#5 2#5 4096#32) = false := by decide
theorem test_wellFormed_immJ_odd : WellFormed true (.jal 1#5 1#32) = false := by decide
theorem test_wellFormed_immJ_high : WellFormed true (.jal 1#5 0x00100000#32) = false := by decide
theorem test_wellFormed_immU : WellFormed true (.lui 1#5 0xABCDE001#32) = false := by decide
theorem test_wellFormed_shamt : WellFormed true (.slli 1#5 2#5 32#32) = false := by decide
theorem test_wellFormed_uimm : WellFormed true (.csrrwi 1#5 0x340#12 32#32) = false := by decide
theorem test_wellFormed_mFull : WellFormed false (.mulh 1#5 2#5 3#5) = false := by decide
theorem test_wellFormed_accepts : WellFormed true (.jal 1#5 0xFFF00000#32) = true := by decide

/-! ## Decoding: every constructor, from a word of a rule's example or of the decode vectors V-D -/

theorem test_decode_op :
    [0x002080B3#32, 0x402081B3#32, 0x007312B3#32, 0x00C5A533#32, 0x00C5B533#32].map (decode true) =
      [.instr (.add 1#5 1#5 2#5), .instr (.sub 3#5 1#5 2#5), .instr (.sll 5#5 6#5 7#5), .instr (.slt 10#5 11#5 12#5),
       .instr (.sltu 10#5 11#5 12#5)] ∧
    [0x007342B3#32, 0x007352B3#32, 0x407352B3#32, 0x007362B3#32, 0x007372B3#32].map (decode true) =
      [.instr (.xor 5#5 6#5 7#5), .instr (.srl 5#5 6#5 7#5), .instr (.sra 5#5 6#5 7#5), .instr (.or 5#5 6#5 7#5),
       .instr (.and 5#5 6#5 7#5)] := by decide

theorem test_decode_opImm :
    [0x006A0593#32, 0x80032293#32, 0xFFF33293#32, 0xFFF34293#32, 0x7FF36293#32, 0x0FF37293#32].map (decode true) =
      [.instr (.addi 11#5 20#5 6#32), .instr (.slti 5#5 6#5 0xFFFFF800#32), .instr (.sltiu 5#5 6#5 0xFFFFFFFF#32),
       .instr (.xori 5#5 6#5 0xFFFFFFFF#32), .instr (.ori 5#5 6#5 0x7FF#32), .instr (.andi 5#5 6#5 0xFF#32)] ∧
    [0x01F31293#32, 0x00435293#32, 0x41F35293#32, 0xABCDE2B7#32, 0x00001297#32].map (decode true) =
      [.instr (.slli 5#5 6#5 31#32), .instr (.srli 5#5 6#5 4#32), .instr (.srai 5#5 6#5 31#32),
       .instr (.lui 5#5 0xABCDE000#32), .instr (.auipc 5#5 0x1000#32)] := by decide

theorem test_decode_load_store :
    [0xFFF00283#32, 0x00231283#32, 0x00032283#32, 0x00334283#32, 0x00235283#32].map (decode true) =
      [.instr (.lb 5#5 0#5 0xFFFFFFFF#32), .instr (.lh 5#5 6#5 2#32), .instr (.lw 5#5 6#5 0#32),
       .instr (.lbu 5#5 6#5 3#32), .instr (.lhu 5#5 6#5 2#32)] ∧
    [0x80000023#32, 0x00731123#32, 0xFE712E23#32, 0x7E732E23#32].map (decode true) =
      [.instr (.sb 0#5 0#5 0xFFFFF800#32), .instr (.sh 6#5 7#5 2#32), .instr (.sw 2#5 7#5 0xFFFFFFFC#32),
       .instr (.sw 6#5 7#5 0x7FC#32)] := by decide

theorem test_decode_branch :
    [0x00000AE3#32, 0xFE209CE3#32, 0x0020C863#32, 0x8020D063#32, 0x7E20EFE3#32, 0x0020F663#32].map (decode true) =
      [.instr (.beq 0#5 0#5 2068#32), .instr (.bne 1#5 2#5 0xFFFFFFF8#32), .instr (.blt 1#5 2#5 16#32),
       .instr (.bge 1#5 2#5 0xFFFFF000#32), .instr (.bltu 1#5 2#5 4094#32), .instr (.bgeu 1#5 2#5 12#32)] := by decide

theorem test_decode_jump :
    [0x001000EF#32, 0xFF1FF06F#32, 0x800000EF#32, 0x7FFFF0EF#32, 0x000010EF#32, 0xFFE280E7#32].map (decode true) =
      [.instr (.jal 1#5 2048#32), .instr (.jal 0#5 0xFFFFFFF0#32), .instr (.jal 1#5 0xFFF00000#32),
       .instr (.jal 1#5 0x000FFFFE#32), .instr (.jal 1#5 4096#32), .instr (.jalr 1#5 5#5 0xFFFFFFFE#32)] := by decide

theorem test_decode_system :
    [0x00000073#32, 0x00100073#32, 0x0FF0000F#32, 0x8330000F#32].map (decode true) =
      [.instr .ecall, .instr .ebreak, .instr .fence, .instr .fence] ∧
    [0x340312F3#32, 0xC02022F3#32, 0x340332F3#32, 0x340FD2F3#32, 0xC010E073#32, 0xFFF07073#32].map (decode true) =
      [.instr (.csrrw 5#5 0x340#12 6#5), .instr (.csrrs 5#5 0xC02#12 0#5), .instr (.csrrc 5#5 0x340#12 6#5),
       .instr (.csrrwi 5#5 0x340#12 31#32), .instr (.csrrsi 0#5 0xC01#12 1#32),
       .instr (.csrrci 0#5 0xFFF#12 0#32)] := by decide

theorem test_decode_mulDiv :
    [0x027302B3#32, 0x027312B3#32, 0x027322B3#32, 0x027332B3#32].map (decode true) =
      [.instr (.mul 5#5 6#5 7#5), .instr (.mulh 5#5 6#5 7#5), .instr (.mulhsu 5#5 6#5 7#5),
       .instr (.mulhu 5#5 6#5 7#5)] ∧
    [0x027342B3#32, 0x027352B3#32, 0x027362B3#32, 0x027372B3#32].map (decode true) =
      [.instr (.div 5#5 6#5 7#5), .instr (.divu 5#5 6#5 7#5), .instr (.rem 5#5 6#5 7#5),
       .instr (.remu 5#5 6#5 7#5)] ∧
    [0x027312B3#32, 0x027372B3#32, 0x027342B3#32].map (decode false) =
      [.unknown, .unknown, .instr (.div 5#5 6#5 7#5)] := by decide

theorem test_decode_classes :
    [0x00012087#32, 0x00112027#32, 0x2A3130C3#32, 0x003100D3#32, 0x0863A2AF#32].map (decode true) =
      [.instr (.fpLoad 1#5 2#5 0#5 0#5 2#3), .instr (.fpStore 0#5 2#5 1#5 0#5 2#3),
       .instr (.fpMadd 1#5 2#5 3#5 5#5 3#3), .instr (.fpOp 1#5 2#5 3#5 0#5 0#3),
       .instr (.amo 5#5 7#5 6#5 1#5 2#3)] ∧
    [0x00000047#32, 0x0000004B#32, 0x0000004F#32].map (decode true) =
      [.instr (.fpMsub 0#5 0#5 0#5 0#5 0#3), .instr (.fpNmsub 0#5 0#5 0#5 0#5 0#3),
       .instr (.fpNmadd 0#5 0#5 0#5 0#5 0#3)] ∧
    [0x00000000#32, 0x00004501#32, 0x00010002#32].map (decode true) =
      [.instr (.compressed00 0#5 0#5 0#5 0#5 0#3), .instr (.compressed01 10#5 0#5 0#5 0#5 4#3),
       .instr (.compressed10 0#5 2#5 0#5 0#5 0#3)] := by decide

/-- V-D51 to V-D74: words of no row. -/
theorem test_decode_unknown :
    ([0xFFFFFFFF#32, 0x0000100F#32, 0x30200073#32, 0x00200073#32, 0x00000173#32, 0x00008073#32, 0x00004073#32,
      0x02001013#32, 0x40001013#32, 0x20005013#32, 0x40001033#32, 0x04000033#32].all
        fun w => decode true w == .unknown) = true ∧
    ([0x00003003#32, 0x00006003#32, 0x00007003#32, 0x00003023#32, 0x00002063#32, 0x00003063#32, 0x00001067#32,
      0x0000001B#32, 0x0000003B#32, 0x0000000B#32, 0x00000057#32, 0x0000007F#32].all
        fun w => decode true w == .unknown) = true := by decide

/-- V-D46 and V-D29: the record of R150, field by field. -/
theorem test_record :
    (decode true 0x2A3100C3#32).record =
      { opType := .fpMadd, rd := 1#5, rs1 := 2#5, rs2 := 3#5, rs3 := 5#5, rm := 0#3, csr := 0#12, imm := 0#32,
        isBranch := false } ∧
    (decode true 0xC02022F3#32).record =
      { opType := .csrrs, rd := 5#5, rs1 := 0#5, rs2 := 0#5, rs3 := 0#5, rm := 0#3, csr := 0xC02#12, imm := 0xC02#32,
        isBranch := false } := by decide

/-- Four bytes, the lowest address first (R96): V-D1 with one byte after it, and a truncated word. -/
theorem test_decodeBytes :
    decodeBytes true [0x93#8, 0x05#8, 0x6A#8, 0x00#8, 0x77#8] = .ok (.addi 11#5 20#5 6#32, [0x77#8]) ∧
    decodeBytes true [0x93#8, 0x05#8, 0x6A#8] = .error .truncated := by decide

/-- R176: the two-word forms of `li`; the third constant has low bits 0. -/
theorem test_li :
    (Pseudo.li 7#5 0xAABBCCDD#32).expand = [.lui 7#5 0xAABBD000#32, .addi 7#5 7#5 0xFFFFFCDD#32] ∧
    (Pseudo.li 7#5 0xFFFFF800#32).expand = [.addi 7#5 0#5 0xFFFFF800#32] ∧
    (Pseudo.li 7#5 0x00002000#32).expand = [.lui 7#5 0x00002000#32] := by decide

/-! ## Single steps -/

/-- The reset state with another pc, registers, CSRs and words in memory. -/
def machine (pc : Word) (xs : List (RegIdx × Word)) (cs : List (CsrIdx × Word)) (ms : List (Word × Word)) : State :=
  let s := xs.foldl (fun s x => writeReg s x.1 x.2) (State.reset.withPc pc)
  let s := cs.foldl (fun s c => writeCsr s c.1 c.2) s
  s.withMem (ms.foldl (fun m c => m.pokeWord c.1 c.2) s.mem)

/-- What `f` reads from the state after the step that runs the word `w`, if that step answers next. -/
def runs {α : Type} (s : State) (w : Nat) (f : State → α) : Option α :=
  match step (s.withFetchWord 32 w) with
  | .next t => some (f t)
  | _ => none

/-- The kind, the address and the pc left of the fault that ends the step that runs the word `w`. -/
def stops (s : State) (w : Nat) : Option (FaultKind × Option Word × Word) :=
  match step (s.withFetchWord 32 w) with
  | .fault f => some (f.kind, f.addr, f.left.pc)
  | _ => none

/-- The memory of sections 3.3 and 3.4 of the test vectors. -/
def data : List (Word × Word) := [(0x2000#32, 0x8899AABB#32), (0x2004#32, 0x00000080#32)]

/-! ### Register-register instructions (R210 to R219) -/

/-- V-R1: `add x5, x6, x7`. -/
theorem test_add_wraps :
    runs (machine 0x1000#32 [(6#5, 0x7FFFFFFF#32), (7#5, 0x00000001#32)] [] [])
      0x007302B3 (fun t => (readReg t 5#5, t.pc)) =
      some (0x80000000#32, 0x1004#32) := by decide

/-- V-R32: `add x5, x5, x5`. -/
theorem test_add_same_register :
    runs (machine 0x1000#32 [(5#5, 0x40000000#32)] [] []) 0x005282B3 (fun t => (readReg t 5#5, t.pc)) =
      some (0x80000000#32, 0x1004#32) := by decide

/-- V-R5: `sub x5, x6, x7`. -/
theorem test_sub_wraps :
    runs (machine 0x1000#32 [(6#5, 0x80000000#32), (7#5, 0x00000001#32)] [] [])
      0x407302B3 (fun t => (readReg t 5#5, t.pc)) =
      some (0x7FFFFFFF#32, 0x1004#32) := by decide

/-- V-R36: `sub x3, x1, x2`. -/
theorem test_sub :
    runs (machine 0x1000#32 [(1#5, 0x0000000F#32), (2#5, 0x00000005#32)] [] [])
      0x402081B3 (fun t => (readReg t 3#5, t.pc)) =
      some (0x0000000A#32, 0x1004#32) := by decide

/-- V-R10: `sll x5, x6, x7`. -/
theorem test_sll_low_five_bits :
    runs (machine 0x1000#32 [(6#5, 0x0000FFFF#32), (7#5, 0xFFFFFF04#32)] [] [])
      0x007312B3 (fun t => (readReg t 5#5, t.pc)) =
      some (0x000FFFF0#32, 0x1004#32) := by decide

/-- V-R11: `slt x5, x6, x7`. -/
theorem test_slt_negative :
    runs (machine 0x1000#32 [(6#5, 0x80000000#32), (7#5, 0x00000000#32)] [] [])
      0x007322B3 (fun t => (readReg t 5#5, t.pc)) =
      some (0x00000001#32, 0x1004#32) := by decide

/-- V-R12: `slt x5, x6, x7`. -/
theorem test_slt_exact :
    runs (machine 0x1000#32 [(6#5, 0x00000000#32), (7#5, 0x80000000#32)] [] [])
      0x007322B3 (fun t => (readReg t 5#5, t.pc)) =
      some (0x00000000#32, 0x1004#32) := by decide

/-- V-R15: `sltu x5, x6, x7`. -/
theorem test_sltu :
    runs (machine 0x1000#32 [(6#5, 0x00000000#32), (7#5, 0xFFFFFFFF#32)] [] [])
      0x007332B3 (fun t => (readReg t 5#5, t.pc)) =
      some (0x00000001#32, 0x1004#32) := by decide

/-- V-R16: `sltu x5, x6, x7`. -/
theorem test_sltu_not_signed :
    runs (machine 0x1000#32 [(6#5, 0xFFFFFFFF#32), (7#5, 0x00000000#32)] [] [])
      0x007332B3 (fun t => (readReg t 5#5, t.pc)) =
      some (0x00000000#32, 0x1004#32) := by decide

/-- V-R18: `xor x5, x6, x7`. -/
theorem test_xor :
    runs (machine 0x1000#32 [(6#5, 0xFF00FF00#32), (7#5, 0x0FF00FF0#32)] [] [])
      0x007342B3 (fun t => (readReg t 5#5, t.pc)) =
      some (0xF0F0F0F0#32, 0x1004#32) := by decide

/-- V-R21: `srl x5, x6, x7`. -/
theorem test_srl_low_five_bits :
    runs (machine 0x1000#32 [(6#5, 0x80000000#32), (7#5, 0x00000020#32)] [] [])
      0x007352B3 (fun t => (readReg t 5#5, t.pc)) =
      some (0x80000000#32, 0x1004#32) := by decide

/-- V-R22: `srl x5, x6, x7`. -/
theorem test_srl_zeros_enter :
    runs (machine 0x1000#32 [(6#5, 0xFFFFFFFF#32), (7#5, 0x00000004#32)] [] [])
      0x007352B3 (fun t => (readReg t 5#5, t.pc)) =
      some (0x0FFFFFFF#32, 0x1004#32) := by decide

/-- V-R24: `sra x5, x6, x7`. -/
theorem test_sra_sign_enters :
    runs (machine 0x1000#32 [(6#5, 0x80000000#32), (7#5, 0x00000021#32)] [] [])
      0x407352B3 (fun t => (readReg t 5#5, t.pc)) =
      some (0xC0000000#32, 0x1004#32) := by decide

/-- V-R25: `sra x5, x6, x7`. -/
theorem test_sra_positive :
    runs (machine 0x1000#32 [(6#5, 0x7FFFFFFF#32), (7#5, 0x0000001F#32)] [] [])
      0x407352B3 (fun t => (readReg t 5#5, t.pc)) =
      some (0x00000000#32, 0x1004#32) := by decide

/-- V-R27: `or x5, x6, x7`. -/
theorem test_or :
    runs (machine 0x1000#32 [(6#5, 0xF0F0F0F0#32), (7#5, 0x0F0F0F0F#32)] [] [])
      0x007362B3 (fun t => (readReg t 5#5, t.pc)) =
      some (0xFFFFFFFF#32, 0x1004#32) := by decide

/-- V-R29: `and x5, x6, x7`. -/
theorem test_and :
    runs (machine 0x1000#32 [(6#5, 0xFFFF0000#32), (7#5, 0x00FFFF00#32)] [] [])
      0x007372B3 (fun t => (readReg t 5#5, t.pc)) =
      some (0x00FF0000#32, 0x1004#32) := by decide

/-! ### Register-immediate instructions (R230 to R240) -/

/-- V-I3: `addi x5, x6, -2048`. -/
theorem test_addi_negative :
    runs (machine 0x1000#32 [(6#5, 0x00000005#32)] [] []) 0x80030293 (fun t => (readReg t 5#5, t.pc)) =
      some (0xFFFFF805#32, 0x1004#32) := by decide

/-- V-I5: `addi x0, x0, 0`. -/
theorem test_addi_x0 :
    runs (machine 0x1000#32 [] [] []) 0x00000013 (fun t => (readReg t 0#5, t.pc)) =
      some (0x00000000#32, 0x1004#32) := by decide

/-- V-I10: `slti x5, x6, -2`. -/
theorem test_slti :
    runs (machine 0x1000#32 [(6#5, 0xFFFFFFFF#32)] [] []) 0xFFE32293 (fun t => (readReg t 5#5, t.pc)) =
      some (0x00000000#32, 0x1004#32) := by decide

/-- V-I8: `slti x5, x6, -2048`. -/
theorem test_slti_negative :
    runs (machine 0x1000#32 [(6#5, 0x80000000#32)] [] []) 0x80032293 (fun t => (readReg t 5#5, t.pc)) =
      some (0x00000001#32, 0x1004#32) := by decide

/-- V-I14: `sltiu x5, x6, -2048`. -/
theorem test_sltiu_sign_extended :
    runs (machine 0x1000#32 [(6#5, 0xFFFFF7FF#32)] [] []) 0x80033293 (fun t => (readReg t 5#5, t.pc)) =
      some (0x00000001#32, 0x1004#32) := by decide

/-- V-I13: `sltiu x5, x6, 1`. -/
theorem test_sltiu :
    runs (machine 0x1000#32 [(6#5, 0x00000001#32)] [] []) 0x00133293 (fun t => (readReg t 5#5, t.pc)) =
      some (0x00000000#32, 0x1004#32) := by decide

/-- V-I19: `xori x5, x6, -1`. -/
theorem test_xori :
    runs (machine 0x1000#32 [(6#5, 0x12345678#32)] [] []) 0xFFF34293 (fun t => (readReg t 5#5, t.pc)) =
      some (0xEDCBA987#32, 0x1004#32) := by decide

/-- V-I21: `ori x5, x6, -2048`. -/
theorem test_ori_negative :
    runs (machine 0x1000#32 [(6#5, 0x00000000#32)] [] []) 0x80036293 (fun t => (readReg t 5#5, t.pc)) =
      some (0xFFFFF800#32, 0x1004#32) := by decide

/-- V-I22: `ori x5, x6, 240`. -/
theorem test_ori :
    runs (machine 0x1000#32 [(6#5, 0x00000F00#32)] [] []) 0x0F036293 (fun t => (readReg t 5#5, t.pc)) =
      some (0x00000FF0#32, 0x1004#32) := by decide

/-- V-I25: `andi x5, x6, 255`. -/
theorem test_andi :
    runs (machine 0x1000#32 [(6#5, 0x12345678#32)] [] []) 0x0FF37293 (fun t => (readReg t 5#5, t.pc)) =
      some (0x00000078#32, 0x1004#32) := by decide

/-- V-I23: `andi x5, x6, -2048`. -/
theorem test_andi_negative :
    runs (machine 0x1000#32 [(6#5, 0xFFFFFFFF#32)] [] []) 0x80037293 (fun t => (readReg t 5#5, t.pc)) =
      some (0xFFFFF800#32, 0x1004#32) := by decide

/-- V-I27: `slli x5, x6, 1`. -/
theorem test_slli_top_lost :
    runs (machine 0x1000#32 [(6#5, 0xFFFFFFFF#32)] [] []) 0x00131293 (fun t => (readReg t 5#5, t.pc)) =
      some (0xFFFFFFFE#32, 0x1004#32) := by decide

/-- V-I30: `srli x5, x6, 1`. -/
theorem test_srli :
    runs (machine 0x1000#32 [(6#5, 0x80000000#32)] [] []) 0x00135293 (fun t => (readReg t 5#5, t.pc)) =
      some (0x40000000#32, 0x1004#32) := by decide

/-- V-I32: `srai x5, x6, 1`. -/
theorem test_srai :
    runs (machine 0x1000#32 [(6#5, 0x80000000#32)] [] []) 0x40135293 (fun t => (readReg t 5#5, t.pc)) =
      some (0xC0000000#32, 0x1004#32) := by decide

/-- V-I34: `srai x5, x6, 30`. -/
theorem test_srai_positive :
    runs (machine 0x1000#32 [(6#5, 0x40000000#32)] [] []) 0x41E35293 (fun t => (readReg t 5#5, t.pc)) =
      some (0x00000001#32, 0x1004#32) := by decide

/-- V-I39: `lui x5, 0xABCDE`. -/
theorem test_lui :
    runs (machine 0x1000#32 [] [] []) 0xABCDE2B7 (fun t => (readReg t 5#5, t.pc)) =
      some (0xABCDE000#32, 0x1004#32) := by decide

/-- V-I43: `auipc x5, 1`. -/
theorem test_auipc :
    runs (machine 0x1000#32 [] [] []) 0x00001297 (fun t => (readReg t 5#5, t.pc)) =
      some (0x00002000#32, 0x1004#32) := by decide

/-- V-I42: `auipc x5, 0x80000`. -/
theorem test_auipc_wraps :
    runs (machine 0x80001000#32 [] [] []) 0x80000297 (fun t => (readReg t 5#5, t.pc)) =
      some (0x00001000#32, 0x80001004#32) := by decide

/-! ### Loads (R251 to R255) -/

/-- V-L2: `lb x5, 1(x6)`. -/
theorem test_lb_sign :
    runs (machine 0x1000#32 [(6#5, 0x00002000#32)] [] data) 0x00130283 (fun t => (readReg t 5#5, t.pc)) =
      some (0xFFFFFFAA#32, 0x1004#32) := by decide

/-- V-L22: `lb x5, -1(x0)`. -/
theorem test_lb_top_of_memory :
    runs (machine 0x1000#32 [] [] [(0xFFFFFFFC#32, 0x80000000#32)]) 0xFFF00283 (fun t => (readReg t 5#5, t.pc)) =
      some (0xFFFFFF80#32, 0x1004#32) := by decide

/-- V-L7: `lh x5, 2(x6)`. -/
theorem test_lh_sign :
    runs (machine 0x1000#32 [(6#5, 0x00002000#32)] [] data) 0x00231283 (fun t => (readReg t 5#5, t.pc)) =
      some (0xFFFF8899#32, 0x1004#32) := by decide

/-- V-L13: `lh x5, 1(x6)`. -/
theorem test_lh_misaligned :
    stops (machine 0x1000#32 [(6#5, 0x00002000#32)] [] data)
      0x00131283 = some (.misalignedAccess, some 0x00002001#32, 0x1000#32) := by decide

/-- V-L18: `lw x6, 0(x6)`. -/
theorem test_lw_same_register :
    runs (machine 0x1000#32 [(6#5, 0x00002000#32)] [] data) 0x00032303 (fun t => (readReg t 6#5, t.pc)) =
      some (0x8899AABB#32, 0x1004#32) := by decide

/-- V-L21: `lw x0, 0(x6)`. -/
theorem test_lw_x0_unmapped :
    stops (machine 0x1000#32 [(6#5, 0x00005000#32)] [] data)
      0x00032003 = some (.pageFault, some 0x00005000#32, 0x1000#32) := by decide

/-- V-L5: `lbu x5, 3(x6)`. -/
theorem test_lbu :
    runs (machine 0x1000#32 [(6#5, 0x00002000#32)] [] data) 0x00334283 (fun t => (readReg t 5#5, t.pc)) =
      some (0x00000088#32, 0x1004#32) := by decide

/-- V-L24: `lbu x5, 0(x6)`. -/
theorem test_lbu_never_written :
    runs (machine 0x1000#32 [(6#5, 0x00002FFF#32)] [] data) 0x00034283 (fun t => (readReg t 5#5, t.pc)) =
      some (0x00000000#32, 0x1004#32) := by decide

/-- V-L9: `lhu x5, 2(x6)`. -/
theorem test_lhu :
    runs (machine 0x1000#32 [(6#5, 0x00002000#32)] [] data) 0x00235283 (fun t => (readReg t 5#5, t.pc)) =
      some (0x00008899#32, 0x1004#32) := by decide

/-- V-L14: `lhu x5, 3(x6)`. -/
theorem test_lhu_misaligned :
    stops (machine 0x1000#32 [(6#5, 0x00002000#32)] [] data)
      0x00335283 = some (.misalignedAccess, some 0x00002003#32, 0x1000#32) := by decide

/-! ### Stores (R256 to R258) -/

/-- V-S2: `sb x7, 3(x6)`. -/
theorem test_sb :
    runs (machine 0x1000#32 [(6#5, 0x00002000#32), (7#5, 0x00000012#32)] [] data)
      0x007301A3 (fun t => (wordAt t 0x00002000#32, t.pc)) =
      some (some 0x1299AABB#32, 0x1004#32) := by decide

/-- V-S13: `sb x7, -1(x6)`. -/
theorem test_sb_top_of_memory :
    runs (machine 0x1000#32 [(6#5, 0x00000000#32), (7#5, 0x0000007F#32)] [] [])
      0xFE730FA3 (fun t => (wordAt t 0xFFFFFFFC#32, t.pc)) =
      some (some 0x7F000000#32, 0x1004#32) := by decide

/-- V-S5: `sh x7, 2(x6)`. -/
theorem test_sh :
    runs (machine 0x1000#32 [(6#5, 0x00002000#32), (7#5, 0x0000FFFF#32)] [] data)
      0x00731123 (fun t => (wordAt t 0x00002000#32, t.pc)) =
      some (some 0xFFFFAABB#32, 0x1004#32) := by decide

/-- V-S8: `sh x7, 3(x6)`. -/
theorem test_sh_misaligned :
    stops (machine 0x1000#32 [(6#5, 0x00002000#32), (7#5, 0x00000001#32)] [] data)
      0x007311A3 = some (.misalignedAccess, some 0x00002003#32, 0x1000#32) := by decide

/-- V-S12: `sw x7, 0(x6)`. -/
theorem test_sw_maps_page :
    runs (machine 0x1000#32 [(6#5, 0x00009000#32), (7#5, 0x0000CAFE#32)] [] data)
      0x00732023 (fun t => (wordAt t 0x00009000#32, wordAt t 0x00009FFC#32, t.pc)) =
      some (some 0x0000CAFE#32, some 0x00000000#32, 0x1004#32) := by decide

/-- V-S9: `sw x7, 2(x6)`. -/
theorem test_sw_misaligned :
    stops (machine 0x1000#32 [(6#5, 0x00002000#32), (7#5, 0x00000001#32)] [] data)
      0x00732123 = some (.misalignedAccess, some 0x00002002#32, 0x1000#32) := by decide

/-! ### Control transfer (R271 to R279) -/

/-- V-B1: `beq x6, x7, -4`. -/
theorem test_beq_taken :
    runs (machine 0x2000#32 [(6#5, 0x00000000#32), (7#5, 0x00000000#32)] [] []) 0xFE730EE3 (fun t => t.pc) =
      some 0x1FFC#32 := by decide

/-- V-B2: `beq x6, x7, 8`. -/
theorem test_beq_not_taken :
    runs (machine 0x2000#32 [(6#5, 0x00000001#32), (7#5, 0x00000002#32)] [] []) 0x00730463 (fun t => t.pc) =
      some 0x2004#32 := by decide

/-- V-B4: `bne x6, x7, 4094`. -/
theorem test_bne_taken :
    runs (machine 0x2000#32 [(6#5, 0x00000001#32), (7#5, 0x00000002#32)] [] []) 0x7E731FE3 (fun t => t.pc) =
      some 0x2FFE#32 := by decide

/-- V-B5: `bne x6, x7, 8`. -/
theorem test_bne_not_taken :
    runs (machine 0x2000#32 [(6#5, 0x00000003#32), (7#5, 0x00000003#32)] [] []) 0x00731463 (fun t => t.pc) =
      some 0x2004#32 := by decide

/-- V-B6: `blt x6, x7, 8`. -/
theorem test_blt_taken :
    runs (machine 0x2000#32 [(6#5, 0x80000000#32), (7#5, 0x7FFFFFFF#32)] [] []) 0x00734463 (fun t => t.pc) =
      some 0x2008#32 := by decide

/-- V-B7: `blt x6, x7, 8`. -/
theorem test_blt_not_taken :
    runs (machine 0x2000#32 [(6#5, 0x7FFFFFFF#32), (7#5, 0x80000000#32)] [] []) 0x00734463 (fun t => t.pc) =
      some 0x2004#32 := by decide

/-- V-B9: `bge x6, x7, -4096`. -/
theorem test_bge_taken :
    runs (machine 0x2000#32 [(6#5, 0x7FFFFFFF#32), (7#5, 0x80000000#32)] [] []) 0x80735063 (fun t => t.pc) =
      some 0x1000#32 := by decide

/-- V-B11: `bge x6, x7, 8`. -/
theorem test_bge_not_taken :
    runs (machine 0x2000#32 [(6#5, 0xFFFFFFFF#32), (7#5, 0x00000000#32)] [] []) 0x00735463 (fun t => t.pc) =
      some 0x2004#32 := by decide

/-- V-B12: `bltu x6, x7, 8`. -/
theorem test_bltu_taken :
    runs (machine 0x2000#32 [(6#5, 0x7FFFFFFF#32), (7#5, 0x80000000#32)] [] []) 0x00736463 (fun t => t.pc) =
      some 0x2008#32 := by decide

/-- V-B13: `bltu x6, x7, 8`. -/
theorem test_bltu_not_taken :
    runs (machine 0x2000#32 [(6#5, 0x80000000#32), (7#5, 0x7FFFFFFF#32)] [] []) 0x00736463 (fun t => t.pc) =
      some 0x2004#32 := by decide

/-- V-B17: `bgeu x6, x7, 8`. -/
theorem test_bgeu_taken :
    runs (machine 0x2000#32 [(6#5, 0xFFFFFFFF#32), (7#5, 0x00000001#32)] [] []) 0x00737463 (fun t => t.pc) =
      some 0x2008#32 := by decide

/-- V-B16: `bgeu x6, x7, 8`. -/
theorem test_bgeu_not_taken :
    runs (machine 0x2000#32 [(6#5, 0x00000000#32), (7#5, 0x00000001#32)] [] []) 0x00737463 (fun t => t.pc) =
      some 0x2004#32 := by decide

/-- V-J2: `jal x1, 1048574`. -/
theorem test_jal_longest :
    runs (machine 0x1000#32 [] [] []) 0x7FFFF0EF (fun t => (readReg t 1#5, t.pc)) =
      some (0x00001004#32, 0x100FFE#32) := by decide

/-- V-J4: `jal x1, 8`. -/
theorem test_jal_wraps :
    runs (machine 0xFFFFFFFC#32 [(1#5, 0x00000055#32)] [] []) 0x008000EF (fun t => (readReg t 1#5, t.pc)) =
      some (0x00000000#32, 0x4#32) := by decide

/-- V-J13: `jalr x6, -2048(x6)`. -/
theorem test_jalr_same_register :
    runs (machine 0x1000#32 [(6#5, 0x00004800#32)] [] []) 0x80030367 (fun t => (readReg t 6#5, t.pc)) =
      some (0x00001004#32, 0x4000#32) := by decide

/-- V-J9: `jalr x5, 3(x6)`. -/
theorem test_jalr_keeps_bit_one :
    runs (machine 0x1000#32 [(6#5, 0x00003000#32)] [] []) 0x003302E7 (fun t => (readReg t 5#5, t.pc)) =
      some (0x00001004#32, 0x3002#32) := by decide

/-! ### System and CSR instructions (R290 to R300) -/

/-- V-C2: `csrrw x6, 0x340, x6`. -/
theorem test_csrrw_swaps :
    runs (machine 0x1000#32 [(6#5, 0xAAAA5555#32)] [(0x340#12, 0x00001111#32)] [])
      0x34031373 (fun t => (readReg t 6#5, readCsr t 0x340#12, t.pc)) =
      some (0x00001111#32, 0xAAAA5555#32, 0x1004#32) := by decide

/-- V-C14: `csrrw x0, 0xC02, x6`. -/
theorem test_csrrw_instret_carries :
    runs (machine 0x1000#32 [(6#5, 0xFFFFFFFF#32)] [(0xC02#12, 0x00000005#32), (0xC82#12, 0x00000000#32)] [])
      0xC0231073 (fun t => (readCsr t 0xC02#12, readCsr t 0xC82#12, t.pc)) =
      some (0x00000000#32, 0x00000001#32, 0x1004#32) := by decide

/-- V-C4: `csrrs x5, 0x340, x6`. -/
theorem test_csrrs :
    runs (machine 0x1000#32 [(6#5, 0x000000F0#32)] [(0x340#12, 0x0000000F#32)] [])
      0x340322F3 (fun t => (readReg t 5#5, readCsr t 0x340#12, t.pc)) =
      some (0x0000000F#32, 0x000000FF#32, 0x1004#32) := by decide

/-- V-C12: `csrrs x5, 0xC02, x0`. -/
theorem test_csrrs_reads_instret :
    runs (machine 0x1000#32 [] [(0xC02#12, 0x00000029#32)] [])
      0xC02022F3 (fun t => (readReg t 5#5, readCsr t 0xC02#12, t.pc)) =
      some (0x00000029#32, 0x0000002A#32, 0x1004#32) := by decide

/-- V-C7: `csrrc x5, 0x340, x6`. -/
theorem test_csrrc :
    runs (machine 0x1000#32 [(6#5, 0x000000FF#32)] [(0x340#12, 0x00000F0F#32)] [])
      0x340332F3 (fun t => (readReg t 5#5, readCsr t 0x340#12, t.pc)) =
      some (0x00000F0F#32, 0x00000F00#32, 0x1004#32) := by decide

/-- V-C6: `csrrc x5, 0x340, x6`. -/
theorem test_csrrc_all :
    runs (machine 0x1000#32 [(6#5, 0xFFFFFFFF#32)] [(0x340#12, 0x00000F0F#32)] [])
      0x340332F3 (fun t => (readReg t 5#5, readCsr t 0x340#12, t.pc)) =
      some (0x00000F0F#32, 0x00000000#32, 0x1004#32) := by decide

/-- V-C9: `csrrwi x5, 0x340, 31`. -/
theorem test_csrrwi :
    runs (machine 0x1000#32 [(31#5, 0xDEAD0000#32)] [(0x340#12, 0x00000F0F#32)] [])
      0x340FD2F3 (fun t => (readReg t 5#5, readCsr t 0x340#12, t.pc)) =
      some (0x00000F0F#32, 0x0000001F#32, 0x1004#32) := by decide

/-- V-C13: `csrrwi x0, 0xC02, 10`. -/
theorem test_csrrwi_instret :
    runs (machine 0x1000#32 [] [(0xC02#12, 0x00000029#32)] []) 0xC0255073 (fun t => (readCsr t 0xC02#12, t.pc)) =
      some (0x0000000B#32, 0x1004#32) := by decide

/-- V-C10: `csrrsi x5, 0x340, 16`. -/
theorem test_csrrsi :
    runs (machine 0x1000#32 [] [(0x340#12, 0x00000F0F#32)] [])
      0x340862F3 (fun t => (readReg t 5#5, readCsr t 0x340#12, t.pc)) =
      some (0x00000F0F#32, 0x00000F1F#32, 0x1004#32) := by decide

/-- V-C11: `csrrci x5, 0x340, 31`. -/
theorem test_csrrci :
    runs (machine 0x1000#32 [] [(0x340#12, 0x00000F0F#32)] [])
      0x340FF2F3 (fun t => (readReg t 5#5, readCsr t 0x340#12, t.pc)) =
      some (0x00000F0F#32, 0x00000F00#32, 0x1004#32) := by decide

/-- V-C22: `fence iorw, iorw`. -/
theorem test_fence :
    runs (machine 0x1000#32 [] [] []) 0x0FF0000F (fun t => t.pc) =
      some 0x1004#32 := by decide

/-- V-C24: `ebreak`. -/
theorem test_ebreak :
    stops (machine 0x1000#32 [] [] []) 0x00100073 = some (.illegalInstruction, none, 0x1000#32) := by decide

/-- V-C21: `ecall`. -/
theorem test_ecall :
    runs (machine 0x1000#32 [(17#5, 0x0000005D#32), (10#5, 0x00000001#32)] [] [])
      0x00000073 (fun t => (t.status, t.pc)) =
      some (.halted, 0x1004#32) := by decide

/-! ### Multiply and divide (R311 to R319) -/

/-- V-M1: `mul x5, x6, x7`. -/
theorem test_mul :
    runs (machine 0x1000#32 [(6#5, 0x00000007#32), (7#5, 0xFFFFFFFD#32)] [] [])
      0x027302B3 (fun t => (readReg t 5#5, t.pc)) =
      some (0xFFFFFFEB#32, 0x1004#32) := by decide

/-- V-M4: `mul x5, x6, x7`. -/
theorem test_mul_wraps :
    runs (machine 0x1000#32 [(6#5, 0xFFFFFFFF#32), (7#5, 0xFFFFFFFF#32)] [] [])
      0x027302B3 (fun t => (readReg t 5#5, t.pc)) =
      some (0x00000001#32, 0x1004#32) := by decide

/-- V-M5: `mulh x5, x6, x7`. -/
theorem test_mulh :
    runs (machine 0x1000#32 [(6#5, 0x12345678#32), (7#5, 0x9ABCDEF0#32)] [] [])
      0x027312B3 (fun t => (readReg t 5#5, t.pc)) =
      some (0xF8CC93D6#32, 0x1004#32) := by decide

/-- V-M8: `mulh x5, x6, x7`. -/
theorem test_mulh_negative :
    runs (machine 0x1000#32 [(6#5, 0x80000000#32), (7#5, 0x7FFFFFFF#32)] [] [])
      0x027312B3 (fun t => (readReg t 5#5, t.pc)) =
      some (0xC0000000#32, 0x1004#32) := by decide

/-- V-M9: `mulhsu x5, x6, x7`. -/
theorem test_mulhsu :
    runs (machine 0x1000#32 [(6#5, 0xFFFFFFFF#32), (7#5, 0xFFFFFFFF#32)] [] [])
      0x027322B3 (fun t => (readReg t 5#5, t.pc)) =
      some (0xFFFFFFFF#32, 0x1004#32) := by decide

/-- V-M11: `mulhsu x5, x6, x7`. -/
theorem test_mulhsu_positive :
    runs (machine 0x1000#32 [(6#5, 0x7FFFFFFF#32), (7#5, 0xFFFFFFFF#32)] [] [])
      0x027322B3 (fun t => (readReg t 5#5, t.pc)) =
      some (0x7FFFFFFE#32, 0x1004#32) := by decide

/-- V-M13: `mulhu x5, x6, x7`. -/
theorem test_mulhu :
    runs (machine 0x1000#32 [(6#5, 0x12345678#32), (7#5, 0x9ABCDEF0#32)] [] [])
      0x027332B3 (fun t => (readReg t 5#5, t.pc)) =
      some (0x0B00EA4E#32, 0x1004#32) := by decide

/-- V-M16: `div x5, x6, x7`. -/
theorem test_div_toward_zero :
    runs (machine 0x1000#32 [(6#5, 0xFFFFFFEC#32), (7#5, 0x00000006#32)] [] [])
      0x027342B3 (fun t => (readReg t 5#5, t.pc)) =
      some (0xFFFFFFFD#32, 0x1004#32) := by decide

/-- V-M22: `div x0, x6, x7`. -/
theorem test_div_x0_by_zero :
    stops (machine 0x1000#32 [(6#5, 0x00000005#32), (7#5, 0x00000000#32)] [] [])
      0x02734033 = some (.arithmetic, none, 0x1000#32) := by decide

/-- V-M25: `divu x5, x6, x7`. -/
theorem test_divu :
    runs (machine 0x1000#32 [(6#5, 0xFFFFFFEC#32), (7#5, 0x00000006#32)] [] [])
      0x027352B3 (fun t => (readReg t 5#5, t.pc)) =
      some (0x2AAAAAA7#32, 0x1004#32) := by decide

/-- V-M27: `divu x5, x6, x7`. -/
theorem test_divu_by_zero :
    stops (machine 0x1000#32 [(6#5, 0x00000005#32), (7#5, 0x00000000#32)] [] [])
      0x027352B3 = some (.arithmetic, none, 0x1000#32) := by decide

/-- V-M28: `rem x5, x6, x7`. -/
theorem test_rem_negative :
    runs (machine 0x1000#32 [(6#5, 0xFFFFFFEC#32), (7#5, 0x00000006#32)] [] [])
      0x027362B3 (fun t => (readReg t 5#5, t.pc)) =
      some (0xFFFFFFFE#32, 0x1004#32) := by decide

/-- V-M29: `rem x5, x6, x7`. -/
theorem test_rem_sign_of_dividend :
    runs (machine 0x1000#32 [(6#5, 0x00000014#32), (7#5, 0xFFFFFFFA#32)] [] [])
      0x027362B3 (fun t => (readReg t 5#5, t.pc)) =
      some (0x00000002#32, 0x1004#32) := by decide

/-- V-M35: `remu x5, x6, x7`. -/
theorem test_remu :
    runs (machine 0x1000#32 [(6#5, 0x80000000#32), (7#5, 0xFFFFFFFF#32)] [] [])
      0x027372B3 (fun t => (readReg t 5#5, t.pc)) =
      some (0x80000000#32, 0x1004#32) := by decide

/-- V-M36: `remu x5, x6, x7`. -/
theorem test_remu_by_zero :
    stops (machine 0x1000#32 [(6#5, 0x00000005#32), (7#5, 0x00000000#32)] [] [])
      0x027372B3 = some (.arithmetic, none, 0x1000#32) := by decide

/-! ### Unimplemented and unknown words (R330 to R334) -/

/-- V-X1: `fadd.s f1, f2, f3`. -/
theorem test_fpOp :
    stops (machine 0x1000#32 [] [] []) 0x003100D3 = some (.notImplemented, none, 0x1000#32) := by decide

/-- V-X2: `flw f1, 0(x2)`. -/
theorem test_fpLoad :
    stops (machine 0x1000#32 [] [] []) 0x00012087 = some (.notImplemented, none, 0x1000#32) := by decide

/-- V-X3: `fsw f1, 0(x2)`. -/
theorem test_fpStore :
    stops (machine 0x1000#32 [] [] []) 0x00112027 = some (.notImplemented, none, 0x1000#32) := by decide

/-- V-X4: `fmadd.s f0, f1, f2, f3`. -/
theorem test_fpMadd :
    stops (machine 0x1000#32 [] [] []) 0x18208043 = some (.notImplemented, none, 0x1000#32) := by decide

/-- V-X6: `amoswap.w x5, x6,`. -/
theorem test_amo :
    stops (machine 0x1000#32 [] [] []) 0x0863A2AF = some (.notImplemented, none, 0x1000#32) := by decide

/-- V-X9: `the zero word`. -/
theorem test_compressed00 :
    stops (machine 0x1000#32 [] [] []) 0x00000000 = some (.notImplemented, none, 0x1000#32) := by decide

/-- V-X8: `c.li a0, 0 in the low half`. -/
theorem test_compressed01 :
    stops (machine 0x1000#32 [] [] []) 0x00004501 = some (.notImplemented, none, 0x1000#32) := by decide

/-- V-X10: `low bits 10`. -/
theorem test_compressed10 :
    stops (machine 0x1000#32 [] [] []) 0x00010002 = some (.notImplemented, none, 0x1000#32) := by decide

/-- V-X11: `all ones`. -/
theorem test_unknown :
    stops (machine 0x1000#32 [] [] []) 0xFFFFFFFF = some (.illegalInstruction, none, 0x1000#32) := by decide

/-- R330: match words of the kinds without an example. -/
theorem test_fpMsub : stops (machine 0x1000#32 [] [] []) 0x00000047 = some (.notImplemented, none, 0x1000#32) := by decide
theorem test_fpNmsub : stops (machine 0x1000#32 [] [] []) 0x0000004B = some (.notImplemented, none, 0x1000#32) := by decide
theorem test_fpNmadd : stops (machine 0x1000#32 [] [] []) 0x0000004F = some (.notImplemented, none, 0x1000#32) := by decide

/-- V-M23 and V-M33: the signed overflow under each value of the open parameter. -/
theorem test_div_overflow_value :
    runs ((machine 0x1000#32 [(6#5, 0x80000000#32), (7#5, 0xFFFFFFFF#32)] [] []).withParams ⟨4, true, .value⟩) 0x027342B3
      (fun t => readReg t 5#5) = some 0x80000000#32 := by decide
theorem test_rem_overflow_fault :
    stops ((machine 0x1000#32 [(6#5, 0x80000000#32), (7#5, 0xFFFFFFFF#32)] [] []).withParams ⟨4, true, .fault⟩) 0x027362B3 =
      some (.arithmetic, none, 0x1000#32) := by decide

/-- V-D1 by the table's own numbering, and a word of no row. -/
theorem test_decodeTableWord :
    decodeTableWord 32 0x006A0593 = some (.addi 11#5 20#5 6#32) ∧ decodeTableWord 32 0xFFFFFFFF = none := by decide

/-- V-F11: an entry in an unmapped page; V-F10: a misaligned entry. -/
theorem test_fetch_faults :
    (match step State.reset with | .fault f => some (f.kind, f.addr) | _ => none) = some (.pageFault, some 0#32) ∧
    (match step (State.reset.withPc 0x1002#32) with | .fault f => some (f.kind, f.addr) | _ => none) =
      some (.misalignedAccess, some 0x1002#32) := by decide

/-- R199: the observer sees a completed instruction with the new pc, and nothing of one that faults (V-C24). -/
theorem test_observed :
    (observed ((machine 0x1000#32 [] [] []).withFetchWord 32 0x00A00293)).map (fun o => (o.1, o.2.pc)) =
      some (.instr (.addi 5#5 0#5 10#32), 0x1004#32) ∧
    observed ((machine 0x1000#32 [] [] []).withFetchWord 32 0x00100073) = none := by decide

/-! ## Witnesses: states and operands that meet the hypotheses of the obligations -/

/-- An outcome that is a next state. -/
def isNext : Host.Outcome State Fault Refusal → Bool
  | .next _ => true
  | _ => false

/-- An outcome that is a fault. -/
def isFault : Host.Outcome State Fault Refusal → Bool
  | .fault _ => true
  | _ => false

theorem exists_next {o : Host.Outcome State Fault Refusal} (h : isNext o = true) : ∃ t, o = .next t := by
  cases o <;> simp_all [isNext]

theorem exists_fault {o : Host.Outcome State Fault Refusal} (h : isFault o = true) : ∃ f, o = .fault f := by
  cases o <;> simp_all [isFault]

/-- A fetch that answers an instruction to execute. -/
def fetches (d : Decoded) : Fetched → Bool
  | .ready e _ => d == e
  | _ => false

theorem exists_ready {d : Decoded} {o : Fetched} (h : fetches d o = true) : ∃ u, o = .ready d u := by
  cases o <;> simp_all [fetches]

/-- Three words of code in page 1 (`addi x5, x0, 10`; `lw x7, 0(x6)`; `ecall`) and one word of data in page 2. -/
def demoMem : Mem :=
  (((Mem.empty.pokeWord 0x1000#32 0x00A00293#32).pokeWord 0x1004#32 0x00032383#32).pokeWord 0x1008#32
    0x00000073#32).pokeWord 0x2000#32 0x8899AABB#32

theorem demoMem_inv (tb : Nat) : demoMem.Inv tb :=
  (Mem.pokeWord_spec (Mem.pokeWord_spec (Mem.pokeWord_spec (Mem.pokeWord_spec Mem.Inv.empty (by decide) _).1
    (by decide) _).1 (by decide) _).1 (by decide) _).1

/-- A hart at the entry of that code, nothing decoded yet. -/
def demo : State := (State.initial Config.params 0x1000#32).withMem demoMem

theorem demo_inv : demo.Inv := initial_inv _ _ _ (by decide) (demoMem_inv _)

theorem demo_memInv : demo.mem.Inv demo.params.tlbBits := demoMem_inv _

/-- The block of that code. -/
def demoBlock : List Decoded := [.instr (.addi 5#5 0#5 10#32), .instr (.lw 7#5 6#5 0#32), .instr .ecall]

/-- The hart with the block cached, before its instruction number `k`, and x6 as given. -/
def inBlock (k : Nat) (x6 : Word) : State :=
  writeReg (((demo.withBlocks [(0x1000, demoBlock)]).withPending (demoBlock.drop k)).withPc
    (BitVec.ofNat 32 (0x1000 + 4 * k))) 6#5 x6

theorem inBlock_inv (k : Nat) (hk : k < 3) (x6 : Word) : (inBlock k x6).Inv := by
  refine State.Inv.writeReg ?_ _ _
  refine { demo_inv with haltedIffEnded := ?_, endedAtBoundary := ?_, blocksCanonical := ?_, blocksWellFormed := ?_,
                         pendingInBlock := ?_ }
  · exact demo_inv.haltedIffEnded
  · intro h; exact absurd h (show ¬ demo.complete = true by decide)
  · show risingKeys [(0x1000, demoBlock)]
    decide
  · show ∀ e ∈ [(0x1000, demoBlock)], e.1 < 2 ^ 32 ∧ e.1 % 4 = 0 ∧ endsAtBranch e.2 = true
    decide
  · exact fun _ => ⟨(0x1000, demoBlock), by simp, k, hk, rfl, rfl⟩

/-- The hart at the entry of the cached block, no block being executed. -/
def atEntry : State := demo.withBlocks [(0x1000, demoBlock)]

theorem inBlock_fresh (k : Nat) (x6 : Word) : CodeFresh (inBlock k x6) := by
  intro e he j d hd
  have hb : (inBlock k x6).blocks = [(0x1000, demoBlock)] := by
    simp only [inBlock, writeReg_blocks, State.withPc_blocks, State.withPending_blocks, State.withBlocks_blocks]
  have hw : ∀ a, wordAt (inBlock k x6) a = wordAt demo a := fun a => by
    simp only [wordAt, inBlock, writeReg_mem]; rfl
  have hm : (inBlock k x6).params.mFull = true := by simp [inBlock]; rfl
  rw [hb] at he
  simp only [List.mem_singleton] at he
  subst he
  rw [hm]
  match j with
  | 0 => exact ⟨0x00A00293#32, by rw [hw]; decide, by simp only [demoBlock] at hd; simp at hd; rw [← hd]; decide⟩
  | 1 => exact ⟨0x00032383#32, by rw [hw]; decide, by simp only [demoBlock] at hd; simp at hd; rw [← hd]; decide⟩
  | 2 => exact ⟨0x00000073#32, by rw [hw]; decide, by simp only [demoBlock] at hd; simp at hd; rw [← hd]; decide⟩
  | n + 3 => simp [demoBlock] at hd

/-- Launch arguments: the same code and data, and the TLB and counters that a preload through the TLB would leave. -/
def demoArgs : LaunchArgs :=
  { params := Config.params, entry := 0x1000#32,
    preload := [(0x1000#32, [0x00A00293#32, 0x00032383#32, 0x00000073#32]), (0x2000#32, [0x8899AABB#32])],
    tlb := [(1, ⟨0x1008#32, 0⟩), (2, ⟨0x2000#32, 1⟩)], numLoads := 0, numStores := 4, hits := 0, misses := 4,
    requests := 4 }

/-! ### Launch and invariant -/

theorem witness_LaunchState_InvariantAtLaunch :
    ∃ s, launch demoArgs = .ok s ∧ demoArgs.params.wf ∧ demoArgs.hits + demoArgs.misses = demoArgs.requests ∧
      risingKeys demoArgs.tlb ∧ ∀ e ∈ demoArgs.tlb,
        e.1 = tlbIndex demoArgs.params.tlbBits e.2.tag ∧ walk s.mem.level1 e.2.tag = some e.2.page :=
  ⟨_, rfl, by decide⟩

theorem witness_LaunchFailsMisaligned :
    (∀ r ∈ demoArgs.preload, r.2 ≠ [] → r.1.toNat % 4 = 0) ∧
    ∃ f, launch { demoArgs with preload := [(0x1001#32, []), (0x1002#32, [0#32])] } = .error f :=
  ⟨by decide, _, rfl⟩

theorem witness_InvariantKept : ∃ s t, s.Inv ∧ step s = .next t :=
  ⟨inBlock 1 0x2000#32, (exists_next (by decide)).elim fun t h => ⟨t, inBlock_inv 1 (by decide) _, h⟩⟩

/-! ### Encoding -/

theorem witness_DecodeOfEncode :
    WellFormed true (.bge 31#5 0#5 0xFFFFF000#32) = true ∧ WellFormed true (.jal 0#5 0x000FFFFE#32) = true ∧
    WellFormed false (.srai 1#5 2#5 31#32) = true ∧ WellFormed true (.remu 31#5 31#5 31#5) = true := by decide

theorem witness_EncodeOfDecode_DecodedIsWellFormed :
    decode true 0x8020D063#32 = .instr (.bge 1#5 2#5 0xFFFFF000#32) ∧
    Instr.bge 1#5 2#5 0xFFFFF000#32 ≠ .fence ∧
    isClassKind (Instr.bge 1#5 2#5 0xFFFFF000#32).opType = false := by decide

theorem witness_DecoderFollowsTable :
    (∃ r ∈ opcodeTable, r.selects true 0x027372B3#32 = true) ∧
    (∀ r ∈ opcodeTable, r.selects true 0xFFFFFFFF#32 = false) ∧
    (∀ r ∈ opcodeTable, r.selects false 0x027372B3#32 = false) := by decide

/-! ### A step runs the decoded instruction -/

theorem witness_StepRunsDecoded :
    ((inBlock 1 0#32).status = .running ∧
      (inBlock 1 0#32).pending = .instr (.lw 7#5 6#5 0#32) :: [.instr .ecall]) ∧
    (atEntry.status = .running ∧ atEntry.pending = [] ∧ atEntry.complete = false ∧
      lookupKey atEntry.pc.toNat atEntry.blocks =
        some (.instr (.addi 5#5 0#5 10#32) :: [.instr (.lw 7#5 6#5 0#32), .instr .ecall])) ∧
    (demo.status = .running ∧ demo.pending = [] ∧ demo.complete = false ∧
      lookupKey demo.pc.toNat demo.blocks = none ∧ demo.mem.Inv demo.params.tlbBits ∧
      ∃ m, build demo demo.pc = .block demoBlock m) :=
  ⟨by decide, by decide, by decide, by decide, by decide, by decide, demo_memInv, _, rfl⟩

theorem witness_PlacedWordRuns :
    demo.Inv ∧ decode demo.params.mFull 0x00A00293#32 = .instr (.addi 5#5 0#5 10#32) ∧
    (¬ ∃ i < 8, 0x2000#32 = demo.pc + BitVec.ofNat 32 i) ∧ byteAt demo 0x2000#32 ≠ none :=
  ⟨demo_inv, by decide⟩

/-! ### The families: a word of each row, and an executable state -/

theorem witness_RegisterArithmetic_Multiplications_Divisions :
    0x407352B3#32 &&& 0xFE00707F#32 = 0x40005033#32 ∧ 0x027312B3#32 &&& 0xFE00707F#32 = 0x02001033#32 ∧
    0x027342B3#32 &&& 0xFE00707F#32 = 0x02004033#32 ∧ demo.branchIsTaken = false ∧ 5#5 ≠ 0#5 ∧
    readReg demo 7#5 = 0#32 ∧ readReg (inBlock 0 7#32) 6#5 ≠ 0#32 ∧ (inBlock 0 7#32).branchIsTaken = false ∧
    ¬ (readReg (inBlock 0 7#32) 5#5 = 0x80000000#32 ∧ readReg (inBlock 0 7#32) 6#5 = 0xFFFFFFFF#32) := by decide

theorem witness_Divisions_overflow :
    ∃ s : State, Overflows s 5#5 6#5 ∧ s.branchIsTaken = false ∧
      Overflows (s.withParams ⟨4, true, .value⟩) 5#5 6#5 ∧ Overflows (s.withParams ⟨4, true, .fault⟩) 5#5 6#5 :=
  ⟨writeReg (inBlock 0 0xFFFFFFFF#32) 5#5 0x80000000#32, by unfold Overflows; decide⟩

theorem witness_MulDivIdentities :
    5#5 ≠ 0#5 ∧ demo.branchIsTaken = false ∧ readReg (inBlock 0 0xFFFFFFFF#32) 6#5 ≠ 0#32 ∧
    ¬ Overflows (inBlock 0 0xFFFFFFFF#32) 7#5 6#5 := by unfold Overflows; decide

theorem witness_Immediates :
    0xFFF30293#32 &&& 0x0000707F#32 = 0x00000013#32 ∧ 0xFFF33293#32 &&& 0x0000707F#32 = 0x00003013#32 ∧
    0x41F35293#32 &&& 0xFE00707F#32 = 0x40005013#32 ∧ 0xABCDE2B7#32 &&& 0x0000007F#32 = 0x00000037#32 ∧
    0x02001013#32 &&& 0x0000707F#32 = 0x00001013#32 ∧ 0x02001013#32 &&& 0xFE000000#32 ≠ 0#32 ∧
    demo.branchIsTaken = false := by decide

/-- The last aligned address of a mapped page for each width; misaligned in a mapped and in an unmapped page; unmapped. -/
theorem witness_Loads_Stores_ByteLevelView_AccessCounters :
    demo.mem.Inv demo.params.tlbBits ∧ demo.branchIsTaken = false ∧
    (∀ c ∈ [(1, 0x2FFF#32), (2, 0x2FFE#32), (4, 0x2FFC#32)],
      c.2 = readReg demo 0#5 + c.2 ∧ c.2 = effectiveAddress demo 0#5 c.2 ∧ c.2.toNat % c.1 = 0 ∧
        byteAt demo c.2 ≠ none) ∧
    (∀ c ∈ [(2, 0x2001#32), (4, 0x2002#32), (4, 0xFFFFFFFF#32)],
      c.2 = readReg demo 0#5 + c.2 ∧ c.2 = effectiveAddress demo 0#5 c.2 ∧ c.2.toNat % c.1 ≠ 0) ∧
    (∀ c ∈ [(1, 0xFFFFFFFF#32), (2, 0x3000#32), (4, 0xFFFFFFFC#32)],
      c.2 = readReg demo 0#5 + c.2 ∧ c.2 = effectiveAddress demo 0#5 c.2 ∧ c.2.toNat % c.1 = 0 ∧
        byteAt demo c.2 = none) :=
  ⟨demo_memInv, by decide⟩

theorem witness_AccessCounters :
    (∃ l, memRead .word 0x3000#32 demo = .fault (.pageFault 0x3000#32 l)) ∧
    (∃ x t, memRead .half 0x2FFE#32 demo = .ok x t) ∧ (∃ t, memWrite .byte 0xFFFFFFFF#32 1#32 demo = .ok () t) :=
  ⟨⟨_, rfl⟩, ⟨_, _, rfl⟩, _, rfl⟩

/-- A condition that holds and one that does not, for an equality and for a signed order. -/
theorem witness_Branches_Jumps :
    demo.branchIsTaken = false ∧ readReg (inBlock 0 0x80000000#32) 0#5 ≠ readReg (inBlock 0 0x80000000#32) 6#5 ∧
    (readReg (inBlock 0 0x80000000#32) 6#5).toInt < (readReg (inBlock 0 0x80000000#32) 0#5).toInt ∧
    ¬ (readReg (inBlock 0 0x80000000#32) 6#5).toNat < (readReg (inBlock 0 0x80000000#32) 0#5).toNat ∧
    0x8020D063#32 &&& 0x0000707F#32 = 0x00005063#32 ∧ 0x001000EF#32 &&& 0x0000007F#32 = 0x0000006F#32 := by decide

theorem witness_EcallAndFence_CsrInstructions :
    0x8330000F#32 &&& 0x0000707F#32 = 0x0000000F#32 ∧ 0xC0231073#32 &&& 0x0000707F#32 = 0x00001073#32 ∧
    0x340FD2F3#32 &&& 0x0000707F#32 = 0x00005073#32 ∧ demo.branchIsTaken = false ∧ 0xC00#12 ≠ 0xC02#12 := by decide

theorem witness_Classes :
    0x0863A2AF#32 &&& 0x7F#32 = 0x2F#32 ∧ 0x00004501#32 &&& 0x03#32 = 0x01#32 ∧ 0x00000000#32 &&& 0x03#32 = 0x00#32 ∧
    0x30200073#32 &&& 0x0000707F#32 = 0x00000073#32 ∧ 0x30200073#32 ≠ 0x00000073#32 ∧
    0x30200073#32 ≠ 0x00100073#32 := by decide

theorem witness_PseudoInstructions : demo.branchIsTaken = false ∧ 7#5 ≠ 0#5 := by decide

/-! ### Rules over all instructions -/

theorem witness_IllegalAgainstNotImplemented_FaultLeavesState :
    (∃ f, execDecoded .unknown demo = .fault f ∧ f.kind = .illegalInstruction) ∧
    (∃ f, execDecoded (.instr (.amo 5#5 7#5 6#5 1#5 2#3)) demo = .fault f ∧ f.kind = .notImplemented) ∧
    (∃ f, execDecoded (.instr (.div 0#5 6#5 7#5)) demo = .fault f ∧ f.kind = .arithmetic) ∧
    ∃ f, execDecoded (.instr (.lb 0#5 0#5 0x3000#32)) demo = .fault f ∧ f.kind = .pageFault :=
  ⟨⟨_, rfl, rfl⟩, ⟨_, rfl, rfl⟩, ⟨_, rfl, rfl⟩, _, rfl, rfl⟩

/-- A store into a page not yet mapped, the last byte of the address space; a load; and a CSR instruction. -/
theorem witness_WhatAStepChanges_CountersAdvance :
    demo.mem.Inv demo.params.tlbBits ∧ (∃ t, exec (.sw 0#5 5#5 0x3000#32) demo = .next t) ∧
    isCsrKind (Instr.sw 0#5 5#5 0x3000#32).opType = false ∧
    storedAt (.sw 0#5 5#5 0x3000#32) demo = some (0x3000#32, 4) ∧ (∃ t, exec (.sb 0#5 5#5 0xFFFFFFFF#32) demo = .next t) ∧
    storedAt (.sb 0#5 5#5 0xFFFFFFFF#32) demo = some (0xFFFFFFFF#32, 1) ∧
    (∃ t, exec (.lw 5#5 0#5 0x2000#32) demo = .next t) ∧ storedAt (.lw 5#5 0#5 0x2000#32) demo = none ∧
    (∃ t, exec (.csrrwi 5#5 0x340#12 31#32) demo = .next t) ∧ 0x341#12 ∉ tickedCsrs ∧
    0x341#12 ≠ (Instr.csrrwi 5#5 0x340#12 31#32).record.csr :=
  ⟨demo_memInv, exists_next (by decide), rfl, rfl, exists_next (by decide), rfl, exists_next (by decide), rfl,
    exists_next (by decide), by decide, by decide⟩

theorem witness_CsrCounters :
    demo.branchIsTaken = false ∧ 5#5 ≠ 0#5 ∧ readReg (inBlock 0 0xFFFFFFFF#32) 6#5 = 0xFFFFFFFF#32 ∧
    readCsr (inBlock 0 0xFFFFFFFF#32) 0xC82#12 = 0#32 ∧ (inBlock 0 0xFFFFFFFF#32).branchIsTaken = false := by decide

theorem witness_IcountIsInstret :
    ∃ t u, fetch demo = .ready (.instr (.addi 5#5 0#5 10#32)) u ∧ step demo = .next t ∧
      demo.icount % 2 ^ 64 = pairValue demo.csrs.instreth demo.csrs.instret := by
  obtain ⟨t, ht⟩ := exists_next (o := step demo) (by decide)
  obtain ⟨u, hu⟩ := exists_ready (d := .instr (.addi 5#5 0#5 10#32)) (o := fetch demo) (by decide)
  exact ⟨t, u, hu, ht, by decide⟩

/-- The ends of the ranges, and the whole word. -/
theorem witness_BitFunctions_SignExtension :
    (31 ≤ 31 ∧ 31 < 32) ∧ (0 ≤ 31 ∧ 31 < 32) ∧ (1 ≤ 1 ∧ 1 ≤ 1 ∧ 1 ≤ 32) ∧ (1 ≤ 12 ∧ 12 ≤ 32 ∧ 32 ≤ 32) ∧
    (0x80000000#32).toNat < 2 ^ 32 ∧ (1#32).toNat < 2 ^ 1 := by decide

/-! ### Memory and the hart loop -/

/-- An aligned unmapped and an aligned mapped address; two addresses of one TLB slot, the second access, a load and a
store, evicting the first; and a load that page-faults after an access of its slot. -/
theorem witness_MemoryProperties :
    demo.mem.Inv demo.params.tlbBits ∧ (0xFFFFFFFC#32).toNat % 4 = 0 ∧ byteAt demo 0xFFFFFFFC#32 = none ∧
    0x1000#32 ≠ 0x1004#32 ∧ tlbIndex demo.params.tlbBits 0x1000#32 = tlbIndex demo.params.tlbBits 0x1004#32 ∧
    (∃ t u, Accesses 0x1000#32 demo t ∧ Accesses 0x1004#32 t u) ∧
    (∃ t u, memWrite .byte 0x1000#32 7#32 demo = .ok () t ∧ memWrite .word 0x1004#32 7#32 t = .ok () u) ∧
    0x11000#32 ≠ 0x1000#32 ∧ tlbIndex demo.params.tlbBits 0x11000#32 = tlbIndex demo.params.tlbBits 0x1000#32 ∧
    ∃ t l, Accesses 0x1000#32 demo t ∧ memRead .word 0x11000#32 t = .fault (.pageFault 0x11000#32 l) :=
  ⟨demo_memInv, by decide, by decide, by decide, by decide, ⟨_, _, .inl ⟨.word, _, rfl⟩, .inl ⟨.byte, _, rfl⟩⟩,
    ⟨_, _, rfl, rfl⟩, by decide, by decide, _, _, .inl ⟨.word, _, rfl⟩, rfl⟩

theorem witness_MappingsAndBlocksStay :
    (∃ t, step (inBlock 0 0#32) = .next t) ∧ walk (inBlock 0 0#32).mem.level1 0x2000#32 = some 1 ∧
    lookupKey 0x1000 (inBlock 0 0#32).blocks = some demoBlock :=
  ⟨exists_next (by decide), by decide⟩

/-- A block of three words, and a block of one word. -/
theorem witness_BuildMakesBlock :
    demo.mem.Inv demo.params.tlbBits ∧
    (∀ j < 2, ∃ w, wordAt demo (0x1000#32 + BitVec.ofNat 32 (4 * j)) = some w ∧
      (decode demo.params.mFull w).isBranch = false) ∧
    (∃ w, wordAt demo (0x1000#32 + BitVec.ofNat 32 (4 * 2)) = some w ∧
      (decode demo.params.mFull w).isBranch = true) ∧
    (∃ w, wordAt demo (0x1008#32 + BitVec.ofNat 32 (4 * 0)) = some w ∧
      (decode demo.params.mFull w).isBranch = true) := by
  refine ⟨demo_memInv, fun j hj => ?_, ⟨0x00000073#32, by decide⟩, ⟨0x00000073#32, by decide⟩⟩
  match j, hj with
  | 0, _ => exact ⟨0x00A00293#32, by decide⟩
  | 1, _ => exact ⟨0x00032383#32, by decide⟩

/-- A build that runs off the mapped page after one word, one from an unmapped entry, one from a misaligned entry. -/
theorem witness_BuildFaults :
    (∃ f, fetch (demo.withPc 0x2FFC#32) = .fault f) ∧ (∃ f, fetch (demo.withPc 0x1002#32) = .fault f) ∧
    (demo.withPc 0x2FFC#32).mem.Inv demo.params.tlbBits ∧
    (∀ pc ∈ [0x2FFC#32, 0x3000#32, 0x1002#32], (demo.withPc pc).status = .running ∧ (demo.withPc pc).pending = [] ∧
      (demo.withPc pc).complete = false ∧ lookupKey (demo.withPc pc).pc.toNat (demo.withPc pc).blocks = none) ∧
    (0x1002#32).toNat % 4 ≠ 0 ∧ (0x2FFC#32).toNat % 4 = 0 ∧
    (∀ j < 1, ∃ w, wordAt (demo.withPc 0x2FFC#32) (0x2FFC#32 + BitVec.ofNat 32 (4 * j)) = some w ∧
      (decode demo.params.mFull w).isBranch = false) ∧
    byteAt (demo.withPc 0x2FFC#32) (0x2FFC#32 + BitVec.ofNat 32 (4 * 1)) = none ∧
    byteAt (demo.withPc 0x3000#32) (0x3000#32 + BitVec.ofNat 32 (4 * 0)) = none := by
  refine ⟨⟨_, rfl⟩, ⟨_, rfl⟩, demo_memInv, fun _ _ => ⟨rfl, rfl, rfl, rfl⟩, by decide, by decide,
    fun j hj => ?_, by decide, by decide⟩
  match j, hj with
  | 0, _ => exact ⟨0#32, by decide⟩

/-- A load taken from the block being executed, and the first instruction of a cached block. -/
theorem witness_CachedBlocksDoNotFetch :
    (∃ t u, fetch (inBlock 1 0x2000#32) = .ready (.instr (.lw 7#5 6#5 0#32)) u ∧
      step (inBlock 1 0x2000#32) = .next t ∧ (inBlock 1 0x2000#32).pending ≠ []) ∧
    (∃ t u, fetch atEntry = .ready (.instr (.addi 5#5 0#5 10#32)) u ∧ step atEntry = .next t ∧
      lookupKey atEntry.pc.toNat atEntry.blocks ≠ none) := by
  obtain ⟨t, ht⟩ := exists_next (o := step (inBlock 1 0x2000#32)) (by decide)
  obtain ⟨t', ht'⟩ := exists_next (o := step atEntry) (by decide)
  obtain ⟨u, hu⟩ := exists_ready (d := .instr (.lw 7#5 6#5 0#32)) (o := fetch (inBlock 1 0x2000#32)) (by decide)
  obtain ⟨u', hu'⟩ := exists_ready (d := .instr (.addi 5#5 0#5 10#32)) (o := fetch atEntry) (by decide)
  exact ⟨⟨t, u, hu, ht, by decide⟩, t', u', hu', ht', by decide⟩

/-- One step that halts and one that does not. -/
theorem witness_HaltsExactlyByEcall :
    (inBlock 2 0#32).Inv ∧ (∃ t, step (inBlock 2 0#32) = .next t ∧ t.status = .halted) ∧
    (inBlock 0 0#32).Inv ∧ (∃ t, step (inBlock 0 0#32) = .next t ∧ t.status = .running) :=
  ⟨inBlock_inv 2 (by decide) _, ⟨_, rfl, rfl⟩, inBlock_inv 0 (by decide) _, _, rfl, rfl⟩

theorem witness_TerminalStatus :
    (demo.withStatus .halted).status = .halted ∧
    (demo.withStatus (.faulted .pageFault)).status = .faulted .pageFault ∧ ∃ f, step (inBlock 1 0#32) = .fault f :=
  ⟨rfl, rfl, exists_fault (by decide)⟩

/-! ### What cannot be observed -/

/-- The same hart with a filled TLB slot, other counters and another npc. -/
def demoFilled : State := (demo.withMem ((demoMem.countMiss).fill 4 0x2000#32 1)).withNpc 0x77#32

theorem demoFilled_memInv : demoFilled.mem.Inv demoFilled.params.tlbBits :=
  ((demoMem_inv _).countMiss).fill (by decide)

theorem witness_TlbInvisible :
    demo.mem.Inv demo.params.tlbBits ∧ demoFilled.mem.Inv demoFilled.params.tlbBits ∧
    demo.branchIsTaken = false ∧ demoFilled.branchIsTaken = false ∧
    demo.params.divOverflow = demoFilled.params.divOverflow ∧ ArchEq demo demoFilled ∧ demo.mem ≠ demoFilled.mem ∧
    (∃ t, execDecoded (.instr (.lw 5#5 0#5 0x2000#32)) demo = .next t) ∧
    (∃ f, execDecoded (.instr (.lw 5#5 0#5 0x3000#32)) demo = .fault f) :=
  ⟨demo_memInv, demoFilled_memInv, rfl, rfl, rfl, ⟨fun _ => rfl, rfl, fun _ => rfl, fun _ => rfl, rfl, rfl⟩, by decide,
    exists_next (by decide), exists_fault (by decide)⟩

/-- Inside the block: the load completes with x6 in a mapped page and faults with x6 = 0. -/
theorem witness_SimpleMachineAgrees :
    (inBlock 1 0x2000#32).Inv ∧ CodeFresh (inBlock 1 0x2000#32) ∧
    (∃ u t, fetch (inBlock 1 0x2000#32) = .ready (.instr (.lw 7#5 6#5 0#32)) u ∧
      step (inBlock 1 0x2000#32) = .next t ∧
      ∀ a, FetchedAt t a → wordAt t a = wordAt (inBlock 1 0x2000#32) a) ∧
    (inBlock 1 0#32).Inv ∧ CodeFresh (inBlock 1 0#32) ∧
    ∃ u f, fetch (inBlock 1 0#32) = .ready (.instr (.lw 7#5 6#5 0#32)) u ∧ step (inBlock 1 0#32) = .fault f :=
  ⟨inBlock_inv 1 (by decide) _, inBlock_fresh 1 _, ⟨_, _, rfl, rfl, fun _ _ => rfl⟩, inBlock_inv 1 (by decide) _,
    inBlock_fresh 1 _, _, _, rfl, rfl⟩

end Sys2Proof.Tests
end

section
/-! The BitOps functions bit by bit (spec/00_scope.md rules R13 to R15). -/

namespace Sys2Proof

/-! ### `getBits` and `setBit` (R13, R14) -/

theorem getLsbD_getBits (w : Word) (hi lo i : Nat) :
    (getBits w hi lo).getLsbD i = (decide (i < 32) && (decide (i < hi - lo + 1) && w.getLsbD (lo + i))) := by
  rw [getBits, BitVec.getLsbD_ofNat, bits_testBit]

theorem getLsbD_setBit (w : Word) (p : Nat) (v : Bool) (i : Nat) (hi : i < 32) :
    (setBit w p v).getLsbD i = if i = p then v else w.getLsbD i := by
  have mask : (BitVec.ofNat 32 (2 ^ p)).getLsbD i = decide (p = i) := by
    rw [BitVec.getLsbD_ofNat, decide_eq_true hi, Bool.true_and, Nat.testBit_two_pow]
  unfold setBit
  cases v with
  | true =>
    rw [if_pos rfl, BitVec.getLsbD_or, mask]
    by_cases h : i = p <;> simp [h, Ne.symm]
  | false =>
    rw [if_neg Bool.false_ne_true, BitVec.getLsbD_and, BitVec.getLsbD_not, mask, decide_eq_true hi]
    by_cases h : i = p <;> simp [h, Ne.symm]

theorem setBit_setBit_same (w : Word) (p : Nat) (v : Bool) : setBit (setBit w p v) p v = setBit w p v := by
  refine BitVec.eq_of_getLsbD_eq fun i hi => ?_
  simp only [getLsbD_setBit _ _ _ _ hi]
  split <;> rfl

/-- Settles O40: each function's bit lemma; the field's width `hi - lo + 1` is at most 32, so no bit is cut off. -/
theorem bitFunctions : Obligations.BitFunctions := by
  unfold Obligations.BitFunctions
  refine ⟨fun w hi lo i hle hhi => ?_, by decide, fun w p v i _ hi => getLsbD_setBit w p v i hi,
    fun w p v _ => setBit_setBit_same w p v⟩
  have inField : (i < 32 ∧ i < hi - lo + 1) ↔ i ≤ hi - lo := by omega
  rw [getLsbD_getBits, ← Bool.and_assoc, ← Bool.decide_and, decide_eq_decide.mpr inField]

/-! ### `signExtend` (R15) -/

/-- The sign bit of the low `n + 1` bits of a number decides on which half of their range they are. -/
theorem testBit_sign (f n : Nat) : f.testBit n = decide (2 ^ n ≤ f % 2 ^ (n + 1)) := by
  have hlow : f.testBit n = (f % 2 ^ (n + 1)).testBit n := by simp [Nat.testBit_mod_two_pow]
  have hlt : f % 2 ^ (n + 1) < 2 ^ (n + 1) := Nat.mod_lt _ (by positivity)
  rw [hlow]
  by_cases h : 2 ^ n ≤ f % 2 ^ (n + 1)
  · rw [Nat.testBit_of_two_pow_le_and_two_pow_add_one_gt h hlt, decide_eq_true h]
  · rw [Nat.testBit_lt_two_pow (Nat.lt_of_not_le h), decide_eq_false h]

/-- `sext` fills the bits from the old to the new width with the sign bit (R12, R15). -/
theorem testBit_sext (f old new i : Nat) (h1 : 1 ≤ old) (h2 : old ≤ new) :
    (sext f old new).testBit i =
      if i < old then f.testBit i else if i < new then f.testBit (old - 1) else false := by
  have hsign : f.testBit (old - 1) = decide (2 ^ (old - 1) ≤ f % 2 ^ old) := by
    rw [testBit_sign, Nat.sub_add_cancel h1]
  by_cases hneg : f % 2 ^ old < 2 ^ (old - 1)
  · rw [sext, if_pos hneg, hsign, decide_eq_false (Nat.not_le.mpr hneg), Nat.testBit_mod_two_pow]
    split <;> simp [*]
  · have hfill : f % 2 ^ old + (2 ^ new - 2 ^ old) = 2 ^ old * (2 ^ (new - old) - 1) + f % 2 ^ old := by
      rw [Nat.mul_sub, ← pow_add, Nat.add_sub_cancel' h2, Nat.mul_one, Nat.add_comm]
    rw [sext, if_neg hneg, hsign, decide_eq_true (Nat.not_lt.mp hneg), hfill,
      Nat.testBit_two_pow_mul_add _ (Nat.mod_lt _ (by positivity)), Nat.testBit_mod_two_pow,
      Nat.testBit_two_pow_sub_one]
    by_cases hi : i < old
    · simp [hi]
    · simp only [hi, if_false, show i - old < new - old ↔ i < new by omega]
      split <;> simp [*]

theorem sext_self (f n : Nat) : sext f n n = f % 2 ^ n := by simp [sext]

theorem signExtend_self (v : Word) (n : Nat) (hv : v.toNat < 2 ^ n) : signExtend v n n = v := by
  rw [signExtend, sext_self, Nat.mod_eq_of_lt hv, BitVec.ofNat_toNat, BitVec.setWidth_eq]

theorem getLsbD_signExtend (w : Word) (old new i : Nat) (h1 : 1 ≤ old) (h2 : old ≤ new) (hi : i < 32) :
    (signExtend w old new).getLsbD i =
      if i < old then w.getLsbD i else if i < new then w.getLsbD (old - 1) else false := by
  rw [signExtend, BitVec.getLsbD_ofNat, decide_eq_true hi, Bool.true_and]
  exact testBit_sext w.toNat old new i h1 h2

/-- Settles O41: the bits of `sext`, and that extending from `n` to `n` bits only cuts at `n`. -/
theorem signExtension : Obligations.SignExtension := by
  unfold Obligations.SignExtension
  exact ⟨fun w old new i h1 h2 _ hi => getLsbD_signExtend w old new i h1 h2 hi,
    fun v n _ _ hv => signExtend_self v n hv⟩

end Sys2Proof
end

section
/-! The invariant after a launch (spec/48_hart_loop.md rules R345, R346). -/

namespace Sys2Proof.Machine

variable {tb : Nat} {m m' : Mem}

theorem Mem.Inv.storeRange {start : Word} {ws : List Word} (h : m.Inv tb) (hm : m.storeRange start ws = some m') :
    m'.Inv tb := by
  induction ws generalizing m start with
  | nil => exact Option.some.inj hm ▸ h
  | cons v vs ih =>
    obtain ⟨ha, hrest⟩ := Option.ite_none_right_eq_some.mp hm
    exact ih (Mem.pokeWord_spec h ha v).1 hrest

theorem Mem.Inv.preloadAll {ranges : List (Word × List Word)} (h : m.Inv tb) (hm : preloadAll m ranges = .ok m') :
    m'.Inv tb := by
  induction ranges generalizing m with
  | nil => exact Except.ok.inj hm ▸ h
  | cons r rest ih =>
    obtain ⟨start, ws⟩ := r
    rw [Machine.preloadAll] at hm
    split at hm
    case h_1 m₁ hrange => exact ih (h.storeRange hrange) hm
    case h_2 => contradiction

/-- The statistics and the TLB content of the launch arguments, where they agree with each other and with the page
table, keep the invariant of the component (R54, R57, R346). -/
theorem Mem.Inv.afterPreload {l : LaunchArgs} (h : m.Inv tb) (hc : l.hits + l.misses = l.requests)
    (hk : risingKeys l.tlb)
    (ht : ∀ e ∈ l.tlb, e.1 = tlbIndex tb e.2.tag ∧ walk m.level1 e.2.tag = some e.2.page) :
    (l.afterPreload m).Inv tb where
  bytesCanonical := h.bytesCanonical
  bytesInArena := h.bytesInArena
  tableCanonical := h.tableCanonical
  handlesInArena := h.handlesInArena
  pagesDistinct := h.pagesDistinct
  slotsCanonical := hk
  slotsCoherent := ht
  lookupsCounted := hc

/-- A launch that succeeds answers the initial state with the preloaded memory (R345). -/
theorem launch_eq_ok {l : LaunchArgs} {s : State} (h : launch l = .ok s) :
    ∃ m, preloadAll Mem.empty l.preload = .ok m ∧
      s = (State.initial l.params l.entry).withMem (l.afterPreload m) := by
  unfold launch at h
  split at h
  case h_1 m hm => exact ⟨m, hm, (Except.ok.inj h).symm⟩
  case h_2 => contradiction

/-- Settles O5: the preload keeps the invariant of the empty component, and the arguments' TLB content and counters
replace its own. -/
theorem invariantAtLaunch : Obligations.InvariantAtLaunch := by
  unfold Obligations.InvariantAtLaunch
  intro l s hs hp hc hk ht
  obtain ⟨m, hm, rfl⟩ := launch_eq_ok hs
  exact initial_inv _ _ _ hp ((Mem.Inv.empty.preloadAll hm).afterPreload hc hk ht)

end Sys2Proof.Machine
end

section
/-! The invariant of the machine: at reset, and through every step (spec/10_state.md rules R52, R54, R57, R60; spec/48
rules R348, R353). -/

namespace Sys2Proof.Machine

variable {s t u w : State} {i : Instr}

/-- Settles O4: the empty component meets the invariant, and TLB_BITS = 4 is in range. -/
theorem invariantAtReset : Obligations.InvariantAtReset := by
  unfold Obligations.InvariantAtReset
  exact initial_inv Config.params Config.entry Mem.empty ⟨by decide, by decide⟩ Mem.Inv.empty

/-- In a block only the last instruction ends it (R348). -/
theorem isBranch_iff_last {d : Decoded} {rest : List Decoded} (h : endsAtBranch (d :: rest) = true) :
    d.isBranch = true ↔ rest = [] := by
  cases rest with
  | nil => simpa [endsAtBranch] using h
  | cons e rest =>
    simp only [endsAtBranch, Bool.and_eq_true, Bool.not_eq_true'] at h
    simp [h.1]

/-- An instruction that ends no block moves pc to the next word (R193, R196). -/
theorem Effect.retired_pc (h : Effect i u w) (hb : i.opType.isBranch = false) (hf : u.branchIsTaken = false) :
    (retired i.opType w).pc = u.pc + 4#32 := by
  have hflag : w.branchIsTaken = false := by
    rcases h.transfer with ⟨-, hkept⟩ | ⟨-, hbranch, -⟩
    · exact hkept.trans hf
    · simp [hb] at hbranch
  simp [Machine.retired_pc, hflag, h.pc]

/-- From a running state, ECALL and nothing else sets `complete` (R47, R290). -/
theorem Effect.complete_iff (h : Effect i u w) (hc : u.complete = false) : w.complete = true ↔ i = .ecall := by
  rcases h.complete with ⟨hkept, hne⟩ | ⟨hset, heq⟩
  · simp [hkept, hc, hne]
  · simp [hset, heq]

theorem Effect.csrs_canonical (h : Effect i u w) (hu : u.csrs.Canonical) : w.csrs.Canonical := by
  rcases h.csrs with hkept | ⟨-, v, hset⟩
  · exact hkept ▸ hu
  · exact hset ▸ hu.set _ v

theorem Effect.regs_zero (h : Effect i u w) : w.regs[0] = u.regs[0] := by
  obtain ⟨v, hv⟩ := h.regs
  simp only [hv, writeReg_regs_zero]

/-- A running hart is Halted by the end of an iteration exactly when its block is exhausted and `complete` is true. -/
theorem endIteration_halted_iff (h : s.status = .running) :
    (endIteration s).status = .halted ↔ s.pending = [] ∧ s.complete = true := by
  rcases endIteration_cases s with ⟨hkept, hno⟩ | ⟨hset, hp, hc⟩
  · simp only [hkept, h, reduceCtorEq, false_iff]
    exact hno
  · simp [hset, hp, hc]

/-- The rest of a block stands one word after its first instruction. -/
theorem next_in_block {e : Nat × List Decoded} {k : Nat} {d : Decoded} {rest : List Decoded} (hrest : rest ≠ [])
    (hd : d :: rest = e.2.drop k) (hpc : s.pc = BitVec.ofNat 32 (e.1 + 4 * k)) :
    k + 1 < e.2.length ∧ rest = e.2.drop (k + 1) ∧ s.pc + 4#32 = BitVec.ofNat 32 (e.1 + 4 * (k + 1)) := by
  have htail : rest = e.2.drop (k + 1) := by rw [← List.tail_drop, ← hd, List.tail_cons]
  refine ⟨?_, htail, ?_⟩
  · by_contra hlong
    exact hrest (htail.trans (List.drop_eq_nil_of_le (Nat.le_of_not_lt hlong)))
  · rw [hpc, ← BitVec.ofNat_add]
    rfl

/-- Every step keeps the invariant: the fetch gives a running state inside a cached block, the instruction has its
effect, and a block that is not exhausted goes on at the next word. -/
theorem step_inv (hs : s.Inv) (h : step s = .next t) : t.Inv := by
  obtain ⟨i, u, w, hf, -, -, -, hw, rfl⟩ := step_cases h
  obtain ⟨hparams, hmem, hregs, hcsrs, hpc, -, -, hflag, hcomplete, hstatus, hrising, hblocks, hends, e, he, k, -, hk,
    hpck⟩ := fetch_inv hs hf
  have hlast : i.opType.isBranch = true ↔ u.pending = [] := isBranch_iff_last hends
  have hended : w.complete = true → w.pending = [] := fun hc => by
    have hecall : i = .ecall := (hw.complete_iff hcomplete).mp hc
    exact hw.pending.trans (hlast.mp (hecall ▸ rfl))
  exact {
    params := by simpa [hw.params, hparams] using hs.params
    memory := by simpa [hw.params, hparams] using hw.memory.inv (hparams ▸ hmem)
    zeroRegister := by simpa [hw.regs_zero, hregs] using hs.zeroRegister
    csrFile := by
      rw [endIteration_csrs, retired_csrs]
      exact (hw.csrs_canonical (hcsrs ▸ hs.csrFile)).updateTimers _
    flagClear := by simp
    haltedIffEnded := by
      rw [endIteration_halted_iff (by simp [hw.status, hstatus])]
      simpa using hended
    endedAtBoundary := by simpa using hended
    blocksCanonical := by simpa [hw.blocks] using hrising
    blocksWellFormed := by simpa [hw.blocks] using hblocks
    pendingInBlock := fun hrest => by
      simp only [endIteration_pending, retired_pending, hw.pending] at hrest ⊢
      have hnot : i.opType.isBranch = false := Bool.eq_false_iff.mpr fun hb => hrest (hlast.mp hb)
      obtain ⟨hlong, htail, haddr⟩ := next_in_block hrest hk hpck
      rw [endIteration_pc, hw.retired_pc hnot hflag, hpc]
      exact ⟨e, by simpa [hw.blocks] using he, k + 1, hlong, htail, haddr⟩ }

/-- Settles O6: `step_inv`. -/
theorem invariantKept : Obligations.InvariantKept := by
  unfold Obligations.InvariantKept
  exact fun s t => step_inv

end Sys2Proof.Machine
end

section
/-! Noninterference: what no instruction can observe (spec/10_state.md rules R54, R64, spec/20_memory.md rule R105). -/

namespace Sys2Proof.Machine

variable {s t u t' : State} {k : OpType} {kind : FaultKind} {a v v' : Word} {wd : Width}

/-! ### The architectural view through the updates of the state -/

theorem ArchEq.writeReg (h : ArchEq s u) (r : RegIdx) (v : Word) : ArchEq (writeReg s r v) (writeReg u r v) where
  regs q := by simp only [readReg_writeReg, h.regs]
  pc := by simpa using h.pc
  csrs c := by simpa [readCsr] using h.csrs c
  bytes a := by simpa [byteAt] using h.bytes a
  complete := by simpa using h.complete
  icount := by simpa using h.icount

theorem ArchEq.writeCsr (h : ArchEq s u) (c : CsrIdx) (v : Word) : ArchEq (writeCsr s c v) (writeCsr u c v) where
  regs := h.regs
  pc := h.pc
  csrs d := by
    have hd : s.csrs.get d = u.csrs.get d := h.csrs d
    simp only [Machine.writeCsr, readCsr, State.withCsrs_csrs, Csrs.get_set, hd]
  bytes := h.bytes
  complete := h.complete
  icount := h.icount

/-- Two faults leave the view as they found it (R195). -/
theorem ArchEq.faultLeaves {l l' : State} (h : ArchEq s u) (hl : FaultLeaves kind s l)
    (hl' : FaultLeaves kind u l') : ArchEq l l' where
  regs r := by rw [hl.registers, hl'.registers, h.regs]
  pc := by rw [hl.pc, hl'.pc, h.pc]
  csrs c := by rw [readCsr, readCsr, hl.csrs, hl'.csrs]; exact h.csrs c
  bytes a := by rw [hl.bytes, hl'.bytes, h.bytes]
  complete := by rw [hl.flags.2, hl'.flags.2, h.complete]
  icount := by rw [hl.icount, hl'.icount, h.icount]

theorem ArchEq.abortRun (h : ArchEq s u) (kind : FaultKind) : ArchEq (abortRun kind s) (abortRun kind u) :=
  h.faultLeaves (faultLeaves_abortRun kind s) (faultLeaves_abortRun kind u)

/-- Of the Memory component only the byte function is in the view. -/
theorem ArchEq.withMem (h : ArchEq s u) {m m' : Mem} (hb : ∀ a, byteAt (s.withMem m) a = byteAt (u.withMem m') a) :
    ArchEq (s.withMem m) (u.withMem m') :=
  ⟨h.regs, h.pc, h.csrs, hb, h.complete, h.icount⟩

theorem ArchEq.walk_none_iff (h : ArchEq s u) (a : Word) : walk s.mem.level1 a = none ↔ walk u.mem.level1 a = none := by
  rw [← byteAt_none_iff, ← byteAt_none_iff, h.bytes]

/-- What `updateTimers` leaves in each CSR depends only on what the CSRs read (R43). -/
theorem Csrs.get_updateTimers_congr {f g : Csrs} (h : ∀ c, f.get c = g.get c) (k : OpType) (c : CsrIdx) :
    (f.updateTimers k).get c = (g.updateTimers k).get c := by
  have hcycle : f.cycle = g.cycle := h 0xC00#12
  have hcycleh : f.cycleh = g.cycleh := h 0xC80#12
  have hinstret : f.instret = g.instret := h 0xC02#12
  have hinstreth : f.instreth = g.instreth := h 0xC82#12
  by_cases hc : c ∈ tickedCsrs
  · simp only [tickedCsrs, List.mem_cons, List.not_mem_nil, or_false] at hc
    rcases hc with rfl | rfl | rfl | rfl <;>
      simp [Csrs.get, Csrs.updateTimers, hcycle, hcycleh, hinstret, hinstreth]
  · rw [Csrs.updateTimers_get _ _ _ hc, Csrs.updateTimers_get _ _ _ hc, h]

theorem littleEndian_congr (h : ∀ a, byteAt s a = byteAt u a) (a : Word) (n : Nat) :
    littleEndian s a n = littleEndian u a n := by
  induction n with
  | zero => rfl
  | succ n ih => simp only [littleEndian, ih, h]

/-! ### States that no handler tells apart, and ends that no observer does -/

/-- The premise of noninterference: the same view, both flags clear, both Memory components sound, the same
`DIV_OVERFLOW`. -/
structure SameView (s u : State) : Prop where
  arch        : ArchEq s u
  memory      : s.mem.Inv s.params.tlbBits
  memory'     : u.mem.Inv u.params.tlbBits
  flag        : s.branchIsTaken = false
  flag'       : u.branchIsTaken = false
  divOverflow : s.params.divOverflow = u.params.divOverflow

/-- Two states that handlers left with the same view once the instructions retire: npc counts only when a transfer was
taken (R193). -/
structure RetireAlike (s u : State) : Prop where
  arch   : ArchEq s u
  flag   : s.branchIsTaken = u.branchIsTaken
  target : s.branchIsTaken = true → s.npc = u.npc

/-- Two faults that differ at most outside the view of the states they leave. -/
structure SameFault (f f' : Fault) : Prop where
  kind : f.kind = f'.kind
  addr : f.addr = f'.addr
  left : ArchEq f.left f'.left

/-- Two outcomes that differ at most outside the view. -/
inductive SameEnd : Host.Outcome State Fault Refusal → Host.Outcome State Fault Refusal → Prop where
  | next {t t' : State} (h : ArchEq t t') : SameEnd (.next t) (.next t')
  | fault {f f' : Fault} (h : SameFault f f') : SameEnd (.fault f) (.fault f')

/-- Two answers of an operation inside an instruction that differ at most outside the view. -/
inductive SameResult {α : Type} : Result α → Result α → Prop where
  | ok {x : α} {t t' : State} (h : RetireAlike t t') : SameResult (.ok x t) (.ok x t')
  | fault {f f' : Fault} (h : SameFault f f') : SameResult (.fault f) (.fault f')

theorem SameEnd.of_next {o : Host.Outcome State Fault Refusal} (h : SameEnd (.next t) o) :
    ∃ t', o = .next t' ∧ ArchEq t t' := by
  cases h with
  | next ht => exact ⟨_, rfl, ht⟩

theorem SameEnd.of_fault {f : Fault} {o : Host.Outcome State Fault Refusal} (h : SameEnd (.fault f) o) :
    ∃ f', o = .fault f' ∧ SameFault f f' := by
  cases h with
  | fault hf => exact ⟨_, rfl, hf⟩

theorem SameView.retireAlike (h : SameView s u) : RetireAlike s u where
  arch := h.arch
  flag := h.flag.trans h.flag'.symm
  target hf := by simp [h.flag] at hf

theorem RetireAlike.writeReg (h : RetireAlike s u) (r : RegIdx) (v : Word) :
    RetireAlike (writeReg s r v) (writeReg u r v) where
  arch := h.arch.writeReg r v
  flag := by simpa using h.flag
  target := by simpa using h.target

theorem ArchEq.takeTransfer (h : ArchEq s u) (a : Word) : RetireAlike (takeTransfer a s) (takeTransfer a u) where
  arch := ⟨h.regs, h.pc, h.csrs, h.bytes, h.complete, h.icount⟩
  flag := rfl
  target _ := rfl

theorem RetireAlike.setComplete (h : RetireAlike s u) : RetireAlike (setComplete s) (setComplete u) where
  arch := ⟨h.arch.regs, h.arch.pc, h.arch.csrs, h.arch.bytes, rfl, h.arch.icount⟩
  flag := h.flag
  target := h.target

/-- The uniform end of an instruction keeps the view (R190, R193, R194). -/
theorem RetireAlike.retired (h : RetireAlike s u) (k : OpType) : ArchEq (retired k s) (retired k u) where
  regs r := by simpa [readReg] using h.arch.regs r
  pc := by
    rw [retired_pc, retired_pc, h.arch.pc, ← h.flag]
    split
    · exact h.target ‹_›
    · rfl
  csrs c := by
    rw [readCsr, readCsr, retired_csrs, retired_csrs]
    exact Csrs.get_updateTimers_congr h.arch.csrs k c
  bytes a := by simpa [byteAt] using h.arch.bytes a
  complete := by simpa using h.arch.complete
  icount := by simpa using h.arch.icount

theorem RetireAlike.retire (h : RetireAlike s u) (k : OpType) : SameEnd (retire k s) (retire k u) :=
  .next (h.retired k)

/-! ### The two memory primitives -/

/-- A fetch or load answers the same value, or the same fault (R105). -/
theorem SameView.memRead (h : SameView s u) (wd : Width) (a : Word) : SameResult (memRead wd a s) (memRead wd a u) := by
  cases ha : aligned wd a with
  | false =>
    rw [memRead_misaligned ha, memRead_misaligned ha]
    exact .fault ⟨rfl, rfl, h.arch.abortRun _⟩
  | true =>
    cases hw : walk s.mem.level1 a with
    | none =>
      rw [memRead_unmapped h.memory ha hw, memRead_unmapped h.memory' ha ((h.arch.walk_none_iff a).mp hw)]
      exact .fault ⟨rfl, rfl, h.arch.faultLeaves (faultLeaves_unmapped s) (faultLeaves_unmapped u)⟩
    | some p =>
      obtain ⟨q, hq⟩ := Option.ne_none_iff_exists'.mp (mt (h.arch.walk_none_iff a).mpr (by simp [hw]))
      obtain ⟨m, e, -, -, -, hframe⟩ := memRead_mapped h.memory ha hw
      obtain ⟨m', e', -, -, -, hframe'⟩ := memRead_mapped h.memory' ha hq
      rw [e, e', readLE_eq_littleEndian ha hw, readLE_eq_littleEndian ha hq, littleEndian_congr h.arch.bytes]
      have hbytes : ∀ b, byteAt (s.withMem m) b = byteAt (u.withMem m') b := fun b => by
        rw [hframe.bytes, hframe'.bytes, h.arch.bytes]
      exact .ok ⟨h.arch.withMem hbytes, h.retireAlike.flag, h.retireAlike.target⟩

/-- What a store leaves at an address it does not write: a fresh page is zero (R105). -/
theorem StoreFrame.byteAt_outside {n : Nat} (h : StoreFrame n a v s t) {b : Word} (hb : ¬ inAccess a b n) :
    byteAt t b = if byteAt s a = none ∧ vpn b = vpn a then some 0#8 else byteAt s b := by
  by_cases hw : walk s.mem.level1 a = none
  · simpa [byteAt_none_iff, hw] using h.freshPage hw b hb
  · simpa [byteAt_none_iff, hw] using h.unchanged b hb hw

/-- The byte function after a store is decided by the one before it. -/
theorem StoreFrame.byteAt_congr {n : Nat} (h : StoreFrame n a v s t) (h' : StoreFrame n a v u t')
    (hb : ∀ b, byteAt s b = byteAt u b) (b : Word) : byteAt t b = byteAt t' b := by
  by_cases hin : inAccess a b n
  · obtain ⟨j, hj, rfl⟩ := hin
    rw [h.stored j hj, h'.stored j hj]
  · rw [h.byteAt_outside hin, h'.byteAt_outside hin, hb, hb]

/-- A store succeeds alike, or raises the same fault (R105). -/
theorem SameView.memWrite (h : SameView s u) (wd : Width) (a v : Word) :
    SameResult (memWrite wd a v s) (memWrite wd a v u) := by
  cases ha : aligned wd a with
  | false =>
    rw [memWrite_misaligned ha, memWrite_misaligned ha]
    exact .fault ⟨rfl, rfl, h.arch.abortRun _⟩
  | true =>
    obtain ⟨m, e, -, hframe⟩ := memWrite_aligned v h.memory ha
    obtain ⟨m', e', -, hframe'⟩ := memWrite_aligned v h.memory' ha
    rw [e, e']
    exact .ok ⟨h.arch.withMem (hframe.byteAt_congr hframe' h.arch.bytes), h.retireAlike.flag, h.retireAlike.target⟩

/-! ### The handler shapes -/

theorem SameView.writeBack (h : SameView s u) {rd : RegIdx} (hv : v = v') :
    SameEnd (writeBack k rd v s) (writeBack k rd v' u) :=
  hv ▸ (h.retireAlike.writeReg rd v).retire k

theorem SameView.effectiveAddress (h : SameView s u) (rs1 : RegIdx) (imm : Word) :
    effectiveAddress s rs1 imm = effectiveAddress u rs1 imm := by
  simp only [Machine.effectiveAddress, h.arch.regs]

theorem SameView.loadInto (h : SameView s u) {ext : Word → Word} {rd rs1 : RegIdx} {imm : Word} :
    SameEnd (loadInto k wd ext rd rs1 imm s) (loadInto k wd ext rd rs1 imm u) := by
  have hread := h.memRead wd (Machine.effectiveAddress s rs1 imm)
  unfold Machine.loadInto
  rw [← h.effectiveAddress]
  generalize Machine.memRead wd (Machine.effectiveAddress s rs1 imm) s = r,
    Machine.memRead wd (Machine.effectiveAddress s rs1 imm) u = r' at hread ⊢
  cases hread with
  | ok ht => exact (ht.writeReg rd _).retire k
  | fault hf => exact .fault hf

theorem SameView.storeFrom (h : SameView s u) {rs1 rs2 : RegIdx} {imm : Word} :
    SameEnd (storeFrom k wd rs1 rs2 imm s) (storeFrom k wd rs1 rs2 imm u) := by
  have hwrite := h.memWrite wd (Machine.effectiveAddress s rs1 imm) (readReg s rs2)
  unfold Machine.storeFrom
  rw [← h.effectiveAddress, ← h.arch.regs]
  generalize Machine.memWrite wd (Machine.effectiveAddress s rs1 imm) (readReg s rs2) s = r,
    Machine.memWrite wd (Machine.effectiveAddress s rs1 imm) (readReg s rs2) u = r' at hwrite ⊢
  cases hwrite with
  | ok ht => exact ht.retire k
  | fault hf => exact .fault hf

theorem SameView.branchIf (h : SameView s u) {cond : Word → Word → Bool} {rs1 rs2 : RegIdx} {imm : Word} :
    SameEnd (branchIf k cond rs1 rs2 imm s) (branchIf k cond rs1 rs2 imm u) := by
  unfold Machine.branchIf
  rw [h.arch.regs, h.arch.regs, h.arch.pc]
  split
  · exact (h.arch.takeTransfer _).retire k
  · exact h.retireAlike.retire k

theorem SameView.jumpTo (h : SameView s u) {rd : RegIdx} {target target' : Word} (ht : target = target') :
    SameEnd (jumpTo k rd target s) (jumpTo k rd target' u) := by
  unfold Machine.jumpTo
  rw [ht, h.arch.pc]
  exact ((h.arch.writeReg rd _).takeTransfer _).retire k

theorem SameView.csrModify (h : SameView s u) {f : Word → Word → Word} {rd : RegIdx} {c : CsrIdx} (hv : v = v') :
    SameEnd (csrModify k f rd c v s) (csrModify k f rd c v' u) := by
  unfold Machine.csrModify
  rw [hv, h.arch.csrs]
  have hcsr : RetireAlike (writeCsr s c (f (readCsr u c) v')) (writeCsr u c (f (readCsr u c) v')) :=
    ⟨h.arch.writeCsr c _, h.retireAlike.flag, h.retireAlike.target⟩
  exact (hcsr.writeReg rd _).retire k

theorem SameView.divideInto (h : SameView s u) {q : Word → Word → Word} {rd rs1 rs2 : RegIdx} :
    SameEnd (divideInto k q rd rs1 rs2 s) (divideInto k q rd rs1 rs2 u) := by
  unfold Machine.divideInto
  rw [h.arch.regs, h.arch.regs]
  split
  · exact .fault ⟨rfl, rfl, h.arch.abortRun _⟩
  · exact h.writeBack rfl

theorem SameView.signedDivideInto (h : SameView s u) {q : Word → Word → Word} {ov : Word} {rd rs1 rs2 : RegIdx} :
    SameEnd (signedDivideInto k q ov rd rs1 rs2 s) (signedDivideInto k q ov rd rs1 rs2 u) := by
  unfold Machine.signedDivideInto
  rw [h.arch.regs, h.arch.regs, h.divOverflow]
  split
  · cases u.params.divOverflow with
    | value => exact h.writeBack rfl
    | fault => exact .fault ⟨rfl, rfl, h.arch.abortRun _⟩
  · exact h.divideInto

theorem SameView.raiseNotImplemented (h : SameView s u) : SameEnd (raiseNotImplemented s) (raiseNotImplemented u) :=
  .fault ⟨rfl, rfl, h.arch.abortRun _⟩

/-! ### Every instruction -/

theorem SameView.exec (h : SameView s u) (i : Instr) : SameEnd (exec i s) (exec i u) := by
  cases i <;> simp only [Machine.exec]
  case add | sub | sll | slt | sltu | xor | srl | sra | or | and | mul | mulh | mulhsu | mulhu | addi | slti | sltiu |
      xori | ori | andi | slli | srli | srai | lui | auipc =>
    exact h.writeBack (by simp only [h.arch.regs, h.arch.pc])
  case jal | jalr => exact h.jumpTo (by simp only [h.arch.regs, h.arch.pc])
  case lb | lh | lw | lbu | lhu => exact h.loadInto
  case sb | sh | sw => exact h.storeFrom
  case beq | bne | blt | bge | bltu | bgeu => exact h.branchIf
  case div | rem => exact h.signedDivideInto
  case divu | remu => exact h.divideInto
  case csrrw | csrrs | csrrc | csrrwi | csrrsi | csrrci => exact h.csrModify (by simp only [h.arch.regs])
  case fence => exact h.retireAlike.retire .fence
  case ecall => exact h.retireAlike.setComplete.retire .ecall
  case ebreak => exact .fault ⟨rfl, rfl, h.arch.abortRun _⟩
  case fpLoad | fpStore | fpMadd | fpMsub | fpNmsub | fpNmadd | fpOp | amo | compressed00 | compressed01 |
      compressed10 =>
    exact h.raiseNotImplemented

theorem SameView.execDecoded (h : SameView s u) (d : Decoded) : SameEnd (execDecoded d s) (execDecoded d u) := by
  cases d with
  | instr i => exact h.exec i
  | unknown => exact .fault ⟨rfl, rfl, h.arch.abortRun _⟩

/-- Settles O51: the case analysis of `SameView.execDecoded`. -/
theorem tlbInvisible : Obligations.TlbInvisible := by
  unfold Obligations.TlbInvisible
  intro d s u hs hu hsf huf hd ha
  have hend := (SameView.mk ha hs hu hsf huf hd).execDecoded d
  refine ⟨fun t ht => (ht ▸ hend).of_next, fun f hf => ?_⟩
  obtain ⟨f', hf', hkind, haddr, hleft⟩ := (hf ▸ hend).of_fault
  exact ⟨f', hf', hkind, haddr, hleft⟩

end Sys2Proof.Machine
end

section
/-! The counters, the mappings and the block cache through a step; the reset state, x0 and the terminal statuses
(spec/10_state.md). -/

namespace Sys2Proof.Machine

variable {s t u : State} {d : Decoded} {i : Instr}

/-! ### What a fetch leaves -/

/-- Fetching an instruction changes the Memory component, the block cache and the rest of the block at most. -/
theorem FetchCase.frame (h : FetchCase s d u) :
    ∃ m b rest, u = ((s.withMem m).withBlocks b).withPending rest := by
  rcases h with ⟨rest, -, rfl⟩ | ⟨rest, -, -, -, rfl⟩ | ⟨rest, m, -, -, -, -, rfl⟩
  · exact ⟨s.mem, s.blocks, rest, rfl⟩
  · exact ⟨s.mem, s.blocks, rest, rfl⟩
  · exact ⟨m, _, rest, rfl⟩

/-- The build of a block reads memory and changes no mapping (R350). -/
theorem FetchCase.table (h : FetchCase s d u) :
    u.mem.level1 = s.mem.level1 ∧ u.mem.pageCount = s.mem.pageCount := by
  rcases h with ⟨rest, -, rfl⟩ | ⟨rest, -, -, -, rfl⟩ | ⟨rest, m, -, -, -, hb, rfl⟩
  · exact ⟨rfl, rfl⟩
  · exact ⟨rfl, rfl⟩
  · have hsame := (buildFrom_same.1 _ _ hb).1
    exact ⟨hsame.level1, hsame.pageCount⟩

/-- A block is inserted only where none was cached (R58). -/
theorem FetchCase.cached_stays (h : FetchCase s d u) {e : Nat} {b : List Decoded}
    (he : lookupKey e s.blocks = some b) : lookupKey e u.blocks = some b := by
  rcases h with ⟨rest, -, rfl⟩ | ⟨rest, -, -, -, rfl⟩ | ⟨rest, m, -, -, hnone, -, rfl⟩
  · exact he
  · exact he
  · have hne : e ≠ s.pc.toNat := by
      rintro rfl
      simp [hnone] at he
    simpa [lookupKey_insertKey, hne] using he

/-- Settles O45: fetching keeps the table and every cached block, and the one access of the instruction keeps every
mapping. -/
theorem mappingsAndBlocksStay : Obligations.MappingsAndBlocksStay := by
  unfold Obligations.MappingsAndBlocksStay
  intro s t h
  obtain ⟨i, u, w, -, hfetch, -, -, hw, rfl⟩ := step_cases h
  obtain ⟨hlevel, hpages⟩ := hfetch.table
  obtain ⟨hwalk, hcount⟩ := hw.memory.keeps
  obtain ⟨m, b, rest, hu⟩ := hfetch.frame
  simp only [endIteration_mem, retired_mem, endIteration_blocks, retired_blocks, endIteration_params, retired_params,
    hw.blocks, hw.params]
  exact ⟨fun a p hp => hwalk a p (hlevel ▸ hp), hpages ▸ hcount, fun _ _ => hfetch.cached_stays, by simp [hu]⟩

/-! ### The counters -/

/-- The end of an instruction that is no CSR instruction starts from the CSRs before it (R43, R194). -/
theorem exec_retired (h : exec i s = .next t) (hc : isCsrKind i.opType = false) : Retired i.opType s.csrs s t := by
  obtain ⟨u, rfl, hu⟩ := exec_next h
  have hcsrs : u.csrs = s.csrs := hu.csrs.resolve_right fun ⟨hcsr, _⟩ => by simp [hc] at hcsr
  exact hcsrs ▸ retired_spec hu.icount hu.params hu.blocks hu.pending hu.status

/-- Settles O36: `exec_retired`. -/
theorem countersAdvance : Obligations.CountersAdvance := by
  unfold Obligations.CountersAdvance
  exact fun i s t => exec_retired

/-- Settles O38: the fetch moves neither count and the instruction moves both by 1. -/
theorem icountIsInstret : Obligations.IcountIsInstret := by
  unfold Obligations.IcountIsInstret
  intro s t d u hf h hc heq
  obtain ⟨d', u', v, hf', he, rfl⟩ := step_next h
  obtain ⟨rfl, rfl⟩ := Fetched.ready.inj (hf.symm.trans hf')
  cases d with
  | unknown => simp [execDecoded_unknown] at he
  | instr i =>
    obtain ⟨m, b, rest, rfl⟩ := (fetch_ready hf).2.frame
    have hr := exec_retired he hc
    have hicount : v.icount = s.icount + 1 := hr.icount
    have hinstret : pairValue v.csrs.instreth v.csrs.instret =
        (pairValue s.csrs.instreth s.csrs.instret + 1) % 2 ^ 64 := hr.instret
    rw [endIteration_icount, endIteration_csrs, hinstret, ← heq, hicount, Nat.mod_add_mod]
    exact ⟨rfl, rfl⟩

/-! ### Reset, x0, and the terminal statuses -/

/-- Settles O1: reading each field of the initial state. -/
theorem resetState : Obligations.ResetState := by
  unfold Obligations.ResetState
  refine ⟨rfl, fun r => ?_, fun c => ?_, rfl, rfl, rfl, fun _ => rfl, rfl, rfl, rfl, rfl, rfl, rfl⟩
  · simp [readReg, State.reset, State.initial]
  · simp [readCsr, Csrs.get, State.reset, State.initial, Csrs.zero]

/-- Settles O39: the write is discarded (R33). -/
theorem zeroRegister : Obligations.ZeroRegister := by
  unfold Obligations.ZeroRegister
  exact fun s v => ⟨writeReg_zero s v, by rw [writeReg_zero, readReg_zero]⟩

theorem step_halted (h : s.status = .halted) : step s = .refused .halted := by
  simp [step, fetch, h]

theorem step_aborted {k : FaultKind} (h : s.status = .faulted k) : step s = .refused (.aborted k) := by
  simp [step, fetch, h]

/-- Both the fault of a fetch and that of an instruction leave the status Faulted of their kind (R351, R377). -/
theorem step_fault_status {f : Fault} (h : step s = .fault f) : f.left.status = .faulted f.kind := by
  rcases step_fault h with hf | ⟨d, u, -, he⟩
  · obtain ⟨-, -, -, -, ⟨a, m, -, rfl⟩ | ⟨a, m, -, rfl⟩⟩ := fetch_fault hf
    · rfl
    · rfl
  · cases d with
    | instr i => exact (exec_fault he).2.status
    | unknown =>
      obtain rfl := Host.Outcome.fault.inj he
      rfl

/-- Settles O50: no fetch in a terminal status, and every fault makes the status one. -/
theorem terminalStatus : Obligations.TerminalStatus := by
  unfold Obligations.TerminalStatus
  exact fun s => ⟨step_halted, fun _ => step_aborted, fun _ hf =>
    ⟨step_fault_status hf, step_aborted (step_fault_status hf)⟩⟩

end Sys2Proof.Machine
end

section
/-! When a launch fails (spec/20_memory.md rule R103, spec/48_hart_loop.md rule R345). -/

namespace Sys2Proof.Machine

variable {m m' : Mem} {l : LaunchArgs}

/-- A preload range that `storeRange` can write: it is empty, or starts at a multiple of 4 (R103). -/
def StartsAligned (r : Word × List Word) : Prop := r.2 ≠ [] → r.1.toNat % 4 = 0

theorem Mem.storeRange_of_aligned {start : Word} (ws : List Word) (ha : aligned .word start = true) :
    ∃ m', m.storeRange start ws = some m' := by
  induction ws generalizing m start with
  | nil => exact ⟨m, rfl⟩
  | cons v vs ih =>
    rw [Mem.storeRange, if_pos ha]
    exact ih (aligned_word_next ha)

/-- A range is written exactly when it is empty or aligned: its later words are as aligned as its first. -/
theorem Mem.storeRange_succeeds_iff {start : Word} {ws : List Word} :
    (∃ m', m.storeRange start ws = some m') ↔ StartsAligned (start, ws) := by
  cases ws with
  | nil => exact ⟨fun _ hne => absurd rfl hne, fun _ => ⟨m, rfl⟩⟩
  | cons v vs =>
    have haligned : aligned .word start = true ↔ start.toNat % 4 = 0 := aligned_iff .word start
    refine ⟨fun ⟨m', h⟩ _ => ?_, fun h => Mem.storeRange_of_aligned _ (haligned.mpr (h (List.cons_ne_nil v vs)))⟩
    exact haligned.mp (Option.ite_none_right_eq_some.mp h).1

/-- A preload that succeeds wrote every range. -/
theorem preloadAll_ok_aligned {ranges : List (Word × List Word)} (h : preloadAll m ranges = .ok m') :
    ∀ r ∈ ranges, StartsAligned r := by
  induction ranges generalizing m with
  | nil => exact fun r hr => absurd hr List.not_mem_nil
  | cons r rest ih =>
    obtain ⟨start, ws⟩ := r
    rw [preloadAll] at h
    split at h
    case h_1 m₁ hrange => exact List.forall_mem_cons.mpr ⟨Mem.storeRange_succeeds_iff.mp ⟨m₁, hrange⟩, ih h⟩
    case h_2 => contradiction

/-- A preload that fails does so at the start of the first range that cannot be written. -/
theorem preloadAll_error_first {ranges : List (Word × List Word)} {a : Word} (h : preloadAll m ranges = .error (a, m')) :
    ∃ before r after, ranges = before ++ r :: after ∧ a = r.1 ∧ ¬ StartsAligned r ∧ ∀ q ∈ before, StartsAligned q := by
  induction ranges generalizing m with
  | nil => contradiction
  | cons r rest ih =>
    obtain ⟨start, ws⟩ := r
    rw [preloadAll] at h
    split at h
    case h_1 m₁ hrange =>
      obtain ⟨before, r, after, rfl, ha, hr, hbefore⟩ := ih h
      exact ⟨(start, ws) :: before, r, after, rfl, ha, hr,
        List.forall_mem_cons.mpr ⟨Mem.storeRange_succeeds_iff.mp ⟨m₁, hrange⟩, hbefore⟩⟩
    case h_2 hrange =>
      obtain ⟨rfl, -⟩ := Prod.mk.inj (Except.error.inj h)
      have hfails : ¬ StartsAligned (start, ws) := by simp [← Mem.storeRange_succeeds_iff (m := m), hrange]
      exact ⟨[], (start, ws), rest, rfl, rfl, hfails, fun q hq => absurd hq List.not_mem_nil⟩

/-- A launch that fails reports the failing range of the preload, with pc at ENTRY (R103, log entry 21). -/
theorem launch_eq_error {f : Fault} (h : launch l = .error f) :
    ∃ a m, preloadAll Mem.empty l.preload = .error (a, m) ∧ f = .misalignedAccess a
      (abortRun .misalignedAccess ((State.initial l.params l.entry).withMem (l.afterPreload m))) := by
  unfold launch at h
  split at h
  case h_1 => contradiction
  case h_2 a m hm => exact ⟨a, m, hm, (Except.error.inj h).symm⟩

theorem launch_ok_aligned {s : State} (h : launch l = .ok s) : ∀ r ∈ l.preload, StartsAligned r := by
  obtain ⟨m, hm, -⟩ := launch_eq_ok h
  exact preloadAll_ok_aligned hm

theorem launch_error_first {f : Fault} (h : launch l = .error f) :
    f.kind = .misalignedAccess ∧ f.left.pc = l.entry ∧
      ∃ before r after, l.preload = before ++ r :: after ∧ f.addr = some r.1 ∧ ¬ StartsAligned r ∧
        ∀ q ∈ before, StartsAligned q := by
  obtain ⟨a, m, hm, rfl⟩ := launch_eq_error h
  obtain ⟨before, r, after, hranges, rfl, hr, hbefore⟩ := preloadAll_error_first hm
  exact ⟨rfl, rfl, before, r, after, hranges, rfl, hr, hbefore⟩

/-- Settles O3: a launch answers a state or a fault; a state means that every range was written, a fault that one was
not. -/
theorem launchFailsMisaligned : Obligations.LaunchFailsMisaligned := by
  unfold Obligations.LaunchFailsMisaligned
  intro l
  constructor
  · refine ⟨fun ⟨_, hs⟩ => launch_ok_aligned hs, fun haligned => ?_⟩
    cases h : launch l with
    | ok s => exact ⟨s, rfl⟩
    | error f =>
      obtain ⟨-, -, before, r, after, hranges, -, hr, -⟩ := launch_error_first h
      exact absurd (haligned r (by simp [hranges])) hr
  · intro f h
    obtain ⟨hkind, hpc, before, r, after, hranges, haddr, hr, hbefore⟩ := launch_error_first h
    obtain ⟨hne, hmis⟩ := Classical.not_imp.mp hr
    exact ⟨hkind, hpc, before, r, after, hranges, haddr, hne, hmis, hbefore⟩

end Sys2Proof.Machine
end

section
/-! The Memory component's accesses: the byte view of one access, the counters it moves, and the TLB slot it leaves
(spec/20_memory.md rules R92 to R109). -/

namespace Sys2Proof.Machine

variable {tb : Nat} {m m' : Mem} {s t u : State} {a b v : Word} {wd : Width}

/-! ### The byte view (R105) -/

theorem aligned_eq_false (h : a.toNat % wd.bytes ≠ 0) : aligned wd a = false :=
  Bool.eq_false_iff.mpr (mt (aligned_iff wd a).mp h)

/-- A load of a mapped page answers the bytes at its addresses. -/
theorem memRead_eq_littleEndian (h : s.mem.Inv s.params.tlbBits) (ha : a.toNat % wd.bytes = 0) (hb : byteAt s a ≠ none) :
    ∃ t, memRead wd a s = .ok (BitVec.ofNat 32 (littleEndian s a wd.bytes)) t ∧ LoadFrame a s t := by
  have hal : aligned wd a = true := (aligned_iff wd a).mpr ha
  obtain ⟨p, hp⟩ := Option.ne_none_iff_exists'.mp (mt byteAt_none_iff.mpr hb)
  obtain ⟨m, hread, -, -, -, hframe⟩ := memRead_mapped h hal hp
  exact ⟨s.withMem m, readLE_eq_littleEndian hal hp ▸ hread, hframe⟩

theorem memRead_pageFaults (h : s.mem.Inv s.params.tlbBits) (ha : a.toNat % wd.bytes = 0) (hb : byteAt s a = none) :
    ∃ l, memRead wd a s = .fault (.pageFault a l) :=
  ⟨_, memRead_unmapped h ((aligned_iff wd a).mpr ha) (byteAt_none_iff.mp hb)⟩

theorem memWrite_succeeds (v : Word) (h : s.mem.Inv s.params.tlbBits) (ha : a.toNat % wd.bytes = 0) :
    ∃ t, memWrite wd a v s = .ok () t ∧ t.mem.Inv t.params.tlbBits ∧ StoreFrame wd.bytes a v s t := by
  obtain ⟨m, hwrite, hinv, hframe⟩ := memWrite_aligned v h ((aligned_iff wd a).mpr ha)
  exact ⟨s.withMem m, hwrite, hinv, hframe⟩

/-- Settles O43: the outcomes of an aligned load and of an aligned store. -/
theorem byteLevelView : Obligations.ByteLevelView := by
  unfold Obligations.ByteLevelView
  intro s a v wd h ha
  obtain ⟨t, hwrite, -, hframe⟩ := memWrite_succeeds v h ha
  exact ⟨memRead_eq_littleEndian h ha, memRead_pageFaults h ha, t, hwrite, hframe⟩

/-! ### One lookup: its counters and its slot (R97, R99) -/

/-- What one lookup of `a` and the fill after it do to the component: a hit counts and leaves the TLB, a miss counts and
fills the slot of `a` with the page the walk gave. -/
inductive Mem.LooksUp (tb : Nat) (a : Word) (m m' : Mem) : Prop where
  | hit (held : m.probe tb a ≠ none) (requests : m'.requests = m.requests + 1) (hits : m'.hits = m.hits + 1)
      (misses : m'.misses = m.misses) (tlb : m'.tlb = m.tlb)
  | miss (p : Nat) (notHeld : m.probe tb a = none) (requests : m'.requests = m.requests + 1) (hits : m'.hits = m.hits)
      (misses : m'.misses = m.misses + 1) (mapped : walk m'.level1 a = some p)
      (tlb : m'.tlb = insertKey (tlbIndex tb a) ⟨a, p⟩ m.tlb)

theorem Mem.translateLoad_looksUp {p : Nat} (h : m.translateLoad tb a = (some p, m')) :
    Mem.LooksUp tb a m m' := by
  unfold Mem.translateLoad at h
  split at h
  case h_1 q hprobe =>
    obtain ⟨-, rfl⟩ := Prod.mk.inj h
    exact .hit (by simp [hprobe]) rfl rfl rfl rfl
  case h_2 hprobe =>
    split at h
    case h_1 q hwalk =>
      obtain ⟨-, rfl⟩ := Prod.mk.inj h
      exact .miss q hprobe rfl rfl rfl hwalk rfl
    case h_2 => simp at h

theorem Mem.translateLoad_none (h : m.translateLoad tb a = (none, m')) :
    m' = { m.countMiss with pageFaults := m.pageFaults + 1 } := by
  unfold Mem.translateLoad at h
  split at h
  case h_1 => simp at h
  case h_2 =>
    split at h
    case h_1 => simp at h
    case h_2 => exact (Prod.mk.inj h).2.symm

theorem Mem.translateStore_looksUp (tb : Nat) (m : Mem) (a : Word) :
    Mem.LooksUp tb a m (m.translateStore tb a).2 ∧ (m.translateStore tb a).2.numLoads = m.numLoads ∧
      (m.translateStore tb a).2.numStores = m.numStores := by
  unfold Mem.translateStore
  split
  case h_1 q hprobe => exact ⟨.hit (by simp [hprobe]) rfl rfl rfl rfl, rfl, rfl⟩
  case h_2 hprobe =>
    unfold Mem.ownPage
    cases hwalk : walk m.countMiss.level1 a with
    | none => exact ⟨.miss m.pageCount hprobe rfl rfl rfl (by simp [walk_mapPage]) rfl, rfl, rfl⟩
    | some q => exact ⟨.miss q hprobe rfl rfl rfl hwalk rfl, rfl, rfl⟩

/-- The contents and the access counts play no part in a lookup. -/
theorem Mem.LooksUp.recount (h : Mem.LooksUp tb a m m') (bytes : Memory) (loads stores : Nat) :
    Mem.LooksUp tb a m { m' with bytes := bytes, numLoads := loads, numStores := stores } := by
  cases h with
  | hit held requests hits misses tlb => exact .hit held requests hits misses tlb
  | miss p notHeld requests hits misses mapped tlb => exact .miss p notHeld requests hits misses mapped tlb

theorem Mem.load_done_looksUp (h : m.load tb wd a = .done v m') : Mem.LooksUp tb a m m' := by
  rw [Mem.load, if_pos (Mem.load_done_aligned h)] at h
  split at h
  case h_1 p m₁ htranslate =>
    obtain ⟨-, rfl⟩ := Access.done.inj h
    exact (Mem.translateLoad_looksUp htranslate).recount m₁.bytes (m₁.numLoads + 1) m₁.numStores
  case h_2 => contradiction

theorem Mem.load_unmapped_eq (h : m.load tb wd a = .unmapped m') :
    m' = { m.countMiss with pageFaults := m.pageFaults + 1 } := by
  unfold Mem.load at h
  split at h
  case isTrue =>
    split at h
    case h_1 => contradiction
    case h_2 m₁ htranslate =>
      obtain rfl := Access.unmapped.inj h
      exact Mem.translateLoad_none htranslate
  case isFalse => contradiction

theorem Mem.store_some_looksUp (h : m.store tb wd a v = some m') :
    Mem.LooksUp tb a m m' ∧ m'.numLoads = m.numLoads ∧ m'.numStores = m.numStores + 1 := by
  obtain ⟨hlookup, hloads, hstores⟩ := Mem.translateStore_looksUp tb m a
  obtain ⟨-, hstore⟩ := Option.ite_none_right_eq_some.mp h
  obtain rfl := Option.some.inj hstore
  exact ⟨hlookup.recount _ _ _, hloads, congrArg (· + 1) hstores⟩

/-! ### The two memory primitives, inverted -/

theorem memRead_ok (h : memRead wd a s = .ok v t) :
    ∃ m, s.mem.load s.params.tlbBits wd a = .done v m ∧ t = s.withMem m := by
  unfold memRead at h
  split at h
  case h_1 w m hload =>
    obtain ⟨rfl, rfl⟩ := Result.ok.inj h
    exact ⟨m, hload, rfl⟩
  case h_2 => contradiction
  case h_3 => contradiction

/-- A load that page-faults has counted its lookup as a miss, and nothing else (R93, R102). -/
theorem memRead_pageFault_eq {l : State} (h : memRead wd a s = .fault (.pageFault b l)) :
    l = abortRun .pageFault (s.withMem { s.mem.countMiss with pageFaults := s.mem.pageFaults + 1 }) := by
  unfold memRead at h
  split at h
  case h_1 => contradiction
  case h_2 => cases h
  case h_3 m hload =>
    obtain ⟨-, rfl⟩ := Fault.pageFault.inj (Result.fault.inj h)
    rw [Mem.load_unmapped_eq hload]

theorem memWrite_ok (h : memWrite wd a v s = .ok () t) :
    ∃ m, s.mem.store s.params.tlbBits wd a v = some m ∧ t = s.withMem m := by
  unfold memWrite at h
  split at h
  case h_1 m hstore => exact ⟨m, hstore, ((Result.ok.inj h).2).symm⟩
  case h_2 => contradiction

/-! ### The counters of one access (R92, R102, R108) -/

theorem slotHolds_iff : SlotHolds s a ↔ s.mem.probe s.params.tlbBits a ≠ none := by
  unfold SlotHolds Mem.probe
  cases lookupKey (tlbIndex s.params.tlbBits a) s.mem.tlb with
  | none => simp
  | some e => simp

theorem Mem.LooksUp.effect (h : Mem.LooksUp s.params.tlbBits a s.mem t.mem) : LookupEffect a s t := by
  cases h with
  | hit held requests hits misses tlb =>
    exact ⟨requests, fun _ => ⟨hits, misses, tlb⟩, fun hnot => absurd (slotHolds_iff.mpr held) hnot⟩
  | miss p notHeld requests hits misses mapped tlb =>
    refine ⟨requests, fun hslot => absurd notHeld (slotHolds_iff.mp hslot), fun _ => ⟨hits, misses, ⟨p, mapped, ?_⟩,
      fun i hi => ?_⟩⟩
    · rw [tlb, lookupKey_insertKey_self]
    · rw [tlb, lookupKey_insertKey, if_neg hi]

theorem memRead_ok_counters (h : memRead wd a s = .ok v t) :
    t.mem.numLoads = s.mem.numLoads + 1 ∧ t.mem.numStores = s.mem.numStores ∧ LookupEffect a s t := by
  obtain ⟨m, hload, rfl⟩ := memRead_ok h
  obtain ⟨hsame, hloads⟩ := Mem.load_done_same hload
  exact ⟨hloads, hsame.numStores, (Mem.load_done_looksUp hload).effect⟩

theorem memWrite_ok_counters (h : memWrite wd a v s = .ok () t) :
    t.mem.numStores = s.mem.numStores + 1 ∧ t.mem.numLoads = s.mem.numLoads ∧ LookupEffect a s t := by
  obtain ⟨m, hstore, rfl⟩ := memWrite_ok h
  obtain ⟨hlookup, hloads, hstores⟩ := Mem.store_some_looksUp hstore
  exact ⟨hstores, hloads, hlookup.effect⟩

/-- Settles O44: one lemma for each outcome of an access. -/
theorem accessCounters : Obligations.AccessCounters := by
  unfold Obligations.AccessCounters
  intro s a v wd _
  refine ⟨fun ha => ?_, fun l h => ?_, fun _ _ => memRead_ok_counters, fun _ => memWrite_ok_counters⟩
  · exact ⟨memRead_misaligned (aligned_eq_false ha), memWrite_misaligned (aligned_eq_false ha)⟩
  · obtain rfl := memRead_pageFault_eq h
    exact ⟨rfl, rfl, rfl, rfl, rfl, rfl⟩

/-! ### Storing, then loading (R96, R109) -/

/-- The number at `a`, when its bytes are those of `x`. -/
theorem littleEndian_of_bytes {x n : Nat}
    (h : ∀ i < n, byteAt s (a + BitVec.ofNat 32 i) = some (BitVec.ofNat 8 (x / 2 ^ (8 * i)))) :
    littleEndian s a n = x % 2 ^ (8 * n) := by
  induction n with
  | zero => simp [littleEndian, Nat.mod_one]
  | succ n ih =>
    rw [littleEndian, ih fun i hi => h i (Nat.lt_succ_of_lt hi), h n (Nat.lt_succ_self n), Option.getD_some,
      BitVec.toNat_ofNat, Nat.mul_succ, pow_add, Nat.mod_mul]

/-- A load inside the bytes just stored answers that field of the stored value (R96). -/
theorem StoreFrame.memRead_field {n j : Nat} (h : StoreFrame n a v s t) (hinv : t.mem.Inv t.params.tlbBits)
    (hj : j + wd.bytes ≤ n) (ha : (a + BitVec.ofNat 32 j).toNat % wd.bytes = 0) :
    ∃ u, memRead wd (a + BitVec.ofNat 32 j) t = .ok ((v.extractLsb' (8 * j) (8 * wd.bytes)).setWidth 32) u := by
  have hpos : 0 < wd.bytes := by cases wd <;> decide
  have hmapped : byteAt t (a + BitVec.ofNat 32 j) ≠ none := by simp [h.stored j (by omega)]
  have hfield : littleEndian t (a + BitVec.ofNat 32 j) wd.bytes = v.toNat / 2 ^ (8 * j) % 2 ^ (8 * wd.bytes) := by
    refine littleEndian_of_bytes fun i hi => ?_
    rw [BitVec.add_assoc, ← BitVec.ofNat_add, h.stored (j + i) (by omega), Nat.mul_add, pow_add,
      Nat.div_div_eq_div_mul]
  obtain ⟨u, hread, -⟩ := memRead_eq_littleEndian hinv ha hmapped
  have hvalue : BitVec.ofNat 32 (v.toNat / 2 ^ (8 * j) % 2 ^ (8 * wd.bytes)) =
      (v.extractLsb' (8 * j) (8 * wd.bytes)).setWidth 32 :=
    BitVec.eq_of_toNat_eq (by simp [BitVec.extractLsb'_toNat, Nat.shiftRight_eq_div_pow])
  exact ⟨u, by rw [hread, hfield, hvalue]⟩

/-- The loads of a word just stored: the word, its halves and its bytes. -/
theorem StoreFrame.memRead_subfields (h : StoreFrame 4 a v s t) (hinv : t.mem.Inv t.params.tlbBits)
    (ha : a.toNat % 4 = 0) :
    (∃ u, memRead .word a t = .ok v u) ∧
    (∀ j, j < 2 → ∃ u, memRead .half (a + BitVec.ofNat 32 (2 * j)) t =
      .ok ((v.extractLsb' (16 * j) 16).setWidth 32) u) ∧
    (∀ j, j < 4 → ∃ u, memRead .byte (a + BitVec.ofNat 32 j) t = .ok ((v.extractLsb' (8 * j) 8).setWidth 32) u) := by
  refine ⟨?_, fun j hj => ?_, fun j hj => ?_⟩
  · simpa [Width.bytes] using h.memRead_field (wd := .word) (j := 0) hinv (le_refl 4) (by simpa [Width.bytes] using ha)
  · have haddr := (aligned_add .word a ((aligned_iff .word a).mpr ha) (2 * j) (show 2 * j < 4 by omega)).1
    have hhalf := h.memRead_field (wd := .half) (j := 2 * j) hinv (show 2 * j + 2 ≤ 4 by omega)
      (show _ % 2 = 0 by omega)
    rwa [← Nat.mul_assoc] at hhalf
  · exact h.memRead_field (wd := .byte) hinv hj (Nat.mod_one _)

/-! ### Eviction (R98, R99, R109) -/

theorem Accesses.effect (h : Accesses a s t) : LookupEffect a s t := by
  rcases h with ⟨wd, v, hread⟩ | ⟨wd, v, hwrite⟩
  · exact (memRead_ok_counters hread).2.2
  · exact (memWrite_ok_counters hwrite).2.2

theorem Accesses.params (h : Accesses a s t) : t.params = s.params := by
  rcases h with ⟨wd, v, hread⟩ | ⟨wd, v, hwrite⟩
  · obtain ⟨m, -, rfl⟩ := memRead_ok hread
    rfl
  · obtain ⟨m, -, rfl⟩ := memWrite_ok hwrite
    rfl

/-- After an access its slot holds its address: it did before, or the miss filled it. -/
theorem Accesses.slotHolds (h : Accesses a s t) : SlotHolds t a := by
  obtain ⟨-, hhit, hmiss⟩ := h.effect
  rw [SlotHolds, h.params]
  by_cases hs : SlotHolds s a
  · rw [(hhit hs).2.2]
    exact hs
  · obtain ⟨-, -, ⟨p, -, hfilled⟩, -⟩ := hmiss hs
    exact ⟨_, hfilled, rfl⟩

/-- A slot holds one address. -/
theorem SlotHolds.eq_of_same_slot (hb : SlotHolds s b) (ha : SlotHolds s a)
    (hslot : tlbIndex s.params.tlbBits b = tlbIndex s.params.tlbBits a) : b = a := by
  obtain ⟨e, he, rfl⟩ := hb
  obtain ⟨e', he', rfl⟩ := ha
  rw [hslot, he'] at he
  rw [Option.some.inj he]

/-- Settles O42: the word read back from the frame of the store, and the address evicted by another of its slot. -/
theorem memoryProperties : Obligations.MemoryProperties := by
  unfold Obligations.MemoryProperties
  intro s a v h
  refine ⟨fun ha => ?_, memRead_pageFaults (wd := .word) h, fun b t hne hslot hb => ⟨fun u hu => ?_, fun wd l hl => ?_⟩⟩
  · obtain ⟨t, hwrite, hinv, hframe⟩ := memWrite_succeeds (wd := .word) v h ha
    obtain ⟨hword, hhalves, hbytes⟩ := hframe.memRead_subfields hinv ha
    refine ⟨t, hwrite, hinv, hinv.lookupsCounted, hword, hhalves, hbytes, fun hnone c hc hout => ?_⟩
    rw [hframe.freshPage (byteAt_none_iff.mp hnone) c hout, if_pos hc]
  · have hevicted : ¬ SlotHolds t a := fun ha => hne (hb.slotHolds.eq_of_same_slot ha (hb.params ▸ hslot))
    obtain ⟨hhits, hmisses, -⟩ := hu.effect.2.2 hevicted
    exact ⟨hmisses, hhits⟩
  · obtain rfl := memRead_pageFault_eq hl
    exact ⟨rfl, rfl⟩

end Sys2Proof.Machine
end

section
/-! Executing from the current or a cached block (spec/20_memory.md rule R112, spec/48_hart_loop.md rule R355). -/

namespace Sys2Proof.Machine

variable {s t u : State} {d : Decoded}

/-- An instruction of the current block or of a cached one executes in the state it was taken in, the rest of the block
apart: no block is built. -/
theorem FetchCase.without_build (h : FetchCase s d u) (hb : s.pending ≠ [] ∨ lookupKey s.pc.toNat s.blocks ≠ none) :
    ∃ rest, u = s.withPending rest := by
  cases h with
  | pending rest _ hu => exact ⟨rest, hu⟩
  | cached rest _ _ _ hu => exact ⟨rest, hu⟩
  | built rest m hp _ hn => simp [hp, hn] at hb

theorem step_of_ready (h : fetch s = .ready d u) : step s = finish (execDecoded d u) := by
  simp only [step, h]

/-- An instruction of a kind that makes no access leaves the Memory component as it was (R106). -/
theorem MemEffect.same_of_no_access {i : Instr} (h : MemEffect i s u) (hk : accessesMemory i.opType = false) :
    u.mem = s.mem := by
  cases h with
  | none _ hm => exact hm
  | load hacc => simp [hk] at hacc
  | store hacc => simp [hk] at hacc

/-- Settles O48: no block is built, and the instruction keeps the block cache and, unless it makes an access, the Memory
component. -/
theorem cachedBlocksDoNotFetch : Obligations.CachedBlocksDoNotFetch := by
  unfold Obligations.CachedBlocksDoNotFetch
  intro s d u hf hb
  obtain ⟨rest, rfl⟩ := (fetch_ready hf).2.without_build hb
  refine ⟨rfl, rfl, rfl, step_of_ready hf, fun t ht => ?_⟩
  obtain ⟨i, u, w, hf', -, -, -, hw, rfl⟩ := step_cases ht
  obtain ⟨rfl, rfl⟩ := Fetched.ready.inj (hf.symm.trans hf')
  rw [endIteration_blocks, retired_blocks, endIteration_mem, retired_mem]
  exact ⟨hw.blocks, hw.memory.same_of_no_access⟩

end Sys2Proof.Machine
end

section
/-! The decoder as one equivalence: a word decodes to `i` exactly when it belongs to the row of `i` and the operands of
`i` are the ones read from its fields (spec/30_encoding.md rules R141 to R157, R159 to R172). -/

namespace Sys2Proof

variable {mFull : Bool} {w : Word} {i : Instr}

/-- The instruction of the row of `i` whose operands are read from the fields of `w` (R141, R142, R150 to R157). -/
def Instr.readFrom (w : Word) : Instr → Instr
  | .add _ _ _ => .add (rdOf w) (rs1Of w) (rs2Of w)
  | .sub _ _ _ => .sub (rdOf w) (rs1Of w) (rs2Of w)
  | .sll _ _ _ => .sll (rdOf w) (rs1Of w) (rs2Of w)
  | .slt _ _ _ => .slt (rdOf w) (rs1Of w) (rs2Of w)
  | .sltu _ _ _ => .sltu (rdOf w) (rs1Of w) (rs2Of w)
  | .xor _ _ _ => .xor (rdOf w) (rs1Of w) (rs2Of w)
  | .srl _ _ _ => .srl (rdOf w) (rs1Of w) (rs2Of w)
  | .sra _ _ _ => .sra (rdOf w) (rs1Of w) (rs2Of w)
  | .or _ _ _ => .or (rdOf w) (rs1Of w) (rs2Of w)
  | .and _ _ _ => .and (rdOf w) (rs1Of w) (rs2Of w)
  | .mul _ _ _ => .mul (rdOf w) (rs1Of w) (rs2Of w)
  | .mulh _ _ _ => .mulh (rdOf w) (rs1Of w) (rs2Of w)
  | .mulhsu _ _ _ => .mulhsu (rdOf w) (rs1Of w) (rs2Of w)
  | .mulhu _ _ _ => .mulhu (rdOf w) (rs1Of w) (rs2Of w)
  | .div _ _ _ => .div (rdOf w) (rs1Of w) (rs2Of w)
  | .divu _ _ _ => .divu (rdOf w) (rs1Of w) (rs2Of w)
  | .rem _ _ _ => .rem (rdOf w) (rs1Of w) (rs2Of w)
  | .remu _ _ _ => .remu (rdOf w) (rs1Of w) (rs2Of w)
  | .addi _ _ _ => .addi (rdOf w) (rs1Of w) (immIOf w)
  | .slti _ _ _ => .slti (rdOf w) (rs1Of w) (immIOf w)
  | .sltiu _ _ _ => .sltiu (rdOf w) (rs1Of w) (immIOf w)
  | .xori _ _ _ => .xori (rdOf w) (rs1Of w) (immIOf w)
  | .ori _ _ _ => .ori (rdOf w) (rs1Of w) (immIOf w)
  | .andi _ _ _ => .andi (rdOf w) (rs1Of w) (immIOf w)
  | .slli _ _ _ => .slli (rdOf w) (rs1Of w) (shamtOf w)
  | .srli _ _ _ => .srli (rdOf w) (rs1Of w) (shamtOf w)
  | .srai _ _ _ => .srai (rdOf w) (rs1Of w) (shamtOf w)
  | .lui _ _ => .lui (rdOf w) (immUOf w)
  | .auipc _ _ => .auipc (rdOf w) (immUOf w)
  | .jal _ _ => .jal (rdOf w) (immJOf w)
  | .jalr _ _ _ => .jalr (rdOf w) (rs1Of w) (immIOf w)
  | .lb _ _ _ => .lb (rdOf w) (rs1Of w) (immIOf w)
  | .lh _ _ _ => .lh (rdOf w) (rs1Of w) (immIOf w)
  | .lw _ _ _ => .lw (rdOf w) (rs1Of w) (immIOf w)
  | .lbu _ _ _ => .lbu (rdOf w) (rs1Of w) (immIOf w)
  | .lhu _ _ _ => .lhu (rdOf w) (rs1Of w) (immIOf w)
  | .sb _ _ _ => .sb (rs1Of w) (rs2Of w) (immSOf w)
  | .sh _ _ _ => .sh (rs1Of w) (rs2Of w) (immSOf w)
  | .sw _ _ _ => .sw (rs1Of w) (rs2Of w) (immSOf w)
  | .beq _ _ _ => .beq (rs1Of w) (rs2Of w) (immBOf w)
  | .bne _ _ _ => .bne (rs1Of w) (rs2Of w) (immBOf w)
  | .blt _ _ _ => .blt (rs1Of w) (rs2Of w) (immBOf w)
  | .bge _ _ _ => .bge (rs1Of w) (rs2Of w) (immBOf w)
  | .bltu _ _ _ => .bltu (rs1Of w) (rs2Of w) (immBOf w)
  | .bgeu _ _ _ => .bgeu (rs1Of w) (rs2Of w) (immBOf w)
  | .fence => .fence
  | .ecall => .ecall
  | .ebreak => .ebreak
  | .csrrw _ _ _ => .csrrw (rdOf w) (csrOf w) (rs1Of w)
  | .csrrs _ _ _ => .csrrs (rdOf w) (csrOf w) (rs1Of w)
  | .csrrc _ _ _ => .csrrc (rdOf w) (csrOf w) (rs1Of w)
  | .csrrwi _ _ _ => .csrrwi (rdOf w) (csrOf w) (uimmOf w)
  | .csrrsi _ _ _ => .csrrsi (rdOf w) (csrOf w) (uimmOf w)
  | .csrrci _ _ _ => .csrrci (rdOf w) (csrOf w) (uimmOf w)
  | .fpLoad _ _ _ _ _ => .fpLoad (rdOf w) (rs1Of w) (rs2Of w) (rs3Of w) (rmOf w)
  | .fpStore _ _ _ _ _ => .fpStore (rdOf w) (rs1Of w) (rs2Of w) (rs3Of w) (rmOf w)
  | .fpMadd _ _ _ _ _ => .fpMadd (rdOf w) (rs1Of w) (rs2Of w) (rs3Of w) (rmOf w)
  | .fpMsub _ _ _ _ _ => .fpMsub (rdOf w) (rs1Of w) (rs2Of w) (rs3Of w) (rmOf w)
  | .fpNmsub _ _ _ _ _ => .fpNmsub (rdOf w) (rs1Of w) (rs2Of w) (rs3Of w) (rmOf w)
  | .fpNmadd _ _ _ _ _ => .fpNmadd (rdOf w) (rs1Of w) (rs2Of w) (rs3Of w) (rmOf w)
  | .fpOp _ _ _ _ _ => .fpOp (rdOf w) (rs1Of w) (rs2Of w) (rs3Of w) (rmOf w)
  | .amo _ _ _ _ _ => .amo (rdOf w) (rs1Of w) (rs2Of w) (rs3Of w) (rmOf w)
  | .compressed00 _ _ _ _ _ => .compressed00 (rdOf w) (rs1Of w) (rs2Of w) (rs3Of w) (rmOf w)
  | .compressed01 _ _ _ _ _ => .compressed01 (rdOf w) (rs1Of w) (rs2Of w) (rs3Of w) (rmOf w)
  | .compressed10 _ _ _ _ _ => .compressed10 (rdOf w) (rs1Of w) (rs2Of w) (rs3Of w) (rmOf w)

theorem OpcodeRow.selects_iff {r : OpcodeRow} :
    r.selects mFull w = true ↔ (r.needsMFull = true → mFull = true) ∧ w &&& r.mask = r.pattern := by
  cases mFull <;> simp [OpcodeRow.selects]

/-- A word of the row of `i` decodes to that row's instruction, its operands read from the word. -/
theorem decode_of_row (h : i.row.selects mFull w = true) : decode mFull w = .instr (i.readFrom w) := by
  obtain ⟨hm, hw⟩ := OpcodeRow.selects_iff.mp h
  cases i with
  | add => exact row_add mFull w hw
  | sub => exact row_sub mFull w hw
  | sll => exact row_sll mFull w hw
  | slt => exact row_slt mFull w hw
  | sltu => exact row_sltu mFull w hw
  | xor => exact row_xor mFull w hw
  | srl => exact row_srl mFull w hw
  | sra => exact row_sra mFull w hw
  | or => exact row_or mFull w hw
  | and => exact row_and mFull w hw
  | mul => exact row_mul mFull w hw
  | mulh => exact hm rfl ▸ row_mulh w hw
  | mulhsu => exact hm rfl ▸ row_mulhsu w hw
  | mulhu => exact hm rfl ▸ row_mulhu w hw
  | div => exact row_div mFull w hw
  | divu => exact hm rfl ▸ row_divu w hw
  | rem => exact hm rfl ▸ row_rem w hw
  | remu => exact hm rfl ▸ row_remu w hw
  | addi => exact row_addi mFull w hw
  | slti => exact row_slti mFull w hw
  | sltiu => exact row_sltiu mFull w hw
  | xori => exact row_xori mFull w hw
  | ori => exact row_ori mFull w hw
  | andi => exact row_andi mFull w hw
  | slli => exact row_slli mFull w hw
  | srli => exact row_srli mFull w hw
  | srai => exact row_srai mFull w hw
  | lui => exact row_lui mFull w hw
  | auipc => exact row_auipc mFull w hw
  | jal => exact row_jal mFull w hw
  | jalr => exact row_jalr mFull w hw
  | lb => exact row_lb mFull w hw
  | lh => exact row_lh mFull w hw
  | lw => exact row_lw mFull w hw
  | lbu => exact row_lbu mFull w hw
  | lhu => exact row_lhu mFull w hw
  | sb => exact row_sb mFull w hw
  | sh => exact row_sh mFull w hw
  | sw => exact row_sw mFull w hw
  | beq => exact row_beq mFull w hw
  | bne => exact row_bne mFull w hw
  | blt => exact row_blt mFull w hw
  | bge => exact row_bge mFull w hw
  | bltu => exact row_bltu mFull w hw
  | bgeu => exact row_bgeu mFull w hw
  | fence => exact row_fence mFull w hw
  | ecall => exact row_ecall mFull w hw
  | ebreak => exact row_ebreak mFull w hw
  | csrrw => exact row_csrrw mFull w hw
  | csrrs => exact row_csrrs mFull w hw
  | csrrc => exact row_csrrc mFull w hw
  | csrrwi => exact row_csrrwi mFull w hw
  | csrrsi => exact row_csrrsi mFull w hw
  | csrrci => exact row_csrrci mFull w hw
  | fpLoad => exact row_fpLoad mFull w hw
  | fpStore => exact row_fpStore mFull w hw
  | fpMadd => exact row_fpMadd mFull w hw
  | fpMsub => exact row_fpMsub mFull w hw
  | fpNmsub => exact row_fpNmsub mFull w hw
  | fpNmadd => exact row_fpNmadd mFull w hw
  | fpOp => exact row_fpOp mFull w hw
  | amo => exact row_amo mFull w hw
  | compressed00 => exact row_compressed00 mFull w hw
  | compressed01 => exact row_compressed01 mFull w hw
  | compressed10 => exact row_compressed10 mFull w hw

/-- What `decode` answers for `w` is UNKNOWN, or an instruction of a row that selects `w`, read from `w`. -/
def ReadFromRow (mFull : Bool) (w : Word) : Decoded → Prop
  | .instr i => i.row.selects mFull w = true ∧ i.readFrom w = i
  | .unknown => True

theorem ReadFromRow.of_word (hm : i.row.needsMFull = true → mFull = true) (hw : w &&& i.row.mask = i.row.pattern)
    (hr : i.readFrom w = i) : ReadFromRow mFull w (.instr i) :=
  ⟨OpcodeRow.selects_iff.mpr ⟨hm, hw⟩, hr⟩

theorem decode_readFromRow (mFull : Bool) (w : Word) : ReadFromRow mFull w (decode mFull w) := by
  apply decode_inv
  case hu => exact trivial
  case h_mulh | h_mulhsu | h_mulhu | h_divu | h_rem | h_remu => exact fun hm hw => .of_word (fun _ => hm) hw rfl
  all_goals exact fun hw => .of_word nofun hw rfl

theorem decode_eq_instr_iff :
    decode mFull w = .instr i ↔ i.row.selects mFull w = true ∧ i.readFrom w = i := by
  constructor
  · intro h
    have hrow := decode_readFromRow mFull w
    rwa [h] at hrow
  · rintro ⟨hsel, hread⟩
    rw [decode_of_row hsel, hread]

/-! ### The opcode table and the rows of the instructions -/

/-- The row of every instruction is a row of the table, of the instruction's kind, and holds the instruction's word. -/
theorem tableRow (i : Instr) : Laws.TableRow.Statement i := by
  cases i with
  | add => exact Laws.TableRow.add ..
  | sub => exact Laws.TableRow.sub ..
  | sll => exact Laws.TableRow.sll ..
  | slt => exact Laws.TableRow.slt ..
  | sltu => exact Laws.TableRow.sltu ..
  | xor => exact Laws.TableRow.xor ..
  | srl => exact Laws.TableRow.srl ..
  | sra => exact Laws.TableRow.sra ..
  | or => exact Laws.TableRow.or ..
  | and => exact Laws.TableRow.and ..
  | mul => exact Laws.TableRow.mul ..
  | mulh => exact Laws.TableRow.mulh ..
  | mulhsu => exact Laws.TableRow.mulhsu ..
  | mulhu => exact Laws.TableRow.mulhu ..
  | div => exact Laws.TableRow.div ..
  | divu => exact Laws.TableRow.divu ..
  | rem => exact Laws.TableRow.rem ..
  | remu => exact Laws.TableRow.remu ..
  | addi => exact Laws.TableRow.addi ..
  | slti => exact Laws.TableRow.slti ..
  | sltiu => exact Laws.TableRow.sltiu ..
  | xori => exact Laws.TableRow.xori ..
  | ori => exact Laws.TableRow.ori ..
  | andi => exact Laws.TableRow.andi ..
  | slli => exact Laws.TableRow.slli ..
  | srli => exact Laws.TableRow.srli ..
  | srai => exact Laws.TableRow.srai ..
  | lui => exact Laws.TableRow.lui ..
  | auipc => exact Laws.TableRow.auipc ..
  | jal => exact Laws.TableRow.jal ..
  | jalr => exact Laws.TableRow.jalr ..
  | lb => exact Laws.TableRow.lb ..
  | lh => exact Laws.TableRow.lh ..
  | lw => exact Laws.TableRow.lw ..
  | lbu => exact Laws.TableRow.lbu ..
  | lhu => exact Laws.TableRow.lhu ..
  | sb => exact Laws.TableRow.sb ..
  | sh => exact Laws.TableRow.sh ..
  | sw => exact Laws.TableRow.sw ..
  | beq => exact Laws.TableRow.beq ..
  | bne => exact Laws.TableRow.bne ..
  | blt => exact Laws.TableRow.blt ..
  | bge => exact Laws.TableRow.bge ..
  | bltu => exact Laws.TableRow.bltu ..
  | bgeu => exact Laws.TableRow.bgeu ..
  | fence => exact Laws.TableRow.fence ..
  | ecall => exact Laws.TableRow.ecall ..
  | ebreak => exact Laws.TableRow.ebreak ..
  | csrrw => exact Laws.TableRow.csrrw ..
  | csrrs => exact Laws.TableRow.csrrs ..
  | csrrc => exact Laws.TableRow.csrrc ..
  | csrrwi => exact Laws.TableRow.csrrwi ..
  | csrrsi => exact Laws.TableRow.csrrsi ..
  | csrrci => exact Laws.TableRow.csrrci ..
  | fpLoad => exact Laws.TableRow.fpLoad ..
  | fpStore => exact Laws.TableRow.fpStore ..
  | fpMadd => exact Laws.TableRow.fpMadd ..
  | fpMsub => exact Laws.TableRow.fpMsub ..
  | fpNmsub => exact Laws.TableRow.fpNmsub ..
  | fpNmadd => exact Laws.TableRow.fpNmadd ..
  | fpOp => exact Laws.TableRow.fpOp ..
  | amo => exact Laws.TableRow.amo ..
  | compressed00 => exact Laws.TableRow.compressed00 ..
  | compressed01 => exact Laws.TableRow.compressed01 ..
  | compressed10 => exact Laws.TableRow.compressed10 ..

/-- One instruction of each row of the opcode table, in the table's order. -/
def tableInstrs : List Instr :=
  [.add 0 0 0, .sub 0 0 0, .sll 0 0 0, .slt 0 0 0, .sltu 0 0 0, .xor 0 0 0, .srl 0 0 0, .sra 0 0 0, .or 0 0 0, .and 0
   0 0, .mul 0 0 0, .mulh 0 0 0, .mulhsu 0 0 0, .mulhu 0 0 0, .div 0 0 0, .divu 0 0 0, .rem 0 0 0, .remu 0 0 0, .addi
   0 0 0, .slti 0 0 0, .sltiu 0 0 0, .xori 0 0 0, .ori 0 0 0, .andi 0 0 0, .slli 0 0 0, .srli 0 0 0, .srai 0 0 0, .lui
   0 0, .auipc 0 0, .jal 0 0, .jalr 0 0 0, .lb 0 0 0, .lh 0 0 0, .lw 0 0 0, .lbu 0 0 0, .lhu 0 0 0, .sb 0 0 0, .sh 0 0
   0, .sw 0 0 0, .beq 0 0 0, .bne 0 0 0, .blt 0 0 0, .bge 0 0 0, .bltu 0 0 0, .bgeu 0 0 0, .fence, .ecall, .ebreak,
   .csrrw 0 0 0, .csrrs 0 0 0, .csrrc 0 0 0, .csrrwi 0 0 0, .csrrsi 0 0 0, .csrrci 0 0 0, .fpLoad 0 0 0 0 0, .fpStore
   0 0 0 0 0, .fpMadd 0 0 0 0 0, .fpMsub 0 0 0 0 0, .fpNmsub 0 0 0 0 0, .fpNmadd 0 0 0 0 0, .fpOp 0 0 0 0 0, .amo 0 0
   0 0 0, .compressed00 0 0 0 0 0, .compressed01 0 0 0 0 0, .compressed10 0 0 0 0 0]

theorem opcodeTable_eq : opcodeTable = tableInstrs.map Instr.row := rfl

theorem opType_readFrom (w : Word) (i : Instr) : (i.readFrom w).opType = i.opType := by cases i <;> rfl

/-- Settles O10: every row of the table is the row of an instruction, and a decoded instruction is of a row that selects
the word. -/
theorem decoderFollowsTable : Obligations.DecoderFollowsTable := by
  unfold Obligations.DecoderFollowsTable
  refine fun mFull w => ⟨fun r hr hsel => ?_, fun hnone => ?_⟩
  · obtain ⟨i, -, rfl⟩ := List.mem_map.mp (opcodeTable_eq ▸ hr)
    obtain ⟨-, hkind, -⟩ := tableRow i
    rw [decode_of_row hsel, hkind]
    exact opType_readFrom w i
  · cases hd : decode mFull w with
    | unknown => rfl
    | instr i =>
      obtain ⟨hmem, -, -⟩ := tableRow i
      obtain ⟨hsel, -⟩ := decode_eq_instr_iff.mp hd
      exact absurd hsel (Bool.eq_false_iff.mp (hnone _ hmem))

end Sys2Proof
end

section
/-! Decoding the word of a well-formed instruction (spec/30_encoding.md rules R143 to R157). -/

namespace Sys2Proof

variable {mFull : Bool} {i : Instr}

theorem needsMFull_of_wellFormed (h : WellFormed mFull i = true) (hm : i.row.needsMFull = true) : mFull = true := by
  cases i with
  | mulh | mulhsu | mulhu | divu | rem | remu => exact h
  | _ => exact absurd hm Bool.false_ne_true

theorem uimmOf_encCsr {rd : RegIdx} {csr : CsrIdx} {imm : Word} {f3 : Nat} (h3 : f3 < 8) (h : imm5 imm = true) :
    uimmOf (encCsr csr (bits imm 4 0) f3 rd) = imm := by
  rw [uimmOf, encCsr_src h3 (bits_lt imm 4 0)]
  exact ofNat_toNat_bits imm (by simpa [imm5] using h)

theorem encCsr_rs1_reg {rd rs1 : RegIdx} {csr : CsrIdx} {f3 : Nat} (h3 : f3 < 8) :
    rs1Of (encCsr csr rs1.toNat f3 rd) = rs1 := by
  rw [encCsr_rs1 h3 rs1.isLt, BitVec.ofNat_toNat, BitVec.setWidth_eq]

/-- The fields of the word of a well-formed instruction are its operands, format by format. -/
theorem readFrom_encode (h : WellFormed mFull i = true) : i.readFrom (encode i) = i := by
  cases i with
  | add | sub | sll | slt | sltu | xor | srl | sra | or | and | mul | mulh | mulhsu | mulhu | div | divu | rem | remu =>
    simp [Instr.readFrom, encode, encR_rd, encR_rs1, encR_rs2]
  | addi | slti | sltiu | xori | ori | andi | jalr | lb | lh | lw | lbu | lhu =>
    have himm : immI _ = true := h
    simp [Instr.readFrom, encode, encI_rd, encI_rs1, immIOf_encI, himm]
  | slli | srli | srai =>
    have himm : imm5 _ = true := h
    simp [Instr.readFrom, encode, encShift_rd, encShift_rs1, shamtOf_encShift, himm]
  | lui | auipc =>
    have himm : immU _ = true := h
    simp [Instr.readFrom, encode, encU_rd, immUOf_encU, himm]
  | jal =>
    have himm : immJ _ = true := h
    simp [Instr.readFrom, encode, encJ_rd, immJOf_encJ, himm]
  | sb | sh | sw =>
    have himm : immI _ = true := h
    simp [Instr.readFrom, encode, encS_rs1, encS_rs2, immSOf_encS, himm]
  | beq | bne | blt | bge | bltu | bgeu =>
    have himm : immB _ = true := h
    simp [Instr.readFrom, encode, encB_rs1, encB_rs2, immBOf_encB, himm]
  | fence | ecall | ebreak => rfl
  | csrrw rd csr rs1 | csrrs rd csr rs1 | csrrc rd csr rs1 =>
    have hsrc : rs1.toNat < 32 := rs1.isLt
    simp [Instr.readFrom, encode, encCsr_rd, encCsr_csr, encCsr_rs1_reg, hsrc]
  | csrrwi rd csr imm | csrrsi rd csr imm | csrrci rd csr imm =>
    have himm : imm5 imm = true := h
    have hsrc : bits imm 4 0 < 32 := bits_lt imm 4 0
    simp [Instr.readFrom, encode, encCsr_rd, encCsr_csr, uimmOf_encCsr, hsrc, himm]
  | fpLoad | fpStore | fpMadd | fpMsub | fpNmsub | fpNmadd | fpOp | amo | compressed00 | compressed01 | compressed10 =>
    simp [Instr.readFrom, encode, encClass_rd, encClass_rs1, encClass_rs2, encClass_rs3, encClass_rm]

/-- Settles O7: the word of `i` is in the row of `i`, and the operands read from it are those of `i`. -/
theorem decodeOfEncode : Obligations.DecodeOfEncode := by
  unfold Obligations.DecodeOfEncode
  intro mFull i h
  obtain ⟨-, -, hword⟩ := tableRow i
  exact decode_eq_instr_iff.mpr
    ⟨OpcodeRow.selects_iff.mpr ⟨needsMFull_of_wellFormed h, hword⟩, readFrom_encode h⟩

end Sys2Proof
end

section
/-! The word of a decoded instruction, and the range of a decoded immediate (spec/30_encoding.md rules R143 to R157). -/

namespace Sys2Proof

variable {mFull : Bool} {w p : Word} {i : Instr}

/-! ### Fields of a sign-extended immediate -/

/-- Sign extension leaves the bits of the field as they are (R12). -/
theorem bits_sextField {f width hi lo : Nat} (h1 : 1 ≤ width) (h2 : width ≤ 32) (hlo : lo ≤ hi) (hhi : hi < width) :
    bits (sextField f width) hi lo = f / 2 ^ lo % 2 ^ (hi - lo + 1) := by
  refine Nat.eq_of_testBit_eq fun k => ?_
  rw [bits_testBit, sextField, BitVec.getLsbD_ofNat, testBit_sext f width 32 (lo + k) h1 h2,
    Nat.testBit_mod_two_pow, Nat.testBit_div_two_pow, Nat.add_comm k lo]
  by_cases hk : k < hi - lo + 1
  · rw [if_pos (by omega : lo + k < width), decide_eq_true (by omega : lo + k < 32), Bool.true_and]
  · simp [hk]

theorem fitsSigned_sextField (f : Nat) {width : Nat} (h1 : 1 ≤ width) (h2 : width ≤ 32) :
    fitsSigned width (sextField f width) = true := by
  have hlt : f % 2 ^ width < 2 ^ width := Nat.mod_lt _ (by positivity)
  have hhalf : 2 ^ width = 2 * 2 ^ (width - 1) := by rw [← pow_succ', Nat.sub_add_cancel h1]
  have hle : 2 ^ width ≤ 2 ^ 32 := Nat.pow_le_pow_right (by norm_num) h2
  rw [fitsSigned_iff, sextField, BitVec.toNat_ofNat, sext]
  split
  · left; omega
  · right; omega

theorem even_sextField {f width : Nat} (h1 : 1 ≤ width) (h2 : width ≤ 32) (hf : f % 2 = 0) :
    (sextField f width).toNat % 2 = 0 := by
  have hbit := bits_sextField (f := f) (lo := 0) (hi := 0) h1 h2 le_rfl h1
  simpa [bits, hf] using hbit

theorem immI_immIOf (w : Word) : immI (immIOf w) = true := fitsSigned_sextField _ (by decide) (by decide)

theorem immI_immSOf (w : Word) : immI (immSOf w) = true := fitsSigned_sextField _ (by decide) (by decide)

theorem immB_immBOf (w : Word) : immB (immBOf w) = true := by
  rw [immB, Bool.and_eq_true, decide_eq_true_eq]
  exact ⟨fitsSigned_sextField _ (by decide) (by decide), even_sextField (by decide) (by decide) (by omega)⟩

theorem immJ_immJOf (w : Word) : immJ (immJOf w) = true := by
  rw [immJ, Bool.and_eq_true, decide_eq_true_eq]
  exact ⟨fitsSigned_sextField _ (by decide) (by decide), even_sextField (by decide) (by decide) (by omega)⟩

theorem immU_ofNat (n : Nat) : immU (BitVec.ofNat 32 (2 ^ 12 * n)) = true := by
  rw [immU, decide_eq_true_eq, BitVec.toNat_ofNat]
  omega

theorem imm5_ofNat_bits (w : Word) (lo : Nat) : imm5 (BitVec.ofNat 32 (bits w (lo + 4) lo)) = true := by
  have hlt := bits_lt w (lo + 4) lo
  rw [Nat.add_sub_cancel_left] at hlt
  rw [imm5, decide_eq_true_eq, BitVec.toNat_ofNat]
  omega

/-! ### Decoded instructions are well-formed -/

theorem wellFormed_readFrom (hm : i.row.needsMFull = true → mFull = true) (w : Word) :
    WellFormed mFull (i.readFrom w) = true := by
  cases i with
  | add | sub | sll | slt | sltu | xor | srl | sra | or | and | mul | div => rfl
  | mulh | mulhsu | mulhu | divu | rem | remu => exact hm rfl
  | addi | slti | sltiu | xori | ori | andi | jalr | lb | lh | lw | lbu | lhu => exact immI_immIOf w
  | slli | srli | srai => exact imm5_ofNat_bits w 20
  | lui | auipc => exact immU_ofNat _
  | jal => exact immJ_immJOf w
  | sb | sh | sw => exact immI_immSOf w
  | beq | bne | blt | bge | bltu | bgeu => exact immB_immBOf w
  | fence | ecall | ebreak | csrrw | csrrs | csrrc => rfl
  | csrrwi | csrrsi | csrrci => exact imm5_ofNat_bits w 15
  | fpLoad | fpStore | fpMadd | fpMsub | fpNmsub | fpNmadd | fpOp | amo | compressed00 | compressed01 | compressed10 =>
    rfl

/-- Settles O9: a decoded instruction has its immediate from a field, and is of a row that exists under `mFull`. -/
theorem decodedIsWellFormed : Obligations.DecodedIsWellFormed := by
  unfold Obligations.DecodedIsWellFormed
  intro mFull w i h
  obtain ⟨hsel, hread⟩ := decode_eq_instr_iff.mp h
  obtain ⟨hm, -⟩ := OpcodeRow.selects_iff.mp hsel
  exact hread ▸ wellFormed_readFrom hm w

/-! ### A word is put together from its fields, format by format -/

theorem toNat_regField (w : Word) (lo : Nat) : (regField w lo).toNat = bits w (lo + 4) lo := by
  have hlt := bits_lt w (lo + 4) lo
  rw [Nat.add_sub_cancel_left] at hlt
  rw [regField, BitVec.toNat_ofNat, Nat.mod_eq_of_lt hlt]

theorem toNat_rdOf (w : Word) : (rdOf w).toNat = bits w 11 7 := toNat_regField w 7
theorem toNat_rs1Of (w : Word) : (rs1Of w).toNat = bits w 19 15 := toNat_regField w 15
theorem toNat_rs2Of (w : Word) : (rs2Of w).toNat = bits w 24 20 := toNat_regField w 20

/-- A field is its high part followed by its low part (R9). -/
theorem bits_split (w : Word) {hi : Nat} (mid : Nat) {lo : Nat} (h1 : lo < mid) (h2 : mid ≤ hi) :
    bits w hi lo = 2 ^ (mid - lo) * bits w hi mid + bits w (mid - 1) lo := by
  have hwidth : 2 ^ (hi - lo + 1) = 2 ^ (mid - lo) * 2 ^ (hi - mid + 1) := by rw [← pow_add]; congr 1; omega
  have hlow : mid - 1 - lo + 1 = mid - lo := by omega
  have hshift : 2 ^ lo * 2 ^ (mid - lo) = 2 ^ mid := by rw [← pow_add]; congr 1; omega
  rw [bits, hwidth, Nat.mod_mul, Nat.div_div_eq_div_mul, hshift, Nat.add_comm]
  simp only [bits, hlow]

theorem toNat_eq_bits (w : Word) : w.toNat = bits w 31 0 := by
  have := w.isLt
  simp only [bits]
  omega

theorem toNat_eq_fieldsU (w : Word) : w.toNat = 2 ^ 12 * bits w 31 12 + 2 ^ 7 * bits w 11 7 + bits w 6 0 := by
  rw [toNat_eq_bits, bits_split w 12 (by decide) (by decide), Nat.add_assoc]
  congr 1
  exact bits_split w 7 (by decide) (by decide)

theorem toNat_eq_fieldsI (w : Word) :
    w.toNat = 2 ^ 20 * bits w 31 20 + 2 ^ 15 * bits w 19 15 + 2 ^ 12 * bits w 14 12 + 2 ^ 7 * bits w 11 7 +
      bits w 6 0 := by
  have h20 : bits w 31 12 = 2 ^ 8 * bits w 31 20 + bits w 19 12 := bits_split w 20 (by decide) (by decide)
  have h15 : bits w 19 12 = 2 ^ 3 * bits w 19 15 + bits w 14 12 := bits_split w 15 (by decide) (by decide)
  rw [toNat_eq_fieldsU]
  omega

theorem toNat_eq_fieldsR (w : Word) :
    w.toNat = 2 ^ 25 * bits w 31 25 + 2 ^ 20 * bits w 24 20 + 2 ^ 15 * bits w 19 15 + 2 ^ 12 * bits w 14 12 +
      2 ^ 7 * bits w 11 7 + bits w 6 0 := by
  have h25 : bits w 31 20 = 2 ^ 5 * bits w 31 25 + bits w 24 20 := bits_split w 25 (by decide) (by decide)
  rw [toNat_eq_fieldsI]
  omega

theorem encR_fields (w : Word) :
    encR (bits w 31 25) (rs2Of w) (rs1Of w) (bits w 14 12) (rdOf w) (bits w 6 0) = w := by
  simp only [encR, toNat_rdOf, toNat_rs1Of, toNat_rs2Of]
  exact ofNat_eq_of _ _ (toNat_eq_fieldsR w).symm

theorem bits_immIOf (w : Word) : bits (immIOf w) 11 0 = bits w 31 20 := by
  have := bits_lt w 31 20
  rw [immIOf, bits_sextField (by decide) (by decide) (by decide) (by decide)]
  omega

theorem encI_fields (w : Word) : encI (immIOf w) (rs1Of w) (bits w 14 12) (rdOf w) (bits w 6 0) = w := by
  simp only [encI, toNat_rdOf, toNat_rs1Of, bits_immIOf]
  exact ofNat_eq_of _ _ (toNat_eq_fieldsI w).symm

theorem bits_shamtOf (w : Word) : bits (shamtOf w) 4 0 = bits w 24 20 := by
  have := bits_lt w 24 20
  rw [shamtOf, bits_ofNat]
  omega

theorem encShift_fields (w : Word) :
    encShift (bits w 31 25) (shamtOf w) (rs1Of w) (bits w 14 12) (rdOf w) (bits w 6 0) = w := by
  simp only [encShift, toNat_rdOf, toNat_rs1Of, bits_shamtOf]
  exact ofNat_eq_of _ _ (toNat_eq_fieldsR w).symm

/-- The pieces of an S-type immediate are the fields it is read from (R152). -/
theorem bits_immSOf (w : Word) : bits (immSOf w) 11 5 = bits w 31 25 ∧ bits (immSOf w) 4 0 = bits w 11 7 := by
  have := bits_lt w 31 25
  have := bits_lt w 11 7
  constructor <;> rw [immSOf, bits_sextField (by decide) (by decide) (by decide) (by decide)] <;> omega

theorem encS_fields (w : Word) : encS (immSOf w) (rs2Of w) (rs1Of w) (bits w 14 12) (bits w 6 0) = w := by
  obtain ⟨hhigh, hlow⟩ := bits_immSOf w
  simp only [encS, toNat_rs1Of, toNat_rs2Of, hhigh, hlow]
  exact ofNat_eq_of _ _ (toNat_eq_fieldsR w).symm

/-- The pieces of a B-type immediate are the fields it is read from (R153). -/
theorem bits_immBOf (w : Word) :
    bits (immBOf w) 12 12 = bits w 31 31 ∧ bits (immBOf w) 11 11 = bits w 7 7 ∧
      bits (immBOf w) 10 5 = bits w 30 25 ∧ bits (immBOf w) 4 1 = bits w 11 8 := by
  have := bits_lt w 31 31
  have := bits_lt w 7 7
  have := bits_lt w 30 25
  have := bits_lt w 11 8
  refine ⟨?_, ?_, ?_, ?_⟩ <;>
    rw [immBOf, bits_sextField (by decide) (by decide) (by decide) (by decide)] <;> omega

theorem encB_fields (w : Word) : encB (immBOf w) (rs2Of w) (rs1Of w) (bits w 14 12) (bits w 6 0) = w := by
  obtain ⟨h12, h11, h10to5, h4to1⟩ := bits_immBOf w
  have hhigh : bits w 31 25 = 2 ^ 6 * bits w 31 31 + bits w 30 25 := bits_split w 31 (by decide) (by decide)
  have hlow : bits w 11 7 = 2 ^ 1 * bits w 11 8 + bits w 7 7 := bits_split w 8 (by decide) (by decide)
  simp only [encB, toNat_rs1Of, toNat_rs2Of, h12, h11, h10to5, h4to1]
  refine ofNat_eq_of _ _ ?_
  rw [toNat_eq_fieldsR]
  omega

theorem bits_immUOf (w : Word) : bits (immUOf w) 31 12 = bits w 31 12 := by
  have := bits_lt w 31 12
  rw [immUOf, bits_ofNat]
  omega

theorem encU_fields (w : Word) : encU (immUOf w) (rdOf w) (bits w 6 0) = w := by
  simp only [encU, toNat_rdOf, bits_immUOf]
  exact ofNat_eq_of _ _ (toNat_eq_fieldsU w).symm

/-- The pieces of a J-type immediate are the fields it is read from (R155). -/
theorem bits_immJOf (w : Word) :
    bits (immJOf w) 20 20 = bits w 31 31 ∧ bits (immJOf w) 19 12 = bits w 19 12 ∧
      bits (immJOf w) 11 11 = bits w 20 20 ∧ bits (immJOf w) 10 1 = bits w 30 21 := by
  have := bits_lt w 31 31
  have := bits_lt w 19 12
  have := bits_lt w 20 20
  have := bits_lt w 30 21
  refine ⟨?_, ?_, ?_, ?_⟩ <;>
    rw [immJOf, bits_sextField (by decide) (by decide) (by decide) (by decide)] <;> omega

theorem encJ_fields (w : Word) : encJ (immJOf w) (rdOf w) (bits w 6 0) = w := by
  obtain ⟨h20, h19to12, h11, h10to1⟩ := bits_immJOf w
  have hupper : bits w 31 12 = 2 ^ 8 * bits w 31 20 + bits w 19 12 := bits_split w 20 (by decide) (by decide)
  have hhigh : bits w 31 20 = 2 ^ 11 * bits w 31 31 + bits w 30 20 := bits_split w 31 (by decide) (by decide)
  have hmid : bits w 30 20 = 2 ^ 1 * bits w 30 21 + bits w 20 20 := bits_split w 21 (by decide) (by decide)
  simp only [encJ, toNat_rdOf, h20, h19to12, h11, h10to1]
  refine ofNat_eq_of _ _ ?_
  rw [toNat_eq_fieldsU]
  omega

theorem encCsr_fields (hop : bits w 6 0 = 0b1110011) :
    encCsr (csrOf w) (bits w 19 15) (bits w 14 12) (rdOf w) = w := by
  have hcsr : (csrOf w).toNat = bits w 31 20 := by rw [csrOf, BitVec.toNat_ofNat, Nat.mod_eq_of_lt (bits_lt w 31 20)]
  simp only [encCsr, hcsr, toNat_rdOf, ← hop]
  exact ofNat_eq_of _ _ (toNat_eq_fieldsI w).symm

theorem bits_uimmOf (w : Word) : bits (uimmOf w) 4 0 = bits w 19 15 := by
  have := bits_lt w 19 15
  rw [uimmOf, bits_ofNat]
  omega

/-! ### The word of a decoded instruction -/

theorem and_mask_self {mask : Word} (h : w &&& mask = p) : p &&& mask = p := by
  rw [← h, BitVec.and_assoc, BitVec.and_self]

section
variable {f7 f3 op : Nat}

theorem encR_of_row (h : w &&& 0xFE00707F#32 = p) (e : bits p 31 25 = f7 ∧ bits p 14 12 = f3 ∧ bits p 6 0 = op) :
    encR f7 (rs2Of w) (rs1Of w) f3 (rdOf w) op = w := by
  obtain ⟨rfl, rfl, rfl⟩ := e
  obtain ⟨h7, h3, hop⟩ := (and_maskR_iff w p (and_mask_self h)).mp h
  rw [← h7, ← h3, ← hop, encR_fields]

theorem encShift_of_row (h : w &&& 0xFE00707F#32 = p) (e : bits p 31 25 = f7 ∧ bits p 14 12 = f3 ∧ bits p 6 0 = op) :
    encShift f7 (shamtOf w) (rs1Of w) f3 (rdOf w) op = w := by
  obtain ⟨rfl, rfl, rfl⟩ := e
  obtain ⟨h7, h3, hop⟩ := (and_maskR_iff w p (and_mask_self h)).mp h
  rw [← h7, ← h3, ← hop, encShift_fields]

theorem encI_of_row (h : w &&& 0x0000707F#32 = p) (e : bits p 14 12 = f3 ∧ bits p 6 0 = op) :
    encI (immIOf w) (rs1Of w) f3 (rdOf w) op = w := by
  obtain ⟨rfl, rfl⟩ := e
  obtain ⟨h3, hop⟩ := (and_maskI_iff w p (and_mask_self h)).mp h
  rw [← h3, ← hop, encI_fields]

theorem encS_of_row (h : w &&& 0x0000707F#32 = p) (e : bits p 14 12 = f3 ∧ bits p 6 0 = op) :
    encS (immSOf w) (rs2Of w) (rs1Of w) f3 op = w := by
  obtain ⟨rfl, rfl⟩ := e
  obtain ⟨h3, hop⟩ := (and_maskI_iff w p (and_mask_self h)).mp h
  rw [← h3, ← hop, encS_fields]

theorem encB_of_row (h : w &&& 0x0000707F#32 = p) (e : bits p 14 12 = f3 ∧ bits p 6 0 = op) :
    encB (immBOf w) (rs2Of w) (rs1Of w) f3 op = w := by
  obtain ⟨rfl, rfl⟩ := e
  obtain ⟨h3, hop⟩ := (and_maskI_iff w p (and_mask_self h)).mp h
  rw [← h3, ← hop, encB_fields]

theorem encU_of_row (h : w &&& 0x0000007F#32 = p) (e : bits p 6 0 = op) : encU (immUOf w) (rdOf w) op = w := by
  rw [← e, ← (and_maskU_iff w p (and_mask_self h)).mp h, encU_fields]

theorem encJ_of_row (h : w &&& 0x0000007F#32 = p) (e : bits p 6 0 = op) : encJ (immJOf w) (rdOf w) op = w := by
  rw [← e, ← (and_maskU_iff w p (and_mask_self h)).mp h, encJ_fields]

/-- The source field of a CSR word is a register index or the 5-bit immediate (R149). -/
theorem encCsr_of_row (h : w &&& 0x0000707F#32 = p) (e : bits p 14 12 = f3 ∧ bits p 6 0 = 0b1110011) :
    encCsr (csrOf w) (rs1Of w).toNat f3 (rdOf w) = w ∧ encCsr (csrOf w) (bits (uimmOf w) 4 0) f3 (rdOf w) = w := by
  obtain ⟨rfl, hp⟩ := e
  obtain ⟨h3, hop⟩ := (and_maskI_iff w p (and_mask_self h)).mp h
  rw [← h3, toNat_rs1Of, bits_uimmOf, encCsr_fields (hop.trans hp)]
  exact ⟨rfl, rfl⟩

end

/-- Where the record keeps every field, the word of the row's instruction read from `w` is `w`. -/
theorem encode_readFrom (hw : w &&& i.row.mask = i.row.pattern) (hf : i ≠ .fence)
    (hc : Machine.isClassKind i.opType = false) : encode (i.readFrom w) = w := by
  cases i <;> dsimp only [Instr.row] at hw
  case add | sub | sll | slt | sltu | xor | srl | sra | or | and | mul | mulh | mulhsu | mulhu | div | divu | rem |
      remu =>
    exact encR_of_row hw (by decide)
  case addi | slti | sltiu | xori | ori | andi | jalr | lb | lh | lw | lbu | lhu => exact encI_of_row hw (by decide)
  case slli | srli | srai => exact encShift_of_row hw (by decide)
  case lui | auipc => exact encU_of_row hw (by decide)
  case jal => exact encJ_of_row hw (by decide)
  case sb | sh | sw => exact encS_of_row hw (by decide)
  case beq | bne | blt | bge | bltu | bgeu => exact encB_of_row hw (by decide)
  case fence => exact absurd rfl hf
  case ecall | ebreak => exact (BitVec.and_allOnes.symm.trans hw).symm
  case csrrw | csrrs | csrrc => exact (encCsr_of_row hw (by decide)).1
  case csrrwi | csrrsi | csrrci => exact (encCsr_of_row hw (by decide)).2
  case fpLoad | fpStore | fpMadd | fpMsub | fpNmsub | fpNmadd | fpOp | amo | compressed00 | compressed01 |
      compressed10 =>
    exact absurd hc Bool.noConfusion

/-- Settles O8: a decoded instruction is the one its row reads from the word, and encoding that gives the word back. -/
theorem encodeOfDecode : Obligations.EncodeOfDecode := by
  unfold Obligations.EncodeOfDecode
  intro mFull w i h hf hc
  obtain ⟨hsel, hread⟩ := decode_eq_instr_iff.mp h
  obtain ⟨-, hw⟩ := OpcodeRow.selects_iff.mp hsel
  calc encode i = encode (i.readFrom w) := by rw [hread]
    _ = w := encode_readFrom hw hf hc

end Sys2Proof
end

section
/-! The words that end a basic block (spec/30_encoding.md rule R158), and words written out in the spec. -/

namespace Sys2Proof

variable {mFull : Bool} {w : Word}

/-- A word ends a block exactly when a row of one of the ten kinds of R158 selects it. -/
theorem isBranch_iff_selected :
    (decode mFull w).isBranch = true ↔ ∃ i : Instr, i.opType.isBranch = true ∧ i.row.selects mFull w = true := by
  constructor
  · intro h
    cases hd : decode mFull w with
    | unknown => rw [hd] at h; exact absurd h Bool.false_ne_true
    | instr i => exact ⟨i, by rwa [hd] at h, (decode_eq_instr_iff.mp hd).1⟩
  · rintro ⟨i, hb, hsel⟩
    rw [decode_of_row hsel, Decoded.isBranch, Decoded.opType, opType_readFrom, hb]

/-- The bits of 0x7000 are funct3. -/
theorem and_funct3_mask (w : Word) : w &&& 0x7000#32 = BitVec.ofNat 32 (2 ^ 12 * bits w 14 12) := by
  refine BitVec.eq_of_getLsbD_eq fun i hi => ?_
  rw [BitVec.getLsbD_ofNat, BitVec.getLsbD_and, Nat.testBit_two_pow_mul, bits_testBit]
  interval_cases i <;> simp

theorem funct3_mask_eq_iff (w : Word) (f : Nat) (hf : f < 8) :
    w &&& 0x7000#32 = BitVec.ofNat 32 (2 ^ 12 * f) ↔ bits w 14 12 = f := by
  have hlt : bits w 14 12 < 8 := bits_lt w 14 12
  rw [and_funct3_mask, ← BitVec.toNat_inj, BitVec.toNat_ofNat, BitVec.toNat_ofNat]
  omega

/-- A word of the opcode BRANCH whose funct3 is neither 010 nor 011: R158 as the statement writes it, and by fields. -/
theorem branchWord_iff :
    (w &&& 0x7F#32 = 0x63#32 ∧ w &&& 0x7000#32 ≠ 0x2000#32 ∧ w &&& 0x7000#32 ≠ 0x3000#32) ↔
      bits w 6 0 = 0b1100011 ∧ bits w 14 12 ≠ 0b010 ∧ bits w 14 12 ≠ 0b011 := by
  have hop : w &&& 0x7F#32 = 0x63#32 ↔ bits w 6 0 = 0b1100011 := and_maskU_iff w 0x63#32 (by decide)
  have h2 : w &&& 0x7000#32 = 0x2000#32 ↔ bits w 14 12 = 0b010 := funct3_mask_eq_iff w 0b010 (by decide)
  have h3 : w &&& 0x7000#32 = 0x3000#32 ↔ bits w 14 12 = 0b011 := funct3_mask_eq_iff w 0b011 (by decide)
  rw [hop, Ne, h2, Ne, h3]

/-- A row of opcode and funct3 selects the words whose two fields are those of its pattern. -/
theorem selects_of_funct3_opcode {r : OpcodeRow}
    (hr : r.needsMFull = false ∧ r.mask = 0x0000707F#32 ∧ r.pattern &&& 0x0000707F#32 = r.pattern)
    (h3 : bits w 14 12 = bits r.pattern 14 12) (hop : bits w 6 0 = bits r.pattern 6 0) : r.selects mFull w = true := by
  obtain ⟨hneeds, hmask, hpattern⟩ := hr
  rw [OpcodeRow.selects_iff, hneeds, hmask]
  exact ⟨nofun, (and_maskI_iff w _ hpattern).mpr ⟨h3, hop⟩⟩

theorem branch_row_selects (mFull : Bool) (hop : bits w 6 0 = 0b1100011) (h2 : bits w 14 12 ≠ 0b010)
    (h3 : bits w 14 12 ≠ 0b011) : ∃ i : Instr, i.opType.isBranch = true ∧ i.row.selects mFull w = true := by
  have hlt : bits w 14 12 < 8 := bits_lt w 14 12
  have hf3 : bits w 14 12 = 0 ∨ bits w 14 12 = 1 ∨ bits w 14 12 = 4 ∨ bits w 14 12 = 5 ∨ bits w 14 12 = 6 ∨
      bits w 14 12 = 7 := by omega
  obtain h | h | h | h | h | h := hf3
  · exact ⟨.beq 0 0 0, rfl, selects_of_funct3_opcode (by decide) (h.trans (by decide)) (hop.trans (by decide))⟩
  · exact ⟨.bne 0 0 0, rfl, selects_of_funct3_opcode (by decide) (h.trans (by decide)) (hop.trans (by decide))⟩
  · exact ⟨.blt 0 0 0, rfl, selects_of_funct3_opcode (by decide) (h.trans (by decide)) (hop.trans (by decide))⟩
  · exact ⟨.bge 0 0 0, rfl, selects_of_funct3_opcode (by decide) (h.trans (by decide)) (hop.trans (by decide))⟩
  · exact ⟨.bltu 0 0 0, rfl, selects_of_funct3_opcode (by decide) (h.trans (by decide)) (hop.trans (by decide))⟩
  · exact ⟨.bgeu 0 0 0, rfl, selects_of_funct3_opcode (by decide) (h.trans (by decide)) (hop.trans (by decide))⟩

/-- Settles O11: the rows of the ten kinds that end a block, and the words they select. -/
theorem branchWords : Obligations.BranchWords := by
  unfold Obligations.BranchWords
  intro mFull w
  rw [isBranch_iff_selected, branchWord_iff]
  constructor
  · rintro ⟨i, hb, hsel⟩
    obtain ⟨-, hw⟩ := OpcodeRow.selects_iff.mp hsel
    cases i with
    | jal => exact .inl hw
    | jalr => exact .inr (.inl hw)
    | beq | bne | blt | bge | bltu | bgeu =>
      dsimp only [Instr.row] at hw
      obtain ⟨h3, hop⟩ := (and_maskI_iff w _ (by decide)).mp hw
      refine .inr (.inr (.inl ?_))
      rw [h3, hop]
      decide
    | ecall => exact .inr (.inr (.inr (.inl (BitVec.and_allOnes.symm.trans hw))))
    | ebreak => exact .inr (.inr (.inr (.inr (BitVec.and_allOnes.symm.trans hw))))
    | _ => exact absurd hb Bool.false_ne_true
  · rintro (hw | hw | ⟨hop, h2, h3⟩ | rfl | rfl)
    · exact ⟨.jal 0 0, rfl, OpcodeRow.selects_iff.mpr ⟨nofun, hw⟩⟩
    · exact ⟨.jalr 0 0 0, rfl, OpcodeRow.selects_iff.mpr ⟨nofun, hw⟩⟩
    · exact branch_row_selects mFull hop h2 h3
    · exact ⟨.ecall, rfl, OpcodeRow.selects_iff.mpr ⟨nofun, rfl⟩⟩
    · exact ⟨.ebreak, rfl, OpcodeRow.selects_iff.mpr ⟨nofun, rfl⟩⟩

/-- Settles O12: each word evaluated. -/
theorem sampleWords : Obligations.SampleWords := by
  unfold Obligations.SampleWords
  decide

end Sys2Proof
end

section
/-! The expansions of `li`, `la` and `call` (spec/30_encoding.md rule R176). -/

namespace Sys2Proof

/-! ### A constant is its upper 20 bits, rounded, plus its sign-extended low 12 bits (R176) -/

theorem toNat_lo12 (d : Word) :
    (lo12 d).toNat = if d.toNat % 2 ^ 12 < 2 ^ 11 then d.toNat % 2 ^ 12 else d.toNat % 2 ^ 12 + (2 ^ 32 - 2 ^ 12) := by
  have hlow : bits d 11 0 % 2 ^ 12 = d.toNat % 2 ^ 12 := by simp [bits]
  rw [lo12, sextField, BitVec.toNat_ofNat, sext, hlow]
  split <;> omega

theorem hi20_add_lo12 (d : Word) : hi20 d + lo12 d = d := by
  have := d.isLt
  refine BitVec.eq_of_toNat_eq ?_
  rw [BitVec.toNat_add, toNat_lo12, hi20, BitVec.toNat_ofNat, bits, BitVec.toNat_add, BitVec.toNat_ofNat]
  split <;> omega

theorem hi20_of_low_zero {d : Word} (h : bits d 11 0 = 0) : hi20 d = d := by
  have hlo : lo12 d = 0#32 := by rw [lo12, h]; rfl
  have hsum := hi20_add_lo12 d
  rwa [hlo, BitVec.add_zero] at hsum

theorem immU_hi20 (d : Word) : immU (hi20 d) = true := immU_ofNat _

theorem immI_lo12 (d : Word) : immI (lo12 d) = true := fitsSigned_sextField _ (by decide) (by decide)

/-! ### The expansions are well-formed -/

theorem wellFormed_expandLi (mFull : Bool) (rd : RegIdx) (d : Word) :
    ∀ i ∈ expandLi rd d, WellFormed mFull i = true := by
  unfold expandLi
  split
  case isTrue hsmall => simpa [WellFormed] using hsmall
  case isFalse => split <;> simp [WellFormed, immU_hi20, immI_lo12]

theorem wellFormed_expandLa (mFull : Bool) (rd : RegIdx) (d : Word) :
    ∀ i ∈ (Pseudo.la rd d).expand, WellFormed mFull i = true := by
  simp [Pseudo.expand, WellFormed, immU_hi20, immI_lo12]

theorem wellFormed_expandCall (mFull : Bool) (d : Word) :
    ∀ i ∈ (Pseudo.call d).expand, WellFormed mFull i = true := by
  simp [Pseudo.expand, WellFormed, immU_hi20, immI_lo12]

end Sys2Proof

namespace Sys2Proof.Machine

variable {s t u : State} {rd : RegIdx}

/-! ### What the instructions of the expansions do -/

theorem OnlyRegister.trans (h : OnlyRegister rd s t) (h' : OnlyRegister rd t u) : OnlyRegister rd s u where
  others r hr := (h'.others r hr).trans (h.others r hr)
  zero := h'.zero

theorem SameMemory.trans (h : SameMemory s t) (h' : SameMemory t u) : SameMemory s u where
  bytes a := (h'.bytes a).trans (h.bytes a)
  component := h'.component.trans h.component

theorem execAll_cons {i : Instr} {is : List Instr} (h : exec i s = .next t) : execAll (i :: is) s = execAll is t := by
  simp only [execAll, h]

theorem execAll_pair {i j : Instr} (hi : exec i s = .next t) (hj : exec j t = .next u) :
    execAll [i, j] s = .next u := by
  rw [execAll_cons hi, execAll_cons hj]
  rfl

theorem exec_lui_spec (rd : RegIdx) (imm : Word) (h : s.branchIsTaken = false) :
    ∃ t, exec (.lui rd imm) s = .next t ∧ WritesRegister .lui rd imm s t := writeBack_spec _ _ _ h

theorem exec_auipc_spec (rd : RegIdx) (imm : Word) (h : s.branchIsTaken = false) :
    ∃ t, exec (.auipc rd imm) s = .next t ∧ WritesRegister .auipc rd (s.pc + imm) s t := writeBack_spec _ _ _ h

theorem exec_addi_spec (rd rs1 : RegIdx) (imm : Word) (h : s.branchIsTaken = false) :
    ∃ t, exec (.addi rd rs1 imm) s = .next t ∧ WritesRegister .addi rd (readReg s rs1 + imm) s t :=
  writeBack_spec _ _ _ h

/-- A jump writes the link, takes the transfer and changes nothing else (R192, R193, R277 to R279). -/
theorem jumpTo_spec (k : OpType) (rd : RegIdx) (target : Word) (s : State) :
    ∃ t, jumpTo k rd target s = .next t ∧ JumpsAndLinks k rd target s t := by
  have hregs (r : RegIdx) : readReg (retired k (takeTransfer target (writeReg s rd (s.pc + 4#32)))) r =
      readReg (writeReg s rd (s.pc + 4#32)) r := readReg_congr (by simp [takeTransfer]) r
  refine ⟨_, retire_eq _ _, ?_⟩
  exact {
    link := fun h0 => by rw [hregs, readReg_writeReg, if_pos ⟨rfl, h0⟩]
    frame := ⟨fun r hr => by rw [hregs, readReg_writeReg, if_neg (by simp [hr])], readReg_zero _⟩
    memory := ⟨fun a => byteAt_congr (by simp [takeTransfer]) (by simp [takeTransfer]) a, by simp [takeTransfer]⟩
    complete := by simp [takeTransfer]
    pc := ⟨by simp [retired_pc, takeTransfer], by simp [takeTransfer]⟩
    retired := by
      have hspec := retired_spec (k := k) (s := s) (u := takeTransfer target (writeReg s rd (s.pc + 4#32)))
        (by simp [takeTransfer]) (by simp [takeTransfer]) (by simp [takeTransfer]) (by simp [takeTransfer])
        (by simp [takeTransfer])
      simpa [takeTransfer] using hspec }

theorem exec_jalr_spec (rd rs1 : RegIdx) (imm : Word) (s : State) :
    ∃ t, exec (.jalr rd rs1 imm) s = .next t ∧
      JumpsAndLinks .jalr rd ((readReg s rs1 + imm) &&& 0xFFFFFFFE#32) s t := jumpTo_spec _ _ _ s

/-! ### The expansions executed -/

/-- An ADDI on the register an instruction has just written adds to what it wrote. -/
theorem addi_after_write {k : OpType} {v : Word} (imm : Word) (h0 : rd ≠ 0#5) (h : WritesRegister k rd v s t) :
    ∃ u, exec (.addi rd rd imm) t = .next u ∧ readReg u rd = v + imm ∧ OnlyRegister rd s u ∧ SameMemory s u := by
  obtain ⟨u, hu, haddi⟩ := exec_addi_spec rd rd imm h.retired.flag
  refine ⟨u, hu, ?_, h.frame.trans haddi.frame, h.memory.trans haddi.memory⟩
  rw [haddi.result h0, h.result h0]

theorem execAll_li (d : Word) (hflag : s.branchIsTaken = false) (h0 : rd ≠ 0#5) :
    ∃ t, execAll (expandLi rd d) s = .next t ∧ readReg t rd = d ∧ OnlyRegister rd s t ∧ SameMemory s t := by
  unfold expandLi
  split
  case isTrue =>
    obtain ⟨t, ht, haddi⟩ := exec_addi_spec rd 0#5 d hflag
    refine ⟨t, execAll_cons ht, ?_, haddi.frame, haddi.memory⟩
    rw [haddi.result h0, readReg_zero, BitVec.zero_add]
  case isFalse =>
    obtain ⟨t, ht, hlui⟩ := exec_lui_spec rd (hi20 d) hflag
    split
    case isTrue hlow =>
      exact ⟨t, execAll_cons ht, (hlui.result h0).trans (hi20_of_low_zero hlow), hlui.frame, hlui.memory⟩
    case isFalse =>
      obtain ⟨u, hu, hval, hframe, hmem⟩ := addi_after_write (lo12 d) h0 hlui
      exact ⟨u, execAll_pair ht hu, hval.trans (hi20_add_lo12 d), hframe, hmem⟩

theorem execAll_la (d : Word) (hflag : s.branchIsTaken = false) (h0 : rd ≠ 0#5) :
    ∃ t, execAll (Pseudo.la rd d).expand s = .next t ∧ readReg t rd = s.pc + d ∧ OnlyRegister rd s t ∧
      SameMemory s t := by
  obtain ⟨t, ht, hauipc⟩ := exec_auipc_spec rd (hi20 d) hflag
  obtain ⟨u, hu, hval, hframe, hmem⟩ := addi_after_write (lo12 d) h0 hauipc
  refine ⟨u, execAll_pair ht hu, ?_, hframe, hmem⟩
  rw [hval, BitVec.add_assoc, hi20_add_lo12]

theorem execAll_call (d : Word) (hflag : s.branchIsTaken = false) :
    ∃ t, execAll (Pseudo.call d).expand s = .next t ∧ t.pc = (s.pc + d) &&& 0xFFFFFFFE#32 ∧
      readReg t 1#5 = s.pc + 8#32 ∧ OnlyRegister 1#5 s t ∧ SameMemory s t := by
  have h1 : (1#5 : RegIdx) ≠ 0#5 := by decide
  obtain ⟨t, ht, hauipc⟩ := exec_auipc_spec 1#5 (hi20 d) hflag
  obtain ⟨u, hu, hjalr⟩ := exec_jalr_spec 1#5 1#5 (lo12 d) t
  refine ⟨u, execAll_pair ht hu, ?_, ?_, hauipc.frame.trans hjalr.frame, hauipc.memory.trans hjalr.memory⟩
  · rw [hjalr.pc.pc, hauipc.result h1, BitVec.add_assoc, hi20_add_lo12]
  · rw [hjalr.link h1, hauipc.pc.pc, BitVec.add_assoc]
    rfl

/-- Settles O31: each expansion executed, and each instruction of it well-formed. -/
theorem pseudoInstructions : Obligations.PseudoInstructions := by
  unfold Obligations.PseudoInstructions
  intro s rd d hflag h0
  refine ⟨execAll_li d hflag h0, execAll_la d hflag h0, execAll_call d hflag, fun mFull i hi => ?_⟩
  rw [List.mem_append, List.mem_append] at hi
  obtain (hli | hla) | hcall := hi
  · exact wellFormed_expandLi mFull rd d i hli
  · exact wellFormed_expandLa mFull rd d i hla
  · exact wellFormed_expandCall mFull d i hcall

end Sys2Proof.Machine
end

section
/-! What an instruction can change and what a fault leaves (spec/40_executor_dispatch.md rules R190 to R195, R198;
spec/60_exceptions.md rule R377). -/

namespace Sys2Proof.Machine

variable {s t u : State} {i : Instr} {d : Decoded} {a b v : Word} {wd : Width}

/-! ### The Memory component -/

/-- The addresses of a page are mapped alike. -/
theorem byteAt_none_congr (h : vpn b = vpn a) : byteAt s b = none ↔ byteAt s a = none := by
  rw [byteAt_none_iff, byteAt_none_iff, walk_congr h]

/-- A store of the component that succeeds is aligned and leaves the frame of a store (R92, R101, R105). -/
theorem Mem.store_some_frame {m : Mem} (h : s.mem.Inv s.params.tlbBits)
    (hm : s.mem.store s.params.tlbBits wd a v = some m) :
    a.toNat % wd.bytes = 0 ∧ StoreFrame wd.bytes a v s (s.withMem m) := by
  obtain ⟨ha, -⟩ := Option.ite_none_right_eq_some.mp hm
  obtain ⟨m', hwrite, -, hframe⟩ := memWrite_aligned v h ha
  obtain ⟨m'', hstore, heq⟩ := memWrite_ok hwrite
  obtain rfl := Option.some.inj (hm.symm.trans hstore)
  exact ⟨(aligned_iff wd a).mp ha, heq ▸ hframe⟩

/-- A form that stores nowhere leaves the bytes and the page table (R198). -/
theorem MemEffect.same_of_not_stored (h : MemEffect i s u) (hs : storedAt i s = Option.none) :
    Mem.SameContents s.mem u.mem := by
  cases h with
  | none _ hm => exact hm ▸ .refl s.mem
  | load _ _ wd a v hload => exact (Mem.load_done_same hload).1
  | store _ wd a v hstored => simp [hs] at hstored

/-- SB, SH and SW leave the frame of a store of their width at their effective address (R198, R250). -/
theorem MemEffect.storeFrame {n : Nat} (h : MemEffect i s u) (hinv : s.mem.Inv s.params.tlbBits)
    (hs : storedAt i s = some (a, n)) : a.toNat % n = 0 ∧ ∃ v, StoreFrame n a v s (s.withMem u.mem) := by
  cases h with
  | none hnone => simp [hs] at hnone
  | load _ hnone => simp [hs] at hnone
  | store _ wd a' v hstored hstore =>
    obtain ⟨rfl, rfl⟩ := Prod.mk.inj (Option.some.inj (hs.symm.trans hstored))
    obtain ⟨haligned, hframe⟩ := Mem.store_some_frame hinv hstore
    exact ⟨haligned, v, hframe⟩

/-- At most one page is added (R52, R94). -/
theorem MemEffect.pageCount_le (h : MemEffect i s u) (hinv : s.mem.Inv s.params.tlbBits) :
    u.mem.pageCount ≤ s.mem.pageCount + 1 := by
  cases hs : storedAt i s with
  | none => exact (h.same_of_not_stored hs).pageCount ▸ Nat.le_succ _
  | some p =>
    obtain ⟨-, v, hframe⟩ := h.storeFrame hinv hs
    have hcount : u.mem.pageCount = s.mem.pageCount + (if walk s.mem.level1 p.1 = Option.none then 1 else 0) :=
      hframe.pageCount
    split at hcount <;> omega

/-- The byte a store leaves outside the stored ones, its page new or not (R85, R101, R105). -/
theorem StoreFrame.byteAt_unstored {n : Nat} (h : StoreFrame n a v s t) (hb : ¬ inAccess a b n) :
    byteAt t b = if vpn b = vpn a ∧ byteAt s b = none then some 0#8 else byteAt s b := by
  have hpage : (byteAt s a = none ∧ vpn b = vpn a) ↔ (vpn b = vpn a ∧ byteAt s b = none) :=
    and_comm.trans (and_congr_right fun hv => (byteAt_none_congr hv).symm)
  simp only [h.byteAt_outside hb, hpage]

/-! ### The hart, once the instruction has retired -/

theorem Effect.onlyRegister (h : Effect i s u) (k : OpType) : OnlyRegister i.record.rd s (retired k u) where
  others r hr := by
    obtain ⟨v, hv⟩ := h.regs
    rw [readReg_congr (retired_regs.trans hv), readReg_writeReg, if_neg (by simp [hr])]
  zero := readReg_zero _

/-- Beside the counter pairs, only the CSR that a CSR instruction names (R43, R294). -/
theorem Effect.readCsr_other (h : Effect i s u) (k : OpType) {c : CsrIdx} (hc : c ∉ tickedCsrs)
    (hne : isCsrKind i.opType = true → c ≠ i.record.csr) : readCsr (retired k u) c = readCsr s c := by
  rw [readCsr, retired_csrs, Csrs.updateTimers_get _ _ _ hc]
  rcases h.csrs with hkept | ⟨hcsr, v, hset⟩
  · rw [hkept, readCsr]
  · rw [hset, Csrs.get_set, if_neg (hne hcsr), readCsr]

/-- npc changes only by a taken transfer, whose target pc takes (R192, R193). -/
theorem Effect.npc_cases (h : Effect i s u) (k : OpType) : (retired k u).npc = s.npc ∨
    ((retired k u).npc = (retired k u).pc ∧ i.opType.isBranch = true ∧ i ≠ .ecall) := by
  rcases h.transfer with ⟨hnpc, -⟩ | ⟨htaken, hbranch⟩
  · exact .inl (retired_npc.trans hnpc)
  · exact .inr ⟨by rw [retired_npc, Machine.retired_pc, if_pos htaken], hbranch⟩

/-- The uniform end of an instruction touches no byte of memory. -/
theorem byteAt_retired (k : OpType) (b : Word) : byteAt (retired k u) b = byteAt u b :=
  byteAt_congr (by rw [retired_mem]) (by rw [retired_mem]) b

/-- Settles O35: each clause is what the handler's effect says, read through the uniform end of the instruction. -/
theorem whatAStepChanges : Obligations.WhatAStepChanges := by
  unfold Obligations.WhatAStepChanges
  intro i s t hinv h
  obtain ⟨u, rfl, hu⟩ := exec_next h
  have hmem := hu.memory
  simp only [byteAt_retired, retired_mem]
  refine ⟨hu.onlyRegister _, fun c => hu.readCsr_other _, fun a n hs => ?_, fun hs => ?_, hmem.keeps.1,
    hmem.pageCount_le hinv, hmem.same_of_no_access, hu.npc_cases _, ?_, ?_, retired_flag,
    retired_blocks.trans hu.blocks, retired_pending.trans hu.pending, retired_params.trans hu.params,
    retired_status.trans hu.status⟩
  · obtain ⟨haligned, v, hframe⟩ := hmem.storeFrame hinv hs
    exact ⟨haligned, fun b => hframe.byteAt_unstored⟩
  · obtain ⟨hbytes, hlevel, hpages, -⟩ := hmem.same_of_not_stored hs
    exact ⟨byteAt_congr hbytes hlevel, hlevel, hpages⟩
  · exact hu.complete.imp (fun hkept => retired_complete.trans hkept.1) And.right
  · rw [retired_icount, hu.icount]

/-! ### Faults -/

/-- Every fault of `execute` leaves what its instruction found; UNKNOWN faults like an instruction (R191, R195). -/
theorem execDecoded_fault_leaves {f : Fault} (h : execDecoded d s = .fault f) :
    FaultLeaves f.kind s f.left := by
  cases d with
  | instr i => exact (exec_fault h).2
  | unknown =>
    obtain rfl := Host.Outcome.fault.inj h
    exact faultLeaves_abortRun .illegalInstruction s

/-- Settles O34: what the fault leaves has the status Faulted, from which no step is taken. -/
theorem faultLeavesState : Obligations.FaultLeavesState := by
  unfold Obligations.FaultLeavesState
  exact fun d s f h => ⟨execDecoded_fault_leaves h, step_aborted (execDecoded_fault_leaves h).status⟩

end Sys2Proof.Machine
end

section
/-! The register-register instructions (spec/41_alu_reg.md rules R210 to R219). -/

namespace Sys2Proof.Machine

variable {k : OpType} {pattern : Word} {mk : RegIdx → RegIdx → RegIdx → Instr} {f val : Word → Word → Word}

/-! ### The values of the rules -/

/-- The low five bits of a shift operand are its residue modulo 32 (R212). -/
theorem shiftAmount_eq (v : Word) : shiftAmount v = v.toNat % 32 := by
  simp [shiftAmount, bits]

/-- Subtraction wraps the exact difference (R211). -/
theorem sub_eq_ofInt (a b : Word) : a - b = BitVec.ofInt 32 ((a.toNat : Int) - b.toNat) := by
  rw [BitVec.sub_eq_add_neg, Int.sub_eq_add_neg, BitVec.ofInt_add, BitVec.ofInt_neg]
  simp

theorem shiftLeft_eq_ofNat (a b : Word) : shiftLeft a b = BitVec.ofNat 32 (a.toNat * 2 ^ (b.toNat % 32)) := by
  rw [shiftLeft, shiftAmount_eq, ← Nat.shiftLeft_eq]
  rfl

theorem shiftRightLogical_eq_ofNat (a b : Word) :
    shiftRightLogical a b = BitVec.ofNat 32 (a.toNat / 2 ^ (b.toNat % 32)) := by
  rw [shiftRightLogical, shiftAmount_eq, ← Nat.shiftRight_eq_div_pow, ← BitVec.toNat_ushiftRight, BitVec.ofNat_toNat,
    BitVec.setWidth_eq]

/-- The arithmetic shift is the floor of the signed value by the power of two (R217). -/
theorem shiftRightArith_eq_ofInt (a b : Word) :
    shiftRightArith a b = BitVec.ofInt 32 (a.toInt / 2 ^ (b.toNat % 32)) := by
  rw [shiftRightArith, shiftAmount_eq, BitVec.sshiftRight, Int.shiftRight_eq_div_pow, Nat.cast_pow]
  rfl

theorem boolWord_decide (p : Prop) [Decidable p] : boolWord (decide p) = if p then 1#32 else 0#32 :=
  if_congr decide_eq_true_iff rfl rfl

theorem boolWord_lessSigned (a b : Word) : boolWord (lessSigned a b) = if a.toInt < b.toInt then 1#32 else 0#32 :=
  boolWord_decide _

theorem boolWord_lessUnsigned (a b : Word) :
    boolWord (lessUnsigned a b) = if a.toNat < b.toNat then 1#32 else 0#32 :=
  boolWord_decide _

theorem xor_eq_ofFnLE (a b : Word) : a ^^^ b = BitVec.ofFnLE fun i => a.getLsb i != b.getLsb i := by
  ext i hi
  rw [BitVec.getElem_xor, BitVec.getElem_ofFnLE]
  rfl

theorem or_eq_ofFnLE (a b : Word) : a ||| b = BitVec.ofFnLE fun i => a.getLsb i || b.getLsb i := by
  ext i hi
  rw [BitVec.getElem_or, BitVec.getElem_ofFnLE]
  rfl

theorem and_eq_ofFnLE (a b : Word) : a &&& b = BitVec.ofFnLE fun i => a.getLsb i && b.getLsb i := by
  ext i hi
  rw [BitVec.getElem_and, BitVec.getElem_ofFnLE]
  rfl

/-! ### The shape of a register-register instruction -/

/-- The decoder's register fields are the R-type fields of the row (R141 to R143). -/
theorem RTypeRow.of_decode (hrow : ∀ mFull w, w &&& 0xFE00707F#32 = pattern →
    decode mFull w = .instr (mk (rdOf w) (rs1Of w) (rs2Of w))) : RTypeRow pattern mk := by
  intro mFull w hw
  rw [hrow mFull w hw, rdOf_eq, rs1Of_eq, rs2Of_eq]

/-- A handler that writes a value back and does nothing else is determined by that value (R190, R192, R193). -/
theorem RegisterOp.of_writeBack
    (hexec : ∀ s rd rs1 rs2, exec (mk rd rs1 rs2) s = writeBack k rd (f (readReg s rs1) (readReg s rs2)) s)
    (hval : ∀ a b, f a b = val a b) : RegisterOp k mk val := by
  intro s rd rs1 rs2 hflag
  rw [hexec, hval]
  exact writeBack_spec k rd _ hflag

/-- Settles O15: the row of each instruction, and its handler's write-back of the value its rule states. -/
theorem registerArithmetic : Obligations.RegisterArithmetic := by
  unfold Obligations.RegisterArithmetic
  exact ⟨
    ⟨.of_decode row_add, .of_writeBack (fun _ _ _ _ => rfl) BitVec.add_def⟩,
    ⟨.of_decode row_sub, .of_writeBack (fun _ _ _ _ => rfl) sub_eq_ofInt⟩,
    ⟨.of_decode row_sll, .of_writeBack (fun _ _ _ _ => rfl) shiftLeft_eq_ofNat⟩,
    ⟨.of_decode row_slt, .of_writeBack (fun _ _ _ _ => rfl) boolWord_lessSigned⟩,
    ⟨.of_decode row_sltu, .of_writeBack (fun _ _ _ _ => rfl) boolWord_lessUnsigned⟩,
    ⟨.of_decode row_xor, .of_writeBack (fun _ _ _ _ => rfl) xor_eq_ofFnLE⟩,
    ⟨.of_decode row_srl, .of_writeBack (fun _ _ _ _ => rfl) shiftRightLogical_eq_ofNat⟩,
    ⟨.of_decode row_sra, .of_writeBack (fun _ _ _ _ => rfl) shiftRightArith_eq_ofInt⟩,
    ⟨.of_decode row_or, .of_writeBack (fun _ _ _ _ => rfl) or_eq_ofFnLE⟩,
    ⟨.of_decode row_and, .of_writeBack (fun _ _ _ _ => rfl) and_eq_ofFnLE⟩⟩

end Sys2Proof.Machine
end

section
/-! The instructions with an immediate operand: OP-IMM, LUI and AUIPC (spec/42_alu_imm.md rules R230 to R240). -/

namespace Sys2Proof.Machine

variable {k : OpType} {pattern : Word} {mk : RegIdx → RegIdx → Word → Instr}
  {f val : Word → Word → Word}

/-! ### The rows -/

/-- The decoder's fields of an I-type word are those of the row (R144, R151). -/
theorem ITypeRow.of_decode (hrow : ∀ mFull w, w &&& 0x0000707F#32 = pattern →
    decode mFull w = .instr (mk (rdOf w) (rs1Of w) (immIOf w))) : ITypeRow pattern mk := by
  intro mFull w hw
  rw [hrow mFull w hw, rdOf_eq, rs1Of_eq, immIOf_eq]

/-- The decoder's fields of a shift-immediate word are those of the row (R157). -/
theorem ShiftRow.of_decode (hrow : ∀ mFull w, w &&& 0xFE00707F#32 = pattern →
    decode mFull w = .instr (mk (rdOf w) (rs1Of w) (shamtOf w))) : ShiftRow pattern mk := by
  intro mFull w hw
  rw [hrow mFull w hw, rdOf_eq, rs1Of_eq, shamtOf_eq]

/-- The decoder's fields of a U-type word are those of the row (R147, R154). -/
theorem UTypeRow.of_decode {mk : RegIdx → Word → Instr} (hrow : ∀ mFull w, w &&& 0x0000007F#32 = pattern →
    decode mFull w = .instr (mk (rdOf w) (immUOf w))) : UTypeRow pattern mk := by
  intro mFull w hw
  rw [hrow mFull w hw, rdOf_eq, immUOf_eq]

/-! ### The handlers -/

/-- A handler that writes a value back and does nothing else is determined by that value (R190, R192, R193). -/
theorem ImmediateOp.of_writeBack
    (hexec : ∀ s rd rs1 imm, exec (mk rd rs1 imm) s = writeBack k rd (f (readReg s rs1) imm) s)
    (hval : ∀ a v, f a v = val a v) : ImmediateOp k mk val := by
  intro s rd rs1 imm hflag
  rw [hexec, hval]
  exact writeBack_spec k rd _ hflag

/-- Adding a signed immediate wraps the exact sum (R230). -/
theorem add_eq_ofInt (a v : Word) : a + v = BitVec.ofInt 32 ((a.toNat : Int) + v.toInt) := by
  rw [BitVec.ofInt_add, BitVec.ofInt_toInt, BitVec.ofInt_natCast, BitVec.ofNat_toNat, BitVec.setWidth_eq]

/-- Settles O16: the row of each instruction, and its handler's write-back of the value its rule states. -/
theorem immediateArithmetic : Obligations.ImmediateArithmetic := by
  unfold Obligations.ImmediateArithmetic
  exact ⟨
    ⟨.of_decode row_addi, .of_writeBack (fun _ _ _ _ => rfl) add_eq_ofInt⟩,
    ⟨.of_decode row_slti, .of_writeBack (fun _ _ _ _ => rfl) boolWord_lessSigned⟩,
    ⟨.of_decode row_xori, .of_writeBack (fun _ _ _ _ => rfl) xor_eq_ofFnLE⟩,
    ⟨.of_decode row_ori, .of_writeBack (fun _ _ _ _ => rfl) or_eq_ofFnLE⟩,
    ⟨.of_decode row_andi, .of_writeBack (fun _ _ _ _ => rfl) and_eq_ofFnLE⟩⟩

/-- Settles O17: the two rows, and the shifts by the low five bits of the immediate. -/
theorem immediateRightShifts : Obligations.ImmediateRightShifts := by
  unfold Obligations.ImmediateRightShifts
  exact ⟨
    ⟨.of_decode row_srli, .of_writeBack (fun _ _ _ _ => rfl) shiftRightLogical_eq_ofNat⟩,
    ⟨.of_decode row_srai, .of_writeBack (fun _ _ _ _ => rfl) shiftRightArith_eq_ofInt⟩⟩

/-! ### The words of SLLI's opcode and funct3 -/

/-- Two rows that hold the same word agree on the bits both fix. -/
theorem patterns_agree {w m p m' p' : Word} (h : w &&& m = p) (h' : w &&& m' = p') : p &&& m' = p' &&& m := by
  rw [← h, ← h', BitVec.and_assoc, BitVec.and_comm m, ← BitVec.and_assoc]

/-- No row of the table but SLLI's agrees with SLLI's opcode and funct3 (R161, R163). -/
theorem row_of_slli_opcode_funct3 : ∀ r ∈ opcodeTable,
    r.pattern &&& 0x0000707F#32 = 0x00001013#32 &&& r.mask → r = (Instr.slli 0 0 0).row := by
  decide

/-- A word of SLLI's opcode and funct3 that some row selects is of SLLI's row, so its funct7 is 0 (R163, R236). -/
theorem funct7_of_slli_selected {mFull : Bool} {w : Word} {r : OpcodeRow} (hw : w &&& 0x0000707F#32 = 0x00001013#32)
    (hr : r ∈ opcodeTable) (hsel : r.selects mFull w = true) : w &&& 0xFE000000#32 = 0#32 := by
  obtain ⟨-, hrow⟩ := OpcodeRow.selects_iff.mp hsel
  obtain rfl := row_of_slli_opcode_funct3 r hr (patterns_agree hrow hw)
  calc w &&& 0xFE000000#32 = w &&& 0xFE00707F#32 &&& 0xFE000000#32 := by rw [BitVec.and_assoc]; rfl
    _ = 0x00001013#32 &&& 0xFE000000#32 := congrArg (· &&& 0xFE000000#32) hrow
    _ = 0#32 := rfl

/-- A word of SLLI's opcode and funct3 with another funct7 is of no row, so UNKNOWN (R172, R236). -/
theorem decode_slli_other_funct7 (mFull : Bool) (w : Word) (hw : w &&& 0x0000707F#32 = 0x00001013#32)
    (h7 : w &&& 0xFE000000#32 ≠ 0#32) : decode mFull w = .unknown := by
  obtain ⟨-, hnone⟩ := decoderFollowsTable mFull w
  exact hnone fun r hr => Bool.eq_false_iff.mpr fun hsel => h7 (funct7_of_slli_selected hw hr hsel)

/-- Settles O18: the two rows, their handlers' write-back, and the words of SLLI's opcode and funct3 that no row holds. -/
theorem sltiuAndSlli : Obligations.SltiuAndSlli := by
  unfold Obligations.SltiuAndSlli
  exact ⟨
    ⟨.of_decode row_sltiu, .of_writeBack (fun _ _ _ _ => rfl) boolWord_lessUnsigned⟩,
    ⟨.of_decode row_slli, .of_writeBack (fun _ _ _ _ => rfl) shiftLeft_eq_ofNat⟩,
    decode_slli_other_funct7⟩

/-- Settles O19: the two rows, and what the two handlers write; AUIPC's sum wraps. -/
theorem upperImmediates : Obligations.UpperImmediates := by
  unfold Obligations.UpperImmediates
  refine ⟨.of_decode row_lui, .of_decode row_auipc, fun s rd imm hflag => ⟨exec_lui_spec rd imm hflag, ?_⟩⟩
  rw [← BitVec.add_def]
  exact exec_auipc_spec rd imm hflag

end Sys2Proof.Machine
end

section
/-! The loads and the stores (spec/43_load_store.md rules R250 to R260). -/

namespace Sys2Proof.Machine

variable {s t u : State} {k : OpType} {wd : Width} {pattern : Word} {mk : RegIdx → RegIdx → Word → Instr}
  {f : Word → Word} {ext : Nat → Word} {rd rs1 rs2 : RegIdx} {imm a v : Word}

/-! ### The row of a store -/

/-- The decoder's fields of an S-type word are those of the row (R145, R152). -/
theorem STypeRow.of_decode (hrow : ∀ mFull w, w &&& 0x0000707F#32 = pattern →
    decode mFull w = .instr (mk (rs1Of w) (rs2Of w) (immSOf w))) : STypeRow pattern mk := by
  intro mFull w hw
  rw [hrow mFull w hw, rs1Of_eq, rs2Of_eq, immSOf_eq]

/-! ### The extended values (R260) -/

/-- Reading a number as a Word keeps the bytes of a narrower width. -/
theorem toNat_ofNat_mod_width (wd : Width) (n : Nat) :
    (BitVec.ofNat 32 n).toNat % 2 ^ (8 * wd.bytes) = n % 2 ^ (8 * wd.bytes) := by
  have hle : 8 * wd.bytes ≤ 32 := by cases wd <;> decide
  rw [BitVec.toNat_ofNat, Nat.mod_mod_of_dvd _ (Nat.pow_dvd_pow 2 hle)]

theorem signedLoad_ofNat (wd : Width) (n : Nat) :
    signedLoad wd (BitVec.ofNat 32 n) = (BitVec.ofNat (8 * wd.bytes) n).signExtend 32 := by
  have hpos : 0 < 8 * wd.bytes := by cases wd <;> decide
  have hle : 8 * wd.bytes ≤ 32 := by cases wd <;> decide
  rw [← sextField_eq _ _ hpos hle, BitVec.toNat_ofNat, signedLoad, sextField, sextField, sext, sext,
    toNat_ofNat_mod_width, Nat.mod_mod]

theorem unsignedLoad_ofNat (wd : Width) (n : Nat) :
    unsignedLoad wd (BitVec.ofNat 32 n) = (BitVec.ofNat (8 * wd.bytes) n).setWidth 32 := by
  rw [unsignedLoad, toNat_ofNat_mod_width, ← BitVec.toNat_ofNat, BitVec.ofNat_toNat]

/-! ### The frames past the access -/

theorem TranslationFrame.of_sameMemory (h : TranslationFrame a s t) (hsame : SameMemory t u) :
    TranslationFrame a s u where
  slots := hsame.component ▸ h.slots
  mappings := hsame.component ▸ h.mappings

theorem LoadFrame.of_sameMemory (h : LoadFrame a s t) (hsame : SameMemory t u) : LoadFrame a s u where
  bytes b := (hsame.bytes b).trans (h.bytes b)
  table := hsame.component ▸ h.table
  pageCount := hsame.component ▸ h.pageCount
  translation := h.translation.of_sameMemory hsame
  numLoads := hsame.component ▸ h.numLoads
  numStores := hsame.component ▸ h.numStores
  pageFaults := hsame.component ▸ h.pageFaults
  requests := hsame.component ▸ h.requests

theorem StoreFrame.of_sameMemory {n : Nat} (h : StoreFrame n a v s t) (hsame : SameMemory t u) :
    StoreFrame n a v s u where
  stored i hi := (hsame.bytes _).trans (h.stored i hi)
  unchanged b hb hmapped := (hsame.bytes b).trans (h.unchanged b hb hmapped)
  freshPage hnew b hb := (hsame.bytes b).trans (h.freshPage hnew b hb)
  translation := h.translation.of_sameMemory hsame
  pageCount := hsame.component ▸ h.pageCount
  numLoads := hsame.component ▸ h.numLoads
  numStores := hsame.component ▸ h.numStores
  pageFaults := hsame.component ▸ h.pageFaults
  requests := hsame.component ▸ h.requests

/-- No register is left to change when the one written is x0 (R33). -/
theorem OnlyRegister.sameRegisters (h : OnlyRegister 0#5 s t) : SameRegisters s t := by
  intro r
  by_cases hr : r = 0#5
  · rw [hr, readReg_zero, readReg_zero]
  · exact h.others r hr

/-- After a successful access, writing a register back ends the instruction; only the Memory component tells the state it
started from and the state after the access apart (R192, R193, R259). -/
theorem writeBack_after_access (k : OpType) (rd : RegIdx) (v : Word) (m : Mem) (hflag : s.branchIsTaken = false) :
    ∃ t, writeBack k rd v (s.withMem m) = .next t ∧ SameMemory (s.withMem m) t ∧ (rd ≠ 0#5 → readReg t rd = v) ∧
      OnlyRegister rd s t ∧ Advances s t ∧ t.complete = s.complete ∧ Retired k s.csrs s t := by
  obtain ⟨t, hnext, hwrites⟩ := writeBack_spec (s := s.withMem m) k rd v hflag
  exact ⟨t, hnext, hwrites.memory, hwrites.result, { hwrites.frame with }, { hwrites.pc with }, hwrites.complete,
    { hwrites.retired with }⟩

/-! ### The handlers, by the outcome of their access (R259) -/

theorem loadInto_of_ok (h : memRead wd (effectiveAddress s rs1 imm) s = .ok v u) :
    loadInto k wd f rd rs1 imm s = writeBack k rd (f v) u := by
  simp only [loadInto, h]
  rfl

theorem loadInto_of_fault {r : Fault} (h : memRead wd (effectiveAddress s rs1 imm) s = .fault r) :
    loadInto k wd f rd rs1 imm s = .fault r := by
  simp only [loadInto, h]

/-- A store has no rd: it ends like a write to x0 (R33, R256). -/
theorem storeFrom_of_ok (h : memWrite wd (effectiveAddress s rs1 imm) (readReg s rs2) s = .ok () u) :
    storeFrom k wd rs1 rs2 imm s = writeBack k 0#5 0#32 u := by
  simp only [storeFrom, h, writeBack, writeReg_zero]

theorem storeFrom_of_fault {r : Fault} (h : memWrite wd (effectiveAddress s rs1 imm) (readReg s rs2) s = .fault r) :
    storeFrom k wd rs1 rs2 imm s = .fault r := by
  simp only [storeFrom, h]

/-! ### The shapes of a load and of a store -/

/-- A load is determined by its width and by how it extends the bytes read (R250 to R255, R260). -/
theorem LoadInstr.of_loadInto (hexec : ∀ s rd rs1 imm, exec (mk rd rs1 imm) s = loadInto k wd f rd rs1 imm s)
    (hval : ∀ n, f (BitVec.ofNat 32 n) = ext n) : LoadInstr k wd.bytes mk ext := by
  rintro s rd rs1 imm ea hinv hflag (rfl : ea = effectiveAddress s rs1 imm)
  rw [Faults, FaultsUnchanged, hexec]
  refine ⟨fun ha hb => ?_, fun ha => ?_, fun ha hb => ?_⟩
  · obtain ⟨u, hread, hload⟩ := memRead_eq_littleEndian hinv ha hb
    obtain ⟨m, -, rfl⟩ := memRead_ok hread
    rw [loadInto_of_ok hread, hval]
    obtain ⟨t, hnext, hsame, hresult, hregs, hrest⟩ := writeBack_after_access k rd (ext _) m hflag
    exact ⟨t, hnext, hresult, hregs, hload.of_sameMemory hsame, hrest⟩
  · exact ⟨_, loadInto_of_fault (memRead_misaligned (aligned_eq_false ha)), rfl, rfl, rfl⟩
  · have hread := memRead_unmapped hinv ((aligned_iff wd _).mpr ha) (byteAt_none_iff.mp hb)
    exact ⟨_, loadInto_of_fault hread, rfl, rfl, faultLeaves_unmapped s⟩

/-- A store is determined by its width (R250, R256 to R258). -/
theorem StoreInstr.of_storeFrom (hexec : ∀ s rs1 rs2 imm, exec (mk rs1 rs2 imm) s = storeFrom k wd rs1 rs2 imm s) :
    StoreInstr k wd.bytes mk := by
  rintro s rs1 rs2 imm _ hinv hflag rfl
  rw [FaultsUnchanged, hexec]
  refine ⟨rfl, fun ha => ?_, fun ha => ?_⟩
  · obtain ⟨u, hwrite, -, hstore⟩ := memWrite_succeeds (readReg s rs2) hinv ha
    obtain ⟨m, -, rfl⟩ := memWrite_ok hwrite
    rw [storeFrom_of_ok hwrite]
    obtain ⟨t, hnext, hsame, -, hregs, hrest⟩ := writeBack_after_access k 0#5 0#32 m hflag
    exact ⟨t, hnext, hstore.of_sameMemory hsame, hregs.sameRegisters, hrest⟩
  · exact ⟨_, storeFrom_of_fault (memWrite_misaligned (aligned_eq_false ha)), rfl, rfl, rfl⟩

/-- Settles O20: the row of each load, and its handler's access, whose value it extends. -/
theorem loads : Obligations.Loads := by
  unfold Obligations.Loads
  exact ⟨
    ⟨.of_decode row_lb, .of_loadInto (wd := .byte) (fun _ _ _ _ => rfl) (signedLoad_ofNat .byte)⟩,
    ⟨.of_decode row_lh, .of_loadInto (wd := .half) (fun _ _ _ _ => rfl) (signedLoad_ofNat .half)⟩,
    ⟨.of_decode row_lw, .of_loadInto (wd := .word) (fun _ _ _ _ => rfl) fun _ => rfl⟩,
    ⟨.of_decode row_lbu, .of_loadInto (wd := .byte) (fun _ _ _ _ => rfl) (unsignedLoad_ofNat .byte)⟩,
    ⟨.of_decode row_lhu, .of_loadInto (wd := .half) (fun _ _ _ _ => rfl) (unsignedLoad_ofNat .half)⟩⟩

/-- Settles O21: the row of each store, and its handler's access, after which no register is written. -/
theorem stores : Obligations.Stores := by
  unfold Obligations.Stores
  exact ⟨
    ⟨.of_decode row_sb, .of_storeFrom (wd := .byte) fun _ _ _ _ => rfl⟩,
    ⟨.of_decode row_sh, .of_storeFrom (wd := .half) fun _ _ _ _ => rfl⟩,
    ⟨.of_decode row_sw, .of_storeFrom (wd := .word) fun _ _ _ _ => rfl⟩⟩

end Sys2Proof.Machine
end

section
/-! The conditional branches and the jumps (spec/44_control_transfer.md rules R270 to R279). -/

namespace Sys2Proof.Machine

variable {s t : State} {k : OpType} {pattern : Word} {v target : Word}

/-! ### The rows -/

/-- The decoder's fields of a B-type word are those of the row (R146, R153). -/
theorem BTypeRow.of_decode {mk : RegIdx → RegIdx → Word → Instr} (hrow : ∀ mFull w, w &&& 0x0000707F#32 = pattern →
    decode mFull w = .instr (mk (rs1Of w) (rs2Of w) (immBOf w))) : BTypeRow pattern mk := by
  intro mFull w hw
  rw [hrow mFull w hw, rs1Of_eq, rs2Of_eq, immBOf_eq]

/-- The decoder's fields of a J-type word are those of the row (R148, R155). -/
theorem JTypeRow.of_decode {mk : RegIdx → Word → Instr} (hrow : ∀ mFull w, w &&& 0x0000007F#32 = pattern →
    decode mFull w = .instr (mk (rdOf w) (immJOf w))) : JTypeRow pattern mk := by
  intro mFull w hw
  rw [hrow mFull w hw, rdOf_eq, immJOf_eq]

/-! ### A branch ends like an instruction whose rd is x0 (R33, R270) -/

theorem WritesRegister.writesNothing (h : WritesRegister k 0#5 v s t) : WritesNothing k s t :=
  ⟨h.frame.sameRegisters, h.memory, h.complete, h.retired⟩

theorem JumpsAndLinks.writesNothing (h : JumpsAndLinks k 0#5 target s t) : WritesNothing k s t :=
  ⟨h.frame.sameRegisters, h.memory, h.complete, h.retired⟩

/-- A branch whose condition holds jumps, and its link is discarded. -/
theorem branchIf_of_true {cond : Word → Word → Bool} {rs1 rs2 : RegIdx} (imm : Word)
    (h : cond (readReg s rs1) (readReg s rs2) = true) :
    branchIf k cond rs1 rs2 imm s = jumpTo k 0#5 (s.pc + imm) s := by
  rw [branchIf, if_pos h, jumpTo, writeReg_zero]

/-- A branch whose condition fails writes nothing. -/
theorem branchIf_of_not {cond : Word → Word → Bool} {rs1 rs2 : RegIdx} (imm : Word)
    (h : ¬ cond (readReg s rs1) (readReg s rs2) = true) :
    branchIf k cond rs1 rs2 imm s = writeBack k 0#5 0#32 s := by
  rw [branchIf, if_neg h, writeBack, writeReg_zero]

/-- A branch is determined by its condition (R270 to R276). -/
theorem BranchInstr.of_branchIf {mk : RegIdx → RegIdx → Word → Instr} {f : Word → Word → Bool}
    {cond : Word → Word → Prop} (hexec : ∀ s rs1 rs2 imm, exec (mk rs1 rs2 imm) s = branchIf k f rs1 rs2 imm s)
    (hcond : ∀ a b, f a b = true ↔ cond a b) : BranchInstr k mk cond := by
  intro s rs1 rs2 imm hflag
  rw [hexec, ← hcond]
  by_cases htaken : f (readReg s rs1) (readReg s rs2) = true
  · obtain ⟨t, hnext, hjump⟩ := jumpTo_spec k 0#5 (s.pc + imm) s
    exact ⟨t, (branchIf_of_true imm htaken).trans hnext, hjump.writesNothing, fun _ => hjump.pc, absurd htaken⟩
  · obtain ⟨t, hnext, hwrites⟩ := writeBack_spec k 0#5 0#32 hflag
    exact ⟨t, (branchIf_of_not imm htaken).trans hnext, hwrites.writesNothing, (absurd · htaken), fun _ => hwrites.pc⟩

/-! ### The conditions (R271 to R276) -/

theorem lessSigned_iff (a b : Word) : lessSigned a b = true ↔ a.toInt < b.toInt := decide_eq_true_iff

theorem lessUnsigned_iff (a b : Word) : lessUnsigned a b = true ↔ a.toNat < b.toNat := decide_eq_true_iff

/-- BGE's condition is the complement of BLT's (R274). -/
theorem not_lessSigned_iff (a b : Word) : (!lessSigned a b) = true ↔ b.toInt ≤ a.toInt := by
  rw [Bool.not_eq_true', ← Bool.not_eq_true, lessSigned_iff, not_lt]

/-- BGEU's condition is the complement of BLTU's (R276). -/
theorem not_lessUnsigned_iff (a b : Word) : (!lessUnsigned a b) = true ↔ b.toNat ≤ a.toNat := by
  rw [Bool.not_eq_true', ← Bool.not_eq_true, lessUnsigned_iff, not_lt]

/-- Settles O22: the row of each branch, and the condition its handler decides. -/
theorem branches : Obligations.Branches := by
  unfold Obligations.Branches
  exact ⟨
    ⟨.of_decode row_beq, .of_branchIf (fun _ _ _ _ => rfl) fun _ _ => beq_iff_eq⟩,
    ⟨.of_decode row_bne, .of_branchIf (fun _ _ _ _ => rfl) fun _ _ => bne_iff_ne⟩,
    ⟨.of_decode row_blt, .of_branchIf (fun _ _ _ _ => rfl) lessSigned_iff⟩,
    ⟨.of_decode row_bge, .of_branchIf (fun _ _ _ _ => rfl) not_lessSigned_iff⟩,
    ⟨.of_decode row_bltu, .of_branchIf (fun _ _ _ _ => rfl) lessUnsigned_iff⟩,
    ⟨.of_decode row_bgeu, .of_branchIf (fun _ _ _ _ => rfl) not_lessUnsigned_iff⟩⟩

theorem exec_jal_spec (rd : RegIdx) (imm : Word) (s : State) :
    ∃ t, exec (.jal rd imm) s = .next t ∧ JumpsAndLinks .jal rd (s.pc + imm) s t := jumpTo_spec _ _ _ s

/-- Settles O23: the two rows, and the jump each handler makes from the state before the link is written. -/
theorem jumps : Obligations.Jumps := by
  unfold Obligations.Jumps
  exact ⟨.of_decode row_jal, .of_decode row_jalr, fun s rd imm => exec_jal_spec rd imm s,
    fun s rd rs1 imm => exec_jalr_spec rd rs1 imm s⟩

end Sys2Proof.Machine
end

section
/-! The system, fence and CSR instructions (spec/45_system_csr.md rules R290 to R303). -/

namespace Sys2Proof.Machine

variable {s t : State} {k : OpType} {pattern : Word} {rd : RegIdx} {c : CsrIdx} {v : Word}

/-! ### ECALL and FENCE end like an instruction whose rd is x0 (R33, R290, R292) -/

theorem execEcall_eq_writeBack (s : State) : execEcall s = writeBack .ecall 0#5 0#32 (setComplete s) := by
  rw [writeBack, writeReg_zero, execEcall]

theorem execFence_eq_writeBack (s : State) : execFence s = writeBack .fence 0#5 0#32 s := by
  rw [writeBack, writeReg_zero, execFence]

/-- The flag `complete` alone tells the state ECALL started from and the state its handler leaves apart (R290). -/
theorem exec_ecall_spec (hflag : s.branchIsTaken = false) :
    ∃ t, exec .ecall s = .next t ∧ t.complete = true ∧ SameRegisters s t ∧ SameMemory s t ∧ Advances s t ∧
      Retired .ecall s.csrs s t := by
  obtain ⟨t, hnext, hwrites⟩ := writeBack_spec (s := setComplete s) .ecall 0#5 0#32 hflag
  exact ⟨t, (execEcall_eq_writeBack s).trans hnext, hwrites.complete, hwrites.frame.sameRegisters,
    { hwrites.memory with }, { hwrites.pc with }, { hwrites.retired with }⟩

theorem exec_fence_spec (hflag : s.branchIsTaken = false) :
    ∃ t, exec .fence s = .next t ∧ WritesNothing .fence s t ∧ Advances s t := by
  obtain ⟨t, hnext, hwrites⟩ := writeBack_spec .fence 0#5 0#32 hflag
  exact ⟨t, (execFence_eq_writeBack s).trans hnext, hwrites.writesNothing, hwrites.pc⟩

/-- Settles O24: the two rows, and the uniform end after each handler. -/
theorem ecallAndFence : Obligations.EcallAndFence := by
  unfold Obligations.EcallAndFence
  exact ⟨row_ecall, row_fence, fun _ hflag => ⟨exec_ecall_spec hflag, exec_fence_spec hflag⟩⟩

/-! ### The rows of the CSR instructions -/

/-- The decoder's fields of a CSR word with a register source are those of the row (R149). -/
theorem CsrRegRow.of_decode {mk : RegIdx → CsrIdx → RegIdx → Instr} (hrow : ∀ mFull w, w &&& 0x0000707F#32 = pattern →
    decode mFull w = .instr (mk (rdOf w) (csrOf w) (rs1Of w))) : CsrRegRow pattern mk := by
  intro mFull w hw
  rw [hrow mFull w hw, rdOf_eq, csrOf_eq, rs1Of_eq]

/-- The decoder's fields of a CSR word with an immediate source are those of the row (R149, R156). -/
theorem CsrImmRow.of_decode {mk : RegIdx → CsrIdx → Word → Instr} (hrow : ∀ mFull w, w &&& 0x0000707F#32 = pattern →
    decode mFull w = .instr (mk (rdOf w) (csrOf w) (uimmOf w))) : CsrImmRow pattern mk := by
  intro mFull w hw
  rw [hrow mFull w hw, rdOf_eq, csrOf_eq, uimmOf_eq]

/-! ### What a CSR instruction leaves behind (R294) -/

/-- The instruction did all of this and nothing else: `csr[c] <- v`, the old value into `x[rd]` (discarded for x0), pc + 4,
and the counters, from the CSR file that holds `v`. -/
structure WritesCsr (k : OpType) (rd : RegIdx) (c : CsrIdx) (v : Word) (s t : State) : Prop where
  result   : rd ≠ 0#5 → readReg t rd = readCsr s c
  frame    : OnlyRegister rd s t
  memory   : SameMemory s t
  complete : t.complete = s.complete
  pc       : Advances s t
  retired  : Retired k (s.csrs.set c v) s t

/-- A CSR instruction writes its old value back from the state in which the CSR is already written. -/
theorem csrModify_spec (k : OpType) (f : Word → Word → Word) (rd : RegIdx) (c : CsrIdx) (src : Word)
    (hflag : s.branchIsTaken = false) :
    ∃ t, csrModify k f rd c src s = .next t ∧ WritesCsr k rd c (f (readCsr s c) src) s t := by
  obtain ⟨t, hnext, hwrites⟩ :=
    writeBack_spec (s := writeCsr s c (f (readCsr s c) src)) k rd (readCsr s c) hflag
  exact ⟨t, hnext, hwrites.result, { hwrites.frame with }, { hwrites.memory with }, hwrites.complete,
    { hwrites.pc with }, { hwrites.retired with }⟩

/-- A CSR instruction is determined by its source and by the value it makes of the old one (R294 to R300). -/
theorem CsrInstr.of_csrModify {mk : RegIdx → CsrIdx → Instr} {src : State → Word} {f : Word → Word → Word}
    (hexec : ∀ s rd c, exec (mk rd c) s = csrModify k f rd c (src s) s) : CsrInstr k mk src f := by
  intro s rd c hflag
  obtain ⟨t, hnext, hwrites⟩ := csrModify_spec k f rd c (src s) hflag
  refine ⟨t, s.csrs.set c (f (readCsr s c) (src s)), (hexec s rd c).trans hnext, hwrites.result, hwrites.frame,
    hwrites.memory, hwrites.complete, hwrites.pc, ?_, fun d hd => ?_, hwrites.retired⟩
  · rw [Csrs.get_set, if_pos rfl]
  · rw [Csrs.get_set, if_neg hd, readCsr]

/-- Settles O25: the row of each instruction, and the value its handler makes of the old one and the source. -/
theorem csrInstructions : Obligations.CsrInstructions := by
  unfold Obligations.CsrInstructions
  exact ⟨
    ⟨.of_decode row_csrrw, fun _ => .of_csrModify fun _ _ _ => rfl⟩,
    ⟨.of_decode row_csrrs, fun _ => .of_csrModify fun _ _ _ => rfl⟩,
    ⟨.of_decode row_csrrc, fun _ => .of_csrModify fun _ _ _ => rfl⟩,
    ⟨.of_decode row_csrrwi, fun _ => .of_csrModify fun _ _ _ => rfl⟩,
    ⟨.of_decode row_csrrsi, fun _ => .of_csrModify fun _ _ _ => rfl⟩,
    ⟨.of_decode row_csrrci, fun _ => .of_csrModify fun _ _ _ => rfl⟩⟩

/-! ### The counters through a CSR instruction (R303) -/

/-- The counters advance from what the CSR file reads as; how it stores its entries does not matter (R40, R43). -/
theorem Retired.csrs_congr {f g : Csrs} (h : Retired k f s t) (hfg : ∀ d, f.get d = g.get d) : Retired k g s t :=
  { h with
    instret := by
      have hlow : f.instret = g.instret := hfg 0xC02#12
      have hhigh : f.instreth = g.instreth := hfg 0xC82#12
      rw [← hlow, ← hhigh]
      exact h.instret
    cycle := by
      have hlow : f.cycle = g.cycle := hfg 0xC00#12
      have hhigh : f.cycleh = g.cycleh := hfg 0xC80#12
      rw [← hlow, ← hhigh]
      exact h.cycle
    otherCsrs := fun d hd => (h.otherCsrs d hd).trans (hfg d) }

/-- A CSR instruction that writes back what it read leaves the counters counted as by any other instruction. -/
theorem WritesCsr.retired_of_kept (h : WritesCsr k rd c (readCsr s c) s t) : Retired k s.csrs s t := by
  refine h.retired.csrs_congr fun d => ?_
  rw [Csrs.get_set]
  split
  case isTrue hd => rw [hd, readCsr]
  case isFalse => rfl

/-- A value written to instret is counted on as the low half of the pair (R42, R43). -/
theorem WritesCsr.instret_pair (h : WritesCsr k rd 0xC02#12 v s t) :
    pairValue (readCsr t 0xC82#12) (readCsr t 0xC02#12) = (pairValue (readCsr s 0xC82#12) v + 1) % 2 ^ 64 :=
  h.retired.instret

/-- A value written to cycle is increased by the cost as the low half of the pair (R42, R43). -/
theorem WritesCsr.cycle_pair (h : WritesCsr k rd 0xC00#12 v s t) :
    pairValue (readCsr t 0xC80#12) (readCsr t 0xC00#12) =
      (pairValue (readCsr s 0xC80#12) v + Config.cost k) % 2 ^ 64 :=
  h.retired.cycle

theorem pairValue_inj {hi lo hi' lo' : Word} : pairValue hi lo = pairValue hi' lo' ↔ hi = hi' ∧ lo = lo' := by
  simp only [pairValue, ← BitVec.toNat_inj]
  omega

/-- Without a carry the increment stays in the low half (R42). -/
theorem pairValue_succ_of_lt {hi lo : Word} (h : lo.toNat + 1 < 2 ^ 32) :
    (pairValue hi lo + 1) % 2 ^ 64 = pairValue hi (lo + 1#32) := by
  have hlow : (lo + 1#32).toNat = lo.toNat + 1 := BitVec.toNat_add_of_lt h
  simp only [pairValue, hlow]
  omega

/-- Settles O37: each clause is one CSR instruction, and the counters advance from the CSR file it wrote. -/
theorem csrCounters : Obligations.CsrCounters := by
  unfold Obligations.CsrCounters
  intro s hflag
  refine ⟨fun rd c h0 => ?read, ?setTen, fun rs1 hv hhigh => ?carry, fun v => ?cycle⟩
  case read =>
    obtain ⟨t, hnext, hwrites⟩ := csrModify_spec .csrrs (fun old src => old ||| src) rd c (readReg s 0#5) hflag
    rw [readReg_zero, BitVec.or_zero] at hwrites
    exact ⟨t, hnext, hwrites.result h0, hwrites.retired_of_kept⟩
  case setTen =>
    obtain ⟨t, hnext, hwrites⟩ := csrModify_spec .csrrwi (fun _ src => src) 0#5 0xC02#12 10#32 hflag
    have hpair := hwrites.instret_pair.trans (pairValue_succ_of_lt (by decide))
    obtain ⟨hinstreth, hinstret⟩ := pairValue_inj.mp hpair
    exact ⟨t, hnext, hinstret, hinstreth⟩
  case carry =>
    obtain ⟨t, hnext, hwrites⟩ := csrModify_spec .csrrw (fun _ src => src) 0#5 0xC02#12 (readReg s rs1) hflag
    have hpair := hwrites.instret_pair
    rw [hv, hhigh] at hpair
    have hcarry : (pairValue 0#32 0xFFFFFFFF#32 + 1) % 2 ^ 64 = pairValue 1#32 0#32 := by decide
    obtain ⟨hinstreth, hinstret⟩ := pairValue_inj.mp (hpair.trans hcarry)
    exact ⟨t, hnext, hinstret, hinstreth⟩
  case cycle =>
    obtain ⟨t, hnext, hwrites⟩ := csrModify_spec .csrrwi (fun _ src => src) 0#5 0xC00#12 v hflag
    exact ⟨t, hnext, hwrites.cycle_pair⟩

end Sys2Proof.Machine
end

section
/-! The multiply and divide instructions (spec/46_muldiv.md rules R310 to R320). -/

namespace Sys2Proof.Machine

variable {s : State} {k : OpType} {pattern : Word} {mk : RegIdx → RegIdx → RegIdx → Instr} {rd rs1 rs2 : RegIdx}
  {q val : Word → Word → Word} {ov : Word}

/-! ### The rows that exist only under M_FULL -/

/-- The decoder's register fields of a word of a row under M_FULL are those of the row (R143, R162). -/
theorem MFullRow.of_decode
    (hrow : ∀ w, w &&& 0xFE00707F#32 = pattern → decode true w = .instr (mk (rdOf w) (rs1Of w) (rs2Of w)))
    (hunknown : ∀ w, w &&& 0xFE00707F#32 = pattern → decode false w = .unknown) : MFullRow pattern mk := by
  intro w hw
  rw [hrow w hw, rdOf_eq, rs1Of_eq, rs2Of_eq]
  exact ⟨rfl, hunknown w hw⟩

/-! ### Words as wrapped integers -/

theorem ofInt_sVal (n : Nat) (a : Word) : BitVec.ofInt n (sVal a) = a.signExtend n := rfl

theorem ofInt_uVal (n : Nat) (a : Word) : BitVec.ofInt n (uVal a) = a.setWidth n := by
  rw [uVal, BitVec.ofInt_natCast, BitVec.ofNat_toNat]

/-- The low word of the product is the same for both readings of the operands (R311). -/
theorem mul_eq_ofInt_sVal (a b : Word) : a * b = BitVec.ofInt 32 (sVal a * sVal b) := by
  rw [BitVec.ofInt_mul, ofInt_sVal, ofInt_sVal, BitVec.signExtend_eq, BitVec.signExtend_eq]

theorem mul_eq_ofInt_uVal (a b : Word) : a * b = BitVec.ofInt 32 (uVal a * uVal b) := by
  rw [BitVec.ofInt_mul, ofInt_uVal, ofInt_uVal, BitVec.setWidth_eq, BitVec.setWidth_eq]

/-! ### High words (R312 to R314) -/

/-- The high word is the upper half of the product wrapped to 64 bits. -/
theorem highWord_eq_extractLsb' (x y : Int) : highWord x y = (BitVec.ofInt 64 (x * y)).extractLsb' 32 32 := by
  apply BitVec.eq_of_toNat_eq
  rw [highWord, BitVec.extractLsb'_toNat, BitVec.toNat_ofInt, BitVec.toNat_ofInt, Nat.shiftRight_eq_div_pow]
  omega

theorem ofInt_eq_extractLsb' (x : Int) : BitVec.ofInt 32 x = (BitVec.ofInt 64 x).extractLsb' 0 32 := by
  apply BitVec.eq_of_toNat_eq
  rw [BitVec.extractLsb'_toNat, BitVec.toNat_ofInt, BitVec.toNat_ofInt, Nat.shiftRight_zero]
  omega

theorem highWord_signed (a b : Word) :
    highWord (sVal a) (sVal b) = (a.signExtend 64 * b.signExtend 64).extractLsb' 32 32 := by
  rw [highWord_eq_extractLsb', BitVec.ofInt_mul, ofInt_sVal, ofInt_sVal]

theorem highWord_signed_unsigned (a b : Word) :
    highWord (sVal a) (uVal b) = (a.signExtend 64 * b.setWidth 64).extractLsb' 32 32 := by
  rw [highWord_eq_extractLsb', BitVec.ofInt_mul, ofInt_sVal, ofInt_uVal]

theorem highWord_unsigned (a b : Word) :
    highWord (uVal a) (uVal b) = (a.setWidth 64 * b.setWidth 64).extractLsb' 32 32 := by
  rw [highWord_eq_extractLsb', BitVec.ofInt_mul, ofInt_uVal, ofInt_uVal]

/-- Settles O26: the row of each instruction, and its handler's write-back of the word of the exact product. -/
theorem multiplications : Obligations.Multiplications := by
  unfold Obligations.Multiplications
  exact ⟨
    ⟨.of_decode row_mul, .of_writeBack (fun _ _ _ _ => rfl) fun _ _ => rfl⟩,
    ⟨.of_decode row_mulh rowU_mulh, .of_writeBack (fun _ _ _ _ => rfl) highWord_signed⟩,
    ⟨.of_decode row_mulhsu rowU_mulhsu, .of_writeBack (fun _ _ _ _ => rfl) highWord_signed_unsigned⟩,
    ⟨.of_decode row_mulhu rowU_mulhu, .of_writeBack (fun _ _ _ _ => rfl) highWord_unsigned⟩⟩

/-! ### Quotients and remainders (R315, R317) -/

/-- Rounding toward zero divides the magnitudes and multiplies the signs. -/
theorem tdiv_eq_sign_mul (x y : Int) : x.tdiv y = x.sign * y.sign * (x.natAbs / y.natAbs : Nat) := by
  rw [← Int.sign_mul_natAbs (x.tdiv y), Int.sign_tdiv, Int.natAbs_tdiv]
  split
  case isTrue hlt => rw [Nat.div_eq_of_lt hlt, Nat.cast_zero, Int.zero_mul, Int.mul_zero]
  case isFalse => rfl

/-- The remainder has the magnitude of the remainder of the magnitudes and the sign of the dividend. -/
theorem tmod_eq_sign_mul (x y : Int) : x.tmod y = x.sign * (x.natAbs % y.natAbs : Nat) := by
  rw [← Int.sign_mul_natAbs (x.tmod y), Int.sign_tmod, Int.natAbs_tmod]
  split
  case isTrue hdvd =>
    rw [Nat.mod_eq_zero_of_dvd (Int.natAbs_dvd_natAbs.mpr hdvd), Nat.cast_zero, Int.mul_zero, Int.mul_zero]
  case isFalse => rfl

theorem signedRemainder_eq_ofInt_tmod (a b : Word) :
    signedRemainder a b = BitVec.ofInt 32 ((sVal a).tmod (sVal b)) := by
  rw [signedRemainder, Int.tmod_def, Int.mul_comm]

theorem signedQuotient_eq (a b : Word) :
    signedQuotient a b = BitVec.ofInt 32 (a.toInt.sign * b.toInt.sign * (a.toInt.natAbs / b.toInt.natAbs : Nat)) :=
  congrArg (BitVec.ofInt 32) (tdiv_eq_sign_mul a.toInt b.toInt)

theorem signedRemainder_eq (a b : Word) :
    signedRemainder a b = BitVec.ofInt 32 (a.toInt.sign * (a.toInt.natAbs % b.toInt.natAbs : Nat)) :=
  (signedRemainder_eq_ofInt_tmod a b).trans (congrArg (BitVec.ofInt 32) (tmod_eq_sign_mul a.toInt b.toInt))

/-! ### The handlers of the divisions -/

theorem divOverflows_iff : divOverflows (readReg s rs1) (readReg s rs2) = true ↔ Overflows s rs1 rs2 := by
  rw [divOverflows, Bool.and_eq_true, beq_iff_eq, beq_iff_eq, Overflows]

/-- The divisor of the overflow case is -1, so not 0. -/
theorem not_overflows_of_zero (h0 : readReg s rs2 = 0#32) : ¬ Overflows s rs1 rs2 := by
  rintro ⟨-, hminus⟩
  exact absurd (h0.symm.trans hminus) (by decide)

theorem divideInto_of_zero (h0 : readReg s rs2 = 0#32) :
    divideInto k q rd rs1 rs2 s = .fault (.arithmetic (abortRun .arithmetic s)) := by
  rw [divideInto, if_pos h0]

theorem divideInto_spec (k : OpType) (q : Word → Word → Word) (rd : RegIdx) (hflag : s.branchIsTaken = false)
    (h0 : readReg s rs2 ≠ 0#32) :
    ∃ t, divideInto k q rd rs1 rs2 s = .next t ∧ WritesRegister k rd (q (readReg s rs1) (readReg s rs2)) s t := by
  rw [divideInto, if_neg h0]
  exact writeBack_spec k rd _ hflag

theorem signedDivideInto_of_not_overflows (h : ¬ Overflows s rs1 rs2) :
    signedDivideInto k q ov rd rs1 rs2 s = divideInto k q rd rs1 rs2 s := by
  rw [signedDivideInto, if_neg (mt divOverflows_iff.mp h)]

theorem signedDivideInto_spec (k : OpType) (q : Word → Word → Word) (ov : Word) (rd : RegIdx)
    (hflag : s.branchIsTaken = false) (h0 : readReg s rs2 ≠ 0#32) (hov : ¬ Overflows s rs1 rs2) :
    ∃ t, signedDivideInto k q ov rd rs1 rs2 s = .next t ∧
      WritesRegister k rd (q (readReg s rs1) (readReg s rs2)) s t := by
  rw [signedDivideInto_of_not_overflows hov]
  exact divideInto_spec k q rd hflag h0

theorem signedDivideInto_of_overflows_value (h : Overflows s rs1 rs2) (hp : s.params.divOverflow = .value) :
    signedDivideInto k q ov rd rs1 rs2 s = writeBack k rd ov s := by
  rw [signedDivideInto, if_pos (divOverflows_iff.mpr h), hp]

theorem signedDivideInto_of_overflows_fault (h : Overflows s rs1 rs2) (hp : s.params.divOverflow = .fault) :
    signedDivideInto k q ov rd rs1 rs2 s = .fault (.arithmetic (abortRun .arithmetic s)) := by
  rw [signedDivideInto, if_pos (divOverflows_iff.mpr h), hp]

/-! ### The shapes of the divisions -/

theorem FaultsUnchanged.of_arithmetic {i : Instr} (h : exec i s = .fault (.arithmetic (abortRun .arithmetic s))) :
    FaultsUnchanged .arithmetic none i s :=
  ⟨_, h, rfl, rfl, rfl⟩

/-- An unsigned division is determined by its value (R316, R318). -/
theorem DivideOp.of_divideInto (hexec : ∀ s rd rs1 rs2, exec (mk rd rs1 rs2) s = divideInto k q rd rs1 rs2 s)
    (hval : ∀ a b, q a b = val a b) : DivideOp k false mk val := by
  intro s rd rs1 rs2
  refine ⟨fun hflag h0 _ => ?completes, fun h0 => .of_arithmetic ?fault⟩
  case completes =>
    rw [hexec, ← hval]
    exact divideInto_spec k q rd hflag h0
  case fault => rw [hexec, divideInto_of_zero h0]

/-- A signed division is determined by its value outside the overflow case (R315, R317). -/
theorem DivideOp.of_signedDivideInto
    (hexec : ∀ s rd rs1 rs2, exec (mk rd rs1 rs2) s = signedDivideInto k q ov rd rs1 rs2 s)
    (hval : ∀ a b, q a b = val a b) : DivideOp k true mk val := by
  intro s rd rs1 rs2
  refine ⟨fun hflag h0 hov => ?completes, fun h0 => .of_arithmetic ?fault⟩
  case completes =>
    rw [hexec, ← hval]
    exact signedDivideInto_spec k q ov rd hflag h0 fun h => hov ⟨rfl, h⟩
  case fault => rw [hexec, signedDivideInto_of_not_overflows (not_overflows_of_zero h0), divideInto_of_zero h0]

/-- In the overflow case a signed division does what `DIV_OVERFLOW` says (R319). -/
theorem OverflowOp.of_signedDivideInto
    (hexec : ∀ s rd rs1 rs2, exec (mk rd rs1 rs2) s = signedDivideInto k q ov rd rs1 rs2 s) : OverflowOp k mk ov := by
  intro s rd rs1 rs2 hov
  refine ⟨fun hp hflag => ?value, fun hp => .of_arithmetic ?fault⟩
  case value =>
    rw [hexec, signedDivideInto_of_overflows_value hov hp]
    exact writeBack_spec k rd ov hflag
  case fault => rw [hexec, signedDivideInto_of_overflows_fault hov hp]

/-- Settles O27: the row of each instruction, the value its handler writes, and the overflow case of DIV and REM. -/
theorem divisions : Obligations.Divisions := by
  unfold Obligations.Divisions
  exact ⟨
    ⟨.of_decode row_div, .of_signedDivideInto (fun _ _ _ _ => rfl) signedQuotient_eq⟩,
    ⟨.of_decode row_divu rowU_divu, .of_divideInto (fun _ _ _ _ => rfl) fun _ _ => rfl⟩,
    ⟨.of_decode row_rem rowU_rem, .of_signedDivideInto (fun _ _ _ _ => rfl) signedRemainder_eq⟩,
    ⟨.of_decode row_remu rowU_remu, .of_divideInto (fun _ _ _ _ => rfl) fun _ _ => rfl⟩,
    .of_signedDivideInto fun _ _ _ _ => rfl,
    .of_signedDivideInto fun _ _ _ _ => rfl⟩

/-! ### The identities of the written values (R320) -/

theorem signedQuotient_mul_add_signedRemainder (a b : Word) : signedQuotient a b * b + signedRemainder a b = a := by
  calc signedQuotient a b * b + signedRemainder a b
      = BitVec.ofInt 32 ((sVal a).tdiv (sVal b)) * BitVec.ofInt 32 (sVal b) +
          BitVec.ofInt 32 ((sVal a).tmod (sVal b)) := by
        rw [signedQuotient, signedRemainder_eq_ofInt_tmod, ofInt_sVal, BitVec.signExtend_eq]
    _ = BitVec.ofInt 32 (sVal a) := by rw [← BitVec.ofInt_mul, ← BitVec.ofInt_add, Int.tdiv_mul_add_tmod]
    _ = a := BitVec.ofInt_toInt

theorem unsignedQuotient_mul_add_unsignedRemainder (a b : Word) :
    unsignedQuotient a b * b + unsignedRemainder a b = a := by
  calc unsignedQuotient a b * b + unsignedRemainder a b
      = BitVec.ofNat 32 (a.toNat / b.toNat) * BitVec.ofNat 32 b.toNat + BitVec.ofNat 32 (a.toNat % b.toNat) := by
        rw [unsignedQuotient, unsignedRemainder, BitVec.ofNat_toNat, BitVec.setWidth_eq]
    _ = BitVec.ofNat 32 a.toNat := by rw [← BitVec.ofNat_mul, ← BitVec.ofNat_add, Nat.div_add_mod']
    _ = a := by rw [BitVec.ofNat_toNat, BitVec.setWidth_eq]

/-- The signed remainder fits in a word, so its signed reading is exact. -/
theorem toInt_signedRemainder (a b : Word) : (signedRemainder a b).toInt = a.toInt.tmod b.toInt := by
  rw [signedRemainder_eq_ofInt_tmod, sVal, sVal, ← BitVec.toInt_srem, BitVec.ofInt_toInt]

theorem natAbs_signedRemainder_lt (a : Word) {b : Word} (h0 : b ≠ 0#32) :
    (signedRemainder a b).toInt.natAbs < b.toInt.natAbs := by
  rw [toInt_signedRemainder, Int.natAbs_tmod]
  exact Nat.mod_lt _ (Int.natAbs_pos.mpr fun h => h0 (BitVec.eq_of_toInt_eq (h.trans BitVec.toInt_zero.symm)))

theorem toNat_unsignedRemainder_lt (a : Word) {b : Word} (h0 : b ≠ 0#32) :
    (unsignedRemainder a b).toNat < b.toNat := by
  rw [unsignedRemainder, ← BitVec.umod_def, BitVec.toNat_umod]
  exact Nat.mod_lt _ (Nat.pos_of_ne_zero fun h => h0 (BitVec.eq_of_toNat_eq h))

/-- The high and the low word together are the product wrapped to 64 bits. -/
theorem highWord_append_ofInt (x y : Int) : highWord x y ++ BitVec.ofInt 32 (x * y) = BitVec.ofInt 64 (x * y) := by
  rw [highWord_eq_extractLsb', ofInt_eq_extractLsb']
  exact BitVec.extractLsb'_append_extractLsb'

theorem toNat_unsigned_product (a b : Word) : (highWord (uVal a) (uVal b) ++ a * b).toNat = a.toNat * b.toNat := by
  have hbound : a.toNat * b.toNat < 2 ^ 64 := BitVec.toNat_mul_toNat_lt
  rw [mul_eq_ofInt_uVal, highWord_append_ofInt, uVal, uVal, ← Nat.cast_mul, BitVec.ofInt_natCast, BitVec.toNat_ofNat,
    Nat.mod_eq_of_lt hbound]

theorem toInt_signed_product (a b : Word) : (highWord (sVal a) (sVal b) ++ a * b).toInt = a.toInt * b.toInt := by
  have hlow : -2 ^ 62 ≤ a.toInt * b.toInt := BitVec.le_toInt_mul_toInt
  have hhigh : a.toInt * b.toInt ≤ 2 ^ 62 := BitVec.toInt_mul_toInt_le
  rw [mul_eq_ofInt_sVal, highWord_append_ofInt]
  exact BitVec.toInt_ofInt_eq_self (by decide) (by rw [sVal, sVal]; omega) (by rw [sVal, sVal]; omega)

/-- Settles O28: the values the instructions write, and the identities of these values. -/
theorem mulDivIdentities : Obligations.MulDivIdentities := by
  unfold Obligations.MulDivIdentities
  intro s rd rs1 rs2 hrd hflag
  refine ⟨fun h0 hov => ?divide, ?multiply⟩
  case divide =>
    obtain ⟨q, hq, writesQ⟩ := signedDivideInto_spec .div signedQuotient 0x80000000#32 rd hflag h0 hov
    obtain ⟨r, hr, writesR⟩ := signedDivideInto_spec .rem signedRemainder 0#32 rd hflag h0 hov
    obtain ⟨qu, hqu, writesQu⟩ := divideInto_spec .divu unsignedQuotient rd hflag h0
    obtain ⟨ru, hru, writesRu⟩ := divideInto_spec .remu unsignedRemainder rd hflag h0
    refine ⟨q, r, qu, ru, hq, hr, hqu, hru, ?_⟩
    rw [writesQ.result hrd, writesR.result hrd, writesQu.result hrd, writesRu.result hrd]
    exact ⟨(signedQuotient_mul_add_signedRemainder _ _).symm, natAbs_signedRemainder_lt _ h0,
      (unsignedQuotient_mul_add_unsignedRemainder _ _).symm, toNat_unsignedRemainder_lt _ h0⟩
  case multiply =>
    obtain ⟨lo, hlo, writesLo⟩ := writeBack_spec .mul rd (readReg s rs1 * readReg s rs2) hflag
    obtain ⟨hs, hhs, writesHs⟩ :=
      writeBack_spec .mulh rd (highWord (sVal (readReg s rs1)) (sVal (readReg s rs2))) hflag
    obtain ⟨hu, hhu, writesHu⟩ :=
      writeBack_spec .mulhu rd (highWord (uVal (readReg s rs1)) (uVal (readReg s rs2))) hflag
    refine ⟨lo, hs, hu, hlo, hhs, hhu, ?_⟩
    rw [writesLo.result hrd, writesHs.result hrd, writesHu.result hrd]
    exact ⟨toNat_unsigned_product _ _, toInt_signed_product _ _⟩

end Sys2Proof.Machine
end

section
/-! The unimplemented classes, EBREAK and UNKNOWN, and the faults of each kind (spec/47_unimplemented.md rules R330 to R335,
spec/60_exceptions.md rule R382). -/

namespace Sys2Proof.Machine

variable {s : State} {k : OpType} {d : Decoded} {f : Fault} {mask pattern : Word}
  {mk : RegIdx → RegIdx → RegIdx → RegIdx → RmField → Instr}

/-! ### The faults listed for a kind (R382) -/

/-- Settles O32: `exec_ends`, and UNKNOWN's one fault. -/
theorem faultsOfEachKind : Obligations.FaultsOfEachKind := by
  unfold Obligations.FaultsOfEachKind
  intro d s
  cases d with
  | unknown => exact .inr ⟨_, execDecoded_unknown s, List.mem_singleton.mpr rfl⟩
  | instr i =>
    rcases exec_ends i s with ⟨u, hnext, -⟩ | ⟨f, hfault, hkind, -⟩
    · exact .inl ⟨_, hnext⟩
    · exact .inr ⟨f, hfault, hkind⟩

/-- Every fault is one of those listed for the kind of what was executed. -/
theorem execDecoded_fault_kind (h : execDecoded d s = .fault f) : f.kind ∈ possibleFaults d.opType := by
  cases d with
  | instr i => exact (exec_fault h).1
  | unknown =>
    obtain rfl := Host.Outcome.fault.inj h
    exact List.mem_singleton.mpr rfl

/-- Illegal-Instruction is listed for UNKNOWN and EBREAK alone (R373). -/
theorem illegalInstruction_mem_possibleFaults :
    .illegalInstruction ∈ possibleFaults k ↔ k = .unknown ∨ k = .ebreak := by
  cases k <;> simp [possibleFaults]

/-- Not-Implemented is listed for the nine class kinds alone (R375). -/
theorem notImplemented_mem_possibleFaults : .notImplemented ∈ possibleFaults k ↔ isClassKind k = true := by
  cases k <;> simp [possibleFaults, isClassKind]

/-! ### The two stops (R335) -/

/-- EBREAK and UNKNOWN raise Illegal-Instruction before anything is changed (R191, R291, R334). -/
theorem execDecoded_illegal (h : d.opType = .unknown ∨ d.opType = .ebreak) (s : State) :
    execDecoded d s = .fault (.illegalInstruction (abortRun .illegalInstruction s)) := by
  cases d with
  | unknown => exact execDecoded_unknown s
  | instr i =>
    cases i with
    | ebreak => rfl
    | _ => simp [Decoded.opType, Instr.opType] at h

/-- Every class kind raises Not-Implemented before anything is changed (R330, R332, R333). -/
theorem execDecoded_class (h : isClassKind d.opType = true) (s : State) :
    execDecoded d s = .fault (.notImplemented (abortRun .notImplemented s)) := by
  cases d with
  | unknown => exact absurd h Bool.false_ne_true
  | instr i =>
    cases i with
    | fpLoad | fpStore | fpMadd | fpMsub | fpNmsub | fpNmadd | fpOp | amo | compressed00 | compressed01
    | compressed10 => rfl
    | _ => exact absurd h Bool.false_ne_true

/-- Settles O33: a fault is listed for its kind, and the kinds for which one of the two is listed always raise it. -/
theorem illegalAgainstNotImplemented : Obligations.IllegalAgainstNotImplemented := by
  unfold Obligations.IllegalAgainstNotImplemented
  intro d s
  have hillegal : ∀ f, execDecoded d s = .fault f → f.kind = .illegalInstruction →
      d.opType = .unknown ∨ d.opType = .ebreak := fun f hf hk =>
    illegalInstruction_mem_possibleFaults.mp (hk ▸ execDecoded_fault_kind hf)
  have hclass : ∀ f, execDecoded d s = .fault f → f.kind = .notImplemented → isClassKind d.opType = true := fun f hf hk =>
    notImplemented_mem_possibleFaults.mp (hk ▸ execDecoded_fault_kind hf)
  refine ⟨⟨fun ⟨f, hf, hk⟩ => hillegal f hf hk, fun h => ⟨_, execDecoded_illegal h s, rfl⟩⟩,
    ⟨fun ⟨f, hf, hk⟩ => hclass f hf hk, fun h => ⟨_, execDecoded_class h s, rfl⟩⟩, fun f hf hk => ?_⟩
  rcases hk with hk | hk
  · obtain rfl := Host.Outcome.fault.inj (hf.symm.trans (execDecoded_illegal (hillegal f hf hk) s))
    rfl
  · obtain rfl := Host.Outcome.fault.inj (hf.symm.trans (execDecoded_class (hclass f hf hk) s))
    rfl

/-! ### The rows of the classes (R171) -/

/-- The decoder's fields of a class word are those of the row, and its instruction is of a class kind. -/
theorem ClassInstr.of_decode
    (hrow : ∀ mFull w, w &&& mask = pattern →
      decode mFull w = .instr (mk (rdOf w) (rs1Of w) (rs2Of w) (rs3Of w) (rmOf w)))
    (hk : ∀ rd rs1 rs2 rs3 rm, isClassKind (mk rd rs1 rs2 rs3 rm).opType = true) : ClassInstr mask pattern mk := by
  refine ⟨fun mFull w hw => ?_, fun s rd rs1 rs2 rs3 rm => ?_⟩
  · rw [hrow mFull w hw, rdOf_eq, rs1Of_eq, rs2Of_eq, rs3Of_eq, rmOf_eq]
  · exact ⟨_, execDecoded_class (d := .instr (mk rd rs1 rs2 rs3 rm)) (hk rd rs1 rs2 rs3 rm) s, rfl, rfl, rfl⟩

/-- Settles O29: the eight rows, all of class kinds. -/
theorem unimplementedClasses : Obligations.UnimplementedClasses := by
  unfold Obligations.UnimplementedClasses
  exact ⟨.of_decode row_fpLoad fun _ _ _ _ _ => rfl, .of_decode row_fpStore fun _ _ _ _ _ => rfl,
    .of_decode row_fpMadd fun _ _ _ _ _ => rfl, .of_decode row_fpMsub fun _ _ _ _ _ => rfl,
    .of_decode row_fpNmsub fun _ _ _ _ _ => rfl, .of_decode row_fpNmadd fun _ _ _ _ _ => rfl,
    .of_decode row_fpOp fun _ _ _ _ _ => rfl, .of_decode row_amo fun _ _ _ _ _ => rfl⟩

/-! ### The SYSTEM words of funct3 000 (R302) -/

/-- No row of the table but those of ECALL and EBREAK agrees with the SYSTEM opcode and funct3 000 (R169, R170). -/
theorem row_of_system_funct3_zero : ∀ r ∈ opcodeTable,
    r.pattern &&& 0x0000707F#32 = 0x00000073#32 &&& r.mask → r = Instr.ecall.row ∨ r = Instr.ebreak.row := by
  decide

/-- A SYSTEM word of funct3 000 other than ECALL and EBREAK is of no row, so UNKNOWN (R172, R302). -/
theorem decode_system_funct3_zero (mFull : Bool) (w : Word) (hw : w &&& 0x0000707F#32 = 0x00000073#32)
    (hecall : w ≠ 0x00000073#32) (hebreak : w ≠ 0x00100073#32) : decode mFull w = .unknown := by
  obtain ⟨-, hnone⟩ := decoderFollowsTable mFull w
  refine hnone fun r hr => Bool.eq_false_iff.mpr fun hsel => ?_
  obtain ⟨-, hrow⟩ := OpcodeRow.selects_iff.mp hsel
  have hall : w &&& 0xFFFFFFFF#32 = w := BitVec.and_allOnes
  rcases row_of_system_funct3_zero r hr (patterns_agree hrow hw) with rfl | rfl
  · exact hecall (hall.symm.trans hrow)
  · exact hebreak (hall.symm.trans hrow)

/-- Settles O30: the rows of COMPRESSED and EBREAK, the SYSTEM words of no row, and the fault each raises. -/
theorem compressedEbreakAndUnknown : Obligations.CompressedEbreakAndUnknown := by
  unfold Obligations.CompressedEbreakAndUnknown
  exact ⟨.of_decode row_compressed00 fun _ _ _ _ _ => rfl, .of_decode row_compressed01 fun _ _ _ _ _ => rfl,
    .of_decode row_compressed10 fun _ _ _ _ _ => rfl, row_ebreak,
    fun s => ⟨_, execDecoded_illegal (d := .instr .ebreak) (.inr rfl) s, rfl, rfl, rfl⟩, decode_system_funct3_zero,
    fun s => ⟨_, execDecoded_unknown s, rfl, rfl, rfl⟩⟩

end Sys2Proof.Machine
end

section
/-! What a launch leaves (spec/48_hart_loop.md rules R345, R346, spec/70_reset_and_hazards.md rule R403). -/

namespace Sys2Proof.Machine

variable {s : State} {m m' : Mem} {a : Word} {ps : List (Word × Word)}

/-! ### The preload as one sequence of word stores -/

/-- Memory after the (address, word) pairs are stored in order (R345). -/
def Mem.pokeAll (m : Mem) (ps : List (Word × Word)) : Mem := ps.foldl (fun m p => m.pokeWord p.1 p.2) m

theorem Mem.pokeAll_append (m : Mem) (ps qs : List (Word × Word)) :
    m.pokeAll (ps ++ qs) = (m.pokeAll ps).pokeAll qs := List.foldl_append

theorem Mem.storeRange_eq_pokeAll {start : Word} {ws : List Word} (h : m.storeRange start ws = some m') :
    m' = m.pokeAll (rangeWords start ws) ∧ ∀ p ∈ rangeWords start ws, aligned .word p.1 = true := by
  induction ws generalizing m start with
  | nil => exact ⟨(Option.some.inj h).symm, fun p hp => absurd hp List.not_mem_nil⟩
  | cons v vs ih =>
    obtain ⟨ha, hrest⟩ := Option.ite_none_right_eq_some.mp h
    obtain ⟨hm, hall⟩ := ih hrest
    exact ⟨hm, List.forall_mem_cons.mpr ⟨ha, hall⟩⟩

theorem preloadAll_eq_pokeAll {ranges : List (Word × List Word)} (h : preloadAll m ranges = .ok m') :
    m' = m.pokeAll (preloadWords ranges) ∧ ∀ p ∈ preloadWords ranges, aligned .word p.1 = true := by
  induction ranges generalizing m with
  | nil => exact ⟨(Except.ok.inj h).symm, fun p hp => absurd hp List.not_mem_nil⟩
  | cons r rest ih =>
    obtain ⟨start, ws⟩ := r
    have hwords : preloadWords ((start, ws) :: rest) = rangeWords start ws ++ preloadWords rest := List.flatMap_cons
    rw [preloadAll] at h
    split at h
    case h_1 m₁ hrange =>
      obtain ⟨rfl, hfirst⟩ := Mem.storeRange_eq_pokeAll hrange
      obtain ⟨rfl, hlater⟩ := ih h
      rw [hwords, Mem.pokeAll_append]
      exact ⟨rfl, List.forall_mem_append.mpr ⟨hfirst, hlater⟩⟩
    case h_2 => contradiction

/-! ### The image, one more word at a time -/

theorem lastWord_concat (ps : List (Word × Word)) (p : Word × Word) (a : Word) :
    lastWord (ps ++ [p]) a = if p.1 = a then p.2 else lastWord ps a := by
  simp [lastWord]

theorem lastWord_of_unwritten (h : ∀ p ∈ ps, p.1 ≠ a) : lastWord ps a = 0#32 := by
  induction ps using List.reverseRecOn with
  | nil => rfl
  | append_singleton ps p ih =>
    obtain ⟨hps, hp⟩ := List.forall_mem_append.mp h
    rw [lastWord_concat, if_neg (hp p (List.mem_singleton.mpr rfl)), ih hps]

/-- An address and its word address are in the same page. -/
theorem vpn_word_address (a : Word) : vpn (a &&& 0xFFFFFFFC#32) = vpn a := by
  simp only [vpn, bits, and_mask_toNat]
  omega

theorem imageByte_of_touched (h : ∃ p ∈ ps, vpn p.1 = vpn a) : imageByte ps a =
    some (BitVec.ofNat 8 ((lastWord ps (a &&& 0xFFFFFFFC#32)).toNat / 2 ^ (8 * (a.toNat % 4)))) := by
  obtain ⟨p, hp, hv⟩ := h
  exact if_pos (List.any_eq_true.mpr ⟨p, hp, by simpa using hv⟩)

theorem imageByte_of_untouched (h : ∀ p ∈ ps, vpn p.1 ≠ vpn a) : imageByte ps a = none :=
  if_neg fun hany => by
    obtain ⟨p, hp, hv⟩ := List.any_eq_true.mp hany
    exact h p hp (beq_iff_eq.mp hv)

/-- In a page that no word touches no word was written, so the last one reads 0. -/
theorem imageByte_getD (ps : List (Word × Word)) (a : Word) : (imageByte ps a).getD 0#8 =
    BitVec.ofNat 8 ((lastWord ps (a &&& 0xFFFFFFFC#32)).toNat / 2 ^ (8 * (a.toNat % 4))) := by
  by_cases h : ∃ p ∈ ps, vpn p.1 = vpn a
  · rw [imageByte_of_touched h, Option.getD_some]
  · have hnone : ∀ p ∈ ps, vpn p.1 ≠ vpn a := fun p hp hv => h ⟨p, hp, hv⟩
    have hunwritten : ∀ p ∈ ps, p.1 ≠ a &&& 0xFFFFFFFC#32 := fun p hp heq =>
      hnone p hp (heq ▸ vpn_word_address a)
    rw [imageByte_of_untouched hnone, lastWord_of_unwritten hunwritten]
    simp

/-- The image after one more word: its bytes at its word address, zeros in the rest of a page it is the first to touch,
and no other change. -/
theorem imageByte_concat (ps : List (Word × Word)) (p : Word × Word) (a : Word) :
    imageByte (ps ++ [p]) a =
      if p.1 = a &&& 0xFFFFFFFC#32 then some (BitVec.ofNat 8 (p.2.toNat / 2 ^ (8 * (a.toNat % 4))))
      else if vpn a = vpn p.1 then some ((imageByte ps a).getD 0#8) else imageByte ps a := by
  have htouched : vpn p.1 = vpn a → ∃ q ∈ ps ++ [p], vpn q.1 = vpn a := fun hv => ⟨p, by simp, hv⟩
  split_ifs with hword hpage
  · rw [imageByte_of_touched (htouched (hword ▸ vpn_word_address a)), lastWord_concat, if_pos hword]
  · rw [imageByte_of_touched (htouched hpage.symm), lastWord_concat, if_neg hword, imageByte_getD]
  · have hother : (vpn p.1 == vpn a) = false := beq_eq_false_iff_ne.mpr (Ne.symm hpage)
    simp only [imageByte, lastWord_concat, if_neg hword, List.any_append, List.any_cons, List.any_nil, hother,
      Bool.or_false]

/-! ### The bytes after the preload -/

theorem Mem.Inv.pokeAll {tb : Nat} (h : m.Inv tb) (ha : ∀ p ∈ ps, aligned .word p.1 = true) : (m.pokeAll ps).Inv tb := by
  induction ps generalizing m with
  | nil => exact h
  | cons p ps ih =>
    obtain ⟨hp, hps⟩ := List.forall_mem_cons.mp ha
    exact ih (Mem.pokeWord_spec h hp p.2).1 hps

/-- From the empty memory the stores of aligned words leave exactly their image (R346, R403). -/
theorem byteAt_pokeAll_empty (ha : ∀ p ∈ ps, aligned .word p.1 = true) (hs : s.mem = Mem.empty.pokeAll ps) (a : Word) :
    byteAt s a = imageByte ps a := by
  induction ps using List.reverseRecOn generalizing s with
  | nil => rw [byteAt, hs]; rfl
  | append_singleton ps p ih =>
    obtain ⟨hps, hp⟩ := List.forall_mem_append.mp ha
    have hbefore := ih (s := s.withMem (Mem.empty.pokeAll ps)) hps rfl
    have hlast : s.mem = (Mem.empty.pokeAll ps).pokeWord p.1 p.2 := hs.trans (Mem.pokeAll_append _ ps [p])
    rw [byteAt_poke _ 0 (Mem.Inv.empty.pokeAll hps) p.1 p.2 (hp p (List.mem_singleton.mpr rfl))
      (s.withMem (Mem.empty.pokeAll ps)) s rfl hlast a, hbefore, imageByte_concat]

/-- Settles O2: the fields of the initial state, and the image of the preloaded words. -/
theorem launchState : Obligations.LaunchState := by
  unfold Obligations.LaunchState
  intro l s h
  obtain ⟨m, hm, rfl⟩ := launch_eq_ok h
  obtain ⟨rfl, haligned⟩ := preloadAll_eq_pokeAll hm
  refine ⟨rfl, rfl, fun r => ?_, fun c => ?_, rfl, rfl, rfl, rfl, rfl, rfl, rfl, fun a => ?_⟩
  · simp [readReg, State.initial]
  · simp [readCsr, Csrs.get, State.initial, Csrs.zero]
  · exact byteAt_pokeAll_empty (s := (State.initial l.params l.entry).withMem (Mem.empty.pokeAll (preloadWords l.preload)))
      haligned rfl a

end Sys2Proof.Machine
end

section
/-! What a fetch reads, and the simple machine that the hart agrees with while no fetched word is overwritten
(spec/48_hart_loop.md rules R347 to R350, R356). -/

namespace Sys2Proof.Machine

variable {s t u : State} {d : Decoded} {a w : Word}

/-! ### The words a fetch leaves -/

/-- The build of a block changes no byte, no mapping and no page (R350). -/
theorem FetchCase.sameContents (h : FetchCase s d u) : Mem.SameContents s.mem u.mem := by
  rcases h with ⟨rest, -, rfl⟩ | ⟨rest, -, -, -, rfl⟩ | ⟨rest, m, -, -, -, hb, rfl⟩
  · exact .refl s.mem
  · exact .refl s.mem
  · exact (buildFrom_same.1 _ _ hb).1

theorem byteAt_of_sameContents (h : Mem.SameContents s.mem t.mem) (a : Word) : byteAt t a = byteAt s a :=
  byteAt_congr h.bytes h.level1 a

theorem wordAt_of_sameContents (h : Mem.SameContents s.mem t.mem) (a : Word) : wordAt t a = wordAt s a :=
  wordAt_congr h.bytes h.level1 a

/-- A block just built agrees with memory, and the blocks cached before it still do. -/
theorem FetchCase.codeFresh (h : FetchCase s d u) (hinv : s.mem.Inv s.params.tlbBits) (hs : CodeFresh s) :
    CodeFresh u := by
  have hwords := wordAt_of_sameContents h.sameContents
  rcases h with ⟨rest, -, rfl⟩ | ⟨rest, -, -, -, rfl⟩ | ⟨rest, m, -, -, -, hb, rfl⟩
  · exact hs
  · exact hs
  · obtain ⟨-, -, -, hbuilt⟩ := buildFrom_block hinv hb
    intro e he k d' hd
    rw [hwords]
    rcases mem_insertKey he with rfl | he
    · obtain ⟨w, hw, hdec⟩ := hbuilt k d' hd
      exact ⟨w, by rwa [BitVec.ofNat_add, BitVec.ofNat_toNat, BitVec.setWidth_eq], hdec⟩
    · exact hs e he k d' hd

/-- pc is aligned whenever an instruction is fetched (R196, R349). -/
theorem fetch_aligned (hs : s.Inv) (hf : fetch s = .ready d u) : aligned .word s.pc = true := by
  obtain ⟨-, -, -, -, -, -, -, -, -, -, -, hblocks, -, e, he, k, -, -, hpc⟩ := fetch_inv hs hf
  obtain ⟨-, hentry, -⟩ := hblocks e he
  rw [aligned_iff, hpc, BitVec.toNat_ofNat, Width.bytes]
  omega

/-- While the block cache agrees with memory, the instruction fetched is the decoding of the word at pc. -/
theorem fetch_decodes_word (hs : s.Inv) (hfresh : CodeFresh s) (hf : fetch s = .ready d u) :
    ∃ w, wordAt s s.pc = some w ∧ d = decode s.params.mFull w := by
  obtain ⟨hparams, -, -, -, -, -, -, -, -, -, -, -, -, e, he, k, -, hdrop, hpc⟩ := fetch_inv hs hf
  have hcase := (fetch_ready hf).2
  have hd : e.2[k]? = some d := by rw [← List.head?_drop, ← hdrop, List.head?_cons]
  obtain ⟨w, hw, hdec⟩ := hcase.codeFresh hs.memory hfresh e he k d hd
  rw [← hpc, wordAt_of_sameContents hcase.sameContents] at hw
  exact ⟨w, hw, hparams ▸ hdec⟩

/-! ### The simple machine -/

/-- `loadWord` of an aligned address answers the word there and changes no byte (R95, R100). -/
theorem memRead_word (hinv : s.mem.Inv s.params.tlbBits) (ha : aligned .word a = true) (hw : wordAt s a = some w) :
    ∃ m, memRead .word a s = .ok w (s.withMem m) ∧ m.Inv s.params.tlbBits ∧
      ∀ b, byteAt (s.withMem m) b = byteAt s b := by
  rcases hwalk : walk s.mem.level1 a with _ | p
  · simp [wordAt, hwalk] at hw
  · obtain ⟨m, hread, hm, -, -, hframe⟩ := memRead_mapped hinv ha hwalk
    have hval : BitVec.ofNat 32 (readLE s.mem.bytes (cellKey p a) 4) = w := by simpa [wordAt, hwalk] using hw
    exact ⟨m, hval ▸ hread, hm, hframe.bytes⟩

/-- The simple machine executes the instruction that the hart fetched, in a state that no instruction tells from the
hart's. -/
theorem simpleStep_of_fetch (hs : s.Inv) (hfresh : CodeFresh s) (hf : fetch s = .ready d u) :
    ∃ v, simpleStep s = execDecoded d v ∧ SameView u v := by
  obtain ⟨w, hw, rfl⟩ := fetch_decodes_word hs hfresh hf
  obtain ⟨m, hread, hm, hbytes⟩ := memRead_word hs.memory (fetch_aligned hs hf) hw
  obtain ⟨hparams, hmem, hregs, hcsrs, hpc, -, hicount, hflag, hcomplete, -⟩ := fetch_inv hs hf
  have hc : s.complete = false := by
    obtain ⟨m, b, rest, rfl⟩ := (fetch_ready hf).2.frame
    exact hcomplete
  refine ⟨s.withMem m, by simp [simpleStep, hc, hread], ?_, hparams ▸ hmem, hm, hflag, hs.flagClear, by simp [hparams]⟩
  exact {
    regs := fun r => readReg_congr hregs r
    pc := hpc
    csrs := fun c => congrArg (Csrs.get · c) hcsrs
    bytes := fun a => (byteAt_of_sameContents (fetch_ready hf).2.sameContents a).trans (hbytes a).symm
    complete := hcomplete.trans hc.symm
    icount := hicount }

/-- The end of an iteration is not in the architectural view. -/
theorem ArchEq.endIteration (h : ArchEq s t) : ArchEq (endIteration s) t where
  regs r := (readReg_congr (endIteration_regs s) r).trans (h.regs r)
  pc := (endIteration_pc s).trans h.pc
  csrs c := (congrArg (Csrs.get · c) (endIteration_csrs s)).trans (h.csrs c)
  bytes a := (byteAt_congr (by simp) (by simp) a).trans (h.bytes a)
  complete := (endIteration_complete s).trans h.complete
  icount := (endIteration_icount s).trans h.icount

/-- A step that leaves the fetched words as they were leaves the block cache in agreement with memory. -/
theorem step_codeFresh (hs : s.Inv) (hfresh : CodeFresh s) (hstep : step s = .next t)
    (hkept : ∀ a, FetchedAt t a → wordAt t a = wordAt s a) : CodeFresh t := by
  obtain ⟨i, u, w, -, hcase, -, -, heffect, rfl⟩ := step_cases hstep
  have hu := hcase.codeFresh hs.memory hfresh
  intro e he k d hd
  rw [hkept _ ⟨e, he, k, (List.getElem?_eq_some_iff.mp hd).1, rfl⟩, ← wordAt_of_sameContents hcase.sameContents]
  simp only [endIteration_blocks, retired_blocks, heffect.blocks] at he
  simpa [heffect.params] using hu e he k d hd

/-- Settles O52: the simple machine loads and decodes the instruction that the hart fetched, and no instruction tells the
two states apart. -/
theorem simpleMachineAgrees : Obligations.SimpleMachineAgrees := by
  unfold Obligations.SimpleMachineAgrees
  intro s d u hs hfresh hf
  obtain ⟨v, hsimple, hview⟩ := simpleStep_of_fetch hs hfresh hf
  have hend := hview.execDecoded d
  refine ⟨fun t hstep => ⟨?_, step_codeFresh hs hfresh hstep⟩, fun f hstep => ?_⟩
  · obtain ⟨d', u', t', hf', hexec, rfl⟩ := step_next hstep
    obtain ⟨rfl, rfl⟩ := Fetched.ready.inj (hf.symm.trans hf')
    obtain ⟨t'', hexec', harch⟩ := (hexec ▸ hend).of_next
    exact ⟨t'', hsimple.trans hexec', harch.endIteration⟩
  · have hexec : execDecoded d u = .fault f := by
      rcases step_fault hstep with hff | ⟨d', u', hf', hexec⟩
      · simp [hf] at hff
      · obtain ⟨rfl, rfl⟩ := Fetched.ready.inj (hf.symm.trans hf')
        exact hexec
    obtain ⟨f', hexec', hkind, haddr, hleft⟩ := (hexec ▸ hend).of_fault
    exact ⟨f', hsimple.trans hexec', hkind, haddr, hleft⟩

end Sys2Proof.Machine
end

section
/-! The hart loop: which instruction a step executes, what a block build gives and when it faults, and how a run ends
(spec/48_hart_loop.md rules R347 to R353). -/

namespace Sys2Proof.Machine

variable {s : State} {d : Decoded} {rest b : List Decoded} {m : Mem} {a : Word}

/-! ### The three sources of an instruction (R347) -/

theorem fetch_pending (hrun : s.status = .running) (hp : s.pending = d :: rest) :
    fetch s = .ready d (s.withPending rest) := by
  simp only [fetch, hrun, hp]

/-- At a block boundary the hart enters the block at pc. -/
theorem fetch_boundary (hrun : s.status = .running) (hp : s.pending = []) (hc : s.complete = false) :
    fetch s = enterBlock s := by
  simp [fetch, hrun, hp, hc]

theorem enterBlock_cached (h : lookupKey s.pc.toNat s.blocks = some b) : enterBlock s = startBlock b s := by
  simp only [enterBlock, h]

theorem enterBlock_built (hn : lookupKey s.pc.toNat s.blocks = none) (hb : build s s.pc = .block b m) :
    enterBlock s = startBlock b ((s.withMem m).withBlocks (insertKey s.pc.toNat b s.blocks)) := by
  simp only [enterBlock, hn, hb]

theorem enterBlock_misaligned (hn : lookupKey s.pc.toNat s.blocks = none) (hb : build s s.pc = .misaligned a m) :
    enterBlock s = .fault (.misalignedAccess a (abortRun .misalignedAccess (s.withMem m))) := by
  simp only [enterBlock, hn, hb]

theorem enterBlock_unmapped (hn : lookupKey s.pc.toNat s.blocks = none) (hb : build s s.pc = .unmapped a m) :
    enterBlock s = .fault (.pageFault a (abortRun .pageFault (s.withMem m))) := by
  simp only [enterBlock, hn, hb]

/-- The first instruction of a block that was built is the decoding of the word at its entry (R349). -/
theorem build_head (hinv : s.mem.Inv s.params.tlbBits) (hb : build s a = .block b m) :
    ∃ w rest, wordAt s a = some w ∧ b = decode s.params.mFull w :: rest := by
  obtain ⟨-, -, hends, hwords⟩ := buildFrom_block hinv hb
  cases b with
  | nil => simp [endsAtBranch] at hends
  | cons d rest =>
    obtain ⟨w, hw, rfl⟩ := hwords 0 d rfl
    exact ⟨w, rest, by simpa [wordAt_eq_memWord] using hw, rfl⟩

/-- Settles O13: the fetch takes the instruction from each of its three sources, and the step executes it. -/
theorem stepRunsDecoded : Obligations.StepRunsDecoded := by
  unfold Obligations.StepRunsDecoded
  intro s hrun
  refine ⟨fun d rest hp => step_of_ready (fetch_pending hrun hp), fun hp hc d rest hl => step_of_ready ?cached,
    fun hp hc hn hinv b m hb => ?built, fun _ _ => rfl⟩
  case cached => rw [fetch_boundary hrun hp hc, enterBlock_cached hl, startBlock]
  case built =>
    obtain ⟨w, rest, hw, rfl⟩ := build_head hinv hb
    refine ⟨w, rest, hw, rfl, step_of_ready ?_⟩
    rw [fetch_boundary hrun hp hc, enterBlock_built hn hb, startBlock]

/-! ### What a build gives (R348, R349, R350) -/

/-- Settles O46: the build succeeds with one record for each word, each the decoding of its word. -/
theorem buildMakesBlock : Obligations.BuildMakesBlock := by
  unfold Obligations.BuildMakesBlock
  intro s e n hinv he hn hbefore hlast
  obtain ⟨b, m, hb, hlen⟩ := buildFrom_succeeds (n := wordsOfAddressSpace) hinv ((aligned_iff .word e).mpr he) hn
    hbefore hlast
  obtain ⟨hm, -, hends, hwords⟩ := buildFrom_block hinv hb
  obtain ⟨hsame, hloads⟩ := buildFrom_same.1 b m hb
  refine ⟨b, m, hb, hlen, hends, fun j hj => ?_, by rw [hloads, hlen], hsame.numStores, hsame.bytes, hsame.level1, hm⟩
  have hlt : j < b.length := by omega
  obtain ⟨w, hw, hdec⟩ := hwords j b[j] (List.getElem?_eq_getElem hlt)
  exact ⟨w, hw, by rw [List.getElem?_eq_getElem hlt, hdec]⟩

/-! ### When a fetch faults, and what that leaves (R349, R350, R351) -/

/-- The address of a page fault of a build is less than the address space away from its entry: past the last word the
words repeat, and those before were mapped. -/
theorem unmapped_word_in_reach {n : Nat} (hun : byteAt s (a + BitVec.ofNat 32 (4 * n)) = none)
    (hbefore : ∀ j < n, ∃ w, wordAt s (a + BitVec.ofNat 32 (4 * j)) = some w ∧
      (decode s.params.mFull w).isBranch = false) : n < wordsOfAddressSpace := by
  by_contra hfar
  obtain ⟨k, hk, heq⟩ := word_repeats (Nat.le_of_not_lt hfar)
  obtain ⟨w, hw, -⟩ := hbefore k hk
  rw [heq, wordAt_eq_memWord, byteAt_of_memWord.mp hun] at hw
  contradiction

/-- A fetch that faults ends the run in the state it began with, but for what the build did to the Memory component
(R351). -/
theorem fetch_fault_left {f : Fault} (h : fetch s = .fault f) :
    ∃ m, f.left = abortRun f.kind (s.withMem m) ∧ Mem.SameContents s.mem m := by
  obtain ⟨-, -, -, -, ⟨a, m, hb, rfl⟩ | ⟨a, m, hb, rfl⟩⟩ := fetch_fault h
  · exact ⟨m, rfl, buildFrom_same.2.1 a m hb⟩
  · exact ⟨m, rfl, buildFrom_same.2.2 a m hb⟩

/-- A fetch faults at a misaligned entry, having fetched nothing, or at the first unmapped word, having fetched the words
before it (R349, R350). -/
theorem fetch_fault_cause {f : Fault} (hinv : s.mem.Inv s.params.tlbBits) (h : fetch s = .fault f) :
    (s.pc.toNat % 4 ≠ 0 ∧ f.kind = .misalignedAccess ∧ f.addr = some s.pc ∧ f.left.mem = s.mem) ∨
    (s.pc.toNat % 4 = 0 ∧ f.kind = .pageFault ∧ ∃ n, f.addr = some (s.pc + BitVec.ofNat 32 (4 * n)) ∧
      byteAt s (s.pc + BitVec.ofNat 32 (4 * n)) = none ∧ f.left.mem.numLoads = s.mem.numLoads + n ∧
      ∀ j < n, ∃ w, wordAt s (s.pc + BitVec.ofNat 32 (4 * j)) = some w ∧
        (decode s.params.mFull w).isBranch = false) := by
  have haligned : aligned .word s.pc = true ↔ s.pc.toNat % 4 = 0 := aligned_iff .word s.pc
  obtain ⟨-, -, -, -, ⟨a, m, hb, rfl⟩ | ⟨a, m, hb, rfl⟩⟩ := fetch_fault h
  · obtain ⟨rfl, rfl, hmis⟩ := buildFrom_misaligned hinv hb
    exact .inl ⟨fun h0 => by simp [haligned.mpr h0] at hmis, rfl, rfl, rfl⟩
  · obtain ⟨ha, n, rfl, hun, hloads, hbefore⟩ := buildFrom_unmapped hinv hb
    exact .inr ⟨haligned.mp ha, rfl, n, rfl, byteAt_of_memWord.mpr hun, hloads, hbefore⟩

/-- Settles O47: the build meets the misaligned entry or the unmapped word, and a fetch faults in no other way. -/
theorem buildFaults : Obligations.BuildFaults := by
  unfold Obligations.BuildFaults
  intro s hinv hrun hp hc hn
  have hfetch : fetch s = enterBlock s := fetch_boundary hrun hp hc
  refine ⟨fun hmis => ?misaligned, fun ha n hun hbefore => ?unmapped, fun f hf => ?leaves⟩
  case misaligned =>
    have hb : build s s.pc = .misaligned s.pc s.mem :=
      buildFrom_meets_misaligned (by decide) (aligned_eq_false (wd := .word) hmis)
    exact ⟨_, hfetch.trans (enterBlock_misaligned hn hb), rfl, rfl⟩
  case unmapped =>
    obtain ⟨m, hb⟩ := buildFrom_meets_unmapped hinv ((aligned_iff .word s.pc).mpr ha)
      (unmapped_word_in_reach hun hbefore) hbefore (byteAt_of_memWord.mp hun)
    exact ⟨_, hfetch.trans (enterBlock_unmapped hn hb), rfl, rfl⟩
  case leaves =>
    have hstep : step s = .fault f := by simp only [step, hf]
    have hcause := fetch_fault_cause hinv hf
    obtain ⟨m, hleft, hsame⟩ := fetch_fault_left hf
    rw [hleft] at hcause ⊢
    exact ⟨hstep, rfl, fun _ => rfl, rfl, rfl, rfl, rfl, hc, byteAt_of_sameContents hsame, rfl, rfl, hsame.numStores,
      hcause⟩

/-! ### How a run halts (R353) -/

/-- Settles O49: from a running state ECALL alone sets `complete`, and as it ends its block the iteration ends with it. -/
theorem haltsExactlyByEcall : Obligations.HaltsExactlyByEcall := by
  unfold Obligations.HaltsExactlyByEcall
  intro s t hs hstep
  obtain ⟨i, u, w, hf, -, -, hexec, hw, rfl⟩ := step_cases hstep
  obtain ⟨-, -, -, hcsrs, hpc, -, hicount, hflag, hcomplete, hstatus, -, -, hends, -⟩ := fetch_inv hs hf
  have hhalted : (endIteration (retired i.opType w)).status = .halted ↔ u.pending = [] ∧ i = .ecall := by
    rw [endIteration_halted_iff (by simp [hw.status, hstatus]), retired_pending, hw.pending, retired_complete,
      hw.complete_iff hcomplete]
  have hlast : i = .ecall → u.pending = [] := fun hecall => (isBranch_iff_last hends).mp (hecall ▸ rfl)
  refine ⟨hhalted.trans ⟨fun ⟨_, hecall⟩ => ⟨u, hecall ▸ hf⟩, fun ⟨u', hf'⟩ => ?_⟩, fun ht => ?_⟩
  · obtain ⟨hecall, -⟩ := Fetched.ready.inj (hf.symm.trans hf')
    have hecall : i = .ecall := Decoded.instr.inj hecall
    exact ⟨hlast hecall, hecall⟩
  · obtain ⟨hpending, rfl⟩ := hhalted.mp ht
    obtain ⟨v, hexec', hcompleted, -, -, hadvances, hretired⟩ := exec_ecall_spec (s := u) hflag
    obtain rfl := Host.Outcome.next.inj (hexec.symm.trans hexec')
    simp only [endIteration_complete, endIteration_flag, endIteration_pending, endIteration_pc, endIteration_icount,
      endIteration_csrs, ← hpc, ← hicount, ← hcsrs]
    exact ⟨hcompleted, hretired.flag, hretired.pending.trans hpending, hadvances.pc, hretired.icount, hretired.instret,
      hretired.cycle, step_halted ht⟩

end Sys2Proof.Machine
end

section
/-! The word that `withFetchWord` places is the one the next step executes (spec/48_hart_loop.md rules R347, R349; log
entry 5). -/

namespace Sys2Proof.Machine

variable {s t : State} {a b w : Word} {m : Mem} {tb : Nat} {p : Params}

/-! ### Accesses of words -/

/-- An address is in the word at its word address. -/
theorem inAccess_word (b : Word) : inAccess (b &&& 0xFFFFFFFC#32) b 4 := by
  refine ⟨b.toNat % 4, Nat.mod_lt _ (by decide), BitVec.eq_of_toNat_eq ?_⟩
  rw [BitVec.toNat_add, and_mask_toNat, BitVec.toNat_ofNat]
  omega

/-- Two aligned words share no byte. -/
theorem not_inAccess_of_ne (ha : aligned .word a = true) (hb : aligned .word b = true) (hne : b ≠ a) {i : Nat}
    (hi : i < 4) : ¬ inAccess a (b + BitVec.ofNat 32 i) 4 := by
  rintro ⟨j, hj, heq⟩
  have hsum := congrArg BitVec.toNat heq
  rw [(aligned_add .word b hb i hi).1, (aligned_add .word a ha j hj).1] at hsum
  rw [aligned_iff, Width.bytes] at ha hb
  exact hne (BitVec.eq_of_toNat_eq (by omega))

/-- The two words of an access of eight bytes. -/
theorem not_inAccess_words (h : ¬ inAccess a b 8) : ¬ inAccess a b 4 ∧ ¬ inAccess (a + 4#32) b 4 := by
  refine ⟨fun ⟨i, hi, heq⟩ => h ⟨i, by omega, heq⟩, fun ⟨i, hi, heq⟩ => h ⟨4 + i, by omega, ?_⟩⟩
  rw [heq, BitVec.ofNat_add, BitVec.add_assoc]

/-- The word at an aligned address is decided by its four bytes (R96, R105). -/
theorem wordAt_of_bytes (hb : aligned .word b = true)
    (h : ∀ i < 4, byteAt t (b + BitVec.ofNat 32 i) = byteAt s (b + BitVec.ofNat 32 i)) : wordAt t b = wordAt s b := by
  have hfirst : byteAt t b = byteAt s b := by simpa using h 0 (by decide)
  have hvalue : littleEndian t b 4 = littleEndian s b 4 := by
    simp only [littleEndian, h 0 (by decide), h 1 (by decide), h 2 (by decide), h 3 (by decide)]
  rcases hs : walk s.mem.level1 b with _ | q
  · have ht : walk t.mem.level1 b = none := byteAt_none_iff.mp (hfirst.trans (byteAt_none_iff.mpr hs))
    simp only [wordAt, hs, ht]
  · rcases ht : walk t.mem.level1 b with _ | q'
    · rw [byteAt_none_iff.mpr ht, byteAt_mapped hs] at hfirst
      contradiction
    · have hs4 := readLE_eq_littleEndian hb hs
      have ht4 := readLE_eq_littleEndian hb ht
      rw [Width.bytes] at hs4 ht4
      simp only [wordAt, hs, ht, hs4, ht4, hvalue]

/-! ### After one store of the preload -/

theorem memWord_pokeWord_self (hinv : m.Inv tb) (ha : aligned .word a = true) (v : Word) :
    memWord (m.pokeWord a v) a = some v := by
  obtain ⟨-, hbytes, hlevel, -⟩ := Mem.pokeWord_spec hinv ha v
  have hwalk : walk (m.pokeWord a v).level1 a = some ((walk m.level1 a).getD m.pageCount) := by
    rw [hlevel, walk_tableAfterStore, if_pos rfl]
  simp only [memWord, hwalk, hbytes, readLE_writeLE]
  rw [Nat.mod_eq_of_lt v.isLt, BitVec.ofNat_toNat, BitVec.setWidth_eq]

/-- A store changes no mapped byte outside its word (R101). -/
theorem byteAt_pokeWord_outside (hinv : s.mem.Inv tb) (ha : aligned .word a = true) (v : Word)
    (hout : ¬ inAccess a b 4) (hmap : byteAt s b ≠ none) :
    byteAt (s.withMem (s.mem.pokeWord a v)) b = byteAt s b := by
  have hword : a ≠ b &&& 0xFFFFFFFC#32 := by
    rintro rfl
    exact hout (inAccess_word b)
  obtain ⟨c, hc⟩ := Option.ne_none_iff_exists'.mp hmap
  rw [byteAt_poke s.mem tb hinv a v ha s _ rfl rfl b, if_neg hword, hc, Option.getD_some, ite_self]

/-- A store leaves every other aligned word of a mapped page as it was. -/
theorem wordAt_pokeWord_other (hinv : s.mem.Inv tb) (ha : aligned .word a = true) (hb : aligned .word b = true)
    (hne : b ≠ a) (v : Word) (hmap : byteAt s b ≠ none) :
    wordAt (s.withMem (s.mem.pokeWord a v)) b = wordAt s b := by
  refine wordAt_of_bytes hb fun i hi => byteAt_pokeWord_outside hinv ha v (not_inAccess_of_ne ha hb hne hi) ?_
  obtain ⟨-, hv, -⟩ := aligned_add .word b hb i hi
  rwa [Ne, byteAt_none_congr hv]

/-! ### After the words are placed -/

theorem Mem.Inv.placeWords (hinv : m.Inv tb) (ha : aligned .word a = true) : (placeWords p m a w).Inv tb := by
  have hfirst := (Mem.pokeWord_spec hinv ha w).1
  unfold Machine.placeWords
  split
  · exact hfirst
  · exact (Mem.pokeWord_spec hfirst (aligned_word_next ha) terminatorWord).1

/-- The placed word stands at its address: the terminator is stored at another. -/
theorem wordAt_placeWords (hinv : s.mem.Inv tb) (ha : aligned .word a = true) :
    wordAt (s.withMem (placeWords p s.mem a w)) a = some w := by
  have hfirst : wordAt (s.withMem (s.mem.pokeWord a w)) a = some w := memWord_pokeWord_self hinv ha w
  unfold placeWords
  split
  · exact hfirst
  · have hne : a ≠ a + 4#32 := by simp
    have hmap : byteAt (s.withMem (s.mem.pokeWord a w)) a ≠ none := by
      rw [Ne, byteAt_of_memWord, ← wordAt_eq_memWord, hfirst]
      exact Option.some_ne_none w
    exact (wordAt_pokeWord_other (Mem.pokeWord_spec hinv ha w).1 (aligned_word_next ha) ha hne terminatorWord hmap).trans
      hfirst

theorem wordAt_placeWords_next (hinv : s.mem.Inv tb) (ha : aligned .word a = true)
    (hb : (decode p.mFull w).isBranch = false) :
    wordAt (s.withMem (placeWords p s.mem a w)) (a + 4#32) = some terminatorWord := by
  simp only [placeWords, hb, Bool.false_eq_true, if_false]
  exact memWord_pokeWord_self (Mem.pokeWord_spec hinv ha w).1 (aligned_word_next ha) terminatorWord

/-- The placing changes no mapped byte outside the words it stores. -/
theorem byteAt_placeWords_outside (hinv : s.mem.Inv tb) (ha : aligned .word a = true)
    (hout : ¬ inAccess a b (if (decode p.mFull w).isBranch then 4 else 8)) (hmap : byteAt s b ≠ none) :
    byteAt (s.withMem (placeWords p s.mem a w)) b = byteAt s b := by
  unfold placeWords
  split_ifs at hout ⊢ with hb
  · exact byteAt_pokeWord_outside hinv ha w hout hmap
  · obtain ⟨hout1, hout2⟩ := not_inAccess_words hout
    have hfirst := byteAt_pokeWord_outside hinv ha w hout1 hmap
    exact (byteAt_pokeWord_outside (s := s.withMem (s.mem.pokeWord a w)) (Mem.pokeWord_spec hinv ha w).1
      (aligned_word_next ha) terminatorWord hout2 (hfirst ▸ hmap)).trans hfirst

/-! ### The step after the placing -/

/-- pc rounded down to a word (log entry 5). -/
theorem placeAtPc_pc (s : State) (w : Word) : (placeAtPc s w).pc = s.pc &&& 0xFFFFFFFC#32 := by
  refine BitVec.eq_of_toNat_eq ?_
  rw [and_mask_toNat]
  exact Nat.mod_eq_of_lt (by have := s.pc.isLt; omega)

theorem placeAtPc_aligned (s : State) (w : Word) : aligned .word (placeAtPc s w).pc = true := by
  rw [aligned_iff, placeAtPc_pc, and_mask_toNat, Width.bytes]
  omega

theorem placeAtPc_mem (s : State) (w : Word) :
    (placeAtPc s w).mem = placeWords s.params s.mem (placeAtPc s w).pc w := rfl

/-- No block is cached at the pc of the placed word. -/
theorem placeAtPc_uncached (s : State) (w : Word) :
    lookupKey (placeAtPc s w).pc.toNat (placeAtPc s w).blocks = none := by
  have hkey : (placeAtPc s w).pc.toNat = 4 * (s.pc.toNat / 4) := by rw [placeAtPc_pc, and_mask_toNat]
  rw [hkey]
  exact (lookupKey_eraseKey _ _ _).trans (if_pos rfl)

/-- The build of the placed block succeeds: the word ends it, or the terminator after the word does. -/
theorem build_placed (hinv : s.mem.Inv s.params.tlbBits) (w : Word) :
    ∃ b m, build (placeAtPc s w) (placeAtPc s w).pc = .block b m := by
  have ha := placeAtPc_aligned s w
  have hword : memWord (placeAtPc s w).mem (placeAtPc s w).pc = some w := wordAt_placeWords hinv ha
  have hplaced : (placeAtPc s w).mem.Inv s.params.tlbBits := hinv.placeWords ha
  cases hb : (decode s.params.mFull w).isBranch with
  | true =>
    obtain ⟨b, m, hbuild, -⟩ := buildFrom_succeeds (k := 0) (n := wordsOfAddressSpace) hplaced ha (by decide)
      (fun j hj => absurd hj (Nat.not_lt_zero j)) ⟨w, by simpa using hword, hb⟩
    exact ⟨b, m, hbuild⟩
  | false =>
    have hnext : memWord (placeAtPc s w).mem ((placeAtPc s w).pc + 4#32) = some terminatorWord :=
      wordAt_placeWords_next hinv ha hb
    have hends : (decode s.params.mFull terminatorWord).isBranch = true := by
      rw [row_ecall s.params.mFull terminatorWord rfl]
      rfl
    obtain ⟨b, m, hbuild, -⟩ := buildFrom_succeeds (k := 1) (n := wordsOfAddressSpace) hplaced ha (by decide)
      (fun j hj => ⟨w, by simpa [Nat.lt_one_iff.mp hj] using hword, hb⟩) ⟨terminatorWord, hnext, hends⟩
    exact ⟨b, m, hbuild⟩

/-- Settles O14: no block is cached at the placed word, so the step builds the block that the word begins. -/
theorem placedWordRuns : Obligations.PlacedWordRuns := by
  unfold Obligations.PlacedWordRuns
  intro s w i hs hdec
  have ha := placeAtPc_aligned s w
  have hplaced : (placeAtPc s w).mem.Inv s.params.tlbBits := hs.memory.placeWords ha
  have hword : wordAt (placeAtPc s w) (placeAtPc s w).pc = some w := wordAt_placeWords hs.memory ha
  obtain ⟨b, m, hbuild⟩ := build_placed hs.memory w
  obtain ⟨-, -, hruns, -⟩ := stepRunsDecoded (placeAtPc s w) rfl
  obtain ⟨w', rest, hw', -, hstep⟩ := hruns rfl rfl (placeAtPc_uncached s w) hplaced b m hbuild
  obtain rfl := Option.some.inj (hword.symm.trans hw')
  have hsame : Mem.SameContents (placeAtPc s w).mem m := (buildFrom_same.1 b m hbuild).1
  have hfetch : s.withFetchWord 32 w.toNat = placeAtPc s w := by
    rw [State.withFetchWord, Nat.mod_eq_of_lt w.isLt, BitVec.ofNat_toNat, BitVec.setWidth_eq]
  rw [hfetch, hstep, show decode (placeAtPc s w).params.mFull w = .instr i from hdec]
  refine ⟨_, rfl, placeAtPc_pc s w, rfl, rfl, rfl, rfl, rfl, rfl, (wordAt_of_sameContents hsame _).trans hword,
    (buildFrom_block hplaced hbuild).1, fun a hout hmap => ?_⟩
  have hbranch : (decode s.params.mFull w).isBranch = i.opType.isBranch := congrArg Decoded.isBranch hdec
  rw [← hbranch] at hout
  exact (byteAt_of_sameContents hsame a).trans (byteAt_placeWords_outside hs.memory ha hout hmap)

end Sys2Proof.Machine
end
